-- ==== Sys2Proof/Word.lean ====
section
/-!
DEFINITION. The word types of the block (00_scope.md R6): unsigned integers of 8, 16, 32 and 64 bits, the
48-bit command and reply words (30_encoding.md R101, R103) and the 8-bit trace tag (R104).
-/

namespace Sys2Proof

/-- One byte of a buffer, a FIFO or a serial line. -/
abbrev Byte := BitVec 8

/-- A format C command word (R101). -/
abbrev CmdWord := BitVec 48

/-- A format Y reply word (R103). -/
abbrev ReplyWord := BitVec 48

/-- A format U trace tag (R104). -/
abbrev Tag := BitVec 8

end Sys2Proof
end

