-- ==== Sys2Proof/Syntax.lean ====
section
/-!
DEFINITION. The 23 operations of 30_encoding.md R100, one constructor per row of spec/opcode_table.json.
-/

namespace Sys2Proof

/-- A dispatch channel: the primary or the auxiliary clock output (00_scope.md, glossary). The UARTs `U_PRI`,
`U_AUX` and the pins `PIN_PRI`, `PIN_AUX` are named by it too (10_state.md R46). -/
inductive Ch where
  | pri
  | aux
  deriving DecidableEq, Repr, Inhabited

/-- One of the two slots of a ping-pong buffer pair (R47). -/
inductive Slot where
  | zero
  | one
  deriving DecidableEq, Repr, Inhabited

/-- An operation. A read and a poll carry the bits that their encoding ignores (R101, R102), because the history
records the command word itself (R104, assumption 21). -/
inductive Instr where
  /-- `RD.CONNECTED`, R213 -/
  | rdConnected (ignored : BitVec 32)
  /-- `RD.COUNTER`, R214 -/
  | rdCounter (ignored : BitVec 32)
  /-- `RD.FREQ`, R215 -/
  | rdFreq (ignored : BitVec 32)
  /-- `RD.AUXFN`, R216 -/
  | rdAuxfn (ignored : BitVec 32)
  /-- `RD.AUXBAUD`, R222 -/
  | rdAuxbaud (ignored : BitVec 32)
  /-- `WR.CONNECTED p`, R217 -/
  | wrConnected (p : BitVec 32)
  /-- `WR.COUNTER p`, R218 -/
  | wrCounter (p : BitVec 32)
  /-- `WR.FREQ p`, R219 -/
  | wrFreq (p : BitVec 32)
  /-- `WR.AUXFN p`, R220 -/
  | wrAuxfn (p : BitVec 32)
  /-- `WR.AUXBAUD p`, R221 -/
  | wrAuxbaud (p : BitVec 32)
  /-- `POLL`, R240 -/
  | poll (reg : BitVec 8) (ignored : BitVec 32)
  /-- `BOOT`, R291 -/
  | boot
  /-- `TX.START ch`, R130 -/
  | txStart (ch : Ch)
  /-- `DMA.BEAT ch`, R131 -/
  | dmaBeat (ch : Ch)
  /-- `UART.SHIFT ch`, R132 -/
  | uartShift (ch : Ch)
  /-- `CH.SETUP ch`, R154 -/
  | chSetup (ch : Ch)
  /-- `CH.FIRE ch`, R155 -/
  | chFire (ch : Ch)
  /-- `CH.TEARDOWN ch`, R156 -/
  | chTeardown (ch : Ch)
  /-- `AUX.SWITCH fn`, R181; `fn` is 0, 1 or 2 -/
  | auxSwitch (fn : BitVec 2)
  /-- `AUX.REBAUD`, R182 -/
  | auxRebaud
  /-- `PPS.SETUP`, R185 -/
  | ppsSetup
  /-- `PPS.FIRE`, R186 -/
  | ppsFire
  /-- `PPS.TEARDOWN`, R187 -/
  | ppsTeardown
  deriving DecidableEq, Repr, Inhabited

end Sys2Proof
end

