-- ==== Sys2Proof/Config.lean ====
section
/-!
DEFINITION. What is fixed before reset or left open: the parameters of 00_scope.md R4 as plain data with R4's
constraints, the schedule entries, and the free values (opaque constants without a body: nothing can be proved
of their values, so a claim about them holds for every value).
-/

namespace Sys2Proof

/-- The two message forms: 6 bytes with the tag, or a bare 4-byte seconds value (30_encoding.md R105, R106). -/
inductive MsgForm where
  | bare
  | tagged
  deriving DecidableEq, Repr, Inhabited

/-- The parameters of 00_scope.md R4, constant for a whole run. The two function-valued parameters are held as
finite tables, which represent every function on their finite domains (assumption 22). -/
structure Params where
  /-- `MAX_COUNTER_FREQ_HZ` -/
  maxCounterFreqHz : BitVec 16
  /-- `MIN_AUX_BAUD` -/
  minAuxBaud : BitVec 32
  /-- `MAX_AUX_BAUD` -/
  maxAuxBaud : BitVec 32
  /-- `AUX_BAUD_RESET` -/
  auxBaudReset : BitVec 32
  /-- `PRIMARY_BAUD` -/
  primaryBaud : BitVec 32
  /-- `OFFSET_US_PRIMARY` -/
  offsetUsPrimary : Int
  /-- `OFFSET_US_AUX(baud)`, the listed rates -/
  offsetUsAux : List (BitVec 32 × Int)
  /-- `OFFSET_US_AUX(baud)` for every rate not listed (the form of the table is a DESIGN CHOICE, assumption 22) -/
  offsetUsAuxElse : Int
  /-- `AUX_MSG_LEN`: 4 or 6 -/
  auxMsg : MsgForm
  /-- `N_ALARMS` -/
  nAlarms : Nat
  /-- `N_DMA` -/
  nDma : Nat
  /-- `ALARM_FREE0` -/
  alarmFree0 : List Nat
  /-- `DMA_FREE0` -/
  dmaFree0 : List Nat
  /-- `IRQ_OF`: entry `a` is the interrupt line of alarm slot `a` -/
  irqOf : List Nat
  /-- `N_INPUTS` -/
  nInputs : Nat
  /-- `REMAP`: entry `v` is the remapped value of input value `v` (0 where the list ends, and with no inputs) -/
  remap : List (BitVec 16)
  /-- `PRIMARY_UART_SHARED` -/
  primaryUartShared : Bool
  /-- `UART_FIFO_DEPTH` -/
  uartFifoDepth : Nat
  deriving DecidableEq, Repr, Inhabited

/-- `AUX_MSG_LEN` and the primary length as numbers of bytes (R5, R46). -/
def MsgForm.len : MsgForm → Nat
  | .bare => 4
  | .tagged => 6

/-- A rate that the block admits: `MIN_AUX_BAUD` to `MAX_AUX_BAUD`, both included (R4, 43_register_handlers.md R221). -/
def Params.admits (p : Params) (baud : BitVec 32) : Bool :=
  decide (p.minAuxBaud.toNat ≤ baud.toNat) && decide (baud.toNat ≤ p.maxAuxBaud.toNat)

/-- An offset parameter's constraint: magnitude below one second (R4). -/
def Params.offsetOk (off : Int) : Bool :=
  decide (-1000000 < off) && decide (off < 1000000)

/-- The constraints of R4. `OFFSET_US_AUX` is bounded at admitted rates only, as R4 has it: a listed rate that is not
admitted may have any offset. That the value for all unlisted rates together is bounded is a DESIGN CHOICE of the table's
form, which shuts out no function (assumption 22). -/
def Params.valid (p : Params) : Bool :=
  decide (1 ≤ p.maxCounterFreqHz.toNat)
    && decide (10 * p.auxMsg.len ≤ p.minAuxBaud.toNat)
    && decide (p.minAuxBaud.toNat ≤ p.maxAuxBaud.toNat)
    && decide (p.minAuxBaud.toNat ≤ p.auxBaudReset.toNat)
    && decide (p.auxBaudReset.toNat ≤ p.maxAuxBaud.toNat)
    && decide (0 < p.primaryBaud.toNat)
    && decide (10 * 6 * 1000000 / p.primaryBaud.toNat < 1000000)
    && Params.offsetOk p.offsetUsPrimary
    && p.offsetUsAux.all (fun e => !p.admits e.1 || Params.offsetOk e.2)
    && Params.offsetOk p.offsetUsAuxElse
    && decide (1 ≤ p.nAlarms)
    && decide (1 ≤ p.nDma)
    && p.alarmFree0.all (fun a => decide (a < p.nAlarms))
    && p.dmaFree0.all (fun d => decide (d < p.nDma))
    && decide (p.irqOf.length = p.nAlarms)
    && decide p.irqOf.Nodup
    && decide (p.nInputs ≤ 16)
    && decide (1 ≤ p.uartFifoDepth)

/-- A choice of parameters that meets R4. It serves only to show that the constraints can be met; no definition
of the model reads it. -/
def Params.witness : Params where
  maxCounterFreqHz := 1
  minAuxBaud := 60
  maxAuxBaud := 60
  auxBaudReset := 60
  primaryBaud := 61
  offsetUsPrimary := 0
  offsetUsAux := []
  offsetUsAuxElse := 0
  auxMsg := .tagged
  nAlarms := 1
  nDma := 1
  alarmFree0 := []
  dmaFree0 := []
  irqOf := [0]
  nInputs := 0
  remap := []
  primaryUartShared := false
  uartFifoDepth := 1

/-- Parameters together with the fact that they meet R4. The defaults give the type a member, as an opaque
constant of it needs. -/
structure CheckedParams where
  raw : Params := Params.witness
  ok : raw.valid = true := by decide
  deriving Inhabited

/-- The values a reset draws (10_state.md R54, 70_reset_and_hazards.md R290). -/
structure ResetDraws where
  /-- `OFFS`: any u64 -/
  offs : BitVec 64
  /-- `HAS_SYNCED`: either -/
  hasSynced : Bool
  /-- `UART_INIT[U_PRI]` where the primary UART is shared: either -/
  uartPriInit : Bool
  /-- `QUIET`: environment -/
  quiet : Bool
  /-- `DIN`: environment, cut to `N_INPUTS` bits where it is used -/
  din : BitVec 16
  deriving DecidableEq, Repr, Inhabited

/-- A schedule entry: which agent takes the next step (R20, R21), with what the environment supplies. -/
inductive Action where
  /-- `MAIN` takes its next micro-op, or `BOOT` if that has not been taken. -/
  | main
  /-- The environment supplies a command word and `MAIN` takes it (R33, R101). -/
  | command (w : CmdWord)
  /-- `IRQ` serves line `q` (R22). -/
  | irq (q : Nat)
  /-- `DMA[ch]` takes a step (R131). -/
  | dma (ch : Ch)
  /-- `UARTTX[UART[ch]]` takes a step (R132). -/
  | uart (ch : Ch)
  /-- One microsecond of local time (R270). -/
  | tick
  /-- The synchroniser sets the sync offset (R271). -/
  | sync (offs : BitVec 64)
  /-- The digital inputs change (R272). -/
  | din (v : BitVec 16)
  /-- The quiet-mode input changes (R272). -/
  | quiet (b : Bool)
  /-- A reset is applied (R290). -/
  | reset (d : ResetDraws)
  deriving DecidableEq, Repr, Inhabited

/-- FREE VALUE: the parameters of R4, any that meet its constraints (assumption 1). -/
opaque Config.checked : CheckedParams

/-- FREE VALUE: what the first reset draws (assumption 10). -/
opaque Config.resetDraws : ResetDraws

/-- FREE VALUE: the schedule where `State.agenda` lists nothing (assumption 2). -/
opaque Config.schedule : Nat → Action

/-- FREE VALUE: the id a claim asks for where `State.draws` lists nothing (assumption 14). -/
opaque Config.draw : Nat → Nat

/-- The parameters the block is built with. -/
def Config.params : Params := Config.checked.raw

end Sys2Proof
end

