-- ==== Sys2Proof/WellFormed.lean ====
section
/-!
DEFINITION. Which terms of `Instr` are operations. Every operand type admits exactly the legal values, but for the
function field of `AUX.SWITCH`: `ff = 11` is reserved (30_encoding.md R104, R111).
-/

namespace Sys2Proof

/-- The operation is one of R100: the function of `AUX.SWITCH` is 0, 1 or 2. -/
def Instr.wf : Instr → Bool
  | .auxSwitch fn => fn != 3
  | .rdConnected _ | .rdCounter _ | .rdFreq _ | .rdAuxfn _ | .rdAuxbaud _ => true
  | .wrConnected _ | .wrCounter _ | .wrFreq _ | .wrAuxfn _ | .wrAuxbaud _ => true
  | .poll _ _ | .boot => true
  | .txStart _ | .dmaBeat _ | .uartShift _ => true
  | .chSetup _ | .chFire _ | .chTeardown _ => true
  | .auxRebaud | .ppsSetup | .ppsFire | .ppsTeardown => true

end Sys2Proof
end

