-- ==== Sys2Proof/Decode.lean ====
section
/-!
DEFINITION. The decoder and the encoder of formats C and U (30_encoding.md R101, R102, R104, R110, R111, R116), and
the textual syntax of main-thread lines (R114, R115).
-/

namespace Sys2Proof

/-- An encoded operation, as the history records it (R52, R104): a command word or a trace tag. -/
inductive OpWord where
  | cmd (w : CmdWord)
  | tag (t : Tag)
  deriving DecidableEq, Repr

/-- What a command word decodes to (R102, R110). -/
inductive Decoded where
  /-- An operation of R100. -/
  | instr (i : Instr)
  /-- R110 (a): a read of a register the block does not have, cause `RE_BAD_REG`. -/
  | badRead (reg : BitVec 8)
  /-- R110 (a): a write of a register the block does not have, cause `WE_BAD_REG`. -/
  | badWrite (reg : BitVec 8)
  /-- R110 (b): `op` outside 1, 2, 3; the word is ignored. -/
  | reserved (op : BitVec 8)
  deriving DecidableEq, Repr

/-! ## Fields of format C (R101) -/

def CmdWord.op (w : CmdWord) : BitVec 8 := w.extractLsb' 40 8

def CmdWord.reg (w : CmdWord) : BitVec 8 := w.extractLsb' 32 8

def CmdWord.payload (w : CmdWord) : BitVec 32 := w.extractLsb' 0 32

/-- `op ++ reg ++ payload` (R101). -/
def CmdWord.make (op reg : BitVec 8) (payload : BitVec 32) : CmdWord := (op ++ reg) ++ payload

/-! ## Decoding -/

/-- The reads by register offset (R102). -/
def decodeRead (reg : BitVec 8) (payload : BitVec 32) : Decoded :=
  match reg.toNat with
  | 0 => .instr (.rdConnected payload)
  | 1 => .instr (.rdCounter payload)
  | 2 => .instr (.rdFreq payload)
  | 3 => .instr (.rdAuxfn payload)
  | 4 => .instr (.rdAuxbaud payload)
  | _ => .badRead reg

/-- The writes by register offset, with operand `p = payload` (R102, R108). -/
def decodeWrite (reg : BitVec 8) (payload : BitVec 32) : Decoded :=
  match reg.toNat with
  | 0 => .instr (.wrConnected payload)
  | 1 => .instr (.wrCounter payload)
  | 2 => .instr (.wrFreq payload)
  | 3 => .instr (.wrAuxfn payload)
  | 4 => .instr (.wrAuxbaud payload)
  | _ => .badWrite reg

/-- The decoder of format C, total on 48-bit words (R102, R110). -/
def decodeCommand (w : CmdWord) : Decoded :=
  match (CmdWord.op w).toNat with
  | 1 => decodeRead (CmdWord.reg w) (CmdWord.payload w)
  | 2 => decodeWrite (CmdWord.reg w) (CmdWord.payload w)
  | 3 => .instr (.poll (CmdWord.reg w) (CmdWord.payload w))
  | _ => .reserved (CmdWord.op w)

/-- `h(PRI) = 0`, `h(AUX) = 1` (R104). -/
def Ch.bit : Ch → BitVec 1
  | .pri => 0
  | .aux => 1

/-- The channel of bit `h` (R104). -/
def Ch.ofBit (h : BitVec 1) : Ch := if h = 0 then .pri else .aux

/-- The six tag patterns with a channel bit: the upper seven bits select the operation (R104). -/
def decodeChannelTag (high : BitVec 7) (ch : Ch) : Option Instr :=
  match high.toNat with
  | 0b0001000 => some (.chSetup ch)
  | 0b0001001 => some (.chFire ch)
  | 0b0001010 => some (.chTeardown ch)
  | 0b0001011 => some (.txStart ch)
  | 0b0001100 => some (.dmaBeat ch)
  | 0b0001101 => some (.uartShift ch)
  | _ => none

/-- The tag patterns without a channel bit (R104); `001100ff` is reserved for `ff = 11` (R111). -/
def decodePlainTag (t : Tag) : Option Instr :=
  match t.toNat with
  | 0b00100000 => some .ppsSetup
  | 0b00100010 => some .ppsFire
  | 0b00100100 => some .ppsTeardown
  | 0b00110000 => some (.auxSwitch 0)
  | 0b00110001 => some (.auxSwitch 1)
  | 0b00110010 => some (.auxSwitch 2)
  | 0b00110100 => some .auxRebaud
  | 0b01000000 => some .boot
  | _ => none

/-- The decoder of format U, total on 8-bit tags; `none` is R111's reserved space. -/
def decodeTag (t : Tag) : Option Instr :=
  match decodeChannelTag (t.extractLsb' 1 7) (Ch.ofBit (t.extractLsb' 0 1)) with
  | some i => some i
  | none => decodePlainTag t

/-- The operation a command word or a tag stands for. -/
def decodeOpWord : OpWord → Option Instr
  | .cmd w =>
    match decodeCommand w with
    | .instr i => some i
    | _ => none
  | .tag t => decodeTag t

/-! ## Encoding -/

/-- A channel operation's tag: seven fixed bits, then `h` (R104). -/
def channelTag (high : BitVec 7) (ch : Ch) : OpWord := .tag (high ++ ch.bit)

/-- The encoder, from the table of R116. -/
def encode : Instr → OpWord
  | .rdConnected x => .cmd (CmdWord.make 1 0 x)
  | .rdCounter x => .cmd (CmdWord.make 1 1 x)
  | .rdFreq x => .cmd (CmdWord.make 1 2 x)
  | .rdAuxfn x => .cmd (CmdWord.make 1 3 x)
  | .rdAuxbaud x => .cmd (CmdWord.make 1 4 x)
  | .wrConnected p => .cmd (CmdWord.make 2 0 p)
  | .wrCounter p => .cmd (CmdWord.make 2 1 p)
  | .wrFreq p => .cmd (CmdWord.make 2 2 p)
  | .wrAuxfn p => .cmd (CmdWord.make 2 3 p)
  | .wrAuxbaud p => .cmd (CmdWord.make 2 4 p)
  | .poll reg x => .cmd (CmdWord.make 3 reg x)
  | .boot => .tag 0b01000000
  | .chSetup ch => channelTag 0b0001000 ch
  | .chFire ch => channelTag 0b0001001 ch
  | .chTeardown ch => channelTag 0b0001010 ch
  | .txStart ch => channelTag 0b0001011 ch
  | .dmaBeat ch => channelTag 0b0001100 ch
  | .uartShift ch => channelTag 0b0001101 ch
  | .ppsSetup => .tag 0b00100000
  | .ppsFire => .tag 0b00100010
  | .ppsTeardown => .tag 0b00100100
  | .auxSwitch fn => .tag ((0b001100 : BitVec 6) ++ fn)
  | .auxRebaud => .tag 0b00110100

/-- The host's entry: the operation whose `nbits`-bit word is `w`. Format C words are 48 bits, format U tags 8
(R113); no operation has another length. -/
def decodeTableWord (nbits w : Nat) : Option Instr :=
  if nbits = 48 then decodeOpWord (.cmd (BitVec.ofNat 48 w))
  else if nbits = 8 then decodeOpWord (.tag (BitVec.ofNat 8 w))
  else none

/-! ## Textual syntax (R114, R115) -/

/-- The register names of R114, in offset order. -/
inductive RegName where
  | connected
  | counter
  | freq
  | auxfn
  | auxbaud
  deriving DecidableEq, Repr

/-- The offset of a register name (R102, R117). -/
def RegName.offset : RegName → BitVec 8
  | .connected => 0
  | .counter => 1
  | .freq => 2
  | .auxfn => 3
  | .auxbaud => 4

/-- A main-thread line of R114, or a pseudo-instruction of R115. -/
inductive Line where
  | boot
  | rd (r : RegName)
  | wr (r : RegName) (v : BitVec 32)
  | poll
  | raw (w : CmdWord)
  | auxOff
  | auxClk
  | auxPps
  | cntOff
  | cntClr
  | auxBaud (b : BitVec 32)
  deriving DecidableEq, Repr

/-- The pseudo-instructions' expansions (R115). -/
def Line.expand : Line → Line
  | .auxOff => .wr .auxfn 0
  | .auxClk => .wr .auxfn 1
  | .auxPps => .wr .auxfn 2
  | .cntOff => .wr .freq 0
  | .cntClr => .wr .counter 0
  | .auxBaud b => .wr .auxbaud b
  | l => l

/-- The command word of a line; `BOOT` has none (R114). -/
def Line.assemble (l : Line) : Option CmdWord :=
  match l.expand with
  | .rd r => some (CmdWord.make 1 r.offset 0)
  | .wr r v => some (CmdWord.make 2 r.offset v)
  | .poll => some (CmdWord.make 3 0 0)
  | .raw w => some w
  | _ => none

end Sys2Proof
end

