-- ==== Sys2Proof/Machine/State.lean ====
section
/-!
DEFINITION. The state of the block (10_state.md R25 to R54) as plain data, the reasons a step can stop, and the
machine after reset.
-/

namespace Sys2Proof.Machine

/-- A pair indexed by the dispatch channel: a context, a UART, a pin or a line of each (R46). -/
structure Pair (α : Type) where
  pri : α
  aux : α
  deriving DecidableEq, Repr, Inhabited

/-- The five application registers (R25). -/
structure Regs where
  connectedDevices : BitVec 16
  counter : BitVec 32
  counterFreqHz : BitVec 16
  auxPortFn : BitVec 8
  auxBaudRate : BitVec 32
  deriving DecidableEq, Repr, Inhabited

/-- An alarm slot of the local timer: `ARMED`, `TARGET`, `IRQ_LATCH`, `ALARM_CLAIMED` (R39, R40, R42). -/
structure AlarmSlot where
  armed : Bool
  target : BitVec 32
  latch : Bool
  claimed : Bool
  deriving DecidableEq, Repr, Inhabited

/-- What an interrupt line is bound to: `HANDLER[q]` (R41). -/
inductive Handler where
  | none
  | chFire (ch : Ch)
  | ppsFire
  deriving DecidableEq, Repr, Inhabited

/-- An interrupt line: `IRQ_EN`, `HANDLER` (R41). -/
structure IrqLine where
  enabled : Bool
  handler : Handler
  deriving DecidableEq, Repr, Inhabited

/-- A data-mover channel: `DMA_CLAIMED`, `DMA_BUSY`, `DMA_SRC`, `DMA_POS`, `DMA_COUNT` (R42, R43). -/
structure DmaChan where
  claimed : Bool
  busy : Bool
  srcCh : Ch
  srcSlot : Slot
  pos : Nat
  count : Nat
  deriving DecidableEq, Repr, Inhabited

/-- A UART transmitter: `UART_INIT`, `UART_BAUD`, `UART_FIFO`, front first (R44). -/
structure Uart where
  init : Bool
  baud : BitVec 32
  fifo : List Byte
  deriving DecidableEq, Repr, Inhabited

/-- `PIN_FN` (R45). -/
inductive PinFn where
  | none
  | uartTx
  | gpioOut
  deriving DecidableEq, Repr, Inhabited

/-- A pin: `PIN_FN`, `PIN_LEVEL` (R45). -/
structure Pin where
  fn : PinFn
  level : Bool
  deriving DecidableEq, Repr, Inhabited

/-- A channel context `CH[ch]` (R46). -/
structure Channel where
  active : Bool
  dma : Nat
  alarm : Nat
  irq : Nat
  baud : BitVec 32
  offsetUs : Int
  dispatchIdx : Slot
  deriving DecidableEq, Repr, Inhabited

/-- The pulse-per-second context (R48). -/
structure PpsContext where
  active : Bool
  alarm : Nat
  irq : Nat
  deriving DecidableEq, Repr, Inhabited

/-- `AUXSTATE` (R49). -/
inductive AuxState where
  | disabled
  | auxClockBroadcast
  | pulsePerSecond
  deriving DecidableEq, Repr, Inhabited

/-- The fault codes (60_exceptions.md R252). -/
inductive FaultCode where
  /-- `F_NO_DMA`: no data-mover channel is unclaimed. -/
  | noDma
  /-- `F_NO_ALARM`: no alarm slot is unclaimed. -/
  | noAlarm
  /-- `H_DMA_OVERLAP`: the channel's previous transfer has not drained. -/
  | dmaOverlap
  /-- `H_UNHANDLED_IRQ`: a pending line has no handler. -/
  | unhandledIrq
  /-- `H_TX_UNCLAIMED`: the channel context is inactive or its data-mover channel is not claimed. -/
  | txUnclaimed
  deriving DecidableEq, Repr, Inhabited

/-! ## The main thread's position (R32): the labels of each operation's listing -/

/-- The labels of `CH.SETUP` (R154); `s5b` has the local value `D`. -/
inductive SetupAt where
  | s0 | s1a | s1b | s1c | s2a | s2b | s3a | s3b | s3c | s4a | s4b | s5a
  | s5b (deadline : Int)
  deriving DecidableEq, Repr

/-- The labels of `CH.TEARDOWN` (R156). -/
inductive TeardownAt where
  | t0 | t1 | t2 | t3 | t4 | t5 | t6 | t7 | t8
  deriving DecidableEq, Repr

/-- The labels of `AUX.SWITCH` (R181). -/
inductive SwitchAt where
  | a0 | a1 | a2 | a3 | a4
  deriving DecidableEq, Repr

/-- The labels of `AUX.REBAUD` (R182). -/
inductive RebaudAt where
  | b0 | b1 | b2
  deriving DecidableEq, Repr

/-- The labels of `PPS.SETUP` (R185); `p4b` has the local value `D`. -/
inductive PpsSetupAt where
  | p0 | p1a | p1b | p2 | p3a | p3b | p4a
  | p4b (deadline : Int)
  deriving DecidableEq, Repr

/-- The labels of `PPS.TEARDOWN` (R187). -/
inductive PpsTeardownAt where
  | r0 | r1 | r2 | r3 | r4 | r5 | r6 | r7
  deriving DecidableEq, Repr

/-- The labels of `WR.FREQ` after its first micro-op (R219). -/
inductive FreqAt where
  | w2 | w3 | w4 | w5
  deriving DecidableEq, Repr

/-- The labels of `WR.AUXFN` after its first micro-op, with the local value `prev` (R220). -/
inductive AuxfnAt where
  | w2
  | w3 (prev : BitVec 8)
  | w4 (prev : BitVec 8)
  | w5
  | w6
  deriving DecidableEq, Repr

/-- The labels of `WR.AUXBAUD` after its first micro-op, with the local value `prev` (R221). -/
inductive AuxbaudAt where
  | w2 (prev : BitVec 32)
  | w3
  | w4
  deriving DecidableEq, Repr

/-- The labels of `POLL` after its first micro-op (R240). -/
inductive PollAt where
  | p2 | p3
  deriving DecidableEq, Repr

/-- An operation of the main thread and the label of its next micro-op, with its operand and its local values (R32).
The first micro-op of an operation taken from the command port, and of `BOOT`, is part of the step that takes it
(assumption 6), so those operations have no first label here. -/
inductive Frame where
  /-- `BOOT` at `b1` (R291). -/
  | boot
  | chSetup (ch : Ch) (at_ : SetupAt)
  | chTeardown (ch : Ch) (at_ : TeardownAt)
  | auxSwitch (fn : BitVec 2) (at_ : SwitchAt)
  | auxRebaud (at_ : RebaudAt)
  | ppsSetup (at_ : PpsSetupAt)
  | ppsTeardown (at_ : PpsTeardownAt)
  /-- `WR.COUNTER` at `w2` (R218). -/
  | wrCounter (p : BitVec 32)
  | wrFreq (p : BitVec 32) (at_ : FreqAt)
  | wrAuxfn (p : BitVec 32) (at_ : AuxfnAt)
  | wrAuxbaud (p : BitVec 32) (at_ : AuxbaudAt)
  | poll (reg : BitVec 8) (ignored : BitVec 32) (at_ : PollAt)
  /-- An operation that is one atomic step. No rule puts the main thread here; `State.withFetchWord` does, for the
  operations that only a handler performs (assumption 17). -/
  | selected (i : Instr)
  deriving DecidableEq, Repr

/-- One record of `TXLOG`: channel, slot, synchronized time (R52). -/
structure TxRecord where
  ch : Ch
  slot : Slot
  at_ : BitVec 64
  deriving DecidableEq, Repr

/-- One record of `EDGELOG`: new level, synchronized time (R52). -/
structure EdgeRecord where
  level : Bool
  at_ : BitVec 64
  deriving DecidableEq, Repr

/-- The machine state. The last four fields and `params` are the model's own: the spec calls them inputs of the
step relation (R23). -/
structure State where
  /-- R4 -/
  params : Params
  /-- R25 -/
  regs : Regs
  /-- `mpc`: the operation in progress first, then the operations that called it; empty when `IDLE` (R32) -/
  mpc : List Frame
  /-- `BOOT` has been taken (R33, assumption 29) -/
  booted : Bool
  /-- `LT` (R35) -/
  lt : BitVec 64
  /-- `OFFS` (R35) -/
  offs : BitVec 64
  /-- `HAS_SYNCED` (R35) -/
  hasSynced : Bool
  /-- alarm slots, by slot number (R38, R39) -/
  alarms : List AlarmSlot
  /-- interrupt lines, line `IRQ_OF(a)` at place `a` (R41, assumption 16) -/
  lines : List IrqLine
  /-- data-mover channels, by channel number (R43) -/
  dma : List DmaChan
  /-- `U_PRI`, `U_AUX` (R44) -/
  uart : Pair Uart
  /-- `PIN_PRI`, `PIN_AUX` (R45) -/
  pin : Pair Pin
  /-- `CH[PRI]`, `CH[AUX]` (R46) -/
  ch : Pair Channel
  /-- `BUF`: address and byte, addresses strictly rising; an unlisted byte has no value (R47, R71) -/
  buf : List Host.Cell
  /-- R48 -/
  pps : PpsContext
  /-- R49 -/
  auxState : AuxState
  /-- `INTERVAL_US` (R50) -/
  intervalUs : BitVec 32
  /-- `LAST_EMIT_US` (R50) -/
  lastEmitUs : BitVec 32
  /-- `PREV_INPUTS` (R50) -/
  prevInputs : BitVec 16
  /-- `PREV_SYNCED` (R50) -/
  prevSynced : Bool
  /-- `FAULT` (R51) -/
  fault : Option FaultCode
  /-- `QUIET` (R53) -/
  quiet : Bool
  /-- `DIN` (R53) -/
  din : BitVec 16
  /-- `WIRE` (R52) -/
  wire : Pair (List Byte)
  /-- `TXLOG` (R52) -/
  txLog : List TxRecord
  /-- `EDGELOG` (R52) -/
  edgeLog : List EdgeRecord
  /-- `RLOG` (R52) -/
  rlog : List ReplyWord
  /-- `HIST` (R52) -/
  hist : List OpWord
  /-- which agent moves next, oldest entry first; where it is empty, `Config.schedule` says -/
  agenda : List Action
  /-- the ids the next claims ask for, oldest first; where it is empty, `Config.draw` says -/
  draws : List Nat
  /-- how many free values have been used (assumption 36) -/
  freeCtr : Nat
  deriving DecidableEq, Repr

/-- The reasons a step stops the machine. -/
inductive Fault where
  /-- Raised by every operation and every step (but a reset) while `FAULT` is set: no agent has a step and the run
  is over (R253). Safe: nothing follows. -/
  | stopped (code : FaultCode)
  /-- Raised by `DMA.BEAT` for a buffer byte that nothing has written since reset (R54, R88). Safe. -/
  | unwrittenByte (ch : Ch) (slot : Slot) (i : Nat)
  /-- Raised by `DMA.BEAT` for a buffer address that does not exist (R71). Safe. -/
  | noSuchByte (ch : Ch) (slot : Slot) (i : Nat)
  deriving DecidableEq, Repr

/-- The reasons a step gives no meaning. -/
inductive Refusal where
  /-- Raised by `exec` for an instruction without a meaning; none is left. Safe. -/
  | notModelled (mnemonic : String)
  /-- Raised by the step for a command word with `op` outside 1, 2, 3 (R110 (b): counted as a refusal). Safe. -/
  | reservedOpcode (op : BitVec 8)
  /-- Raised by `AUX.SWITCH` with the reserved function 3 (R104, R111). Safe. -/
  | reservedFunction
  deriving DecidableEq, Repr

/-- The outcome type of this machine. -/
abbrev Result := Host.Outcome State Fault Refusal

/-! ## Reset (R54, R290) -/

/-- The machine right after a reset with parameters `p` and the draws `d`. The agenda, the draw list and the counter of
free values belong to the environment and are handed on (assumption 34). What R54 leaves unspecified is 0, slot 0 of
channel `PRI`, or `none` (assumption 11); `BUF` lists nothing (assumption 12); `OFFS`, `HAS_SYNCED`, `QUIET`, `DIN` and a
shared `U_PRI` are draws (assumption 10). -/
def State.afterReset (p : Params) (d : ResetDraws) (agenda : List Action) (draws : List Nat) (freeCtr : Nat) :
    State where
  params := p
  regs :=
    { connectedDevices := 0, counter := 0, counterFreqHz := 0, auxPortFn := 0, auxBaudRate := p.auxBaudReset }
  mpc := []
  booted := false
  lt := 0
  offs := d.offs
  hasSynced := d.hasSynced
  alarms := (List.range p.nAlarms).map fun a =>
    { armed := false, target := 0, latch := false, claimed := !p.alarmFree0.contains a }
  lines := (List.range p.nAlarms).map fun _ => { enabled := false, handler := .none }
  dma := (List.range p.nDma).map fun c =>
    { claimed := !p.dmaFree0.contains c, busy := false, srcCh := .pri, srcSlot := .zero, pos := 0, count := 0 }
  uart :=
    { pri :=
        { init := p.primaryUartShared && d.uartPriInit
          baud := if p.primaryUartShared && d.uartPriInit then p.primaryBaud else 0
          fifo := [] }
      aux := { init := false, baud := 0, fifo := [] } }
  pin := { pri := { fn := .none, level := false }, aux := { fn := .none, level := false } }
  ch :=
    { pri := { active := false, dma := 0, alarm := 0, irq := 0, baud := 0, offsetUs := 0, dispatchIdx := .zero }
      aux := { active := false, dma := 0, alarm := 0, irq := 0, baud := 0, offsetUs := 0, dispatchIdx := .zero } }
  buf := []
  pps := { active := false, alarm := 0, irq := 0 }
  auxState := .disabled
  intervalUs := 0
  lastEmitUs := 0
  prevInputs := 0
  prevSynced := false
  fault := none
  quiet := d.quiet
  din := d.din &&& BitVec.ofNat 16 (2 ^ p.nInputs - 1)
  wire := { pri := [], aux := [] }
  txLog := []
  edgeLog := []
  rlog := []
  hist := []
  agenda := agenda
  draws := draws
  freeCtr := freeCtr

/-- The machine right after the first reset, nothing placed in it. -/
def State.reset : State :=
  State.afterReset Config.params Config.resetDraws [] [] 0

end Sys2Proof.Machine
end

