-- ==== Sys2Proof/Machine/Ops.lean ====
section
/-!
DEFINITION. The named operations over the state: memory primitives (20_memory.md R88, R89), the accessors of slots,
lines, channels and contexts (10_state.md R38 to R48), claiming (R42), the logs (R52), replies
(30_encoding.md R103, R109, 43_register_handlers.md R211), and raising a fault (60_exceptions.md R253), which is the
block's one way of taking an exception; only reset returns from it (R290).
-/

namespace Sys2Proof.Machine

/-! ## Pairs indexed by the channel -/

def Pair.get {α : Type} (x : Pair α) : Ch → α
  | .pri => x.pri
  | .aux => x.aux

def Pair.set {α : Type} (x : Pair α) (c : Ch) (v : α) : Pair α :=
  match c with
  | .pri => { x with pri := v }
  | .aux => { x with aux := v }

/-- The other slot of a pair: the load slot when given the dispatch slot (R47). -/
def otherSlot : Slot → Slot
  | .zero => .one
  | .one => .zero

def slotIndex : Slot → Nat
  | .zero => 0
  | .one => 1

/-! ## Byte order (R6, R74) -/

/-- `le32(v)`: the four bytes of a word, least significant first. -/
def le32 (v : BitVec 32) : List Byte :=
  [v.extractLsb' 0 8, v.extractLsb' 8 8, v.extractLsb' 16 8, v.extractLsb' 24 8]

/-- The value `b0 + 256*b1 + 65536*b2 + 16777216*b3` (R88). -/
def ofLe32 (b0 b1 b2 b3 : Byte) : BitVec 32 := ((b3 ++ b2) ++ b1) ++ b0

/-! ## Memory: a list of addresses and bytes, addresses strictly rising -/

/-- The byte at an address; `none` where nothing has been written since reset. -/
def Memory.read : List Host.Cell → Nat → Option Byte
  | [], _ => none
  | (k, b) :: m, a => if k = a then some b else Memory.read m a

def Memory.write : List Host.Cell → Nat → Byte → List Host.Cell
  | [], a, b => [(a, b)]
  | (k, x) :: m, a, b =>
    if a < k then (a, b) :: (k, x) :: m
    else if a = k then (a, b) :: m
    else (k, x) :: Memory.write m a b

/-- The bytes of a list stored at consecutive addresses. -/
def Memory.writeList : List Host.Cell → Nat → List Byte → List Host.Cell
  | m, _, [] => m
  | m, a, b :: bs => Memory.writeList (Memory.write m a b) (a + 1) bs

/-- The canonical form: addresses strictly rising. An unlisted address has no value, so no entry equals what an
unlisted address reads as. -/
def Memory.wf : List Host.Cell → Bool
  | [] => true
  | [_] => true
  | (a, _) :: (k, x) :: m => decide (a < k) && Memory.wf ((k, x) :: m)

/-- The model address of `(ch, slot, i)` (assumption 13). -/
def bufAddr (c : Ch) (sl : Slot) (i : Nat) : Nat :=
  (match c with
    | .pri => 0
    | .aux => 16) + 8 * slotIndex sl + i

/-! ## Accessors -/

/-- What a slot that does not exist reads as: never free, never armed (assumption 15). -/
def AlarmSlot.absent : AlarmSlot := { armed := false, target := 0, latch := false, claimed := true }

def IrqLine.absent : IrqLine := { enabled := false, handler := .none }

def DmaChan.absent : DmaChan :=
  { claimed := false, busy := false, srcCh := .pri, srcSlot := .zero, pos := 0, count := 0 }

def State.alarm (s : State) (a : Nat) : AlarmSlot := s.alarms.getD a AlarmSlot.absent

def State.modifyAlarm (s : State) (a : Nat) (f : AlarmSlot → AlarmSlot) : State :=
  { s with alarms := s.alarms.modify a f }

/-- `IRQ_OF(a)` (R4, R41). -/
def State.irqOf (s : State) (a : Nat) : Nat := s.params.irqOf.getD a 0

/-- `alarm_of(q)`, the inverse of `IRQ_OF` (R41). -/
def State.alarmOf (s : State) (q : Nat) : Option Nat := s.params.irqOf.idxOf? q

/-- Line `q` (R41); a line that does not exist is disabled and has no handler. -/
def State.line (s : State) (q : Nat) : IrqLine :=
  match s.alarmOf q with
  | some a => s.lines.getD a IrqLine.absent
  | none => IrqLine.absent

def State.modifyLine (s : State) (q : Nat) (f : IrqLine → IrqLine) : State :=
  match s.alarmOf q with
  | some a => { s with lines := s.lines.modify a f }
  | none => s

def State.dmaChan (s : State) (d : Nat) : DmaChan := s.dma.getD d DmaChan.absent

def State.modifyDma (s : State) (d : Nat) (f : DmaChan → DmaChan) : State :=
  { s with dma := s.dma.modify d f }

def State.setCh (s : State) (c : Ch) (v : Channel) : State := { s with ch := s.ch.set c v }

def State.setUart (s : State) (c : Ch) (v : Uart) : State := { s with uart := s.uart.set c v }

def State.setPin (s : State) (c : Ch) (v : Pin) : State := { s with pin := s.pin.set c v }

/-- The main thread continues at the given frames. -/
def State.at (s : State) (fs : List Frame) : State := { s with mpc := fs }

/-! ## Slot and line operations (R39, R41, R255) -/

/-- `ARMED[a] <- 0`. -/
def State.disarm (s : State) (a : Nat) : State := s.modifyAlarm a fun x => { x with armed := false }

/-- `IRQ_LATCH[a] <- 0`. -/
def State.acknowledge (s : State) (a : Nat) : State := s.modifyAlarm a fun x => { x with latch := false }

/-- `ARMED[a] <- 1; TARGET[a] <- t`. -/
def State.armAt (s : State) (a : Nat) (t : BitVec 32) : State :=
  s.modifyAlarm a fun x => { x with armed := true, target := t }

/-- `ALARM_CLAIMED[a] <- 0`. -/
def State.unclaimAlarm (s : State) (a : Nat) : State := s.modifyAlarm a fun x => { x with claimed := false }

/-- `HANDLER[q] <- h`. -/
def State.bind (s : State) (q : Nat) (h : Handler) : State := s.modifyLine q fun x => { x with handler := h }

/-- `IRQ_EN[q] <- b`. -/
def State.enableIrq (s : State) (q : Nat) (b : Bool) : State := s.modifyLine q fun x => { x with enabled := b }

/-! ## Claiming (R42) -/

/-- The next free choice: what the environment lists, else a free value (assumption 14). -/
def State.draw (s : State) : Nat × State :=
  match s.draws with
  | d :: ds => (d, { s with draws := ds })
  | [] => (Config.draw s.freeCtr, { s with freeCtr := s.freeCtr + 1 })

/-- The wanted id if it is free, else the first free one; every free id can be chosen. -/
def chooseFree (free : List Nat) (want : Nat) : Nat :=
  if free.contains want then want else free.headD 0

def State.freeAlarms (s : State) : List Nat :=
  (List.range s.alarms.length).filter fun a => !(s.alarm a).claimed

def State.freeDma (s : State) : List Nat :=
  (List.range s.dma.length).filter fun d => !(s.dmaChan d).claimed

/-- `ClaimAlarm()`; `none` where it raises `F_NO_ALARM`. -/
def State.claimAlarm (s : State) : Option (Nat × State) :=
  match s.freeAlarms with
  | [] => none
  | a :: as =>
    let c := chooseFree (a :: as) s.draw.1
    some (c, s.draw.2.modifyAlarm c fun x => { x with claimed := true })

/-- `ClaimDma()`; `none` where it raises `F_NO_DMA`. -/
def State.claimDma (s : State) : Option (Nat × State) :=
  match s.freeDma with
  | [] => none
  | d :: ds =>
    let c := chooseFree (d :: ds) s.draw.1
    some (c, s.draw.2.modifyDma c fun x => { x with claimed := true })

/-! ## Logs, replies, faults -/

/-- `log`: the operation's command word or tag joins `HIST` (R7, R104). -/
def State.log (s : State) (i : Instr) : State := { s with hist := s.hist ++ [encode i] }

/-- The kinds of format Y (R103). -/
inductive ReplyKind where
  | readReply
  | writeAck
  | event
  | readError
  | writeError
  deriving DecidableEq, Repr

def ReplyKind.code : ReplyKind → BitVec 8
  | .readReply => 0x01
  | .writeAck => 0x02
  | .event => 0x03
  | .readError => 0x09
  | .writeError => 0x0A

/-- `kind ++ reg ++ value` (R103). -/
def replyWord (k : ReplyKind) (reg : BitVec 8) (value : BitVec 32) : ReplyWord := (k.code ++ reg) ++ value

/-- `reply(kind, reg, value)` (R103). -/
def State.reply (s : State) (k : ReplyKind) (reg : BitVec 8) (value : BitVec 32) : State :=
  { s with rlog := s.rlog ++ [replyWord k reg value] }

/-- `zext_32(REG[r])`; 0 for a register above 4 (R109). -/
def Regs.value (r : Regs) (reg : BitVec 8) : BitVec 32 :=
  match reg.toNat with
  | 0 => r.connectedDevices.setWidth 32
  | 1 => r.counter
  | 2 => r.counterFreqHz.setWidth 32
  | 3 => r.auxPortFn.setWidth 32
  | 4 => r.auxBaudRate
  | _ => 0

/-- A reply that carries the register's value of the moment (R109). -/
def State.replyReg (s : State) (k : ReplyKind) (reg : BitVec 8) : State := s.reply k reg (s.regs.value reg)

/-- `ack(reg)`: suppressed in quiet mode (R7, R211). -/
def State.ack (s : State) (reg : BitVec 8) : State :=
  if s.quiet then s else s.replyReg .writeAck reg

/-- `event(reg)` (R7). -/
def State.event (s : State) (reg : BitVec 8) : State := s.replyReg .event reg

/-- The number of a fault code (R252). -/
def FaultCode.number : FaultCode → Nat
  | .noDma => 1
  | .noAlarm => 2
  | .dmaOverlap => 3
  | .unhandledIrq => 4
  | .txUnclaimed => 5

/-- `FAULT <- code`; nothing else changes, the main thread's position included (R252, R253). -/
def State.withFault (s : State) (code : FaultCode) : State := { s with fault := some code }

/-- `raise Fault(code)` taken: the next state has `FAULT` set (R253, assumption 7). -/
def State.raise (s : State) (code : FaultCode) : Result := .next (s.withFault code)

/-- While `FAULT` is set no agent has a step (R253); otherwise the given outcome. -/
def State.running (s : State) (r : Result) : Result :=
  match s.fault with
  | some code => .fault (.stopped code)
  | none => r

end Sys2Proof.Machine
end

