-- ==== Sys2Proof/Machine/Time.lean ====
section
/-!
DEFINITION. The time base port (10_state.md R35 to R37), the deadline and time-field rules and arming
(41_dispatcher.md R151 to R153), the pulse-per-second arithmetic and `SetLevel` (42_aux_controller.md R184, R185), the
counter interval (43_register_handlers.md R223). Deadlines are unbounded integers (R6, conflict C6).
-/

namespace Sys2Proof.Machine

/-- `HT = (LT + OFFS) mod 2^64` (R35); also `TB.us64()` (R36). -/
def State.ht (s : State) : BitVec 64 := s.lt + s.offs

/-- `LT32 = LT mod 2^32` (R35). -/
def State.lt32 (s : State) : BitVec 32 := s.lt.setWidth 32

/-- `TB.us64()` read as an integer. -/
def State.now (s : State) : Int := (s.ht.toNat : Int)

/-- `TB.us32() = HT mod 2^32` (R36). -/
def State.us32 (s : State) : BitVec 32 := s.ht.setWidth 32

/-- `TB.seconds() = floor(HT / 1_000_000) mod 2^32` (R36). -/
def State.seconds (s : State) : BitVec 32 := BitVec.ofNat 32 (s.ht.toNat / 1000000)

/-- `TB.has_synced()` (R36). -/
def State.synced (s : State) : Bool := s.hasSynced

/-- `TB.s2l(x) = (x - OFFS) mod 2^32` (R37). -/
def State.s2l (s : State) (x : BitVec 32) : BitVec 32 := x - s.offs.setWidth 32

/-- `NextDeadline(now, off)` (R151); `/` rounds toward minus infinity. -/
def nextDeadline (now off : Int) : Int :=
  if (now / 1000000 + 1) * 1000000 + off ≤ now then (now / 1000000 + 1) * 1000000 + off + 1000000
  else (now / 1000000 + 1) * 1000000 + off

/-- `TimeField(D) = floor(D / 1_000_000) mod 2^32` (R152). -/
def timeField (deadline : Int) : BitVec 32 := BitVec.ofInt 32 (deadline / 1000000)

/-- `Arm(a, D)`: `TARGET[a] <- TB.s2l(D mod 2^32); ARMED[a] <- 1` (R153). -/
def State.arm (s : State) (a : Nat) (deadline : Int) : State :=
  s.armAt a (s.s2l (BitVec.ofInt 32 deadline))

/-- `PpsNext(now)` (R184). -/
def ppsNext (now : Int) : Int := (now / 500000 + 1) * 500000

/-- `PpsPhase(now)` (R184). -/
def ppsPhase (now : Int) : Bool := decide (now / 500000 % 2 = 0)

/-- `SetLevel(v)` (R185, assumption 30). -/
def State.setLevel (s : State) (v : Bool) : State :=
  if s.pin.aux.level = v then s
  else
    { s with
      pin := { s.pin with aux := { s.pin.aux with level := v } }
      edgeLog := s.edgeLog ++ [{ level := v, at_ := s.ht }] }

/-- `Interval(f)`: 0 for 0, else `1_000_000 div f` (R223). -/
def interval (f : BitVec 16) : BitVec 32 := BitVec.ofNat 32 (1000000 / f.toNat)

end Sys2Proof.Machine
end

