-- ==== Sys2Proof/Machine/Operands.lean ====
section
/-!
DEFINITION. The operand forms: what is fixed per channel (10_state.md R46, R47, 41_dispatcher.md R154), message templates
and buffer addresses (30_encoding.md R118, 20_memory.md R88, R89), register widths and the register image (R31, R108), the
remapped inputs (44_poll.md R242), the controller's target state (R107).
-/

namespace Sys2Proof.Machine

/-- `LEN[ch]` in bytes (R46). -/
def State.len (s : State) : Ch → Nat
  | .pri => 6
  | .aux => s.params.auxMsg.len

/-- `TOFS[ch]`: 2 in the 6-byte form, 0 in the 4-byte form (R47). -/
def State.tofs (s : State) : Ch → Nat
  | .pri => 2
  | .aux =>
    match s.params.auxMsg with
    | .tagged => 2
    | .bare => 0

/-- `TEMPLATE[ch]`: the tag prefix and a zero time field (R118). -/
def State.template (s : State) : Ch → List Byte
  | .pri => [0xAA, 0xAF, 0, 0, 0, 0]
  | .aux =>
    match s.params.auxMsg with
    | .tagged => [0xAA, 0xAF, 0, 0, 0, 0]
    | .bare => [0, 0, 0, 0]

/-- `OWNED[ch]` (R46). -/
def State.owned (s : State) : Ch → Bool
  | .pri => !s.params.primaryUartShared
  | .aux => true

/-- `BaudFor(ch)` (R154). -/
def State.baudFor (s : State) : Ch → BitVec 32
  | .pri => s.params.primaryBaud
  | .aux => s.regs.auxBaudRate

/-- `OFFSET_US_AUX(baud)`: the first listed entry, else the value for unlisted rates (R4). -/
def offsetLookup : List (BitVec 32 × Int) → Int → BitVec 32 → Int
  | [], e, _ => e
  | (k, v) :: t, e, b => if k = b then v else offsetLookup t e b

/-- `OffsetFor(ch, b)` (R154). -/
def State.offsetFor (s : State) (c : Ch) (b : BitVec 32) : Int :=
  match c with
  | .pri => s.params.offsetUsPrimary
  | .aux => offsetLookup s.params.offsetUsAux s.params.offsetUsAuxElse b

/-- `REMAP(DIN.read())` (R4, R242); with no inputs the value is always 0 (R242 (4)). -/
def State.remapped (s : State) : BitVec 16 :=
  if s.params.nInputs = 0 then 0 else s.params.remap.getD s.din.toNat 0

/-- The part of an input value that `bits(N_INPUTS)` holds (R4, R53, assumption 25). -/
def State.inputBits (s : State) (v : BitVec 16) : BitVec 16 := v &&& BitVec.ofNat 16 (2 ^ s.params.nInputs - 1)

/-- `MemRead((ch, slot, i), 1)`: a byte that nothing has written faults (R54, R88, assumption 12), and so does an
address that does not exist (R71, assumption 35). -/
def State.memRead1 (s : State) (c : Ch) (sl : Slot) (i : Nat) : Except Fault Byte :=
  if i < s.len c then
    match Memory.read s.buf (bufAddr c sl i) with
    | some b => .ok b
    | none => .error (.unwrittenByte c sl i)
  else .error (.noSuchByte c sl i)

/-- `MemRead((ch, slot, i), 4)`, little-endian (R88). No operation performs it. -/
def State.memRead4 (s : State) (c : Ch) (sl : Slot) (i : Nat) : Except Fault (BitVec 32) :=
  match s.memRead1 c sl i, s.memRead1 c sl (i + 1), s.memRead1 c sl (i + 2), s.memRead1 c sl (i + 3) with
  | .ok b0, .ok b1, .ok b2, .ok b3 => .ok (ofLe32 b0 b1 b2 b3)
  | .error f, _, _, _ => .error f
  | _, .error f, _, _ => .error f
  | _, _, .error f, _ => .error f
  | _, _, _, .error f => .error f

/-- Byte stores at `(ch, slot, i)`, `(ch, slot, i + 1)`, … (R89, n = 1, in index order). -/
def State.memWrite (s : State) (c : Ch) (sl : Slot) (i : Nat) (bs : List Byte) : State :=
  { s with buf := Memory.writeList s.buf (bufAddr c sl i) bs }

/-- `MemWrite((ch, slot, i), 4, v)`, little-endian (R89). -/
def State.memWrite4 (s : State) (c : Ch) (sl : Slot) (i : Nat) (v : BitVec 32) : State :=
  s.memWrite c sl i (le32 v)

/-- The width of the register at an offset (R108, R117); 0 for a register the block does not have. -/
def regWidth (reg : BitVec 8) : Nat :=
  match reg.toNat with
  | 0 => 16
  | 1 => 32
  | 2 => 16
  | 3 => 8
  | 4 => 32
  | _ => 0

/-- The packed little-endian image of the register block (R31). No operation accesses it. -/
def Regs.image (r : Regs) : List Byte :=
  [r.connectedDevices.extractLsb' 0 8, r.connectedDevices.extractLsb' 8 8] ++ le32 r.counter ++
    [r.counterFreqHz.extractLsb' 0 8, r.counterFreqHz.extractLsb' 8 8] ++ [r.auxPortFn] ++ le32 r.auxBaudRate

/-- `StateOf(fn)` (R107); `none` for the reserved value 3. -/
def stateOf (fn : BitVec 2) : Option AuxState :=
  match fn.toNat with
  | 0 => some .disabled
  | 1 => some .auxClockBroadcast
  | 2 => some .pulsePerSecond
  | _ => none

end Sys2Proof.Machine
end

