-- ==== Sys2Proof/Machine/Flags.lean ====
section
/-!
DEFINITION. The one-bit conditions that rules compute: pending lines (10_state.md R41), the transmit-ready signal (R44), the
enabling conditions of the data-mover and the serialiser (40_transmitter.md R131, R132), and the checks of the write
handlers with their cause codes (43_register_handlers.md R212, R219 to R221, 60_exceptions.md R251).
-/

namespace Sys2Proof.Machine

/-- Line `q` is pending: `IRQ_EN[q] = 1` and `IRQ_LATCH[alarm_of(q)] = 1` (R41). -/
def State.pending (s : State) (q : Nat) : Bool :=
  match s.alarmOf q with
  | some a => (s.line q).enabled && (s.alarm a).latch
  | none => false

/-- The transmit-ready signal of the channel's UART (R44). -/
def State.txReady (s : State) (c : Ch) : Bool :=
  (s.uart.get c).init && decide ((s.uart.get c).fifo.length < s.params.uartFifoDepth)

/-- The data-mover channel that the context of `ch` names. -/
def State.dmaOf (s : State) (c : Ch) : DmaChan := s.dmaChan (s.ch.get c).dma

/-- `DMA.BEAT ch` is enabled (R131); that the block is not faulted is checked where it is performed. -/
def State.beatEnabled (s : State) (c : Ch) : Bool :=
  (s.ch.get c).active && (s.dmaOf c).busy && decide ((s.dmaOf c).srcCh = c) && s.txReady c

/-- `UART.SHIFT ch` is enabled (R132). -/
def State.shiftEnabled (s : State) (c : Ch) : Bool :=
  (s.uart.get c).init && !(s.uart.get c).fifo.isEmpty

/-- The causes of write-errors and read-errors (R251): internal names, recorded nowhere. -/
inductive Cause where
  | freqClamp
  | auxfnEnum
  | baudRange
  | readOnly
  | width
  | badWriteReg
  | badReadReg
  deriving DecidableEq, Repr

def Cause.number : Cause → Nat
  | .freqClamp => 1
  | .auxfnEnum => 2
  | .baudRange => 3
  | .readOnly => 4
  | .width => 5
  | .badWriteReg => 6
  | .badReadReg => 7

/-- The width refusal of a write: `p >= 2^W` (R108, R212). -/
def tooWide (reg : BitVec 8) (p : BitVec 32) : Bool := decide (2 ^ regWidth reg ≤ p.toNat)

/-- `p > MAX_COUNTER_FREQ_HZ` (R219). -/
def freqTooHigh (c : Params) (p : BitVec 32) : Bool := decide (c.maxCounterFreqHz.toNat < p.toNat)

/-- `p > 2` (R220). -/
def auxfnIllegal (p : BitVec 32) : Bool := decide (2 < p.toNat)

/-- `p < MIN_AUX_BAUD or p > MAX_AUX_BAUD` (R221). -/
def baudOutOfRange (c : Params) (p : BitVec 32) : Bool :=
  decide (p.toNat < c.minAuxBaud.toNat) || decide (c.maxAuxBaud.toNat < p.toNat)

/-- Which cause a write of `p` to register `reg` has, in the order of the checks (R212, R251, R258 (4)); `none` where the
write is accepted. -/
def writeCause (c : Params) (reg : BitVec 8) (p : BitVec 32) : Option Cause :=
  match reg.toNat with
  | 0 => some .readOnly
  | 1 => none
  | 2 => if tooWide reg p then some .width else if freqTooHigh c p then some .freqClamp else none
  | 3 => if tooWide reg p then some .width else if auxfnIllegal p then some .auxfnEnum else none
  | 4 => if baudOutOfRange c p then some .baudRange else none
  | _ => some .badWriteReg

end Sys2Proof.Machine
end

