-- ==== Sys2Proof/Machine/Transmitter.lean ====
section
/-!
DEFINITION. Family T, the nonblocking stream transmitter (40_transmitter.md R130 to R132): `TX.START`, `DMA.BEAT`,
`UART.SHIFT`.
-/

namespace Sys2Proof.Machine

/-- `TX.START(ch, slot, n)` (R130); an error is the fault it raises, with nothing changed. A count of 0 or above
`LEN[ch]` is misuse of the same class (R130, U23, assumption 19). -/
def txStart (c : Ch) (sl : Slot) (n : Nat) (s : State) : Except FaultCode State :=
  if (s.ch.get c).active = false ∨ (s.dmaOf c).claimed = false then .error .txUnclaimed
  else if n = 0 ∨ s.len c < n then .error .txUnclaimed
  else if (s.dmaOf c).busy = true then .error .dmaOverlap
  else
    .ok (State.log
      { s.modifyDma (s.ch.get c).dma fun x =>
          { x with busy := true, srcCh := c, srcSlot := sl, pos := 0, count := n } with
        txLog := s.txLog ++ [{ ch := c, slot := sl, at_ := s.ht }] }
      (.txStart c))

/-- `TX.START ch`, of the dispatch slot and the whole message, as line `f1` of `CH.FIRE` performs it (R130, R155,
assumption 18). -/
def execTxStart (c : Ch) (s : State) : Result :=
  s.running
    (match txStart c (s.ch.get c).dispatchIdx (s.len c) s with
    | .ok t => .next t
    | .error code => s.raise code)

/-- The data-mover's record after a beat: position advanced, busy cleared after the last byte (R131). -/
def DmaChan.advance (x : DmaChan) : DmaChan :=
  { x with pos := x.pos + 1, busy := if x.pos + 1 = x.count then false else x.busy }

/-- The effect of `DMA.BEAT ch` once the byte has been read (R131, R72). -/
def State.beat (s : State) (c : Ch) (b : Byte) : State :=
  State.log
    ((s.setUart c { s.uart.get c with fifo := (s.uart.get c).fifo ++ [b] }).modifyDma (s.ch.get c).dma
      DmaChan.advance)
    (.dmaBeat c)

/-- `DMA.BEAT ch` (R131): the byte as it is now; without an enabled step the transfer waits (assumption 3). -/
def execDmaBeat (c : Ch) (s : State) : Result :=
  s.running
    (if s.beatEnabled c then
      match s.memRead1 c (s.dmaOf c).srcSlot (s.dmaOf c).pos with
      | .ok b => .next (s.beat c b)
      | .error f => .fault f
    else .next s)

/-- The effect of `UART.SHIFT ch` on a FIFO `b :: rest` (R132, R73). -/
def State.shift (s : State) (c : Ch) (b : Byte) (rest : List Byte) : State :=
  let t := s.setUart c { s.uart.get c with fifo := rest }
  State.log
    (if (s.pin.get c).fn = .uartTx then { t with wire := t.wire.set c (t.wire.get c ++ [b]) } else t)
    (.uartShift c)

/-- `UART.SHIFT ch` (R132); not enabled while the UART is not initialised or its FIFO is empty (assumption 3). -/
def execUartShift (c : Ch) (s : State) : Result :=
  s.running
    (match (s.uart.get c).fifo with
    | b :: rest => if (s.uart.get c).init then .next (s.shift c b rest) else .next s
    | [] => .next s)

end Sys2Proof.Machine
end

