-- ==== Sys2Proof/Machine/Dispatcher.lean ====
section
/-!
DEFINITION. Family D, the periodic channel dispatcher (41_dispatcher.md R154 to R156): `CH.SETUP`, `CH.FIRE`,
`CH.TEARDOWN`. A main-thread operation is given label by label: one micro-op, and where the main thread continues (R8, R32).
The argument `fs` is the stack below the operation: the label following its call, or nothing.
-/

namespace Sys2Proof.Machine

/-! ## CH.SETUP (R154) -/

/-- `s2a`: the rate and the offset join the context; a UART that is not initialised is initialised, one that is keeps
its rate and FIFO. -/
def State.setupUart (s : State) (c : Ch) : State :=
  let b := s.baudFor c
  let t := s.setCh c { s.ch.get c with baud := b, offsetUs := s.offsetFor c b }
  if (s.uart.get c).init then t else t.setUart c { init := true, baud := b, fifo := [] }

/-- `s5a`: the first deadline, and its seconds value into the dispatch slot. -/
def State.setupDeadline (s : State) (c : Ch) : Int := nextDeadline s.now (s.ch.get c).offsetUs

def setupAt (c : Ch) (fs : List Frame) (l : SetupAt) (s : State) : Result :=
  let goto (l' : SetupAt) (t : State) : Result := .next (t.at (.chSetup c l' :: fs))
  match l with
  | .s0 => goto .s1a (s.log (.chSetup c))
  | .s1a =>
    if (s.ch.get c).active then goto .s1b s
    else
      match s.claimDma with
      | none => s.raise .noDma
      | some (d, t) => goto .s1b (t.setCh c { t.ch.get c with dma := d })
  | .s1b =>
    if (s.ch.get c).active then goto .s1c s
    else
      match s.claimAlarm with
      | none => s.raise .noAlarm
      | some (a, t) => goto .s1c (t.setCh c { t.ch.get c with alarm := a, irq := s.irqOf a })
  | .s1c => goto .s2a (s.setCh c { s.ch.get c with active := true })
  | .s2a => goto .s2b (s.setupUart c)
  | .s2b => goto .s3a (s.setPin c { s.pin.get c with fn := .uartTx })
  | .s3a => goto .s3b (s.memWrite c .zero 0 (s.template c))
  | .s3b => goto .s3c (s.memWrite c .one 0 (s.template c))
  | .s3c => goto .s4a (s.setCh c { s.ch.get c with dispatchIdx := .zero })
  | .s4a => goto .s4b (s.bind (s.ch.get c).irq (.chFire c))
  | .s4b => goto .s5a (s.enableIrq (s.ch.get c).irq true)
  | .s5a =>
    goto (.s5b (s.setupDeadline c))
      (s.memWrite4 c (s.ch.get c).dispatchIdx (s.tofs c) (timeField (s.setupDeadline c)))
  | .s5b deadline => .next ((s.arm (s.ch.get c).alarm deadline).at fs)

/-- `CH.SETUP ch`: its next micro-op (assumption 4). -/
def execChSetup (c : Ch) (s : State) : Result :=
  s.running
    (match s.mpc with
    | .chSetup c' l :: fs => if c' = c then setupAt c fs l s else setupAt c s.mpc .s0 s
    | _ => setupAt c s.mpc .s0 s)

/-! ## CH.FIRE (R155) -/

/-- Lines `f2` to `f6`, after `TX.START`: acknowledge, next deadline, time field into the load slot, swap, re-arm. -/
def State.reschedule (s : State) (c : Ch) : State :=
  let x := s.ch.get c
  let d := nextDeadline s.now x.offsetUs
  let t := (s.acknowledge x.alarm).memWrite4 c (otherSlot x.dispatchIdx) (s.tofs c) (timeField d)
  (t.setCh c { x with dispatchIdx := otherSlot x.dispatchIdx }).arm x.alarm d

/-- `CH.FIRE ch`, one atomic step (R155, R22). A fault of `TX.START` leaves only the tag of `f0` behind (R253). -/
def execChFire (c : Ch) (s : State) : Result :=
  s.running
    (let t := s.log (.chFire c)
     match txStart c (t.ch.get c).dispatchIdx (t.len c) t with
     | .ok u => .next (u.reschedule c)
     | .error code => t.raise code)

/-! ## CH.TEARDOWN (R156) -/

/-- `t6`: abort any transfer in flight and release the data-mover channel. -/
def State.releaseDma (s : State) (d : Nat) : State :=
  s.modifyDma d fun x => { x with busy := false, claimed := false }

/-- `t7`: de-initialise the UART and the pin if they are exclusively owned. -/
def State.releaseUart (s : State) (c : Ch) : State :=
  if s.owned c then
    (s.setUart c { s.uart.get c with init := false, fifo := [] }).setPin c { s.pin.get c with fn := .none }
  else s

def teardownAt (c : Ch) (fs : List Frame) (l : TeardownAt) (s : State) : Result :=
  let goto (l' : TeardownAt) (t : State) : Result := .next (t.at (.chTeardown c l' :: fs))
  match l with
  | .t0 =>
    let t := s.log (.chTeardown c)
    if (s.ch.get c).active then goto .t1 t else .next (t.at fs)
  | .t1 => goto .t2 (s.disarm (s.ch.get c).alarm)
  | .t2 => goto .t3 (s.acknowledge (s.ch.get c).alarm)
  | .t3 => goto .t4 (s.enableIrq (s.ch.get c).irq false)
  | .t4 => goto .t5 (s.unclaimAlarm (s.ch.get c).alarm)
  | .t5 => goto .t6 (s.bind (s.ch.get c).irq .none)
  | .t6 => goto .t7 (s.releaseDma (s.ch.get c).dma)
  | .t7 => goto .t8 (s.releaseUart c)
  | .t8 => .next ((s.setCh c { s.ch.get c with active := false }).at fs)

/-- `CH.TEARDOWN ch`: its next micro-op (assumption 4). -/
def execChTeardown (c : Ch) (s : State) : Result :=
  s.running
    (match s.mpc with
    | .chTeardown c' l :: fs => if c' = c then teardownAt c fs l s else teardownAt c s.mpc .t0 s
    | _ => teardownAt c s.mpc .t0 s)

end Sys2Proof.Machine
end

