-- ==== Sys2Proof/Machine/AuxController.lean ====
section
/-!
DEFINITION. Family A, the auxiliary function controller and pulse-per-second (42_aux_controller.md R181, R182, R185 to
R187): `PPS.SETUP`, `PPS.FIRE`, `PPS.TEARDOWN`, `AUX.SWITCH`, `AUX.REBAUD`. A call performs the first micro-op of the
called operation in place (R7, assumption 5).
-/

namespace Sys2Proof.Machine

/-! ## PPS.SETUP (R185) -/

def ppsSetupAt (fs : List Frame) (l : PpsSetupAt) (s : State) : Result :=
  let goto (l' : PpsSetupAt) (t : State) : Result := .next (t.at (.ppsSetup l' :: fs))
  match l with
  | .p0 => goto .p1a (s.log .ppsSetup)
  | .p1a =>
    if s.pps.active then goto .p1b s
    else
      match s.claimAlarm with
      | none => s.raise .noAlarm
      | some (a, t) => goto .p1b { t with pps := { t.pps with alarm := a, irq := s.irqOf a } }
  | .p1b => goto .p2 { s with pps := { s.pps with active := true } }
  | .p2 => goto .p3a (s.setPin .aux { fn := .gpioOut, level := false })
  | .p3a => goto .p3b (s.bind s.pps.irq .ppsFire)
  | .p3b => goto .p4a (s.enableIrq s.pps.irq true)
  | .p4a => goto (.p4b (ppsNext s.now)) (s.setLevel (ppsPhase s.now))
  | .p4b deadline => .next ((s.arm s.pps.alarm deadline).at fs)

/-- `PPS.SETUP`: its next micro-op (assumption 4). -/
def execPpsSetup (s : State) : Result :=
  s.running
    (match s.mpc with
    | .ppsSetup l :: fs => ppsSetupAt fs l s
    | _ => ppsSetupAt s.mpc .p0 s)

/-! ## PPS.FIRE (R186) -/

/-- Lines `q1` to `q3`: toggle, acknowledge, re-arm at the next half second. -/
def State.pulse (s : State) : State :=
  ((s.setLevel (!s.pin.aux.level)).acknowledge s.pps.alarm).arm s.pps.alarm (ppsNext s.now)

/-- `PPS.FIRE`, one atomic step (R186, R22). -/
def execPpsFire (s : State) : Result :=
  s.running (.next (s.log .ppsFire).pulse)

/-! ## PPS.TEARDOWN (R187) -/

def ppsTeardownAt (fs : List Frame) (l : PpsTeardownAt) (s : State) : Result :=
  let goto (l' : PpsTeardownAt) (t : State) : Result := .next (t.at (.ppsTeardown l' :: fs))
  match l with
  | .r0 =>
    let t := s.log .ppsTeardown
    if s.pps.active then goto .r1 t else .next (t.at fs)
  | .r1 => goto .r2 (s.disarm s.pps.alarm)
  | .r2 => goto .r3 (s.acknowledge s.pps.alarm)
  | .r3 => goto .r4 (s.enableIrq s.pps.irq false)
  | .r4 => goto .r5 (s.unclaimAlarm s.pps.alarm)
  | .r5 => goto .r6 (s.bind s.pps.irq .none)
  | .r6 => goto .r7 (s.setPin .aux { s.pin.aux with fn := .none })
  | .r7 => .next (State.at { s with pps := { s.pps with active := false } } fs)

/-- `PPS.TEARDOWN`: its next micro-op (assumption 4). -/
def execPpsTeardown (s : State) : Result :=
  s.running
    (match s.mpc with
    | .ppsTeardown l :: fs => ppsTeardownAt fs l s
    | _ => ppsTeardownAt s.mpc .r0 s)

/-! ## AUX.SWITCH (R181) -/

/-- The micro-ops of `AUX.SWITCH fn` with `target = StateOf(fn)`. -/
def switchAt (fn : BitVec 2) (target : AuxState) (fs : List Frame) (l : SwitchAt) (s : State) : Result :=
  let frame (l' : SwitchAt) : List Frame := .auxSwitch fn l' :: fs
  match l with
  | .a0 => .next ((s.log (.auxSwitch fn)).at (frame .a1))
  | .a1 =>
    match s.auxState with
    | .auxClockBroadcast => teardownAt .aux (frame .a2) .t0 s
    | .pulsePerSecond => ppsTeardownAt (frame .a2) .r0 s
    | .disabled => .next (s.at (frame .a2))
  | .a2 => .next (State.at { s with auxState := .disabled } (frame .a3))
  | .a3 =>
    match target with
    | .auxClockBroadcast => setupAt .aux (frame .a4) .s0 s
    | .pulsePerSecond => ppsSetupAt (frame .a4) .p0 s
    | .disabled => .next (s.at (frame .a4))
  | .a4 => .next (State.at { s with auxState := target } fs)

/-- `AUX.SWITCH fn` at a label; the reserved function 3 is refused by name (R104, R111, assumption 20). -/
def switchOrRefuse (fn : BitVec 2) (fs : List Frame) (l : SwitchAt) (s : State) : Result :=
  match stateOf fn with
  | some target => switchAt fn target fs l s
  | none => .refused .reservedFunction

/-- `AUX.SWITCH fn`: its next micro-op (assumption 4). -/
def execAuxSwitch (fn : BitVec 2) (s : State) : Result :=
  s.running
    (match s.mpc with
    | .auxSwitch fn' l :: fs => if fn' = fn then switchOrRefuse fn fs l s else switchOrRefuse fn s.mpc .a0 s
    | _ => switchOrRefuse fn s.mpc .a0 s)

/-! ## AUX.REBAUD (R182) -/

def rebaudAt (fs : List Frame) (l : RebaudAt) (s : State) : Result :=
  match l with
  | .b0 =>
    let t := s.log .auxRebaud
    if s.auxState = .auxClockBroadcast then .next (t.at (.auxRebaud .b1 :: fs)) else .next (t.at fs)
  | .b1 => teardownAt .aux (.auxRebaud .b2 :: fs) .t0 s
  | .b2 => setupAt .aux fs .s0 s

/-- `AUX.REBAUD`: its next micro-op (assumption 4). -/
def execAuxRebaud (s : State) : Result :=
  s.running
    (match s.mpc with
    | .auxRebaud l :: fs => rebaudAt fs l s
    | _ => rebaudAt s.mpc .b0 s)

end Sys2Proof.Machine
end

