-- ==== Sys2Proof/Machine/RegisterHandlers.lean ====
section
/-!
DEFINITION. Family R, the register handlers (43_register_handlers.md R210 to R223). The first micro-op of an operation
appends its command word to `HIST` (R210, assumption 6). `done` returns to the stack below the operation, which is
`IDLE` for an operation taken from the command port.
-/

namespace Sys2Proof.Machine

/-! ## Reads (R213 to R216, R222) -/

/-- `reply(READ_REPLY, reg, zext_32(REG[reg])); done`. -/
def readRegister (i : Instr) (reg : BitVec 8) (s : State) : Result :=
  s.running (.next ((s.log i).replyReg .readReply reg))

/-- `RD.CONNECTED` (R213). -/
def execRdConnected (x : BitVec 32) (s : State) : Result := readRegister (.rdConnected x) 0 s

/-- `RD.COUNTER` (R214). -/
def execRdCounter (x : BitVec 32) (s : State) : Result := readRegister (.rdCounter x) 1 s

/-- `RD.FREQ` (R215). -/
def execRdFreq (x : BitVec 32) (s : State) : Result := readRegister (.rdFreq x) 2 s

/-- `RD.AUXFN` (R216). -/
def execRdAuxfn (x : BitVec 32) (s : State) : Result := readRegister (.rdAuxfn x) 3 s

/-- `RD.AUXBAUD` (R222). -/
def execRdAuxbaud (x : BitVec 32) (s : State) : Result := readRegister (.rdAuxbaud x) 4 s

/-! ## Writes -/

/-- `WR.CONNECTED p`: refused, cause `WE_READ_ONLY` (R212, R217). -/
def execWrConnected (p : BitVec 32) (s : State) : Result :=
  s.running (.next ((s.log (.wrConnected p)).replyReg .writeError 0))

def State.setCounter (s : State) (v : BitVec 32) : State := { s with regs := { s.regs with counter := v } }

def State.setFreq (s : State) (v : BitVec 16) : State := { s with regs := { s.regs with counterFreqHz := v } }

def State.setAuxfn (s : State) (v : BitVec 8) : State := { s with regs := { s.regs with auxPortFn := v } }

def State.setAuxbaud (s : State) (v : BitVec 32) : State := { s with regs := { s.regs with auxBaudRate := v } }

/-- `WR.COUNTER p` (R218). -/
def execWrCounter (p : BitVec 32) (s : State) : Result :=
  s.running
    (match s.mpc with
    | .wrCounter p' :: fs =>
      if p' = p then .next ((s.ack 1).at fs)
      else .next (((s.log (.wrCounter p)).setCounter p).at (.wrCounter p :: s.mpc))
    | _ => .next (((s.log (.wrCounter p)).setCounter p).at (.wrCounter p :: s.mpc)))

/-- `INTERVAL_US <- Interval(f); LAST_EMIT_US <- TB.us32()` (R219). -/
def State.restartInterval (s : State) (f : BitVec 16) : State :=
  { s with intervalUs := interval f, lastEmitUs := s.us32 }

/-- `w1` of `WR.FREQ`: the width refusal, cause `WE_WIDTH` (R212, R219). -/
def freqStart (p : BitVec 32) (s : State) : Result :=
  let t := s.log (.wrFreq p)
  if tooWide 2 p then .next (t.replyReg .writeError 2) else .next (t.at (.wrFreq p .w2 :: s.mpc))

/-- `w2` to `w5` of `WR.FREQ` (R219); `w3` is the clamp, cause `WE_FREQ_CLAMP`. -/
def freqAt (p : BitVec 32) (fs : List Frame) (l : FreqAt) (s : State) : Result :=
  match l with
  | .w2 => .next ((s.setFreq (p.setWidth 16)).at (.wrFreq p .w3 :: fs))
  | .w3 =>
    if freqTooHigh s.params p then
      .next ((((s.setFreq s.params.maxCounterFreqHz).restartInterval s.params.maxCounterFreqHz).replyReg
        .writeError 2).at fs)
    else .next (s.at (.wrFreq p .w4 :: fs))
  | .w4 => .next ((s.restartInterval (p.setWidth 16)).at (.wrFreq p .w5 :: fs))
  | .w5 => .next ((s.ack 2).at fs)

/-- `WR.FREQ p` (R219): its next micro-op. -/
def execWrFreq (p : BitVec 32) (s : State) : Result :=
  s.running
    (match s.mpc with
    | .wrFreq p' l :: fs => if p' = p then freqAt p fs l s else freqStart p s
    | _ => freqStart p s)

/-- `w1` of `WR.AUXFN`: the width refusal, cause `WE_WIDTH` (R212, R220). -/
def auxfnStart (p : BitVec 32) (s : State) : Result :=
  let t := s.log (.wrAuxfn p)
  if tooWide 3 p then .next (t.replyReg .writeError 3) else .next (t.at (.wrAuxfn p .w2 :: s.mpc))

/-- `w2` to `w6` of `WR.AUXFN` (R220); `w3` is the rejection, cause `WE_AUXFN_ENUM`; `w5` calls `AUX.SWITCH(p)`. -/
def auxfnAt (p : BitVec 32) (fs : List Frame) (l : AuxfnAt) (s : State) : Result :=
  match l with
  | .w2 => .next ((s.setAuxfn (p.setWidth 8)).at (.wrAuxfn p (.w3 s.regs.auxPortFn) :: fs))
  | .w3 prev =>
    if auxfnIllegal p then .next (((s.setAuxfn prev).replyReg .writeError 3).at fs)
    else .next (s.at (.wrAuxfn p (.w4 prev) :: fs))
  | .w4 prev =>
    if p = prev.setWidth 32 then .next ((s.ack 3).at fs) else .next (s.at (.wrAuxfn p .w5 :: fs))
  | .w5 => switchOrRefuse (p.setWidth 2) (.wrAuxfn p .w6 :: fs) .a0 s
  | .w6 => .next ((s.ack 3).at fs)

/-- `WR.AUXFN p` (R220): its next micro-op. -/
def execWrAuxfn (p : BitVec 32) (s : State) : Result :=
  s.running
    (match s.mpc with
    | .wrAuxfn p' l :: fs => if p' = p then auxfnAt p fs l s else auxfnStart p s
    | _ => auxfnStart p s)

/-- `w1` of `WR.AUXBAUD` (R221). -/
def auxbaudStart (p : BitVec 32) (s : State) : Result :=
  .next (((s.log (.wrAuxbaud p)).setAuxbaud p).at (.wrAuxbaud p (.w2 s.regs.auxBaudRate) :: s.mpc))

/-- `w2` to `w4` of `WR.AUXBAUD` (R221); `w2` is the rejection, cause `WE_BAUD_RANGE`; `w3` calls `AUX.REBAUD`. -/
def auxbaudAt (p : BitVec 32) (fs : List Frame) (l : AuxbaudAt) (s : State) : Result :=
  match l with
  | .w2 prev =>
    if baudOutOfRange s.params p then .next (((s.setAuxbaud prev).replyReg .writeError 4).at fs)
    else .next (s.at (.wrAuxbaud p .w3 :: fs))
  | .w3 => rebaudAt (.wrAuxbaud p .w4 :: fs) .b0 s
  | .w4 => .next ((s.ack 4).at fs)

/-- `WR.AUXBAUD p` (R221): its next micro-op. -/
def execWrAuxbaud (p : BitVec 32) (s : State) : Result :=
  s.running
    (match s.mpc with
    | .wrAuxbaud p' l :: fs => if p' = p then auxbaudAt p fs l s else auxbaudStart p s
    | _ => auxbaudStart p s)

end Sys2Proof.Machine
end

