-- ==== Sys2Proof/Machine/Poll.lean ====
section
/-!
DEFINITION. Family P: the state-update poll (44_poll.md R240 to R243) and the boot operation
(70_reset_and_hazards.md R291).
-/

namespace Sys2Proof.Machine

/-- `SyncEdge()` (R241). -/
def State.syncEdge (s : State) : State :=
  { s with
    lastEmitUs := if s.synced && !s.prevSynced then s.us32 else s.lastEmitUs
    prevSynced := s.synced }

/-- `Inputs()` (R242). -/
def State.inputs (s : State) : State :=
  let v := s.remapped
  let t : State := { s with regs := { s.regs with connectedDevices := v } }
  if v = s.prevInputs then t else State.event { t with prevInputs := v } 0

/-- A counter event is due: a frequency is configured and the elapsed time, modulo 2^32, has reached the interval
(R243). -/
def State.counterDue (s : State) : Bool :=
  s.regs.counterFreqHz != 0 && decide (s.intervalUs ≤ s.us32 - s.lastEmitUs)

/-- `CounterTick()` (R243). -/
def State.counterTick (s : State) : State :=
  if s.counterDue then
    State.event
      { s with
        regs := { s.regs with counter := s.regs.counter + 1 }
        lastEmitUs := s.lastEmitUs + s.intervalUs }
      1
  else s

/-- `POLL` (R240): its next micro-op; `p1` also appends the command word to `HIST` (R104). -/
def execPoll (reg : BitVec 8) (x : BitVec 32) (s : State) : Result :=
  s.running
    (match s.mpc with
    | .poll reg' x' l :: fs =>
      if reg' = reg ∧ x' = x then
        match l with
        | .p2 => .next (s.inputs.at (.poll reg x .p3 :: fs))
        | .p3 => .next (s.counterTick.at fs)
      else .next ((s.log (.poll reg x)).syncEdge.at (.poll reg x .p2 :: s.mpc))
    | _ => .next ((s.log (.poll reg x)).syncEdge.at (.poll reg x .p2 :: s.mpc)))

/-- `BOOT` (R291): `b0`, then `b1`, which calls `CH.SETUP(PRI)`. -/
def execBoot (s : State) : Result :=
  s.running
    (match s.mpc with
    | .boot :: fs => setupAt .pri fs .s0 s
    | _ => .next (State.at { s.log .boot with booted := true } (.boot :: s.mpc)))

end Sys2Proof.Machine
end

