-- ==== Sys2Proof/Machine/Dispatch.lean ====
section
/-!
DEFINITION. The meaning of every operation of 30_encoding.md R100: one direct call an arm.
-/

namespace Sys2Proof.Machine

def exec (i : Instr) (s : State) : Host.Outcome State Fault Refusal :=
  match i with
  | .rdConnected x => Sys2Proof.Machine.execRdConnected x s
  | .rdCounter x => Sys2Proof.Machine.execRdCounter x s
  | .rdFreq x => Sys2Proof.Machine.execRdFreq x s
  | .rdAuxfn x => Sys2Proof.Machine.execRdAuxfn x s
  | .rdAuxbaud x => Sys2Proof.Machine.execRdAuxbaud x s
  | .wrConnected p => Sys2Proof.Machine.execWrConnected p s
  | .wrCounter p => Sys2Proof.Machine.execWrCounter p s
  | .wrFreq p => Sys2Proof.Machine.execWrFreq p s
  | .wrAuxfn p => Sys2Proof.Machine.execWrAuxfn p s
  | .wrAuxbaud p => Sys2Proof.Machine.execWrAuxbaud p s
  | .poll reg x => Sys2Proof.Machine.execPoll reg x s
  | .boot => Sys2Proof.Machine.execBoot s
  | .txStart c => Sys2Proof.Machine.execTxStart c s
  | .dmaBeat c => Sys2Proof.Machine.execDmaBeat c s
  | .uartShift c => Sys2Proof.Machine.execUartShift c s
  | .chSetup c => Sys2Proof.Machine.execChSetup c s
  | .chFire c => Sys2Proof.Machine.execChFire c s
  | .chTeardown c => Sys2Proof.Machine.execChTeardown c s
  | .auxSwitch fn => Sys2Proof.Machine.execAuxSwitch fn s
  | .auxRebaud => Sys2Proof.Machine.execAuxRebaud s
  | .ppsSetup => Sys2Proof.Machine.execPpsSetup s
  | .ppsFire => Sys2Proof.Machine.execPpsFire s
  | .ppsTeardown => Sys2Proof.Machine.execPpsTeardown s

end Sys2Proof.Machine
end

