-- ==== Sys2Proof/Machine/Agents.lean ====
section
/-!
DEFINITION. The agents of 10_state.md R20: which operation a schedule entry performs, the command port
(R33, 30_encoding.md R102, R110), interrupt entry (60_exceptions.md R256), and the environment's steps (R270 to R272,
70_reset_and_hazards.md R290). An entry whose agent has no enabled step changes nothing (assumption 3).
-/

namespace Sys2Proof.Machine

/-! ## MAIN -/

/-- The operation a frame belongs to (R32). -/
def Frame.instr : Frame → Instr
  | .boot => .boot
  | .chSetup c _ => .chSetup c
  | .chTeardown c _ => .chTeardown c
  | .auxSwitch fn _ => .auxSwitch fn
  | .auxRebaud _ => .auxRebaud
  | .ppsSetup _ => .ppsSetup
  | .ppsTeardown _ => .ppsTeardown
  | .wrCounter p => .wrCounter p
  | .wrFreq p _ => .wrFreq p
  | .wrAuxfn p _ => .wrAuxfn p
  | .wrAuxbaud p _ => .wrAuxbaud p
  | .poll reg x _ => .poll reg x
  | .selected i => i

/-- `MAIN`'s step without a new command: the next micro-op of the operation in progress (R32), or `BOOT` as the first
operation after reset (R33, R291). -/
def mainStep (s : State) : Result :=
  match s.mpc with
  | [] => if s.booted then .next s else exec .boot s
  | .selected i :: fs => exec i (s.at fs)
  | f :: _ => exec f.instr s

/-- `MAIN` takes a command word when it is `IDLE` and `BOOT` has been taken (R33). A register the block does not have
is answered by an error reply (R110 (a)), and its word is logged like every word with `op` 1 or 2 (R210,
assumption 31); another `op` is refused (R110 (b), assumption 9). -/
def takeCommand (w : CmdWord) (s : State) : Result :=
  if s.mpc = [] ∧ s.booted = true then
    match decodeCommand w with
    | .instr i => exec i s
    | .badRead reg => .next (State.reply { s with hist := s.hist ++ [.cmd w] } .readError reg 0)
    | .badWrite reg => .next (State.reply { s with hist := s.hist ++ [.cmd w] } .writeError reg 0)
    | .reserved op => .refused (.reservedOpcode op)
  else .next s

/-! ## IRQ -/

/-- Interrupt entry: the handler bound to a pending line at this moment is performed; a line with no handler raises
`H_UNHANDLED_IRQ` (R22, R87, R256). -/
def serveIrq (q : Nat) (s : State) : Result :=
  if s.pending q then
    match (s.line q).handler with
    | .none => s.raise .unhandledIrq
    | .chFire c => exec (.chFire c) s
    | .ppsFire => exec .ppsFire s
  else .next s

/-! ## ENV -/

/-- An armed slot whose target is reached latches and disarms (R39, R270). -/
def AlarmSlot.compare (x : AlarmSlot) (now32 : BitVec 32) : AlarmSlot :=
  if x.armed = true ∧ x.target = now32 then { x with latch := true, armed := false } else x

/-- `TICK` (R270). -/
def State.tick (s : State) : State :=
  { s with
    lt := s.lt + 1
    alarms := s.alarms.map fun x => AlarmSlot.compare x ((s.lt + 1).setWidth 32) }

/-- `SYNC` (R271). -/
def State.sync (s : State) (offs : BitVec 64) : State := { s with offs := offs, hasSynced := true }

/-- `DIN` (R272). -/
def State.setDin (s : State) (v : BitVec 16) : State := { s with din := s.inputBits v }

/-- `QUIET` (R272). -/
def State.setQuiet (s : State) (b : Bool) : State := { s with quiet := b }

/-- Reset (R290): the parameters stay, the environment's lists are handed on, everything else is as after reset. -/
def State.applyReset (s : State) (d : ResetDraws) : State :=
  State.afterReset s.params d s.agenda s.draws s.freeCtr

/-! ## One scheduled step -/

/-- The next schedule entry, and the state with it taken (assumption 2). -/
def State.nextAction (s : State) : Action × State :=
  match s.agenda with
  | a :: rest => (a, { s with agenda := rest })
  | [] => (Config.schedule s.freeCtr, { s with freeCtr := s.freeCtr + 1 })

/-- The step of the agent an entry names. While `FAULT` is set only a reset does anything (R253, U25). -/
def perform (a : Action) (s : State) : Result :=
  match a with
  | .reset d => .next (s.applyReset d)
  | .main => s.running (mainStep s)
  | .command w => s.running (takeCommand w s)
  | .irq q => s.running (serveIrq q s)
  | .dma c => s.running (exec (.dmaBeat c) s)
  | .uart c => s.running (exec (.uartShift c) s)
  | .tick => s.running (.next s.tick)
  | .sync offs => s.running (.next (s.sync offs))
  | .din v => s.running (.next (s.setDin v))
  | .quiet b => s.running (.next (s.setQuiet b))

/-! ## Where an operation is fetched (assumption 17) -/

/-- The main thread's position at the first label of an operation (R32). -/
def firstFrame : Instr → Frame
  | .chSetup c => .chSetup c .s0
  | .chTeardown c => .chTeardown c .t0
  | .auxSwitch fn => .auxSwitch fn .a0
  | .auxRebaud => .auxRebaud .b0
  | .ppsSetup => .ppsSetup .p0
  | .ppsTeardown => .ppsTeardown .r0
  | i => .selected i

/-- The next step runs the command word `w`: it stands at the head of the schedule, and the main thread is idle and
booted. -/
def State.fetchCommand (s : State) (w : CmdWord) : State :=
  { s with mpc := [], booted := true, agenda := .command w :: s.agenda }

/-- The next step runs operation `i`, which no command word selects: its agent is next in the schedule, and where that
is the main thread, it stands at the operation's first label. -/
def State.fetchTagged (s : State) (i : Instr) : State :=
  match i with
  | .boot => { s with mpc := [], booted := false, agenda := .main :: s.agenda }
  | .dmaBeat c => { s with agenda := .dma c :: s.agenda }
  | .uartShift c => { s with agenda := .uart c :: s.agenda }
  | i => { s with mpc := [firstFrame i], agenda := .main :: s.agenda }

end Sys2Proof.Machine
end

