-- ==== Sys2Proof/Machine/Step.lean ====
section
/-!
DEFINITION. One step of the machine: the step of the agent that the schedule names next (10_state.md R20, R21); and the
host's entry for placing one operation.
-/

namespace Sys2Proof.Machine

/-- The next schedule entry is taken and its agent's step performed. -/
def step (s : State) : Host.Outcome State Fault Refusal :=
  perform s.nextAction.1 s.nextAction.2

/-- `s` with the operation whose `nbits`-bit word is `w` placed where the very next step runs it (assumption 17). A
word that is no operation's is placed at the command port (48 bits) or nowhere. -/
def State.withFetchWord (s : State) (nbits w : Nat) : State :=
  if nbits = 48 then s.fetchCommand (BitVec.ofNat 48 w)
  else
    match decodeTableWord nbits w with
    | some i => s.fetchTagged i
    | none => s

end Sys2Proof.Machine
end

