-- ==== Sys2Proof/Safety.lean ====
section
/-!
DEFINITION. What claims are stated in: runs, the invariants of 10_state.md R55 to R58 and of 42_aux_controller.md R188 with
what they need between two micro-ops, and the named premises of 70_reset_and_hazards.md R315 to R318. No premise is
built into the step.
-/

namespace Sys2Proof.Safety

open Sys2Proof.Machine

/-! ## Runs -/

/-- The main thread alone: `n` micro-ops in a row, no other agent between them. -/
def mainRun : Nat → State → Result
  | 0, s => .next s
  | n + 1, s =>
    match s.running (mainStep s) with
    | .next t => mainRun n t
    | .fault f => .fault f
    | .refused r => .refused r

/-- An operation of the main thread from its first micro-op on: that one, then `n` more with no other agent between
them. -/
def operation (i : Instr) (n : Nat) (s : State) : Result :=
  match exec i s with
  | .next t => mainRun n t
  | .fault f => .fault f
  | .refused r => .refused r

/-- The given schedule entries, one after the other. -/
def runOf : List Action → State → Result
  | [], s => .next s
  | a :: as, s =>
    match perform a s with
    | .next t => runOf as t
    | .fault f => .fault f
    | .refused r => .refused r

/-- The counter checks of a sequence of polls, each at the local time listed for it. -/
def counterPasses : List (BitVec 64) → State → State
  | [], s => s
  | t :: ts, s => counterPasses ts (State.counterTick { s with lt := t })

/-- `n` microseconds in which no other agent moves. -/
def tickRun : Nat → State → State
  | 0, s => s
  | n + 1, s => tickRun n s.tick

/-- One moment of a run: the schedule entry taken and the state before it. -/
structure Moment where
  action : Action
  before : State

/-- The moments of a run that takes the given entries from `s`, up to the first stop. -/
def moments : List Action → State → List Moment
  | [], _ => []
  | a :: as, s =>
    { action := a, before := s } ::
      match perform a s with
      | .next t => moments as t
      | _ => []

/-- A moment at which the step an entry names is taken: the block is not faulted (R253). -/
def Moment.takes (m : Moment) (a : Action) : Prop := m.action = a ∧ m.before.fault = none

/-- A moment at which line `q` is served: the `IRQ` agent's step is enabled for it and taken (R22). An entry for a line
that is not pending is no such moment (assumption 3). -/
def Moment.serves (m : Moment) (q : Nat) : Prop := Moment.takes m (.irq q) ∧ m.before.pending q = true

/-- A moment at which the handler of channel `c` is served. -/
def Moment.fires (m : Moment) (c : Ch) : Prop :=
  ∃ q, Moment.serves m q ∧ (m.before.line q).handler = .chFire c

/-- A moment at which the main thread performs a micro-op (R8): the next one of the operation in progress, `BOOT`, or
the first of a command word it takes (R32, R33), the error reply to a register the block does not have among them
(R110 (a)). An entry for an idle booted thread, a word that is dropped because the thread is busy or has not booted
(assumption 3), and a reserved word (R110 (b)) are no such moments. -/
def Moment.microOp (m : Moment) : Prop :=
  m.before.fault = none ∧
    match m.action with
    | .main => ¬(m.before.mpc = [] ∧ m.before.booted = true)
    | .command w => (m.before.mpc = [] ∧ m.before.booted = true) ∧ ∀ op, decodeCommand w ≠ .reserved op
    | _ => False

/-- How many microseconds pass in a part of a run. -/
def ticksIn (ms : List Moment) : Nat :=
  (ms.filter fun m => m.action == .tick && m.before.fault.isNone).length

/-! ## The canonical form of a state -/

/-- The address is one of a buffer byte that exists (R71). -/
def addressExists (s : State) (a : Nat) : Bool :=
  [Ch.pri, Ch.aux].any fun c =>
    [Slot.zero, Slot.one].any fun sl => (List.range (s.len c)).any fun i => a == bufAddr c sl i

/-- A transfer in progress has a byte left and moves a whole message (R43, R130). -/
def transferOk (s : State) (x : DmaChan) : Bool :=
  !x.busy || (decide (x.pos < x.count) && decide (x.count = s.len x.srcCh))

/-- The parameters meet R4; there are as many slots, lines and channels as they say (R38, R41, R43); FIFOs keep within
their depth (R44); the inputs have `N_INPUTS` bits (R53); the buffer memory is in canonical form and lists only bytes
that exist (R71); every transfer in progress is one of a whole message. -/
structure Canonical (s : State) : Prop where
  params : s.params.valid = true
  alarms : s.alarms.length = s.params.nAlarms
  lines : s.lines.length = s.params.nAlarms
  dma : s.dma.length = s.params.nDma
  fifoPri : s.uart.pri.fifo.length ≤ s.params.uartFifoDepth
  fifoAux : s.uart.aux.fifo.length ≤ s.params.uartFifoDepth
  din : s.inputBits s.din = s.din
  bufWf : Memory.wf s.buf = true
  bufOk : s.buf.all (fun e => addressExists s e.1) = true
  transfers : s.dma.all (transferOk s) = true

/-! ## Buffer bytes are written before they are read (R88) -/

/-- Every byte of a slot has a value. -/
def slotWritten (s : State) (c : Ch) (sl : Slot) : Bool :=
  (List.range (s.len c)).all fun i => (Memory.read s.buf (bufAddr c sl i)).isSome

/-- Both slots of a channel are filled. -/
def pairWritten (s : State) (c : Ch) : Bool := slotWritten s c .zero && slotWritten s c .one

/-- What the position of a setup says about its buffers (R154: `s3a`, `s3b` come before the handler is bound). -/
def frameWritten (s : State) : Frame → Bool
  | .chSetup c .s3b => slotWritten s c .zero
  | .chSetup c .s3c | .chSetup c .s4a | .chSetup c .s4b | .chSetup c .s5a | .chSetup c (.s5b _) => pairWritten s c
  | .selected _ => false
  | _ => true

/-- Whoever can start a transfer, or is in one, has filled buffers. -/
structure Written (s : State) : Prop where
  frames : s.mpc.all (frameWritten s) = true
  handlers : ∀ l ∈ s.lines, ∀ c, l.handler = .chFire c → pairWritten s c = true
  transfers : ∀ x ∈ s.dma, x.busy = true → pairWritten s x.srcCh = true

/-! ## Enabled lines are bound (R303: attach precedes enable and disable precedes detach) -/

/-- What the main thread's position says about the line it is working on. -/
def frameLine (s : State) : List Frame → Prop
  | .chSetup c .s4b :: _ => (s.line (s.ch.get c).irq).handler ≠ .none ∨ s.alarmOf (s.ch.get c).irq = none
  | .ppsSetup .p3b :: _ => (s.line s.pps.irq).handler ≠ .none ∨ s.alarmOf s.pps.irq = none
  | .chTeardown c .t4 :: _ | .chTeardown c .t5 :: _ => (s.line (s.ch.get c).irq).enabled = false
  | .ppsTeardown .r4 :: _ | .ppsTeardown .r5 :: _ => (s.line s.pps.irq).enabled = false
  | _ => True

/-- The frames of operations that call nothing: they never stand below another. -/
def Frame.isLeaf : Frame → Bool
  | .chSetup _ _ | .chTeardown _ _ | .ppsSetup _ | .ppsTeardown _ => true
  | _ => false

/-- Only callers stand below the operation in progress (R277: calls never recurse). -/
def callersBelow (fs : List Frame) : Bool := fs.tail.all fun f => !Frame.isLeaf f

/-- Every enabled line has a handler. -/
structure Bound (s : State) : Prop where
  lines : ∀ l ∈ s.lines, l.enabled = true → l.handler ≠ .none
  position : frameLine s s.mpc
  callers : callersBelow s.mpc = true

/-! ## Single claim (R56) -/

/-- The channel's context holds its alarm slot: it is active and its teardown has not passed `t4`, or its setup is
between `s1b` and `s1c`. -/
def alarmHeld (s : State) (c : Ch) : Bool :=
  match s.mpc with
  | .chTeardown c' l :: _ =>
    (s.ch.get c).active &&
      !(decide (c' = c) && (l == .t5 || l == .t6 || l == .t7 || l == .t8))
  | .chSetup c' l :: _ => (s.ch.get c).active || (decide (c' = c) && l == .s1c)
  | _ => (s.ch.get c).active

/-- The channel's context holds its data-mover channel: it is active and its teardown has not passed `t6`, or its setup
is between `s1a` and `s1c`. -/
def dmaHeld (s : State) (c : Ch) : Bool :=
  match s.mpc with
  | .chTeardown c' l :: _ => (s.ch.get c).active && !(decide (c' = c) && (l == .t7 || l == .t8))
  | .chSetup c' l :: _ => (s.ch.get c).active || (decide (c' = c) && (l == .s1b || l == .s1c))
  | _ => (s.ch.get c).active

/-- The pulse-per-second context holds its alarm slot. -/
def ppsHeld (s : State) : Bool :=
  match s.mpc with
  | .ppsTeardown l :: _ => s.pps.active && !(l == .r5 || l == .r6 || l == .r7)
  | .ppsSetup l :: _ => s.pps.active || l == .p1b
  | _ => s.pps.active

/-- The alarm slots that contexts hold. -/
def heldAlarms (s : State) : List Nat :=
  (if alarmHeld s .pri then [s.ch.pri.alarm] else []) ++ (if alarmHeld s .aux then [s.ch.aux.alarm] else []) ++
    (if ppsHeld s then [s.pps.alarm] else [])

/-- The data-mover channels that contexts hold. -/
def heldDma (s : State) : List Nat :=
  (if dmaHeld s .pri then [s.ch.pri.dma] else []) ++ (if dmaHeld s .aux then [s.ch.aux.dma] else [])

/-- A teardown past its first micro-op is one of an active context (R156, R187). -/
def teardownActive (s : State) : List Frame → Prop
  | .chTeardown c l :: _ => l = .t0 ∨ (s.ch.get c).active = true
  | .ppsTeardown l :: _ => l = .r0 ∨ s.pps.active = true
  | _ => True

/-- "a hardware alarm slot, a data-mover channel ... may be claimed by at most one active channel/mode at a time" (R56):
the held ids are distinct, exist and are claimed. -/
structure SingleClaim (s : State) : Prop where
  alarmsDistinct : (heldAlarms s).Nodup
  alarmsClaimed : ∀ a ∈ heldAlarms s, a < s.alarms.length ∧ (s.alarm a).claimed = true
  dmaDistinct : (heldDma s).Nodup
  dmaClaimed : ∀ d ∈ heldDma s, d < s.dma.length ∧ (s.dmaChan d).claimed = true
  position : teardownActive s s.mpc
  callers : callersBelow s.mpc = true

/-! ## The ping-pong discipline (R47, R55, R82, R83) -/

/-- No transfer of the channel is in progress and no enabled line runs its handler. -/
structure Quiet (s : State) (c : Ch) : Prop where
  transfers : ∀ d, (s.dmaChan d).busy = true → (s.dmaChan d).srcCh ≠ c
  lines : ∀ q, (s.line q).enabled = true → (s.line q).handler ≠ .chFire c

/-- What the main thread's position says about the channel it is building or tearing down. -/
def swapPosition (s : State) : List Frame → Prop
  | .boot :: _ => (s.ch.get .pri).active = false
  | .chSetup c l :: _ =>
    match l with
    | .s0 | .s1a | .s1b | .s1c => (s.ch.get c).active = false
    | .s2a | .s2b | .s3a | .s3b | .s3c | .s4a => (s.ch.get c).active = true ∧ Quiet s c
    | .s4b =>
      (s.ch.get c).active = true ∧
        ((s.line (s.ch.get c).irq).handler = .chFire c ∨ s.alarmOf (s.ch.get c).irq = none)
    | .s5a | .s5b _ => True
  | .chTeardown c l :: _ =>
    match l with
    | .t0 | .t1 | .t2 | .t3 => True
    | .t4 | .t5 | .t6 => ∀ q, (s.line q).enabled = true → (s.line q).handler ≠ .chFire c
    | .t7 | .t8 => Quiet s c
  | .ppsSetup .p3b :: _ => (s.line s.pps.irq).handler = .ppsFire ∨ s.alarmOf s.pps.irq = none
  | _ => True

/-- Every transfer in progress is the one of an active channel and reads the slot that is not the dispatch slot any more;
only the line of an active channel runs its handler; no channel, pulse or controller state is built before `BOOT`. -/
structure PingPong (s : State) : Prop where
  transfers : ∀ d, (s.dmaChan d).busy = true →
    (s.ch.get (s.dmaChan d).srcCh).active = true ∧ (s.ch.get (s.dmaChan d).srcCh).dma = d ∧
      (s.dmaChan d).srcSlot = otherSlot (s.ch.get (s.dmaChan d).srcCh).dispatchIdx
  lines : ∀ q c, (s.line q).enabled = true → (s.line q).handler = .chFire c →
    (s.ch.get c).active = true ∧ (s.ch.get c).irq = q
  unbooted : s.booted = false →
    s.mpc = [] ∧ s.ch.pri.active = false ∧ s.ch.aux.active = false ∧ s.pps.active = false ∧ s.auxState = .disabled
  position : swapPosition s s.mpc

/-! ## Enough slots and channels (R292 (5)) -/

/-- Free or held, there are two alarm slots and two data-mover channels. -/
structure Supply (s : State) : Prop where
  alarms : 2 ≤ s.freeAlarms.length + (heldAlarms s).length
  dma : 2 ≤ s.freeDma.length + (heldDma s).length

/-! ## The byte stream of a channel (R133) -/

/-- The bytes that the channel's transfer in progress has still to move, as they are now. -/
def toMove (s : State) (c : Ch) : List (Option Byte) :=
  if (s.dmaOf c).busy = true ∧ (s.dmaOf c).srcCh = c then
    (List.range' (s.dmaOf c).pos ((s.dmaOf c).count - (s.dmaOf c).pos)).map fun i =>
      Memory.read s.buf (bufAddr c (s.dmaOf c).srcSlot i)
  else []

/-- What has been sent, what waits in the FIFO, what has still to be moved. -/
def byteStream (s : State) (c : Ch) : List (Option Byte) :=
  (s.wire.get c ++ (s.uart.get c).fifo).map some ++ toMove s c

/-- A message as it stands in a slot. -/
def messageIn (s : State) (c : Ch) (sl : Slot) : List (Option Byte) :=
  (List.range (s.len c)).map fun i => Memory.read s.buf (bufAddr c sl i)

/-! ## The history (R52, R104, R111) -/

/-- A word that the history may hold: an operation's, or a command word for a register the block does not have. -/
def loggable (w : OpWord) : Bool :=
  match w with
  | .tag t => (decodeTag t).isSome
  | .cmd w =>
    match decodeCommand w with
    | .reserved _ => false
    | _ => true

/-! ## The multiplexer: register, controller and resources agree (R29, R49, R57, R58, R180, R188) -/

/-- The `AuxPortFn` code of a controller state (R29, R107). -/
def codeOf : AuxState → BitVec 8
  | .disabled => 0
  | .auxClockBroadcast => 1
  | .pulsePerSecond => 2

/-- The auxiliary resources as they stand: both active flags, the pin, the UART. -/
structure Built where
  channel : Bool
  pps : Bool
  pin : PinFn
  uart : Bool
  deriving DecidableEq

/-- The auxiliary resources of a state. -/
def builtOf (s : State) : Built :=
  { channel := s.ch.aux.active, pps := s.pps.active, pin := s.pin.aux.fn, uart := s.uart.aux.init }

/-- What each controller state holds while nothing is being rebuilt (R180). -/
def Built.complete : AuxState → Built
  | .disabled => { channel := false, pps := false, pin := .none, uart := false }
  | .auxClockBroadcast => { channel := true, pps := false, pin := .uartTx, uart := true }
  | .pulsePerSecond => { channel := false, pps := true, pin := .gpioOut, uart := false }

/-- What `CH.SETUP(AUX)` has built at a label. -/
def Built.setup : SetupAt → Built
  | .s0 | .s1a | .s1b | .s1c => Built.complete .disabled
  | .s2a => { channel := true, pps := false, pin := .none, uart := false }
  | .s2b => { channel := true, pps := false, pin := .none, uart := true }
  | _ => Built.complete .auxClockBroadcast

/-- What `CH.TEARDOWN(AUX)` has left at a label. -/
def Built.teardown : TeardownAt → Built
  | .t8 => { channel := true, pps := false, pin := .none, uart := false }
  | _ => Built.complete .auxClockBroadcast

/-- What `PPS.SETUP` has built at a label. -/
def Built.ppsSetup : PpsSetupAt → Built
  | .p0 | .p1a | .p1b => Built.complete .disabled
  | .p2 => { channel := false, pps := true, pin := .none, uart := false }
  | _ => Built.complete .pulsePerSecond

/-- What `PPS.TEARDOWN` has left at a label. -/
def Built.ppsTeardown : PpsTeardownAt → Built
  | .r7 => { channel := false, pps := true, pin := .none, uart := false }
  | _ => Built.complete .pulsePerSecond

/-- Nothing is being rebuilt: the controller's state, its resources and the register agree. -/
def settled (s : State) : Prop :=
  builtOf s = Built.complete s.auxState ∧ s.regs.auxPortFn = codeOf s.auxState

/-- `CounterFrequencyHz` is legal and the interval is its own (R58). -/
def freqOk (s : State) : Prop :=
  s.regs.counterFreqHz.toNat ≤ s.params.maxCounterFreqHz.toNat ∧
    (s.regs.counterFreqHz ≠ 0 → s.intervalUs = interval s.regs.counterFreqHz)

/-- `AuxBaudRate` is legal (R58). -/
def baudOk (s : State) : Prop := baudOutOfRange s.params s.regs.auxBaudRate = false

/-- `AUX.SWITCH fn` was called by `WR.AUXFN p` with `p = fn` stored in the register. -/
def switching (s : State) (fn : BitVec 2) (p : BitVec 32) : Prop :=
  fn = p.setWidth 2 ∧ auxfnIllegal p = false ∧ s.regs.auxPortFn = p.setWidth 8 ∧ freqOk s ∧ baudOk s

/-- `AUX.REBAUD` was called by `WR.AUXBAUD`. -/
def rebauding (s : State) : Prop :=
  s.auxState = .auxClockBroadcast ∧ s.regs.auxPortFn = 1 ∧ freqOk s ∧ baudOk s

/-- What holds at each position of the main thread. A position that is not listed is not reached. -/
def modeAt (s : State) : List Frame → Prop
  | [] | [.boot] | [.chSetup .pri _] | [.wrCounter _] | [.poll _ _ _] => settled s ∧ freqOk s ∧ baudOk s
  | [.wrFreq p l] =>
    settled s ∧ baudOk s ∧ tooWide 2 p = false ∧
      match l with
      | .w2 | .w5 => freqOk s
      | .w3 => s.regs.counterFreqHz = p.setWidth 16
      | .w4 => s.regs.counterFreqHz = p.setWidth 16 ∧ freqTooHigh s.params p = false
  | [.wrAuxfn p l] =>
    freqOk s ∧ baudOk s ∧ tooWide 3 p = false ∧ builtOf s = Built.complete s.auxState ∧
      match l with
      | .w2 => s.regs.auxPortFn = codeOf s.auxState
      | .w3 prev => prev = codeOf s.auxState ∧ s.regs.auxPortFn = p.setWidth 8
      | .w4 prev => prev = codeOf s.auxState ∧ s.regs.auxPortFn = p.setWidth 8 ∧ auxfnIllegal p = false
      | .w5 => s.regs.auxPortFn = p.setWidth 8 ∧ auxfnIllegal p = false ∧ p ≠ (codeOf s.auxState).setWidth 32
      | .w6 => s.regs.auxPortFn = codeOf s.auxState
  | [.auxSwitch fn l, .wrAuxfn p .w6] =>
    switching s fn p ∧
      match l with
      | .a0 | .a1 => builtOf s = Built.complete s.auxState ∧ p ≠ (codeOf s.auxState).setWidth 32
      | .a2 => builtOf s = Built.complete .disabled
      | .a3 => s.auxState = .disabled ∧ builtOf s = Built.complete .disabled
      | .a4 => s.auxState = .disabled ∧ ∃ x, stateOf fn = some x ∧ builtOf s = Built.complete x
  | [.chTeardown .aux l, .auxSwitch fn .a2, .wrAuxfn p .w6] =>
    switching s fn p ∧ s.auxState = .auxClockBroadcast ∧ builtOf s = Built.teardown l
  | [.ppsTeardown l, .auxSwitch fn .a2, .wrAuxfn p .w6] =>
    switching s fn p ∧ s.auxState = .pulsePerSecond ∧ builtOf s = Built.ppsTeardown l
  | [.chSetup .aux l, .auxSwitch fn .a4, .wrAuxfn p .w6] =>
    switching s fn p ∧ fn = 1 ∧ s.auxState = .disabled ∧ builtOf s = Built.setup l
  | [.ppsSetup l, .auxSwitch fn .a4, .wrAuxfn p .w6] =>
    switching s fn p ∧ fn = 2 ∧ s.auxState = .disabled ∧ builtOf s = Built.ppsSetup l
  | [.wrAuxbaud p l] =>
    settled s ∧ freqOk s ∧
      match l with
      | .w2 prev => s.regs.auxBaudRate = p ∧ baudOutOfRange s.params prev = false
      | .w3 | .w4 => baudOk s
  | [.auxRebaud l, .wrAuxbaud _ .w4] =>
    rebauding s ∧
      match l with
      | .b0 | .b1 => builtOf s = Built.complete .auxClockBroadcast
      | .b2 => builtOf s = Built.complete .disabled
  | [.chTeardown .aux l, .auxRebaud .b2, .wrAuxbaud _ .w4] => rebauding s ∧ builtOf s = Built.teardown l
  | [.chSetup .aux l, .wrAuxbaud _ .w4] => rebauding s ∧ builtOf s = Built.setup l
  | _ => False

/-- The multiplexer's invariant; for an idle main thread it is R49, R58 and R180. The legal registers need legal
parameters (R4). -/
structure Multiplexed (s : State) : Prop where
  params : s.params.valid = true
  mode : modeAt s s.mpc

/-! ## The named premises of R315 to R318 -/

/-- `IrqPrompt(L)` (R315): while a line is pending and not served, at most `L` microseconds pass, and for `L = 0` the
main thread performs no micro-op. -/
def IrqPrompt (l : Nat) (ms : List Moment) : Prop :=
  ∀ q pre mid post, ms = pre ++ mid ++ post →
    (∀ m ∈ mid, m.before.pending q = true ∧ ¬Moment.serves m q) →
      ticksIn mid ≤ l ∧ (l = 0 → ∀ m ∈ mid, ¬Moment.microOp m)

/-- `NoOverlap` (R316): every transfer has drained before the next `CH.FIRE` of its channel. -/
def NoOverlap (ms : List Moment) : Prop :=
  ∀ m ∈ ms, ∀ c, Moment.fires m c → (m.before.dmaOf c).busy = false

/-- `UartDrain` (R316): the FIFO is empty as well. -/
def UartDrain (ms : List Moment) : Prop :=
  ∀ m ∈ ms, ∀ c, Moment.fires m c → (m.before.dmaOf c).busy = false ∧ (m.before.uart.get c).fifo = []

/-- `SyncQuiet` (R317): no `SYNC` step after `BOOT` has started. -/
def SyncQuiet (ms : List Moment) : Prop :=
  ∀ m ∈ ms, m.before.booted = true → ∀ o, ¬Moment.takes m (.sync o)

/-- `TeardownClean` (R318): the line being torn down is not served between `t1` and `t2` (`r1` and `r2`). -/
def TeardownClean (ms : List Moment) : Prop :=
  ∀ m ∈ ms,
    match m.before.mpc with
    | .chTeardown c .t2 :: _ => ¬Moment.serves m (m.before.ch.get c).irq
    | .ppsTeardown .r2 :: _ => ¬Moment.serves m m.before.pps.irq
    | _ => True

/-- `SetupPrompt` (R318): no microsecond passes between reading the time and arming. -/
def SetupPrompt (ms : List Moment) : Prop :=
  ∀ m ∈ ms,
    match m.before.mpc with
    | .chSetup _ (.s5b _) :: _ => ¬Moment.takes m .tick
    | .ppsSetup (.p4b _) :: _ => ¬Moment.takes m .tick
    | _ => True

/-- A moment at which a `POLL` ends. -/
def Moment.endsPoll (m : Moment) : Prop :=
  Moment.takes m .main ∧ ∃ reg x fs, m.before.mpc = .poll reg x .p3 :: fs

/-- `PollRate(G)` (R318): at most `g` microseconds pass between the ends of two consecutive `POLL`s. -/
def PollRate (g : Nat) (ms : List Moment) : Prop :=
  ∀ pre a mid b post, ms = pre ++ [a] ++ mid ++ [b] ++ post → Moment.endsPoll a → Moment.endsPoll b →
    (∀ m ∈ mid, ¬Moment.endsPoll m) → ticksIn mid ≤ g

end Sys2Proof.Safety
end

