-- ==== Sys2Proof/Certificates/Slice0/Obligations.lean ====
section
/-!
DEFINITION. The statements for the provers. Micro-op statements give the whole next state as a record update of the
state before, so they are frames as well; a buffer after a store is given byte by byte.
-/

open Sys2Proof Sys2Proof.Machine Sys2Proof.Safety

/-! ## Encoding -/

/-- Decoding the encoding of an operation gives it back (R102, R104, R116). -/
def Obligations.DecodeEncodeRoundTrip : Prop :=
  ∀ i : Instr, i.wf = true → decodeOpWord (encode i) = some i

/-- A word or tag that decodes is the encoding of what it decodes to, and that is an operation of R100. -/
def Obligations.EncodeDecodeRoundTrip : Prop :=
  ∀ (w : OpWord) (i : Instr), decodeOpWord w = some i → i.wf = true ∧ encode i = w

/-- The decoder of format C, field by field (R102). -/
def Obligations.CommandWordFields : Prop :=
  ∀ w : CmdWord,
    (w.extractLsb' 40 8 = 1 →
      (w.extractLsb' 32 8 = 0 → decodeCommand w = .instr (.rdConnected (w.extractLsb' 0 32))) ∧
      (w.extractLsb' 32 8 = 1 → decodeCommand w = .instr (.rdCounter (w.extractLsb' 0 32))) ∧
      (w.extractLsb' 32 8 = 2 → decodeCommand w = .instr (.rdFreq (w.extractLsb' 0 32))) ∧
      (w.extractLsb' 32 8 = 3 → decodeCommand w = .instr (.rdAuxfn (w.extractLsb' 0 32))) ∧
      (w.extractLsb' 32 8 = 4 → decodeCommand w = .instr (.rdAuxbaud (w.extractLsb' 0 32))) ∧
      (4 < (w.extractLsb' 32 8).toNat → decodeCommand w = .badRead (w.extractLsb' 32 8))) ∧
    (w.extractLsb' 40 8 = 2 →
      (w.extractLsb' 32 8 = 0 → decodeCommand w = .instr (.wrConnected (w.extractLsb' 0 32))) ∧
      (w.extractLsb' 32 8 = 1 → decodeCommand w = .instr (.wrCounter (w.extractLsb' 0 32))) ∧
      (w.extractLsb' 32 8 = 2 → decodeCommand w = .instr (.wrFreq (w.extractLsb' 0 32))) ∧
      (w.extractLsb' 32 8 = 3 → decodeCommand w = .instr (.wrAuxfn (w.extractLsb' 0 32))) ∧
      (w.extractLsb' 32 8 = 4 → decodeCommand w = .instr (.wrAuxbaud (w.extractLsb' 0 32))) ∧
      (4 < (w.extractLsb' 32 8).toNat → decodeCommand w = .badWrite (w.extractLsb' 32 8))) ∧
    (w.extractLsb' 40 8 = 3 →
      decodeCommand w = .instr (.poll (w.extractLsb' 32 8) (w.extractLsb' 0 32))) ∧
    (w.extractLsb' 40 8 ≠ 1 → w.extractLsb' 40 8 ≠ 2 → w.extractLsb' 40 8 ≠ 3 →
      decodeCommand w = .reserved (w.extractLsb' 40 8))

/-- Command words written out from the format decode to the operations they stand for, and the decoder of format U is
the table of R104, every other tag being reserved (R104, R111, R116). -/
def Obligations.SampleWordsDecode : Prop :=
  (decodeOpWord (.cmd 0x0101FFFFFFFF) = some (.rdCounter 0xFFFFFFFF) ∧
      decodeOpWord (.cmd 0x020300000001) = some (.wrAuxfn 1) ∧
      decodeOpWord (.cmd 0x03FF12345678) = some (.poll 0xFF 0x12345678) ∧
      decodeOpWord (.tag 0b00010111) = some (.txStart .aux) ∧
      decodeOpWord (.tag 0b00010010) = some (.chFire .pri) ∧
      decodeOpWord (.tag 0b00110010) = some (.auxSwitch 2) ∧
      decodeOpWord (.tag 0b01000000) = some .boot ∧ decodeOpWord (.tag 0b00110011) = none) ∧
    (∀ t : Tag, decodeTag t =
      List.lookup t
        [(0x10, .chSetup .pri), (0x11, .chSetup .aux), (0x12, .chFire .pri), (0x13, .chFire .aux),
          (0x14, .chTeardown .pri), (0x15, .chTeardown .aux), (0x16, .txStart .pri), (0x17, .txStart .aux),
          (0x18, .dmaBeat .pri), (0x19, .dmaBeat .aux), (0x1A, .uartShift .pri), (0x1B, .uartShift .aux),
          (0x20, .ppsSetup), (0x22, .ppsFire), (0x24, .ppsTeardown), (0x30, .auxSwitch 0), (0x31, .auxSwitch 1),
          (0x32, .auxSwitch 2), (0x34, .auxRebaud), (0x40, .boot)])

/-! ## Steps -/

/-- One step is `exec` of the operation that the schedule entry's agent performs, on the state with the entry taken: a
command word that decodes, `BOOT` first, the operation in progress, the data-mover, the serialiser; for the other
entries see InterruptEntry and EnvironmentSteps. The list of entries is the model's (log entry 2). -/
def Obligations.StepRunsSelectedOperation : Prop :=
  ∀ (s : State) (rest : List Action), s.fault = none →
    (∀ w i, s.agenda = .command w :: rest → s.mpc = [] → s.booted = true → decodeCommand w = .instr i →
      step s = exec i { s with agenda := rest }) ∧
    (s.agenda = .main :: rest → s.mpc = [] → s.booted = false → step s = exec .boot { s with agenda := rest }) ∧
    (∀ f fs, s.agenda = .main :: rest → s.mpc = f :: fs → (∀ i, f ≠ .selected i) →
      step s = exec f.instr { s with agenda := rest }) ∧
    (∀ c, s.agenda = .dma c :: rest → step s = exec (.dmaBeat c) { s with agenda := rest }) ∧
    (∀ c, s.agenda = .uart c :: rest → step s = exec (.uartShift c) { s with agenda := rest }) ∧
    (∀ a, s.agenda = a :: rest → step s = perform a { s with agenda := rest })

/-- An operation placed as its command word or its tag is what the very next step runs (the model's placing of an
operation: log entry 17). -/
def Obligations.PlacedWordRuns : Prop :=
  ∀ (s : State) (w : Nat) (i : Instr), s.fault = none →
    (decodeTableWord 48 w = some i →
      step (s.withFetchWord 48 w) = exec i { s with mpc := [], booted := true }) ∧
    (decodeTableWord 8 w = some i →
      step (s.withFetchWord 8 w) =
        exec i
          (match i with
          | .boot => { s with mpc := [], booted := false }
          | .dmaBeat _ | .uartShift _ => s
          | .txStart _ | .chFire _ | .ppsFire => { s with mpc := [] }
          | i => { s with mpc := [firstFrame i] }))

/-- A command word for a register the block does not have is answered by an error reply and logged (R110 (a), log
entry 31); one with a reserved `op` is refused (R110 (b), log entry 9); while the main thread is busy or `BOOT` has
not been taken no word is taken (log entry 3). The reserved function of `AUX.SWITCH` is refused (R104, R111, log entry
20). -/
def Obligations.ReservedCommandWords : Prop :=
  (∀ (s : State) (rest : List Action) (w : CmdWord), s.fault = none → s.agenda = .command w :: rest →
    (s.mpc = [] → s.booted = true → w.extractLsb' 40 8 = 1 → 4 < (w.extractLsb' 32 8).toNat →
      step s =
        .next
          { s with
            agenda := rest
            hist := s.hist ++ [.cmd w]
            rlog := s.rlog ++ [((0x09 : BitVec 8) ++ w.extractLsb' 32 8) ++ (0 : BitVec 32)] }) ∧
    (s.mpc = [] → s.booted = true → w.extractLsb' 40 8 = 2 → 4 < (w.extractLsb' 32 8).toNat →
      step s =
        .next
          { s with
            agenda := rest
            hist := s.hist ++ [.cmd w]
            rlog := s.rlog ++ [((0x0A : BitVec 8) ++ w.extractLsb' 32 8) ++ (0 : BitVec 32)] }) ∧
    (s.mpc = [] → s.booted = true → w.extractLsb' 40 8 ≠ 1 → w.extractLsb' 40 8 ≠ 2 → w.extractLsb' 40 8 ≠ 3 →
      step s = .refused (.reservedOpcode (w.extractLsb' 40 8))) ∧
    (s.mpc ≠ [] ∨ s.booted = false → step s = .next { s with agenda := rest })) ∧
    ∀ s : State, s.fault = none → exec (.auxSwitch 3) s = .refused .reservedFunction

/-- Interrupt service (R22, R41, R256): a pending line with no handler raises `H_UNHANDLED_IRQ`, the entry itself
changes nothing else; an entry for a line that is not pending changes nothing (log entry 3). -/
def Obligations.InterruptEntry : Prop :=
  ∀ (s : State) (q : Nat), s.fault = none →
    (s.pending q = true ↔
      ∃ a, s.alarmOf q = some a ∧ (s.line q).enabled = true ∧ (s.alarm a).latch = true) ∧
    (s.pending q = false → perform (.irq q) s = .next s) ∧
    (s.pending q = true →
      ((s.line q).handler = .none → perform (.irq q) s = .next { s with fault := some .unhandledIrq }) ∧
      (∀ c, (s.line q).handler = .chFire c → perform (.irq q) s = exec (.chFire c) s) ∧
      ((s.line q).handler = .ppsFire → perform (.irq q) s = exec .ppsFire s))

/-- The environment's steps (R270, R271, R272). -/
def Obligations.EnvironmentSteps : Prop :=
  ∀ s : State, s.fault = none →
    perform .tick s =
      .next
        { s with
          lt := s.lt + 1
          alarms := s.alarms.map fun x =>
            if x.armed = true ∧ x.target = (s.lt + 1).extractLsb' 0 32 then { x with latch := true, armed := false }
            else x } ∧
    (∀ o, perform (.sync o) s = .next { s with offs := o, hasSynced := true }) ∧
    (∀ v : BitVec 16, v.toNat < 2 ^ s.params.nInputs → perform (.din v) s = .next { s with din := v }) ∧
    (∀ b, perform (.quiet b) s = .next { s with quiet := b })

/-! ## Reset and faults -/

/-- Every value that the table of R54 gives, whatever the parameters and the draws. -/
def Obligations.ResetValues : Prop :=
  ∀ (p : Params) (d : ResetDraws) (ag : List Action) (dr : List Nat) (n : Nat),
    let s := State.afterReset p d ag dr n
    s.regs =
        { connectedDevices := 0, counter := 0, counterFreqHz := 0, auxPortFn := 0, auxBaudRate := p.auxBaudReset } ∧
      s.mpc = [] ∧ s.booted = false ∧ s.lt = 0 ∧
      (∀ a, (s.alarm a).armed = false ∧ (s.alarm a).latch = false) ∧
      (∀ q, (s.line q).enabled = false ∧ (s.line q).handler = .none) ∧
      (∀ a, a < p.nAlarms → ((s.alarm a).claimed = false ↔ a ∈ p.alarmFree0)) ∧
      (∀ x, x < p.nDma → ((s.dmaChan x).claimed = false ↔ x ∈ p.dmaFree0)) ∧
      (∀ x, (s.dmaChan x).busy = false) ∧
      (p.primaryUartShared = false → s.uart.pri.init = false) ∧
      (s.uart.pri.init = true → s.uart.pri.baud = p.primaryBaud) ∧ s.uart.aux.init = false ∧
      s.uart.pri.fifo = [] ∧ s.uart.aux.fifo = [] ∧ s.pin.pri.fn = .none ∧ s.pin.aux.fn = .none ∧
      s.ch.pri.active = false ∧ s.ch.aux.active = false ∧ s.pps.active = false ∧ s.auxState = .disabled ∧
      s.intervalUs = 0 ∧ s.lastEmitUs = 0 ∧ s.prevInputs = 0 ∧ s.prevSynced = false ∧ s.fault = none ∧
      s.wire.pri = [] ∧ s.wire.aux = [] ∧ s.txLog = [] ∧ s.edgeLog = [] ∧ s.rlog = [] ∧ s.hist = []

/-- The machine after reset meets every invariant that is stated to be kept. -/
def Obligations.ResetEstablishesInvariants : Prop :=
  Canonical State.reset ∧ Written State.reset ∧ Bound State.reset ∧ SingleClaim State.reset ∧
    Multiplexed State.reset ∧ PingPong State.reset

/-- While `FAULT` is set every operation, and every step but a reset, stops with its code (R51, R253, log entry 7); a
reset can be applied in every state, also a faulted one (R290), and hands the environment's lists on (log entry 34).
-/
def Obligations.FaultStopsUntilReset : Prop :=
  (∀ (s : State) (code : FaultCode), s.fault = some code →
      (∀ i, exec i s = .fault (.stopped code)) ∧
      (∀ a rest, s.agenda = a :: rest → (∀ d, a ≠ .reset d) → step s = .fault (.stopped code)) ∧
      (∀ t, step s = .next t → (∃ d, s.nextAction.1 = .reset d) ∧ t.fault = none)) ∧
    (∀ (s : State) (rest : List Action) (d : ResetDraws), s.agenda = .reset d :: rest →
      step s = .next (State.afterReset s.params d rest s.draws s.freeCtr))

/-! ## Invariants that every step keeps -/

/-- Every step keeps the state in canonical form: legal parameters, as many slots, lines and channels as they say,
FIFOs within their depth, inputs of `N_INPUTS` bits, buffer memory in canonical form and holding existing bytes only,
transfers of whole messages (R4, R38, R43, R44, R53, R71, R130). -/
def Obligations.StepKeepsCanonical : Prop :=
  ∀ s t : State, Canonical s → step s = .next t → Canonical t

/-- Every step keeps: whoever can start a transfer, or is in one, has filled buffers; and so no step reads a buffer
byte that has never been written, or one that does not exist (R71, R83, R88). -/
def Obligations.OnlyWrittenBytesAreRead : Prop :=
  (∀ s t : State, Canonical s → Written s → step s = .next t → Written t) ∧
    (∀ s : State, Canonical s → Written s →
      ∀ (c : Ch) (sl : Slot) (n : Nat), step s ≠ .fault (.unwrittenByte c sl n) ∧ step s ≠ .fault (.noSuchByte c sl n))

/-- Every step keeps: an enabled line has a handler. So no step raises `H_UNHANDLED_IRQ` (R303: attach precedes enable
and disable precedes detach). -/
def Obligations.EnabledLinesAreBound : Prop :=
  ∀ s t : State, Canonical s → Bound s → step s = .next t → Bound t ∧ t.fault ≠ some .unhandledIrq

/-- Every step keeps the single-claim invariant (R56). -/
def Obligations.StepKeepsSingleClaim : Prop :=
  ∀ s t : State, SingleClaim s → step s = .next t → SingleClaim t

/-- Every step keeps the multiplexer's invariant (R29, R49, R57, R58, R180, R188). -/
def Obligations.StepKeepsMultiplexed : Prop :=
  ∀ s t : State, Multiplexed s → step s = .next t → Multiplexed t

/-- Every step keeps the ping-pong discipline (R55), and with it that before `BOOT` no channel, no pulse and no controller
state is built. -/
def Obligations.StepKeepsPingPong : Prop :=
  ∀ s t : State, Canonical s → Multiplexed s → PingPong s → step s = .next t → PingPong t

/-- While a transfer reads a slot, no step but a reset changes a byte of that slot (R55, R82, R302). -/
def Obligations.SlotUnderTransferIsStable : Prop :=
  ∀ s t : State, Multiplexed s → PingPong s → (∀ d, s.nextAction.1 ≠ .reset d) → step s = .next t →
    ∀ d n, (s.dmaChan d).busy = true → n < s.len (s.dmaChan d).srcCh →
      Memory.read t.buf (bufAddr (s.dmaChan d).srcCh (s.dmaChan d).srcSlot n) =
        Memory.read s.buf (bufAddr (s.dmaChan d).srcCh (s.dmaChan d).srcSlot n)

/-- With two alarm slots and two data-mover channels in the pools, no step raises `F_NO_ALARM` or `F_NO_DMA` (R292
(5)). -/
def Obligations.TwoOfEachNeverExhausted : Prop :=
  ∀ s t : State, SingleClaim s → Multiplexed s → Supply s → step s = .next t →
    t.fault ≠ some .noAlarm ∧ t.fault ≠ some .noDma ∧ ((∀ d, s.nextAction.1 ≠ .reset d) → Supply t)

/-- What the invariants say of an idle main thread: the held ids are distinct and claimed, the auxiliary channel and
the pulse are never both active, and the auxiliary pin has the user its function says (R56). -/
def Obligations.IdleClaimsAreSingle : Prop :=
  ∀ s : State, SingleClaim s → Multiplexed s → s.mpc = [] →
    (s.ch.pri.active = true → s.ch.aux.active = true →
      s.ch.pri.alarm ≠ s.ch.aux.alarm ∧ s.ch.pri.dma ≠ s.ch.aux.dma) ∧
    (s.ch.pri.active = true → s.pps.active = true → s.ch.pri.alarm ≠ s.pps.alarm) ∧
    (∀ c, (s.ch.get c).active = true →
      (s.alarm (s.ch.get c).alarm).claimed = true ∧ (s.dmaChan (s.ch.get c).dma).claimed = true) ∧
    (s.pps.active = true → (s.alarm s.pps.alarm).claimed = true) ∧
    (s.pin.aux.fn = .uartTx ↔ s.ch.aux.active = true) ∧ (s.pin.aux.fn = .gpioOut ↔ s.pps.active = true) ∧
    ¬(s.ch.aux.active = true ∧ s.pps.active = true)

/-- What the multiplexer's invariant says of an idle main thread: register, controller state and resources agree, and
every register is legal (R49, R58, R180). `Multiplexed` is the model's own invariant; that every run has it is
ResetEstablishesInvariants with StepKeepsMultiplexed. -/
def Obligations.IdleRegistersAgree : Prop :=
  ∀ s : State, Multiplexed s → s.mpc = [] →
    (s.regs.auxPortFn = 0 ∧ s.auxState = .disabled ∨ s.regs.auxPortFn = 1 ∧ s.auxState = .auxClockBroadcast ∨
      s.regs.auxPortFn = 2 ∧ s.auxState = .pulsePerSecond) ∧
    s.regs.counterFreqHz.toNat ≤ s.params.maxCounterFreqHz.toNat ∧
    s.params.minAuxBaud.toNat ≤ s.regs.auxBaudRate.toNat ∧ s.regs.auxBaudRate.toNat ≤ s.params.maxAuxBaud.toNat ∧
    (s.regs.counterFreqHz ≠ 0 → s.intervalUs.toNat = 1000000 / s.regs.counterFreqHz.toNat) ∧
    (s.auxState = .auxClockBroadcast ↔ s.ch.aux.active = true) ∧ (s.auxState = .pulsePerSecond ↔ s.pps.active = true)

/-- At every position of the main thread at most one user of the auxiliary resources is built, the pin's function is
its user's, and where a setup is about to start nothing is built (R57, R188). -/
def Obligations.OneUserOfTheAuxiliaryPin : Prop :=
  ∀ s : State, Multiplexed s →
    ¬(s.ch.aux.active = true ∧ s.pps.active = true) ∧
    (s.pin.aux.fn = .uartTx → s.ch.aux.active = true) ∧ (s.pin.aux.fn = .gpioOut → s.pps.active = true) ∧
    (∀ fn fs, s.mpc = .auxSwitch fn .a3 :: fs → builtOf s = Built.complete .disabled) ∧
    (∀ fs, s.mpc = .auxRebaud .b2 :: fs → builtOf s = Built.complete .disabled)

/-! ## Rules about the whole machine -/

/-- The agents other than the main thread and a reset claim, release, attach, detach, enable, disable and initialise
nothing, touch no register, make no reply and leave the main thread where it is (R25, R32, R42, R256, R262, R313). -/
def Obligations.ContextDiscipline : Prop :=
  ∀ (a : Action) (s t : State), a ≠ .main → (∀ w, a ≠ .command w) → (∀ d, a ≠ .reset d) → perform a s = .next t →
    t.params = s.params ∧ t.mpc = s.mpc ∧ t.booted = s.booted ∧ t.regs = s.regs ∧ t.lines = s.lines ∧
      t.auxState = s.auxState ∧ t.pps = s.pps ∧ t.rlog = s.rlog ∧ t.intervalUs = s.intervalUs ∧
      t.lastEmitUs = s.lastEmitUs ∧ t.prevInputs = s.prevInputs ∧ t.prevSynced = s.prevSynced ∧
      t.draws = s.draws ∧ t.freeCtr = s.freeCtr ∧
      (∀ n, (t.alarm n).claimed = (s.alarm n).claimed) ∧ (∀ n, (t.dmaChan n).claimed = (s.dmaChan n).claimed) ∧
      ∀ c, (t.ch.get c).active = (s.ch.get c).active ∧ (t.ch.get c).dma = (s.ch.get c).dma ∧
        (t.ch.get c).alarm = (s.ch.get c).alarm ∧ (t.ch.get c).irq = (s.ch.get c).irq ∧
        (t.ch.get c).baud = (s.ch.get c).baud ∧ (t.ch.get c).offsetUs = (s.ch.get c).offsetUs ∧
        (t.uart.get c).init = (s.uart.get c).init ∧ (t.uart.get c).baud = (s.uart.get c).baud ∧
        (t.pin.get c).fn = (s.pin.get c).fn

/-- An interrupt step does not depend on the five registers: with other register values it does the same (R25, R30,
R83, R312). -/
def Obligations.HandlersReadNoRegister : Prop :=
  ∀ (s : State) (r : Regs) (q : Nat),
    match perform (.irq q) s with
    | .next t => perform (.irq q) { s with regs := r } = .next { t with regs := r }
    | .fault f => perform (.irq q) { s with regs := r } = .fault f
    | .refused e => perform (.irq q) { s with regs := r } = .refused e

/-- Which operations write each register, and which the controller's state (R25, R49). -/
def Obligations.WritersOfEachRegister : Prop :=
  ∀ (i : Instr) (s t : State), exec i s = .next t →
    (t.regs.connectedDevices ≠ s.regs.connectedDevices → ∃ r x, i = .poll r x) ∧
    (t.regs.counter ≠ s.regs.counter → (∃ p, i = .wrCounter p) ∨ ∃ r x, i = .poll r x) ∧
    (t.regs.counterFreqHz ≠ s.regs.counterFreqHz → ∃ p, i = .wrFreq p) ∧
    (t.regs.auxPortFn ≠ s.regs.auxPortFn → ∃ p, i = .wrAuxfn p) ∧
    (t.regs.auxBaudRate ≠ s.regs.auxBaudRate → ∃ p, i = .wrAuxbaud p) ∧
    (t.auxState ≠ s.auxState → ∃ fn, i = .auxSwitch fn)

/-- Only `TICK` moves local time, by one; only `SYNC` moves the sync offset; `HAS_SYNCED` is sticky; the parameters
never change; a reset apart (R4, R35, R36, R38, R270, R271). -/
def Obligations.TimeBaseIsTheEnvironments : Prop :=
  ∀ s t : State, step s = .next t →
    t.params = s.params ∧
    ((∀ d, s.nextAction.1 ≠ .reset d) →
      (t.lt = s.lt ∨ s.nextAction.1 = .tick ∧ t.lt = s.lt + 1) ∧
      (t.offs = s.offs ∨ s.nextAction.1 = .sync t.offs) ∧ (s.hasSynced = true → t.hasSynced = true))

/-- The logs and the wires only grow, and only words of operations, or command words for a register the block does not
have, join the history (R52, R111; the latter words are log entry 31); a reset apart. -/
def Obligations.LogsOnlyGrow : Prop :=
  ∀ s t : State, (∀ d, s.nextAction.1 ≠ .reset d) → step s = .next t →
    s.rlog <+: t.rlog ∧ s.txLog <+: t.txLog ∧ s.edgeLog <+: t.edgeLog ∧ s.wire.pri <+: t.wire.pri ∧
      s.wire.aux <+: t.wire.aux ∧ ∃ new, t.hist = s.hist ++ new ∧ ∀ w ∈ new, loggable w = true

/-! ## Deadlines, time fields, alarms -/

/-- The deadline rule and its result (R151). -/
def Obligations.NextDeadlineRule : Prop :=
  ∀ now off : Int, -1000000 < off → off < 1000000 →
    let c := now / 1000000
    nextDeadline now off =
        (if (c + 1) * 1000000 + off ≤ now then (c + 1) * 1000000 + off + 1000000 else (c + 1) * 1000000 + off) ∧
      now < nextDeadline now off ∧ nextDeadline now off - now < 2000000 ∧
      ∃ m : Int, nextDeadline now off = m * 1000000 + off

/-- The time field of a deadline, and of the deadline computed at a time (R152). -/
def Obligations.TimeFieldRule : Prop :=
  ∀ now off : Int, -1000000 < off → off < 1000000 →
    (∀ d : Int, timeField d = BitVec.ofInt 32 (d / 1000000)) ∧
    (∀ m : Int, off < 0 → timeField (m * 1000000 + off) = BitVec.ofInt 32 (m - 1)) ∧
    (∀ m : Int, 0 ≤ off → timeField (m * 1000000 + off) = BitVec.ofInt 32 m) ∧
    (if off < 0 ∧ now < (now / 1000000 + 1) * 1000000 + off then
      timeField (nextDeadline now off) = BitVec.ofInt 32 (now / 1000000)
    else timeField (nextDeadline now off) = BitVec.ofInt 32 (now / 1000000 + 1))

/-- An armed slot fires at the k-th following microsecond, and not before, when its target is k ahead modulo 2^32, a
target that is the present instant firing a whole turn later (R270); so a slot armed for a deadline less than 2^32
microseconds ahead fires at the instant at which synchronized time equals the deadline, if the sync offset does not
change (R37, R153). -/
def Obligations.ArmedSlotFiresAtItsDeadline : Prop :=
  (∀ (s : State) (a k : Nat), a < s.alarms.length → (s.alarm a).armed = true → 0 < k → k ≤ 2 ^ 32 →
      (s.alarm a).target = s.lt.setWidth 32 + BitVec.ofNat 32 k →
      (∀ j, j < k → ((tickRun j s).alarm a) = s.alarm a) ∧
        ((tickRun k s).alarm a) = { s.alarm a with armed := false, latch := true } ∧
        (tickRun k s).lt = s.lt + BitVec.ofNat 64 k) ∧
    (∀ (s : State) (a : Nat) (d : Int), a < s.alarms.length → s.now < d → d - s.now < 2 ^ 32 →
      let t := tickRun (d - s.now).toNat (s.arm a d)
      (∀ j, j < (d - s.now).toNat → ((tickRun j (s.arm a d)).alarm a).latch = (s.alarm a).latch) ∧
        (t.alarm a).latch = true ∧ (t.alarm a).armed = false ∧ t.ht = BitVec.ofInt 64 d)

/-- The pulse-per-second arithmetic (R184) and the counter interval (R223). -/
def Obligations.PulseAndIntervalArithmetic : Prop :=
  ((∀ now : Int, ppsNext now = (now / 500000 + 1) * 500000 ∧ now < ppsNext now ∧ ppsNext now ≤ now + 500000) ∧
      (∀ now : Int, ppsPhase now = true ↔ now / 500000 % 2 = 0) ∧
      (∀ now : Int, ppsPhase (ppsNext now) = !ppsPhase now) ∧ (∀ now : Int, ppsPhase now = true ↔ now % 1000000 < 500000)) ∧
    (interval 0 = 0 ∧ ∀ f : BitVec 16, f ≠ 0 → (interval f).toNat = 1000000 / f.toNat ∧ interval f ≠ 0)

/-! ## Memory and registers as bytes -/

/-- Reads and stores of buffer bytes: a 1-byte read gives the byte, and faults where nothing has been written or no
byte exists (log entries 12, 35); a 4-byte read is little-endian; a store is read back, of 4 bytes least significant first, and changes no
other byte (R71, R88, R89). -/
def Obligations.BufferReadsAndStores : Prop :=
  ∀ (s : State) (c : Ch) (sl : Slot) (n : Nat),
    (∀ b, n < s.len c → Memory.read s.buf (bufAddr c sl n) = some b → s.memRead1 c sl n = .ok b) ∧
    (n < s.len c → Memory.read s.buf (bufAddr c sl n) = none → s.memRead1 c sl n = .error (.unwrittenByte c sl n)) ∧
    (s.len c ≤ n → s.memRead1 c sl n = .error (.noSuchByte c sl n)) ∧
    (∀ b0 b1 b2 b3, s.memRead1 c sl n = .ok b0 → s.memRead1 c sl (n + 1) = .ok b1 → s.memRead1 c sl (n + 2) = .ok b2 →
      s.memRead1 c sl (n + 3) = .ok b3 →
      ∃ v, s.memRead4 c sl n = .ok v ∧
        v.toNat = b0.toNat + 256 * b1.toNat + 65536 * b2.toNat + 16777216 * b3.toNat) ∧
    (∀ b, n < s.len c →
      (s.memWrite c sl n [b]).memRead1 c sl n = .ok b ∧
      ∀ c' sl' m, (c', sl') ≠ (c, sl) ∨ m ≠ n → (s.memWrite c sl n [b]).memRead1 c' sl' m = s.memRead1 c' sl' m) ∧
    (∀ v, n + 4 ≤ s.len c →
      (∀ k, k < 4 → (s.memWrite4 c sl n v).memRead1 c sl (n + k) = .ok (v.extractLsb' (8 * k) 8)) ∧
      (s.memWrite4 c sl n v).memRead4 c sl n = .ok v ∧
      ∀ c' sl' m, (c', sl') ≠ (c, sl) ∨ m < n ∨ n + 4 ≤ m →
        (s.memWrite4 c sl n v).memRead1 c' sl' m = s.memRead1 c' sl' m)

/-! ## Family R: the register handlers -/

/-- Every read completes in one step: one `READ_REPLY` with the register's value, nothing else changed but the history,
in quiet mode too (R213 to R216, R222). R210 logs the command word; that it joins in the reply's own step is log entry 6,
and the ignored bits in it are log entry 21. -/
def Obligations.ReadsReply : Prop :=
  ∀ (s : State) (x : BitVec 32), s.fault = none →
    exec (.rdConnected x) s =
      .next
        { s with
          rlog := s.rlog ++ [0x010000000000 ||| s.regs.connectedDevices.setWidth 48]
          hist := s.hist ++ [.cmd (0x010000000000 ||| x.setWidth 48)] } ∧
    exec (.rdCounter x) s =
      .next
        { s with
          rlog := s.rlog ++ [0x010100000000 ||| s.regs.counter.setWidth 48]
          hist := s.hist ++ [.cmd (0x010100000000 ||| x.setWidth 48)] } ∧
    exec (.rdFreq x) s =
      .next
        { s with
          rlog := s.rlog ++ [0x010200000000 ||| s.regs.counterFreqHz.setWidth 48]
          hist := s.hist ++ [.cmd (0x010200000000 ||| x.setWidth 48)] } ∧
    exec (.rdAuxfn x) s =
      .next
        { s with
          rlog := s.rlog ++ [0x010300000000 ||| s.regs.auxPortFn.setWidth 48]
          hist := s.hist ++ [.cmd (0x010300000000 ||| x.setWidth 48)] } ∧
    exec (.rdAuxbaud x) s =
      .next
        { s with
          rlog := s.rlog ++ [0x010400000000 ||| s.regs.auxBaudRate.setWidth 48]
          hist := s.hist ++ [.cmd (0x010400000000 ||| x.setWidth 48)] }

/-- A write to the read-only register completes in one step with a `WRITE_ERROR` that carries the register, and
changes nothing but the logs (R212 (1), R217). R210 logs the command word; that it joins in this step is log entry 6. -/
def Obligations.WriteConnectedRefused : Prop :=
  ∀ (s : State) (p : BitVec 32), s.fault = none →
    exec (.wrConnected p) s =
      .next
        { s with
          rlog := s.rlog ++ [0x0A0000000000 ||| s.regs.connectedDevices.setWidth 48]
          hist := s.hist ++ [.cmd (0x020000000000 ||| p.setWidth 48)] }

/-- `WR.COUNTER p` from an idle main thread: `w1` stores `p`, `w2` acknowledges unless quiet; together they change
nothing else (R211, R218). R210 logs the command word; that it joins in the step of `w1` is log entry 6. -/
def Obligations.WriteCounter : Prop :=
  ∀ (s : State) (p : BitVec 32), s.fault = none → s.mpc = [] →
    exec (.wrCounter p) s =
      .next
        { s with
          mpc := [.wrCounter p]
          regs := { s.regs with counter := p }
          hist := s.hist ++ [.cmd (0x020100000000 ||| p.setWidth 48)] } ∧
    operation (.wrCounter p) 1 s =
      .next
        { s with
          regs := { s.regs with counter := p }
          hist := s.hist ++ [.cmd (0x020100000000 ||| p.setWidth 48)]
          rlog := if s.quiet then s.rlog else s.rlog ++ [0x020100000000 ||| p.setWidth 48] }

/-- `WR.FREQ p`: its micro-ops, and as a whole, undisturbed, from an idle main thread: too wide a payload is refused,
one above the maximum is clamped and reported, any other is stored and acknowledged; a stored frequency restarts the
interval (R211, R212, R219). R210 logs the command word; that it joins in the step of `w1` is log entry 6. -/
def Obligations.WriteFreq : Prop :=
  (∀ (s : State) (p : BitVec 32) (fs : List Frame), s.fault = none →
      (s.mpc = [] →
        exec (.wrFreq p) s =
          if 2 ^ 16 ≤ p.toNat then
            .next
              { s with
                hist := s.hist ++ [.cmd (0x020200000000 ||| p.setWidth 48)]
                rlog := s.rlog ++ [0x0A0200000000 ||| s.regs.counterFreqHz.setWidth 48] }
          else
            .next { s with hist := s.hist ++ [.cmd (0x020200000000 ||| p.setWidth 48)], mpc := [.wrFreq p .w2] }) ∧
      (s.mpc = .wrFreq p .w2 :: fs →
        exec (.wrFreq p) s =
          .next { s with mpc := .wrFreq p .w3 :: fs, regs := { s.regs with counterFreqHz := p.extractLsb' 0 16 } }) ∧
      (s.mpc = .wrFreq p .w3 :: fs →
        exec (.wrFreq p) s =
          if s.params.maxCounterFreqHz.toNat < p.toNat then
            .next
              { s with
                mpc := fs
                regs := { s.regs with counterFreqHz := s.params.maxCounterFreqHz }
                intervalUs := interval s.params.maxCounterFreqHz
                lastEmitUs := s.us32
                rlog := s.rlog ++ [0x0A0200000000 ||| s.params.maxCounterFreqHz.setWidth 48] }
          else .next { s with mpc := .wrFreq p .w4 :: fs }) ∧
      (s.mpc = .wrFreq p .w4 :: fs →
        exec (.wrFreq p) s =
          .next
            { s with
              mpc := .wrFreq p .w5 :: fs
              intervalUs := interval (p.extractLsb' 0 16)
              lastEmitUs := s.us32 }) ∧
      (s.mpc = .wrFreq p .w5 :: fs →
        exec (.wrFreq p) s =
          .next
            { s with
              mpc := fs
              rlog :=
                if s.quiet then s.rlog else s.rlog ++ [0x020200000000 ||| s.regs.counterFreqHz.setWidth 48] })) ∧
    (∀ (s : State) (p : BitVec 32), s.fault = none → s.mpc = [] →
      let logged := s.hist ++ [OpWord.cmd (0x020200000000 ||| p.setWidth 48)]
      (2 ^ 16 ≤ p.toNat →
        operation (.wrFreq p) 0 s =
          .next
            { s with
              hist := logged
              rlog := s.rlog ++ [0x0A0200000000 ||| s.regs.counterFreqHz.setWidth 48] }) ∧
      (p.toNat < 2 ^ 16 → s.params.maxCounterFreqHz.toNat < p.toNat →
        operation (.wrFreq p) 2 s =
          .next
            { s with
              hist := logged
              regs := { s.regs with counterFreqHz := s.params.maxCounterFreqHz }
              intervalUs := interval s.params.maxCounterFreqHz
              lastEmitUs := s.us32
              rlog := s.rlog ++ [0x0A0200000000 ||| s.params.maxCounterFreqHz.setWidth 48] }) ∧
      (p.toNat ≤ s.params.maxCounterFreqHz.toNat →
        operation (.wrFreq p) 4 s =
          .next
            { s with
              hist := logged
              regs := { s.regs with counterFreqHz := p.extractLsb' 0 16 }
              intervalUs := interval (p.extractLsb' 0 16)
              lastEmitUs := s.us32
              rlog := if s.quiet then s.rlog else s.rlog ++ [0x020200000000 ||| p.setWidth 48] }))

/-- `WR.AUXFN p`: its micro-ops, and as a whole, undisturbed, from an idle main thread, without a transition: an illegal
value is rejected with the previous one restored, the value already held is only acknowledged, and no resource is touched
(R107, R211, R212, R220). R210 logs the command word; that it joins in the step of `w1` is log entry 6. That `w5` performs
the first micro-op of `AUX.SWITCH(p)` in place is R7 with log entry 5. -/
def Obligations.WriteAuxfn : Prop :=
  (∀ (s : State) (p : BitVec 32) (prev : BitVec 8) (fs : List Frame), s.fault = none →
      (s.mpc = [] →
        exec (.wrAuxfn p) s =
          if 2 ^ 8 ≤ p.toNat then
            .next
              { s with
                hist := s.hist ++ [.cmd (0x020300000000 ||| p.setWidth 48)]
                rlog := s.rlog ++ [0x0A0300000000 ||| s.regs.auxPortFn.setWidth 48] }
          else
            .next { s with hist := s.hist ++ [.cmd (0x020300000000 ||| p.setWidth 48)], mpc := [.wrAuxfn p .w2] }) ∧
      (s.mpc = .wrAuxfn p .w2 :: fs →
        exec (.wrAuxfn p) s =
          .next
            { s with
              mpc := .wrAuxfn p (.w3 s.regs.auxPortFn) :: fs
              regs := { s.regs with auxPortFn := p.extractLsb' 0 8 } }) ∧
      (s.mpc = .wrAuxfn p (.w3 prev) :: fs →
        exec (.wrAuxfn p) s =
          if 2 < p.toNat then
            .next
              { s with
                mpc := fs
                regs := { s.regs with auxPortFn := prev }
                rlog := s.rlog ++ [0x0A0300000000 ||| prev.setWidth 48] }
          else .next { s with mpc := .wrAuxfn p (.w4 prev) :: fs }) ∧
      (s.mpc = .wrAuxfn p (.w4 prev) :: fs →
        exec (.wrAuxfn p) s =
          if p.toNat = prev.toNat then
            .next
              { s with
                mpc := fs
                rlog := if s.quiet then s.rlog else s.rlog ++ [0x020300000000 ||| s.regs.auxPortFn.setWidth 48] }
          else .next { s with mpc := .wrAuxfn p .w5 :: fs }) ∧
      (s.mpc = .wrAuxfn p .w5 :: fs → p.toNat ≤ 2 →
        exec (.wrAuxfn p) s =
          .next
            { s with
              mpc := .auxSwitch (p.extractLsb' 0 2) .a1 :: .wrAuxfn p .w6 :: fs
              hist := s.hist ++ [.tag (0x30 + p.extractLsb' 0 8)] }) ∧
      (s.mpc = .wrAuxfn p .w6 :: fs →
        exec (.wrAuxfn p) s =
          .next
            { s with
              mpc := fs
              rlog := if s.quiet then s.rlog else s.rlog ++ [0x020300000000 ||| s.regs.auxPortFn.setWidth 48] })) ∧
    (∀ (s : State) (p : BitVec 32), s.fault = none → s.mpc = [] →
      let logged := s.hist ++ [OpWord.cmd (0x020300000000 ||| p.setWidth 48)]
      (2 ^ 8 ≤ p.toNat →
        operation (.wrAuxfn p) 0 s =
          .next
            { s with
              hist := logged
              rlog := s.rlog ++ [0x0A0300000000 ||| s.regs.auxPortFn.setWidth 48] }) ∧
      (p.toNat < 2 ^ 8 → 2 < p.toNat →
        operation (.wrAuxfn p) 2 s =
          .next
            { s with
              hist := logged
              rlog := s.rlog ++ [0x0A0300000000 ||| s.regs.auxPortFn.setWidth 48] }) ∧
      (p.toNat ≤ 2 → p.toNat = s.regs.auxPortFn.toNat →
        operation (.wrAuxfn p) 3 s =
          .next
            { s with
              hist := logged
              rlog := if s.quiet then s.rlog else s.rlog ++ [0x020300000000 ||| p.setWidth 48] }))

/-- Scenario 2: `WR.AUXFN 1` undisturbed with the register 0 and the controller disabled builds the auxiliary
broadcast with the stored rate, then acknowledges (R181, R220). The count of 22 micro-ops rests on log entries 5 and 6. -/
def Obligations.WriteAuxfnBuildsBroadcast : Prop :=
  ∀ s : State, s.fault = none → s.mpc = [] → s.regs.auxPortFn = 0 → s.auxState = .disabled →
    s.ch.aux.active = false → s.uart.aux.init = false → s.freeDma ≠ [] → s.freeAlarms ≠ [] →
    ∃ (d a : Nat) (t : State), d ∈ s.freeDma ∧ a ∈ s.freeAlarms ∧ operation (.wrAuxfn 1) 21 s = .next t ∧
      t.mpc = [] ∧ t.fault = none ∧ t.regs = { s.regs with auxPortFn := 1 } ∧ t.auxState = .auxClockBroadcast ∧
      t.hist = s.hist ++ [.cmd 0x020300000001, .tag 0x31, .tag 0x11] ∧
      t.rlog = (if s.quiet then s.rlog else s.rlog ++ [0x020300000001]) ∧
      t.ch.pri = s.ch.pri ∧
      t.ch.aux =
        { active := true, dma := d, alarm := a, irq := s.irqOf a, baud := s.regs.auxBaudRate
          offsetUs := s.offsetFor .aux s.regs.auxBaudRate, dispatchIdx := .zero } ∧
      t.uart.aux = { init := true, baud := s.regs.auxBaudRate, fifo := [] } ∧ t.uart.pri = s.uart.pri ∧
      t.pin.aux.fn = .uartTx ∧ t.pin.pri = s.pin.pri ∧ t.pps = s.pps ∧
      t.alarm a =
        { s.alarm a with
          claimed := true, armed := true
          target := s.s2l (BitVec.ofInt 32 (nextDeadline s.now (s.offsetFor .aux s.regs.auxBaudRate))) } ∧
      (∀ b, b ≠ a → t.alarm b = s.alarm b) ∧
      t.dmaChan d = { s.dmaChan d with claimed := true } ∧ (∀ e, e ≠ d → t.dmaChan e = s.dmaChan e)

/-- `WR.AUXBAUD p`: its micro-ops, and as a whole, undisturbed, from an idle main thread: a rate out of range is rejected
with the previous one restored; an accepted one is, outside the broadcast mode, stored and acknowledged, and nothing is
built (R182, R211, R221). R210 logs the command word; that it joins in the step of `w1` is log entry 6. That `w3` performs
the first micro-op of `AUX.REBAUD` in place, and so the count of 4 micro-ops, is R7 with log entry 5. -/
def Obligations.WriteAuxbaud : Prop :=
  (∀ (s : State) (p prev : BitVec 32) (fs : List Frame), s.fault = none →
      (s.mpc = [] →
        exec (.wrAuxbaud p) s =
          .next
            { s with
              hist := s.hist ++ [.cmd (0x020400000000 ||| p.setWidth 48)]
              mpc := [.wrAuxbaud p (.w2 s.regs.auxBaudRate)]
              regs := { s.regs with auxBaudRate := p } }) ∧
      (s.mpc = .wrAuxbaud p (.w2 prev) :: fs →
        exec (.wrAuxbaud p) s =
          if p.toNat < s.params.minAuxBaud.toNat ∨ s.params.maxAuxBaud.toNat < p.toNat then
            .next
              { s with
                mpc := fs
                regs := { s.regs with auxBaudRate := prev }
                rlog := s.rlog ++ [0x0A0400000000 ||| prev.setWidth 48] }
          else .next { s with mpc := .wrAuxbaud p .w3 :: fs }) ∧
      (s.mpc = .wrAuxbaud p .w3 :: fs →
        exec (.wrAuxbaud p) s =
          if s.auxState = .auxClockBroadcast then
            .next { s with mpc := .auxRebaud .b1 :: .wrAuxbaud p .w4 :: fs, hist := s.hist ++ [.tag 0x34] }
          else .next { s with mpc := .wrAuxbaud p .w4 :: fs, hist := s.hist ++ [.tag 0x34] }) ∧
      (s.mpc = .wrAuxbaud p .w4 :: fs →
        exec (.wrAuxbaud p) s =
          .next
            { s with
              mpc := fs
              rlog := if s.quiet then s.rlog else s.rlog ++ [0x020400000000 ||| s.regs.auxBaudRate.setWidth 48] })) ∧
    (∀ (s : State) (p : BitVec 32), s.fault = none → s.mpc = [] →
      let word := OpWord.cmd (0x020400000000 ||| p.setWidth 48)
      (p.toNat < s.params.minAuxBaud.toNat ∨ s.params.maxAuxBaud.toNat < p.toNat →
        operation (.wrAuxbaud p) 1 s =
          .next
            { s with
              hist := s.hist ++ [word]
              rlog := s.rlog ++ [0x0A0400000000 ||| s.regs.auxBaudRate.setWidth 48] }) ∧
      (s.params.minAuxBaud.toNat ≤ p.toNat → p.toNat ≤ s.params.maxAuxBaud.toNat → s.auxState ≠ .auxClockBroadcast →
        operation (.wrAuxbaud p) 3 s =
          .next
            { s with
              hist := s.hist ++ [word, .tag 0x34]
              regs := { s.regs with auxBaudRate := p }
              rlog := if s.quiet then s.rlog else s.rlog ++ [0x020400000000 ||| p.setWidth 48] }))

/-! ## Family P: the poll and boot -/

/-- `POLL`: its micro-ops, and as a whole, undisturbed, with no synchronisation edge: the inputs, then at most one
counter event, which advances the timestamp by one interval; with no inputs the value is 0 and makes no event (R240 to
R243). R104 logs the command word; that it joins in the step of `p1` is log entry 6, the ignored bits in it log entry 21. -/
def Obligations.PollPass : Prop :=
  (∀ (s : State) (reg : BitVec 8) (x : BitVec 32) (fs : List Frame), s.fault = none →
      (s.mpc = [] →
        exec (.poll reg x) s =
          .next
            { s with
              mpc := [.poll reg x .p2]
              hist := s.hist ++ [.cmd (((0x03 : BitVec 8) ++ reg) ++ x)]
              lastEmitUs := if s.hasSynced = true ∧ s.prevSynced = false then s.us32 else s.lastEmitUs
              prevSynced := s.hasSynced }) ∧
      (s.mpc = .poll reg x .p2 :: fs →
        exec (.poll reg x) s =
          .next
            { s with
              mpc := .poll reg x .p3 :: fs
              regs := { s.regs with connectedDevices := s.remapped }
              prevInputs := s.remapped
              rlog :=
                if s.remapped = s.prevInputs then s.rlog else s.rlog ++ [0x030000000000 ||| s.remapped.setWidth 48] }) ∧
      (s.mpc = .poll reg x .p3 :: fs →
        exec (.poll reg x) s =
          if s.regs.counterFreqHz ≠ 0 ∧ s.intervalUs.toNat ≤ (s.us32 - s.lastEmitUs).toNat then
            .next
              { s with
                mpc := fs
                regs := { s.regs with counter := s.regs.counter + 1 }
                lastEmitUs := s.lastEmitUs + s.intervalUs
                rlog := s.rlog ++ [0x030100000000 ||| (s.regs.counter + 1).setWidth 48] }
          else .next { s with mpc := fs })) ∧
    (∀ (s : State) (reg : BitVec 8) (x : BitVec 32), s.fault = none → s.mpc = [] → s.prevSynced = s.hasSynced →
      let inputWords : List ReplyWord :=
        if s.remapped = s.prevInputs then [] else [0x030000000000 ||| s.remapped.setWidth 48]
      let due : Bool := s.regs.counterFreqHz ≠ 0 ∧ s.intervalUs.toNat ≤ (s.us32 - s.lastEmitUs).toNat
      let counterWords : List ReplyWord :=
        if due then [0x030100000000 ||| (s.regs.counter + 1).setWidth 48] else []
      operation (.poll reg x) 2 s =
        .next
          { s with
            hist := s.hist ++ [.cmd (((0x03 : BitVec 8) ++ reg) ++ x)]
            prevInputs := s.remapped
            regs :=
              { s.regs with
                connectedDevices := s.remapped
                counter := if due then s.regs.counter + 1 else s.regs.counter }
            lastEmitUs := if due then s.lastEmitUs + s.intervalUs else s.lastEmitUs
            rlog := s.rlog ++ (inputWords ++ counterWords) }) ∧
    (∀ (s : State) (reg : BitVec 8) (x : BitVec 32) (fs : List Frame), s.fault = none → s.params.nInputs = 0 →
      s.prevInputs = 0 → s.mpc = .poll reg x .p2 :: fs →
      exec (.poll reg x) s =
        .next { s with mpc := .poll reg x .p3 :: fs, regs := { s.regs with connectedDevices := 0 } })

/-- No drift: after any sequence of counter checks the timestamp has advanced by exactly one interval per event, the
counter by one per event, and each event's word carries its count (R243, R244). -/
def Obligations.CounterDoesNotDrift : Prop :=
  ∀ (ts : List (BitVec 64)) (s : State),
    ∃ k : Nat, k ≤ ts.length ∧
      (counterPasses ts s).lastEmitUs = s.lastEmitUs + BitVec.ofNat 32 k * s.intervalUs ∧
      (counterPasses ts s).regs = { s.regs with counter := s.regs.counter + BitVec.ofNat 32 k } ∧
      (counterPasses ts s).intervalUs = s.intervalUs ∧
      (counterPasses ts s).rlog =
        s.rlog ++ (List.range k).map fun n =>
          (0x030100000000 ||| (s.regs.counter + BitVec.ofNat 32 (n + 1)).setWidth 48 : ReplyWord)

/-- `BOOT`: `b0` logs its tag, `b1` calls `CH.SETUP(PRI)`; as a whole, undisturbed, as the first operation, the primary
channel is built and armed, and the main thread is idle (R118, R151 to R154, R291). The flag `booted` is log entry 29;
that taking `BOOT` and `b0` are one step is log entry 6; that the call performs its first micro-op in place, and so the
count of 14 micro-ops, is R7 with log entry 5. -/
def Obligations.BootBuildsThePrimaryChannel : Prop :=
  (∀ (s : State) (fs : List Frame), s.fault = none →
      (s.mpc = [] → exec .boot s = .next { s with mpc := [.boot], booted := true, hist := s.hist ++ [.tag 0x40] }) ∧
      (s.mpc = .boot :: fs →
        exec .boot s = .next { s with mpc := .chSetup .pri .s1a :: fs, hist := s.hist ++ [.tag 0x10] })) ∧
    (∀ s : State, s.fault = none → s.mpc = [] → s.ch.pri.active = false → s.freeDma ≠ [] → s.freeAlarms ≠ [] →
      ∃ (d a : Nat) (t : State), d ∈ s.freeDma ∧ a ∈ s.freeAlarms ∧ operation .boot 13 s = .next t ∧
        t.mpc = [] ∧ t.booted = true ∧ t.fault = none ∧ t.hist = s.hist ++ [.tag 0x40, .tag 0x10] ∧
        t.ch.pri =
          { active := true, dma := d, alarm := a, irq := s.irqOf a, baud := s.params.primaryBaud
            offsetUs := s.params.offsetUsPrimary, dispatchIdx := .zero } ∧
        t.ch.aux = s.ch.aux ∧ t.regs = s.regs ∧ t.auxState = s.auxState ∧
        t.uart.pri =
          (if s.uart.pri.init then s.uart.pri else { init := true, baud := s.params.primaryBaud, fifo := [] }) ∧
        t.pin.pri.fn = .uartTx ∧
        t.alarm a =
          { s.alarm a with
            claimed := true, armed := true
            target := s.s2l (BitVec.ofInt 32 (nextDeadline s.now s.params.offsetUsPrimary)) } ∧
        t.dmaChan d = { s.dmaChan d with claimed := true } ∧
        (∀ n, n < 6 →
          Memory.read t.buf (bufAddr .pri .zero n) =
            ([0xAA, 0xAF] ++ le32 (timeField (nextDeadline s.now s.params.offsetUsPrimary)))[n]?) ∧
        (∀ n, n < 6 → Memory.read t.buf (bufAddr .pri .one n) = ([0xAA, 0xAF, 0, 0, 0, 0] : List Byte)[n]?) ∧
        (∀ sl n, n < 8 → Memory.read t.buf (bufAddr .aux sl n) = Memory.read s.buf (bufAddr .aux sl n)))

/-! ## Family T: the transmitter -/

/-- `TX.START`: the whole effect where the channel is active with a claimed, idle data mover, for every slot and every
count up to the message length, and the fault it raises otherwise; the operation by itself is the one of the dispatch
slot and the whole message (R130, log entry 18). -/
def Obligations.TransmitStart : Prop :=
  ∀ (s : State) (c : Ch) (sl : Slot) (n : Nat), s.fault = none →
    let x := s.dmaChan (s.ch.get c).dma
    let started (sl : Slot) (n : Nat) : State :=
      { s with
        dma := s.dma.modify (s.ch.get c).dma fun x =>
          { x with busy := true, srcCh := c, srcSlot := sl, pos := 0, count := n }
        txLog := s.txLog ++ [{ ch := c, slot := sl, at_ := s.lt + s.offs }]
        hist := s.hist ++ [.tag (match c with | .pri => 0x16 | .aux => 0x17)] }
    ((s.ch.get c).active = true → x.claimed = true → x.busy = false →
      (0 < n → n ≤ s.len c → txStart c sl n s = .ok (started sl n)) ∧
        exec (.txStart c) s = .next (started (s.ch.get c).dispatchIdx (s.len c))) ∧
    ((s.ch.get c).active = false ∨ x.claimed = false →
      txStart c sl n s = .error .txUnclaimed ∧ exec (.txStart c) s = .next { s with fault := some .txUnclaimed }) ∧
    ((s.ch.get c).active = true → x.claimed = true → x.busy = true →
      (0 < n → n ≤ s.len c → txStart c sl n s = .error .dmaOverlap) ∧
        exec (.txStart c) s = .next { s with fault := some .dmaOverlap })

/-- `DMA.BEAT`: where it is enabled it moves the byte at the transfer's position into the FIFO; where it is not, the
transfer waits: nothing changes (R44, R72, R131, log entry 3). -/
def Obligations.DataMoverBeat : Prop :=
  ∀ (s : State) (c : Ch) (b : Byte), s.fault = none →
    let x := s.dmaChan (s.ch.get c).dma
    ((s.ch.get c).active = true → x.busy = true → x.srcCh = c → (s.uart.get c).init = true →
      (s.uart.get c).fifo.length < s.params.uartFifoDepth → s.memRead1 c x.srcSlot x.pos = .ok b →
      exec (.dmaBeat c) s =
        .next
          { s with
            uart := s.uart.set c { s.uart.get c with fifo := (s.uart.get c).fifo ++ [b] }
            dma := s.dma.modify (s.ch.get c).dma fun y =>
              { y with pos := y.pos + 1, busy := if y.pos + 1 = y.count then false else y.busy }
            hist := s.hist ++ [.tag (match c with | .pri => 0x18 | .aux => 0x19)] }) ∧
    ((s.ch.get c).active = false ∨ x.busy = false ∨ x.srcCh ≠ c ∨ (s.uart.get c).init = false ∨
      s.params.uartFifoDepth ≤ (s.uart.get c).fifo.length → exec (.dmaBeat c) s = .next s)

/-- `UART.SHIFT`: where it is enabled it takes the front byte to the wire if the pin is bound to the UART; where it is
not, nothing changes (R73, R132, log entry 3). -/
def Obligations.SerialiserShift : Prop :=
  ∀ (s : State) (c : Ch), s.fault = none →
    (∀ b rest, (s.uart.get c).init = true → (s.uart.get c).fifo = b :: rest →
      exec (.uartShift c) s =
        .next
          { s with
            uart := s.uart.set c { s.uart.get c with fifo := rest }
            wire :=
              if (s.pin.get c).fn = .uartTx then s.wire.set c (s.wire.get c ++ [b]) else s.wire
            hist := s.hist ++ [.tag (match c with | .pri => 0x1A | .aux => 0x1B)] }) ∧
    ((s.uart.get c).init = false ∨ (s.uart.get c).fifo = [] → exec (.uartShift c) s = .next s)

/-- Bytes keep their order: over any run of the data-movers, the serialisers and time, what is on the wire, then what
waits in the FIFO, then what the transfer has still to move stays the same list of bytes (R133). -/
def Obligations.ByteOrderIsKept : Prop :=
  ∀ (as : List Action) (s t : State) (c : Ch), Canonical s → (s.pin.get c).fn = .uartTx →
    (∀ a ∈ as, (∃ c', a = .dma c' ∨ a = .uart c') ∨ a = .tick) → runOf as s = .next t →
    byteStream t c = byteStream s c

/-- A whole message: after a fire, any run of the data-movers, the serialisers and time that drains the channel has
extended its wire by exactly what was waiting and the bytes of the slot that was issued, in order (R105, R106, R133,
R155). -/
def Obligations.WholeMessageReachesTheWire : Prop :=
  ∀ (as : List Action) (s u t : State) (c : Ch), Canonical s → (s.pin.get c).fn = .uartTx →
    exec (.chFire c) s = .next u → u.fault = none →
    (∀ a ∈ as, (∃ c', a = .dma c' ∨ a = .uart c') ∨ a = .tick) → runOf as u = .next t →
    (t.dmaOf c).busy = false → (t.uart.get c).fifo = [] →
    (t.wire.get c).map some =
      (s.wire.get c ++ (s.uart.get c).fifo).map some ++ messageIn s c (s.ch.get c).dispatchIdx

/-! ## Family D: the dispatcher -/

/-- The micro-ops of `CH.SETUP` (R154). R42 leaves open which free id a claim returns: that the listed number is taken if
it is free, and leaves the list of draws, is log entry 14. -/
def Obligations.ChannelSetupMicroOps : Prop :=
  ∀ (s : State) (c : Ch) (fs : List Frame), s.fault = none →
    let x := s.ch.get c
    let b := match c with | .pri => s.params.primaryBaud | .aux => s.regs.auxBaudRate
    let d := nextDeadline s.now x.offsetUs
    (s.mpc = .chSetup c .s0 :: fs →
      exec (.chSetup c) s =
        .next
          { s with
            mpc := .chSetup c .s1a :: fs
            hist := s.hist ++ [.tag (match c with | .pri => 0x10 | .aux => 0x11)] }) ∧
    (s.mpc = .chSetup c .s1a :: fs →
      (x.active = true → exec (.chSetup c) s = .next { s with mpc := .chSetup c .s1b :: fs }) ∧
      (x.active = false → s.freeDma = [] → exec (.chSetup c) s = .next { s with fault := some .noDma }) ∧
      (∀ e rest, x.active = false → e ∈ s.freeDma → s.draws = e :: rest →
        exec (.chSetup c) s =
          .next
            { s with
              mpc := .chSetup c .s1b :: fs
              dma := s.dma.modify e fun y => { y with claimed := true }
              ch := s.ch.set c { x with dma := e }
              draws := rest }) ∧
      (x.active = false → s.freeDma ≠ [] →
        ∃ e ds n, e ∈ s.freeDma ∧
          exec (.chSetup c) s =
            .next
              { s with
                mpc := .chSetup c .s1b :: fs
                dma := s.dma.modify e fun y => { y with claimed := true }
                ch := s.ch.set c { x with dma := e }
                draws := ds
                freeCtr := n })) ∧
    (s.mpc = .chSetup c .s1b :: fs →
      (x.active = true → exec (.chSetup c) s = .next { s with mpc := .chSetup c .s1c :: fs }) ∧
      (x.active = false → s.freeAlarms = [] → exec (.chSetup c) s = .next { s with fault := some .noAlarm }) ∧
      (∀ a rest, x.active = false → a ∈ s.freeAlarms → s.draws = a :: rest →
        exec (.chSetup c) s =
          .next
            { s with
              mpc := .chSetup c .s1c :: fs
              alarms := s.alarms.modify a fun y => { y with claimed := true }
              ch := s.ch.set c { x with alarm := a, irq := s.irqOf a }
              draws := rest }) ∧
      (x.active = false → s.freeAlarms ≠ [] →
        ∃ a ds n, a ∈ s.freeAlarms ∧
          exec (.chSetup c) s =
            .next
              { s with
                mpc := .chSetup c .s1c :: fs
                alarms := s.alarms.modify a fun y => { y with claimed := true }
                ch := s.ch.set c { x with alarm := a, irq := s.irqOf a }
                draws := ds
                freeCtr := n })) ∧
    (s.mpc = .chSetup c .s1c :: fs →
      exec (.chSetup c) s =
        .next { s with mpc := .chSetup c .s2a :: fs, ch := s.ch.set c { x with active := true } }) ∧
    (s.mpc = .chSetup c .s2a :: fs →
      exec (.chSetup c) s =
        .next
          { s with
            mpc := .chSetup c .s2b :: fs
            ch := s.ch.set c { x with baud := b, offsetUs := s.offsetFor c b }
            uart :=
              if (s.uart.get c).init then s.uart else s.uart.set c { init := true, baud := b, fifo := [] } }) ∧
    (s.mpc = .chSetup c .s2b :: fs →
      exec (.chSetup c) s =
        .next { s with mpc := .chSetup c .s3a :: fs, pin := s.pin.set c { s.pin.get c with fn := .uartTx } }) ∧
    (s.mpc = .chSetup c .s3a :: fs →
      ∃ t, exec (.chSetup c) s = .next t ∧ t = { s with mpc := .chSetup c .s3b :: fs, buf := t.buf } ∧
        (∀ n, n < s.len c → Memory.read t.buf (bufAddr c .zero n) = (s.template c)[n]?) ∧
        ∀ k, (∀ n, n < s.len c → k ≠ bufAddr c .zero n) → Memory.read t.buf k = Memory.read s.buf k) ∧
    (s.mpc = .chSetup c .s3b :: fs →
      ∃ t, exec (.chSetup c) s = .next t ∧ t = { s with mpc := .chSetup c .s3c :: fs, buf := t.buf } ∧
        (∀ n, n < s.len c → Memory.read t.buf (bufAddr c .one n) = (s.template c)[n]?) ∧
        ∀ k, (∀ n, n < s.len c → k ≠ bufAddr c .one n) → Memory.read t.buf k = Memory.read s.buf k) ∧
    (s.mpc = .chSetup c .s3c :: fs →
      exec (.chSetup c) s =
        .next { s with mpc := .chSetup c .s4a :: fs, ch := s.ch.set c { x with dispatchIdx := .zero } }) ∧
    (s.mpc = .chSetup c .s4a :: fs →
      exec (.chSetup c) s =
        .next { s.modifyLine x.irq (fun y => { y with handler := .chFire c }) with mpc := .chSetup c .s4b :: fs }) ∧
    (s.mpc = .chSetup c .s4b :: fs →
      exec (.chSetup c) s =
        .next { s.modifyLine x.irq (fun y => { y with enabled := true }) with mpc := .chSetup c .s5a :: fs }) ∧
    (s.mpc = .chSetup c .s5a :: fs →
      ∃ t, exec (.chSetup c) s = .next t ∧ t = { s with mpc := .chSetup c (.s5b d) :: fs, buf := t.buf } ∧
        (∀ n, n < 4 →
          Memory.read t.buf (bufAddr c x.dispatchIdx (s.tofs c + n)) =
            some ((timeField d).extractLsb' (8 * n) 8)) ∧
        ∀ k, (∀ n, n < 4 → k ≠ bufAddr c x.dispatchIdx (s.tofs c + n)) →
          Memory.read t.buf k = Memory.read s.buf k) ∧
    (∀ e, s.mpc = .chSetup c (.s5b e) :: fs →
      exec (.chSetup c) s =
        .next
          { s with
            mpc := fs
            alarms := s.alarms.modify x.alarm fun y =>
              { y with armed := true, target := BitVec.ofInt 32 e - s.offs.setWidth 32 } })

/-- `CH.SETUP` as a whole, undisturbed, on an inactive channel: its resources claimed, its context, UART, pin, buffers
and handler built, its alarm armed for the first deadline; nothing else changed but the draws (R42, R118, R151 to R154,
log entry 14). -/
def Obligations.ChannelSetupWhole : Prop :=
  ∀ (s : State) (c : Ch) (fs : List Frame), s.fault = none → s.mpc = .chSetup c .s0 :: fs →
    (s.ch.get c).active = false → s.freeDma ≠ [] → s.freeAlarms ≠ [] →
    let b := s.baudFor c
    let deadline := nextDeadline s.now (s.offsetFor c b)
    ∃ (d a : Nat) (t : State), d ∈ s.freeDma ∧ a ∈ s.freeAlarms ∧ mainRun 13 s = .next t ∧
      t =
        { s with
          mpc := fs
          hist := s.hist ++ [encode (.chSetup c)]
          dma := s.dma.modify d fun y => { y with claimed := true }
          alarms := s.alarms.modify a fun y =>
            { y with claimed := true, armed := true, target := s.s2l (BitVec.ofInt 32 deadline) }
          lines := (s.modifyLine (s.irqOf a) fun y => { y with handler := .chFire c, enabled := true }).lines
          ch :=
            s.ch.set c
              { active := true, dma := d, alarm := a, irq := s.irqOf a, baud := b, offsetUs := s.offsetFor c b
                dispatchIdx := .zero }
          uart := if (s.uart.get c).init then s.uart else s.uart.set c { init := true, baud := b, fifo := [] }
          pin := s.pin.set c { s.pin.get c with fn := .uartTx }
          buf := t.buf
          draws := t.draws
          freeCtr := t.freeCtr } ∧
      (∀ n, n < s.len c →
        Memory.read t.buf (bufAddr c .zero n) =
          ((s.template c).take (s.tofs c) ++ le32 (timeField deadline))[n]?) ∧
      (∀ n, n < s.len c → Memory.read t.buf (bufAddr c .one n) = (s.template c)[n]?) ∧
      (∀ c' sl n, c' ≠ c → n < 8 →
        Memory.read t.buf (bufAddr c' sl n) = Memory.read s.buf (bufAddr c' sl n))

/-- `CH.FIRE`: where `TX.START` succeeds, the dispatch slot is issued, the latch cleared, the other slot's time field
written, the roles swapped and the alarm re-armed, all in one step, and no byte of the issued slot changes; where it
faults, only the tag of `f0` stays (R130, R155, R253). -/
def Obligations.ChannelFire : Prop :=
  ∀ (s : State) (c : Ch), s.fault = none →
    let x := s.ch.get c
    let deadline := nextDeadline s.now x.offsetUs
    let fired := OpWord.tag (match c with | .pri => 0x12 | .aux => 0x13)
    let issued := OpWord.tag (match c with | .pri => 0x16 | .aux => 0x17)
    (x.active = true → (s.dmaChan x.dma).claimed = true → (s.dmaChan x.dma).busy = false →
      ∃ t, exec (.chFire c) s = .next t ∧
        t =
          { s with
            hist := s.hist ++ [fired, issued]
            txLog := s.txLog ++ [{ ch := c, slot := x.dispatchIdx, at_ := s.ht }]
            dma := s.dma.modify x.dma fun y =>
              { y with busy := true, srcCh := c, srcSlot := x.dispatchIdx, pos := 0, count := s.len c }
            alarms := s.alarms.modify x.alarm fun y =>
              { y with latch := false, armed := true, target := s.s2l (BitVec.ofInt 32 deadline) }
            ch := s.ch.set c { x with dispatchIdx := otherSlot x.dispatchIdx }
            buf := t.buf } ∧
        (∀ n, n < 4 →
          Memory.read t.buf (bufAddr c (otherSlot x.dispatchIdx) (s.tofs c + n)) =
            some ((timeField deadline).extractLsb' (8 * n) 8)) ∧
        ∀ k, (∀ n, n < 4 → k ≠ bufAddr c (otherSlot x.dispatchIdx) (s.tofs c + n)) →
          Memory.read t.buf k = Memory.read s.buf k) ∧
    (x.active = false ∨ (s.dmaChan x.dma).claimed = false →
      exec (.chFire c) s = .next { s with hist := s.hist ++ [fired], fault := some .txUnclaimed }) ∧
    (x.active = true → (s.dmaChan x.dma).claimed = true → (s.dmaChan x.dma).busy = true →
      exec (.chFire c) s = .next { s with hist := s.hist ++ [fired], fault := some .dmaOverlap })

/-- The undisturbed cycle: a fire served within the latency bound after its deadline arms the alarm for exactly one
second later and writes the time field one higher than the one it sent, the slots alternating (R155, R157). -/
def Obligations.UndisturbedCycle : Prop :=
  ∀ (s t : State) (c : Ch) (deadline : Int), -1000000 < (s.ch.get c).offsetUs → (s.ch.get c).offsetUs < 1000000 →
    (∃ m : Int, deadline = m * 1000000 + (s.ch.get c).offsetUs) → deadline ≤ s.now →
    s.now - deadline <
      (if (s.ch.get c).offsetUs < 0 then -(s.ch.get c).offsetUs else 1000000 - (s.ch.get c).offsetUs) →
    exec (.chFire c) s = .next t → t.fault = none → (s.ch.get c).alarm < s.alarms.length →
    (t.alarm (s.ch.get c).alarm).target = s.s2l (BitVec.ofInt 32 (deadline + 1000000)) ∧
      (t.alarm (s.ch.get c).alarm).armed = true ∧ (t.alarm (s.ch.get c).alarm).latch = false ∧
      (t.ch.get c).dispatchIdx = otherSlot (s.ch.get c).dispatchIdx ∧
      t.memRead4 c (t.ch.get c).dispatchIdx (t.tofs c) = .ok (timeField deadline + 1) ∧
      t.txLog = s.txLog ++ [{ ch := c, slot := (s.ch.get c).dispatchIdx, at_ := s.ht }]

/-- The micro-ops of `CH.TEARDOWN` (R156); on an inactive channel it returns at `t0`. -/
def Obligations.ChannelTeardownMicroOps : Prop :=
  ∀ (s : State) (c : Ch) (fs : List Frame), s.fault = none →
    let x := s.ch.get c
    let tag := OpWord.tag (match c with | .pri => 0x14 | .aux => 0x15)
    let owned := match c with | .pri => !s.params.primaryUartShared | .aux => true
    (s.mpc = .chTeardown c .t0 :: fs →
      exec (.chTeardown c) s =
        .next
          { s with
            mpc := if x.active then .chTeardown c .t1 :: fs else fs
            hist := s.hist ++ [tag] }) ∧
    (s.mpc = .chTeardown c .t1 :: fs →
      exec (.chTeardown c) s =
        .next
          { s with
            mpc := .chTeardown c .t2 :: fs
            alarms := s.alarms.modify x.alarm fun y => { y with armed := false } }) ∧
    (s.mpc = .chTeardown c .t2 :: fs →
      exec (.chTeardown c) s =
        .next
          { s with
            mpc := .chTeardown c .t3 :: fs
            alarms := s.alarms.modify x.alarm fun y => { y with latch := false } }) ∧
    (s.mpc = .chTeardown c .t3 :: fs →
      exec (.chTeardown c) s =
        .next
          { s.modifyLine x.irq (fun y => { y with enabled := false }) with mpc := .chTeardown c .t4 :: fs }) ∧
    (s.mpc = .chTeardown c .t4 :: fs →
      exec (.chTeardown c) s =
        .next
          { s with
            mpc := .chTeardown c .t5 :: fs
            alarms := s.alarms.modify x.alarm fun y => { y with claimed := false } }) ∧
    (s.mpc = .chTeardown c .t5 :: fs →
      exec (.chTeardown c) s =
        .next { s.modifyLine x.irq (fun y => { y with handler := .none }) with mpc := .chTeardown c .t6 :: fs }) ∧
    (s.mpc = .chTeardown c .t6 :: fs →
      exec (.chTeardown c) s =
        .next
          { s with
            mpc := .chTeardown c .t7 :: fs
            dma := s.dma.modify x.dma fun y => { y with busy := false, claimed := false } }) ∧
    (s.mpc = .chTeardown c .t7 :: fs →
      exec (.chTeardown c) s =
        .next
          { s with
            mpc := .chTeardown c .t8 :: fs
            uart := if owned then s.uart.set c { s.uart.get c with init := false, fifo := [] } else s.uart
            pin := if owned then s.pin.set c { s.pin.get c with fn := .none } else s.pin }) ∧
    (s.mpc = .chTeardown c .t8 :: fs →
      exec (.chTeardown c) s = .next { s with mpc := fs, ch := s.ch.set c { x with active := false } })

/-- `CH.TEARDOWN` as a whole, undisturbed, on an active channel: everything released, nothing else changed; a second
teardown right after it changes only the history (R156). -/
def Obligations.ChannelTeardownWhole : Prop :=
  ∀ (s : State) (c : Ch) (fs : List Frame), s.fault = none → s.mpc = .chTeardown c .t0 :: fs →
    (s.ch.get c).active = true →
    let x := s.ch.get c
    ∃ t, mainRun 9 s = .next t ∧
      t =
        { s with
          mpc := fs
          hist := s.hist ++ [encode (.chTeardown c)]
          alarms := s.alarms.modify x.alarm fun y => { y with armed := false, latch := false, claimed := false }
          lines := (s.modifyLine x.irq fun y => { y with enabled := false, handler := .none }).lines
          dma := s.dma.modify x.dma fun y => { y with busy := false, claimed := false }
          uart := if s.owned c then s.uart.set c { s.uart.get c with init := false, fifo := [] } else s.uart
          pin := if s.owned c then s.pin.set c { s.pin.get c with fn := .none } else s.pin
          ch := s.ch.set c { x with active := false } } ∧
      exec (.chTeardown c) { t with mpc := .chTeardown c .t0 :: fs } =
        .next { t with hist := t.hist ++ [encode (.chTeardown c)] }

/-! ## Family A: the controller and pulse-per-second -/

/-- The micro-ops of `AUX.SWITCH fn` (R107, R181) and of `AUX.REBAUD` (R182). That a call performs the first micro-op of
the called operation in place is R7 and R181 with log entry 5. -/
def Obligations.ControllerMicroOps : Prop :=
  (∀ (s : State) (fn : BitVec 2) (fs : List Frame), s.fault = none → fn ≠ 3 →
      (s.mpc = .auxSwitch fn .a0 :: fs →
        exec (.auxSwitch fn) s =
          .next
            { s with mpc := .auxSwitch fn .a1 :: fs, hist := s.hist ++ [.tag (0x30 + fn.setWidth 8)] }) ∧
      (s.mpc = .auxSwitch fn .a1 :: fs →
        (s.auxState = .disabled → exec (.auxSwitch fn) s = .next { s with mpc := .auxSwitch fn .a2 :: fs }) ∧
        (s.auxState = .auxClockBroadcast →
          exec (.auxSwitch fn) s =
            .next
              { s with
                mpc :=
                  if s.ch.aux.active then .chTeardown .aux .t1 :: .auxSwitch fn .a2 :: fs
                  else .auxSwitch fn .a2 :: fs
                hist := s.hist ++ [.tag 0x15] }) ∧
        (s.auxState = .pulsePerSecond →
          exec (.auxSwitch fn) s =
            .next
              { s with
                mpc :=
                  if s.pps.active then .ppsTeardown .r1 :: .auxSwitch fn .a2 :: fs else .auxSwitch fn .a2 :: fs
                hist := s.hist ++ [.tag 0x24] })) ∧
      (s.mpc = .auxSwitch fn .a2 :: fs →
        exec (.auxSwitch fn) s = .next { s with mpc := .auxSwitch fn .a3 :: fs, auxState := .disabled }) ∧
      (s.mpc = .auxSwitch fn .a3 :: fs →
        (fn = 0 → exec (.auxSwitch fn) s = .next { s with mpc := .auxSwitch fn .a4 :: fs }) ∧
        (fn = 1 →
          exec (.auxSwitch fn) s =
            .next
              { s with
                mpc := .chSetup .aux .s1a :: .auxSwitch fn .a4 :: fs, hist := s.hist ++ [.tag 0x11] }) ∧
        (fn = 2 →
          exec (.auxSwitch fn) s =
            .next
              { s with mpc := .ppsSetup .p1a :: .auxSwitch fn .a4 :: fs, hist := s.hist ++ [.tag 0x20] })) ∧
      (s.mpc = .auxSwitch fn .a4 :: fs →
        exec (.auxSwitch fn) s =
          .next
            { s with
              mpc := fs
              auxState :=
                if fn = 0 then .disabled else if fn = 1 then .auxClockBroadcast else .pulsePerSecond })) ∧
    (∀ (s : State) (fs : List Frame), s.fault = none →
      (s.mpc = .auxRebaud .b0 :: fs →
        exec .auxRebaud s =
          .next
            { s with
              mpc := if s.auxState = .auxClockBroadcast then .auxRebaud .b1 :: fs else fs
              hist := s.hist ++ [.tag 0x34] }) ∧
      (s.mpc = .auxRebaud .b1 :: fs →
        exec .auxRebaud s =
          .next
            { s with
              mpc := if s.ch.aux.active then .chTeardown .aux .t1 :: .auxRebaud .b2 :: fs else .auxRebaud .b2 :: fs
              hist := s.hist ++ [.tag 0x15] }) ∧
      (s.mpc = .auxRebaud .b2 :: fs →
        exec .auxRebaud s = .next { s with mpc := .chSetup .aux .s1a :: fs, hist := s.hist ++ [.tag 0x11] }))

/-- `AUX.REBAUD` as a whole, undisturbed, in the broadcast mode: the channel is torn down and rebuilt at the
register's rate with fresh buffers, and the controller's state stays (R156, R182). The count of 23 micro-ops rests on log
entry 5. -/
def Obligations.AuxRebaudWhole : Prop :=
  ∀ (s : State) (fs : List Frame), s.fault = none → s.mpc = .auxRebaud .b0 :: fs →
    s.auxState = .auxClockBroadcast → s.ch.aux.active = true → s.ch.aux.alarm < s.alarms.length →
    s.ch.aux.dma < s.dma.length →
    ∃ t, mainRun 23 s = .next t ∧ t.mpc = fs ∧ t.fault = none ∧ t.auxState = .auxClockBroadcast ∧ t.regs = s.regs ∧
      t.hist = s.hist ++ [.tag 0x34, .tag 0x15, .tag 0x11] ∧ t.ch.pri = s.ch.pri ∧
      t.ch.aux.active = true ∧ t.ch.aux.baud = s.regs.auxBaudRate ∧
      t.ch.aux.offsetUs = s.offsetFor .aux s.regs.auxBaudRate ∧ t.ch.aux.dispatchIdx = .zero ∧
      t.uart.aux = { init := true, baud := s.regs.auxBaudRate, fifo := [] } ∧ t.pin.aux.fn = .uartTx ∧
      (t.alarm t.ch.aux.alarm).armed = true ∧ (t.alarm t.ch.aux.alarm).claimed = true ∧
      (t.dmaChan t.ch.aux.dma).claimed = true ∧
      (∀ n, n < s.len .aux →
        Memory.read t.buf (bufAddr .aux .zero n) =
          ((s.template .aux).take (s.tofs .aux) ++
            le32 (timeField (nextDeadline s.now (s.offsetFor .aux s.regs.auxBaudRate))))[n]?) ∧
      (∀ n, n < s.len .aux → Memory.read t.buf (bufAddr .aux .one n) = (s.template .aux)[n]?)

/-- The micro-ops of `PPS.SETUP` (R184, R185). R42 leaves open which free slot a claim returns: that the listed number is
taken if it is free, and leaves the list of draws, is log entry 14. That `p4a` logs an edge whatever the pin's function is
log entry 30. -/
def Obligations.PpsSetupMicroOps : Prop :=
  ∀ (s : State) (fs : List Frame), s.fault = none →
    (s.mpc = .ppsSetup .p0 :: fs →
      exec .ppsSetup s = .next { s with mpc := .ppsSetup .p1a :: fs, hist := s.hist ++ [.tag 0x20] }) ∧
    (s.mpc = .ppsSetup .p1a :: fs →
      (s.pps.active = true → exec .ppsSetup s = .next { s with mpc := .ppsSetup .p1b :: fs }) ∧
      (s.pps.active = false → s.freeAlarms = [] → exec .ppsSetup s = .next { s with fault := some .noAlarm }) ∧
      (∀ a rest, s.pps.active = false → a ∈ s.freeAlarms → s.draws = a :: rest →
        exec .ppsSetup s =
          .next
            { s with
              mpc := .ppsSetup .p1b :: fs
              alarms := s.alarms.modify a fun y => { y with claimed := true }
              pps := { s.pps with alarm := a, irq := s.irqOf a }
              draws := rest }) ∧
      (s.pps.active = false → s.freeAlarms ≠ [] →
        ∃ a ds n, a ∈ s.freeAlarms ∧
          exec .ppsSetup s =
            .next
              { s with
                mpc := .ppsSetup .p1b :: fs
                alarms := s.alarms.modify a fun y => { y with claimed := true }
                pps := { s.pps with alarm := a, irq := s.irqOf a }
                draws := ds
                freeCtr := n })) ∧
    (s.mpc = .ppsSetup .p1b :: fs →
      exec .ppsSetup s = .next { s with mpc := .ppsSetup .p2 :: fs, pps := { s.pps with active := true } }) ∧
    (s.mpc = .ppsSetup .p2 :: fs →
      exec .ppsSetup s =
        .next { s with mpc := .ppsSetup .p3a :: fs, pin := { s.pin with aux := { fn := .gpioOut, level := false } } }) ∧
    (s.mpc = .ppsSetup .p3a :: fs →
      exec .ppsSetup s =
        .next { s.modifyLine s.pps.irq (fun y => { y with handler := .ppsFire }) with mpc := .ppsSetup .p3b :: fs }) ∧
    (s.mpc = .ppsSetup .p3b :: fs →
      exec .ppsSetup s =
        .next { s.modifyLine s.pps.irq (fun y => { y with enabled := true }) with mpc := .ppsSetup .p4a :: fs }) ∧
    (s.mpc = .ppsSetup .p4a :: fs →
      exec .ppsSetup s =
        .next
          { s with
            mpc := .ppsSetup (.p4b (ppsNext s.now)) :: fs
            pin := { s.pin with aux := { s.pin.aux with level := ppsPhase s.now } }
            edgeLog :=
              if s.pin.aux.level = ppsPhase s.now then s.edgeLog
              else s.edgeLog ++ [{ level := ppsPhase s.now, at_ := s.ht }] }) ∧
    (∀ e, s.mpc = .ppsSetup (.p4b e) :: fs →
      exec .ppsSetup s =
        .next
          { s with
            mpc := fs
            alarms := s.alarms.modify s.pps.alarm fun y =>
              { y with armed := true, target := BitVec.ofInt 32 e - s.offs.setWidth 32 } })

/-- `PPS.SETUP` as a whole, undisturbed: a slot claimed and bound, the pin driven at the phase of the moment, the
alarm armed for the next half second; nothing else changed but the draws (R42, R184, R185, log entry 14). -/
def Obligations.PpsSetupWhole : Prop :=
  ∀ (s : State) (fs : List Frame), s.fault = none → s.mpc = .ppsSetup .p0 :: fs → s.pps.active = false →
    s.freeAlarms ≠ [] →
    ∃ (a : Nat) (t : State), a ∈ s.freeAlarms ∧ mainRun 8 s = .next t ∧
      t =
        { s with
          mpc := fs
          hist := s.hist ++ [.tag 0x20]
          alarms := s.alarms.modify a fun y =>
            { y with claimed := true, armed := true, target := s.s2l (BitVec.ofInt 32 (ppsNext s.now)) }
          lines := (s.modifyLine (s.irqOf a) fun y => { y with handler := .ppsFire, enabled := true }).lines
          pps := { active := true, alarm := a, irq := s.irqOf a }
          pin := { s.pin with aux := { fn := .gpioOut, level := ppsPhase s.now } }
          edgeLog := if ppsPhase s.now then s.edgeLog ++ [{ level := true, at_ := s.ht }] else s.edgeLog
          draws := t.draws
          freeCtr := t.freeCtr }

/-- `PPS.FIRE`: the level toggled and logged, the latch cleared, the alarm armed for the next half second, in one step
(R184, R186). That the edge is logged whatever the pin's function is log entry 30: R52 speaks of a pin that is an
output. -/
def Obligations.PulseFire : Prop :=
  ∀ s : State, s.fault = none →
    exec .ppsFire s =
      .next
        { s with
          hist := s.hist ++ [.tag 0x22]
          pin := { s.pin with aux := { s.pin.aux with level := !s.pin.aux.level } }
          edgeLog := s.edgeLog ++ [{ level := !s.pin.aux.level, at_ := s.ht }]
          alarms := s.alarms.modify s.pps.alarm fun y =>
            { y with latch := false, armed := true, target := s.s2l (BitVec.ofInt 32 (ppsNext s.now)) } }

/-- The micro-ops of `PPS.TEARDOWN` (R187); while inactive it returns at `r0`. -/
def Obligations.PpsTeardownMicroOps : Prop :=
  ∀ (s : State) (fs : List Frame), s.fault = none →
    (s.mpc = .ppsTeardown .r0 :: fs →
      exec .ppsTeardown s =
        .next
          { s with
            mpc := if s.pps.active then .ppsTeardown .r1 :: fs else fs
            hist := s.hist ++ [.tag 0x24] }) ∧
    (s.mpc = .ppsTeardown .r1 :: fs →
      exec .ppsTeardown s =
        .next
          { s with
            mpc := .ppsTeardown .r2 :: fs
            alarms := s.alarms.modify s.pps.alarm fun y => { y with armed := false } }) ∧
    (s.mpc = .ppsTeardown .r2 :: fs →
      exec .ppsTeardown s =
        .next
          { s with
            mpc := .ppsTeardown .r3 :: fs
            alarms := s.alarms.modify s.pps.alarm fun y => { y with latch := false } }) ∧
    (s.mpc = .ppsTeardown .r3 :: fs →
      exec .ppsTeardown s =
        .next
          { s.modifyLine s.pps.irq (fun y => { y with enabled := false }) with mpc := .ppsTeardown .r4 :: fs }) ∧
    (s.mpc = .ppsTeardown .r4 :: fs →
      exec .ppsTeardown s =
        .next
          { s with
            mpc := .ppsTeardown .r5 :: fs
            alarms := s.alarms.modify s.pps.alarm fun y => { y with claimed := false } }) ∧
    (s.mpc = .ppsTeardown .r5 :: fs →
      exec .ppsTeardown s =
        .next { s.modifyLine s.pps.irq (fun y => { y with handler := .none }) with mpc := .ppsTeardown .r6 :: fs }) ∧
    (s.mpc = .ppsTeardown .r6 :: fs →
      exec .ppsTeardown s =
        .next
          { s with
            mpc := .ppsTeardown .r7 :: fs
            pin := { s.pin with aux := { s.pin.aux with fn := .none } } }) ∧
    (s.mpc = .ppsTeardown .r7 :: fs →
      exec .ppsTeardown s = .next { s with mpc := fs, pps := { s.pps with active := false } })
end

