-- ==== Sys2Proof/Laws/State.lean ====
section
/-!
SUPPORT. One lemma per field per update of the state, true by rfl, so that no later proof unfolds a record update.
-/

namespace Sys2Proof.Machine

/-! ## at -/

section
variable (s : State) (fs : List Frame)

@[simp] theorem State.at_params : (s.at fs).params = s.params := rfl
@[simp] theorem State.at_regs : (s.at fs).regs = s.regs := rfl
@[simp] theorem State.at_mpc : (s.at fs).mpc = fs := rfl
@[simp] theorem State.at_booted : (s.at fs).booted = s.booted := rfl
@[simp] theorem State.at_lt : (s.at fs).lt = s.lt := rfl
@[simp] theorem State.at_offs : (s.at fs).offs = s.offs := rfl
@[simp] theorem State.at_hasSynced : (s.at fs).hasSynced = s.hasSynced := rfl
@[simp] theorem State.at_alarms : (s.at fs).alarms = s.alarms := rfl
@[simp] theorem State.at_lines : (s.at fs).lines = s.lines := rfl
@[simp] theorem State.at_dma : (s.at fs).dma = s.dma := rfl
@[simp] theorem State.at_uart : (s.at fs).uart = s.uart := rfl
@[simp] theorem State.at_pin : (s.at fs).pin = s.pin := rfl
@[simp] theorem State.at_ch : (s.at fs).ch = s.ch := rfl
@[simp] theorem State.at_buf : (s.at fs).buf = s.buf := rfl
@[simp] theorem State.at_pps : (s.at fs).pps = s.pps := rfl
@[simp] theorem State.at_auxState : (s.at fs).auxState = s.auxState := rfl
@[simp] theorem State.at_intervalUs : (s.at fs).intervalUs = s.intervalUs := rfl
@[simp] theorem State.at_lastEmitUs : (s.at fs).lastEmitUs = s.lastEmitUs := rfl
@[simp] theorem State.at_prevInputs : (s.at fs).prevInputs = s.prevInputs := rfl
@[simp] theorem State.at_prevSynced : (s.at fs).prevSynced = s.prevSynced := rfl
@[simp] theorem State.at_fault : (s.at fs).fault = s.fault := rfl
@[simp] theorem State.at_quiet : (s.at fs).quiet = s.quiet := rfl
@[simp] theorem State.at_din : (s.at fs).din = s.din := rfl
@[simp] theorem State.at_wire : (s.at fs).wire = s.wire := rfl
@[simp] theorem State.at_txLog : (s.at fs).txLog = s.txLog := rfl
@[simp] theorem State.at_edgeLog : (s.at fs).edgeLog = s.edgeLog := rfl
@[simp] theorem State.at_rlog : (s.at fs).rlog = s.rlog := rfl
@[simp] theorem State.at_hist : (s.at fs).hist = s.hist := rfl
@[simp] theorem State.at_agenda : (s.at fs).agenda = s.agenda := rfl
@[simp] theorem State.at_draws : (s.at fs).draws = s.draws := rfl
@[simp] theorem State.at_freeCtr : (s.at fs).freeCtr = s.freeCtr := rfl

end

/-! ## log -/

section
variable (s : State) (i : Instr)

@[simp] theorem State.log_params : (s.log i).params = s.params := rfl
@[simp] theorem State.log_regs : (s.log i).regs = s.regs := rfl
@[simp] theorem State.log_mpc : (s.log i).mpc = s.mpc := rfl
@[simp] theorem State.log_booted : (s.log i).booted = s.booted := rfl
@[simp] theorem State.log_lt : (s.log i).lt = s.lt := rfl
@[simp] theorem State.log_offs : (s.log i).offs = s.offs := rfl
@[simp] theorem State.log_hasSynced : (s.log i).hasSynced = s.hasSynced := rfl
@[simp] theorem State.log_alarms : (s.log i).alarms = s.alarms := rfl
@[simp] theorem State.log_lines : (s.log i).lines = s.lines := rfl
@[simp] theorem State.log_dma : (s.log i).dma = s.dma := rfl
@[simp] theorem State.log_uart : (s.log i).uart = s.uart := rfl
@[simp] theorem State.log_pin : (s.log i).pin = s.pin := rfl
@[simp] theorem State.log_ch : (s.log i).ch = s.ch := rfl
@[simp] theorem State.log_buf : (s.log i).buf = s.buf := rfl
@[simp] theorem State.log_pps : (s.log i).pps = s.pps := rfl
@[simp] theorem State.log_auxState : (s.log i).auxState = s.auxState := rfl
@[simp] theorem State.log_intervalUs : (s.log i).intervalUs = s.intervalUs := rfl
@[simp] theorem State.log_lastEmitUs : (s.log i).lastEmitUs = s.lastEmitUs := rfl
@[simp] theorem State.log_prevInputs : (s.log i).prevInputs = s.prevInputs := rfl
@[simp] theorem State.log_prevSynced : (s.log i).prevSynced = s.prevSynced := rfl
@[simp] theorem State.log_fault : (s.log i).fault = s.fault := rfl
@[simp] theorem State.log_quiet : (s.log i).quiet = s.quiet := rfl
@[simp] theorem State.log_din : (s.log i).din = s.din := rfl
@[simp] theorem State.log_wire : (s.log i).wire = s.wire := rfl
@[simp] theorem State.log_txLog : (s.log i).txLog = s.txLog := rfl
@[simp] theorem State.log_edgeLog : (s.log i).edgeLog = s.edgeLog := rfl
@[simp] theorem State.log_rlog : (s.log i).rlog = s.rlog := rfl
@[simp] theorem State.log_hist : (s.log i).hist = s.hist ++ [encode i] := rfl
@[simp] theorem State.log_agenda : (s.log i).agenda = s.agenda := rfl
@[simp] theorem State.log_draws : (s.log i).draws = s.draws := rfl
@[simp] theorem State.log_freeCtr : (s.log i).freeCtr = s.freeCtr := rfl

end

/-! ## reply -/

section
variable (s : State) (k : ReplyKind) (r : BitVec 8) (v : BitVec 32)

@[simp] theorem State.reply_params : (s.reply k r v).params = s.params := rfl
@[simp] theorem State.reply_regs : (s.reply k r v).regs = s.regs := rfl
@[simp] theorem State.reply_mpc : (s.reply k r v).mpc = s.mpc := rfl
@[simp] theorem State.reply_booted : (s.reply k r v).booted = s.booted := rfl
@[simp] theorem State.reply_lt : (s.reply k r v).lt = s.lt := rfl
@[simp] theorem State.reply_offs : (s.reply k r v).offs = s.offs := rfl
@[simp] theorem State.reply_hasSynced : (s.reply k r v).hasSynced = s.hasSynced := rfl
@[simp] theorem State.reply_alarms : (s.reply k r v).alarms = s.alarms := rfl
@[simp] theorem State.reply_lines : (s.reply k r v).lines = s.lines := rfl
@[simp] theorem State.reply_dma : (s.reply k r v).dma = s.dma := rfl
@[simp] theorem State.reply_uart : (s.reply k r v).uart = s.uart := rfl
@[simp] theorem State.reply_pin : (s.reply k r v).pin = s.pin := rfl
@[simp] theorem State.reply_ch : (s.reply k r v).ch = s.ch := rfl
@[simp] theorem State.reply_buf : (s.reply k r v).buf = s.buf := rfl
@[simp] theorem State.reply_pps : (s.reply k r v).pps = s.pps := rfl
@[simp] theorem State.reply_auxState : (s.reply k r v).auxState = s.auxState := rfl
@[simp] theorem State.reply_intervalUs : (s.reply k r v).intervalUs = s.intervalUs := rfl
@[simp] theorem State.reply_lastEmitUs : (s.reply k r v).lastEmitUs = s.lastEmitUs := rfl
@[simp] theorem State.reply_prevInputs : (s.reply k r v).prevInputs = s.prevInputs := rfl
@[simp] theorem State.reply_prevSynced : (s.reply k r v).prevSynced = s.prevSynced := rfl
@[simp] theorem State.reply_fault : (s.reply k r v).fault = s.fault := rfl
@[simp] theorem State.reply_quiet : (s.reply k r v).quiet = s.quiet := rfl
@[simp] theorem State.reply_din : (s.reply k r v).din = s.din := rfl
@[simp] theorem State.reply_wire : (s.reply k r v).wire = s.wire := rfl
@[simp] theorem State.reply_txLog : (s.reply k r v).txLog = s.txLog := rfl
@[simp] theorem State.reply_edgeLog : (s.reply k r v).edgeLog = s.edgeLog := rfl
@[simp] theorem State.reply_rlog : (s.reply k r v).rlog = s.rlog ++ [replyWord k r v] := rfl
@[simp] theorem State.reply_hist : (s.reply k r v).hist = s.hist := rfl
@[simp] theorem State.reply_agenda : (s.reply k r v).agenda = s.agenda := rfl
@[simp] theorem State.reply_draws : (s.reply k r v).draws = s.draws := rfl
@[simp] theorem State.reply_freeCtr : (s.reply k r v).freeCtr = s.freeCtr := rfl

end

/-! ## replyReg -/

section
variable (s : State) (k : ReplyKind) (r : BitVec 8)

@[simp] theorem State.replyReg_params : (s.replyReg k r).params = s.params := rfl
@[simp] theorem State.replyReg_regs : (s.replyReg k r).regs = s.regs := rfl
@[simp] theorem State.replyReg_mpc : (s.replyReg k r).mpc = s.mpc := rfl
@[simp] theorem State.replyReg_booted : (s.replyReg k r).booted = s.booted := rfl
@[simp] theorem State.replyReg_lt : (s.replyReg k r).lt = s.lt := rfl
@[simp] theorem State.replyReg_offs : (s.replyReg k r).offs = s.offs := rfl
@[simp] theorem State.replyReg_hasSynced : (s.replyReg k r).hasSynced = s.hasSynced := rfl
@[simp] theorem State.replyReg_alarms : (s.replyReg k r).alarms = s.alarms := rfl
@[simp] theorem State.replyReg_lines : (s.replyReg k r).lines = s.lines := rfl
@[simp] theorem State.replyReg_dma : (s.replyReg k r).dma = s.dma := rfl
@[simp] theorem State.replyReg_uart : (s.replyReg k r).uart = s.uart := rfl
@[simp] theorem State.replyReg_pin : (s.replyReg k r).pin = s.pin := rfl
@[simp] theorem State.replyReg_ch : (s.replyReg k r).ch = s.ch := rfl
@[simp] theorem State.replyReg_buf : (s.replyReg k r).buf = s.buf := rfl
@[simp] theorem State.replyReg_pps : (s.replyReg k r).pps = s.pps := rfl
@[simp] theorem State.replyReg_auxState : (s.replyReg k r).auxState = s.auxState := rfl
@[simp] theorem State.replyReg_intervalUs : (s.replyReg k r).intervalUs = s.intervalUs := rfl
@[simp] theorem State.replyReg_lastEmitUs : (s.replyReg k r).lastEmitUs = s.lastEmitUs := rfl
@[simp] theorem State.replyReg_prevInputs : (s.replyReg k r).prevInputs = s.prevInputs := rfl
@[simp] theorem State.replyReg_prevSynced : (s.replyReg k r).prevSynced = s.prevSynced := rfl
@[simp] theorem State.replyReg_fault : (s.replyReg k r).fault = s.fault := rfl
@[simp] theorem State.replyReg_quiet : (s.replyReg k r).quiet = s.quiet := rfl
@[simp] theorem State.replyReg_din : (s.replyReg k r).din = s.din := rfl
@[simp] theorem State.replyReg_wire : (s.replyReg k r).wire = s.wire := rfl
@[simp] theorem State.replyReg_txLog : (s.replyReg k r).txLog = s.txLog := rfl
@[simp] theorem State.replyReg_edgeLog : (s.replyReg k r).edgeLog = s.edgeLog := rfl
@[simp] theorem State.replyReg_rlog : (s.replyReg k r).rlog = s.rlog ++ [replyWord k r (s.regs.value r)] := rfl
@[simp] theorem State.replyReg_hist : (s.replyReg k r).hist = s.hist := rfl
@[simp] theorem State.replyReg_agenda : (s.replyReg k r).agenda = s.agenda := rfl
@[simp] theorem State.replyReg_draws : (s.replyReg k r).draws = s.draws := rfl
@[simp] theorem State.replyReg_freeCtr : (s.replyReg k r).freeCtr = s.freeCtr := rfl

end

/-! ## withFault -/

section
variable (s : State) (e : FaultCode)

@[simp] theorem State.withFault_params : (s.withFault e).params = s.params := rfl
@[simp] theorem State.withFault_regs : (s.withFault e).regs = s.regs := rfl
@[simp] theorem State.withFault_mpc : (s.withFault e).mpc = s.mpc := rfl
@[simp] theorem State.withFault_booted : (s.withFault e).booted = s.booted := rfl
@[simp] theorem State.withFault_lt : (s.withFault e).lt = s.lt := rfl
@[simp] theorem State.withFault_offs : (s.withFault e).offs = s.offs := rfl
@[simp] theorem State.withFault_hasSynced : (s.withFault e).hasSynced = s.hasSynced := rfl
@[simp] theorem State.withFault_alarms : (s.withFault e).alarms = s.alarms := rfl
@[simp] theorem State.withFault_lines : (s.withFault e).lines = s.lines := rfl
@[simp] theorem State.withFault_dma : (s.withFault e).dma = s.dma := rfl
@[simp] theorem State.withFault_uart : (s.withFault e).uart = s.uart := rfl
@[simp] theorem State.withFault_pin : (s.withFault e).pin = s.pin := rfl
@[simp] theorem State.withFault_ch : (s.withFault e).ch = s.ch := rfl
@[simp] theorem State.withFault_buf : (s.withFault e).buf = s.buf := rfl
@[simp] theorem State.withFault_pps : (s.withFault e).pps = s.pps := rfl
@[simp] theorem State.withFault_auxState : (s.withFault e).auxState = s.auxState := rfl
@[simp] theorem State.withFault_intervalUs : (s.withFault e).intervalUs = s.intervalUs := rfl
@[simp] theorem State.withFault_lastEmitUs : (s.withFault e).lastEmitUs = s.lastEmitUs := rfl
@[simp] theorem State.withFault_prevInputs : (s.withFault e).prevInputs = s.prevInputs := rfl
@[simp] theorem State.withFault_prevSynced : (s.withFault e).prevSynced = s.prevSynced := rfl
@[simp] theorem State.withFault_fault : (s.withFault e).fault = some e := rfl
@[simp] theorem State.withFault_quiet : (s.withFault e).quiet = s.quiet := rfl
@[simp] theorem State.withFault_din : (s.withFault e).din = s.din := rfl
@[simp] theorem State.withFault_wire : (s.withFault e).wire = s.wire := rfl
@[simp] theorem State.withFault_txLog : (s.withFault e).txLog = s.txLog := rfl
@[simp] theorem State.withFault_edgeLog : (s.withFault e).edgeLog = s.edgeLog := rfl
@[simp] theorem State.withFault_rlog : (s.withFault e).rlog = s.rlog := rfl
@[simp] theorem State.withFault_hist : (s.withFault e).hist = s.hist := rfl
@[simp] theorem State.withFault_agenda : (s.withFault e).agenda = s.agenda := rfl
@[simp] theorem State.withFault_draws : (s.withFault e).draws = s.draws := rfl
@[simp] theorem State.withFault_freeCtr : (s.withFault e).freeCtr = s.freeCtr := rfl

end

/-! ## setCh -/

section
variable (s : State) (c : Ch) (v : Channel)

@[simp] theorem State.setCh_params : (s.setCh c v).params = s.params := rfl
@[simp] theorem State.setCh_regs : (s.setCh c v).regs = s.regs := rfl
@[simp] theorem State.setCh_mpc : (s.setCh c v).mpc = s.mpc := rfl
@[simp] theorem State.setCh_booted : (s.setCh c v).booted = s.booted := rfl
@[simp] theorem State.setCh_lt : (s.setCh c v).lt = s.lt := rfl
@[simp] theorem State.setCh_offs : (s.setCh c v).offs = s.offs := rfl
@[simp] theorem State.setCh_hasSynced : (s.setCh c v).hasSynced = s.hasSynced := rfl
@[simp] theorem State.setCh_alarms : (s.setCh c v).alarms = s.alarms := rfl
@[simp] theorem State.setCh_lines : (s.setCh c v).lines = s.lines := rfl
@[simp] theorem State.setCh_dma : (s.setCh c v).dma = s.dma := rfl
@[simp] theorem State.setCh_uart : (s.setCh c v).uart = s.uart := rfl
@[simp] theorem State.setCh_pin : (s.setCh c v).pin = s.pin := rfl
@[simp] theorem State.setCh_ch : (s.setCh c v).ch = s.ch.set c v := rfl
@[simp] theorem State.setCh_buf : (s.setCh c v).buf = s.buf := rfl
@[simp] theorem State.setCh_pps : (s.setCh c v).pps = s.pps := rfl
@[simp] theorem State.setCh_auxState : (s.setCh c v).auxState = s.auxState := rfl
@[simp] theorem State.setCh_intervalUs : (s.setCh c v).intervalUs = s.intervalUs := rfl
@[simp] theorem State.setCh_lastEmitUs : (s.setCh c v).lastEmitUs = s.lastEmitUs := rfl
@[simp] theorem State.setCh_prevInputs : (s.setCh c v).prevInputs = s.prevInputs := rfl
@[simp] theorem State.setCh_prevSynced : (s.setCh c v).prevSynced = s.prevSynced := rfl
@[simp] theorem State.setCh_fault : (s.setCh c v).fault = s.fault := rfl
@[simp] theorem State.setCh_quiet : (s.setCh c v).quiet = s.quiet := rfl
@[simp] theorem State.setCh_din : (s.setCh c v).din = s.din := rfl
@[simp] theorem State.setCh_wire : (s.setCh c v).wire = s.wire := rfl
@[simp] theorem State.setCh_txLog : (s.setCh c v).txLog = s.txLog := rfl
@[simp] theorem State.setCh_edgeLog : (s.setCh c v).edgeLog = s.edgeLog := rfl
@[simp] theorem State.setCh_rlog : (s.setCh c v).rlog = s.rlog := rfl
@[simp] theorem State.setCh_hist : (s.setCh c v).hist = s.hist := rfl
@[simp] theorem State.setCh_agenda : (s.setCh c v).agenda = s.agenda := rfl
@[simp] theorem State.setCh_draws : (s.setCh c v).draws = s.draws := rfl
@[simp] theorem State.setCh_freeCtr : (s.setCh c v).freeCtr = s.freeCtr := rfl

end

/-! ## setUart -/

section
variable (s : State) (c : Ch) (v : Uart)

@[simp] theorem State.setUart_params : (s.setUart c v).params = s.params := rfl
@[simp] theorem State.setUart_regs : (s.setUart c v).regs = s.regs := rfl
@[simp] theorem State.setUart_mpc : (s.setUart c v).mpc = s.mpc := rfl
@[simp] theorem State.setUart_booted : (s.setUart c v).booted = s.booted := rfl
@[simp] theorem State.setUart_lt : (s.setUart c v).lt = s.lt := rfl
@[simp] theorem State.setUart_offs : (s.setUart c v).offs = s.offs := rfl
@[simp] theorem State.setUart_hasSynced : (s.setUart c v).hasSynced = s.hasSynced := rfl
@[simp] theorem State.setUart_alarms : (s.setUart c v).alarms = s.alarms := rfl
@[simp] theorem State.setUart_lines : (s.setUart c v).lines = s.lines := rfl
@[simp] theorem State.setUart_dma : (s.setUart c v).dma = s.dma := rfl
@[simp] theorem State.setUart_uart : (s.setUart c v).uart = s.uart.set c v := rfl
@[simp] theorem State.setUart_pin : (s.setUart c v).pin = s.pin := rfl
@[simp] theorem State.setUart_ch : (s.setUart c v).ch = s.ch := rfl
@[simp] theorem State.setUart_buf : (s.setUart c v).buf = s.buf := rfl
@[simp] theorem State.setUart_pps : (s.setUart c v).pps = s.pps := rfl
@[simp] theorem State.setUart_auxState : (s.setUart c v).auxState = s.auxState := rfl
@[simp] theorem State.setUart_intervalUs : (s.setUart c v).intervalUs = s.intervalUs := rfl
@[simp] theorem State.setUart_lastEmitUs : (s.setUart c v).lastEmitUs = s.lastEmitUs := rfl
@[simp] theorem State.setUart_prevInputs : (s.setUart c v).prevInputs = s.prevInputs := rfl
@[simp] theorem State.setUart_prevSynced : (s.setUart c v).prevSynced = s.prevSynced := rfl
@[simp] theorem State.setUart_fault : (s.setUart c v).fault = s.fault := rfl
@[simp] theorem State.setUart_quiet : (s.setUart c v).quiet = s.quiet := rfl
@[simp] theorem State.setUart_din : (s.setUart c v).din = s.din := rfl
@[simp] theorem State.setUart_wire : (s.setUart c v).wire = s.wire := rfl
@[simp] theorem State.setUart_txLog : (s.setUart c v).txLog = s.txLog := rfl
@[simp] theorem State.setUart_edgeLog : (s.setUart c v).edgeLog = s.edgeLog := rfl
@[simp] theorem State.setUart_rlog : (s.setUart c v).rlog = s.rlog := rfl
@[simp] theorem State.setUart_hist : (s.setUart c v).hist = s.hist := rfl
@[simp] theorem State.setUart_agenda : (s.setUart c v).agenda = s.agenda := rfl
@[simp] theorem State.setUart_draws : (s.setUart c v).draws = s.draws := rfl
@[simp] theorem State.setUart_freeCtr : (s.setUart c v).freeCtr = s.freeCtr := rfl

end

/-! ## setPin -/

section
variable (s : State) (c : Ch) (v : Pin)

@[simp] theorem State.setPin_params : (s.setPin c v).params = s.params := rfl
@[simp] theorem State.setPin_regs : (s.setPin c v).regs = s.regs := rfl
@[simp] theorem State.setPin_mpc : (s.setPin c v).mpc = s.mpc := rfl
@[simp] theorem State.setPin_booted : (s.setPin c v).booted = s.booted := rfl
@[simp] theorem State.setPin_lt : (s.setPin c v).lt = s.lt := rfl
@[simp] theorem State.setPin_offs : (s.setPin c v).offs = s.offs := rfl
@[simp] theorem State.setPin_hasSynced : (s.setPin c v).hasSynced = s.hasSynced := rfl
@[simp] theorem State.setPin_alarms : (s.setPin c v).alarms = s.alarms := rfl
@[simp] theorem State.setPin_lines : (s.setPin c v).lines = s.lines := rfl
@[simp] theorem State.setPin_dma : (s.setPin c v).dma = s.dma := rfl
@[simp] theorem State.setPin_uart : (s.setPin c v).uart = s.uart := rfl
@[simp] theorem State.setPin_pin : (s.setPin c v).pin = s.pin.set c v := rfl
@[simp] theorem State.setPin_ch : (s.setPin c v).ch = s.ch := rfl
@[simp] theorem State.setPin_buf : (s.setPin c v).buf = s.buf := rfl
@[simp] theorem State.setPin_pps : (s.setPin c v).pps = s.pps := rfl
@[simp] theorem State.setPin_auxState : (s.setPin c v).auxState = s.auxState := rfl
@[simp] theorem State.setPin_intervalUs : (s.setPin c v).intervalUs = s.intervalUs := rfl
@[simp] theorem State.setPin_lastEmitUs : (s.setPin c v).lastEmitUs = s.lastEmitUs := rfl
@[simp] theorem State.setPin_prevInputs : (s.setPin c v).prevInputs = s.prevInputs := rfl
@[simp] theorem State.setPin_prevSynced : (s.setPin c v).prevSynced = s.prevSynced := rfl
@[simp] theorem State.setPin_fault : (s.setPin c v).fault = s.fault := rfl
@[simp] theorem State.setPin_quiet : (s.setPin c v).quiet = s.quiet := rfl
@[simp] theorem State.setPin_din : (s.setPin c v).din = s.din := rfl
@[simp] theorem State.setPin_wire : (s.setPin c v).wire = s.wire := rfl
@[simp] theorem State.setPin_txLog : (s.setPin c v).txLog = s.txLog := rfl
@[simp] theorem State.setPin_edgeLog : (s.setPin c v).edgeLog = s.edgeLog := rfl
@[simp] theorem State.setPin_rlog : (s.setPin c v).rlog = s.rlog := rfl
@[simp] theorem State.setPin_hist : (s.setPin c v).hist = s.hist := rfl
@[simp] theorem State.setPin_agenda : (s.setPin c v).agenda = s.agenda := rfl
@[simp] theorem State.setPin_draws : (s.setPin c v).draws = s.draws := rfl
@[simp] theorem State.setPin_freeCtr : (s.setPin c v).freeCtr = s.freeCtr := rfl

end

/-! ## modifyAlarm -/

section
variable (s : State) (a : Nat) (f : AlarmSlot → AlarmSlot)

@[simp] theorem State.modifyAlarm_params : (s.modifyAlarm a f).params = s.params := rfl
@[simp] theorem State.modifyAlarm_regs : (s.modifyAlarm a f).regs = s.regs := rfl
@[simp] theorem State.modifyAlarm_mpc : (s.modifyAlarm a f).mpc = s.mpc := rfl
@[simp] theorem State.modifyAlarm_booted : (s.modifyAlarm a f).booted = s.booted := rfl
@[simp] theorem State.modifyAlarm_lt : (s.modifyAlarm a f).lt = s.lt := rfl
@[simp] theorem State.modifyAlarm_offs : (s.modifyAlarm a f).offs = s.offs := rfl
@[simp] theorem State.modifyAlarm_hasSynced : (s.modifyAlarm a f).hasSynced = s.hasSynced := rfl
@[simp] theorem State.modifyAlarm_alarms : (s.modifyAlarm a f).alarms = s.alarms.modify a f := rfl
@[simp] theorem State.modifyAlarm_lines : (s.modifyAlarm a f).lines = s.lines := rfl
@[simp] theorem State.modifyAlarm_dma : (s.modifyAlarm a f).dma = s.dma := rfl
@[simp] theorem State.modifyAlarm_uart : (s.modifyAlarm a f).uart = s.uart := rfl
@[simp] theorem State.modifyAlarm_pin : (s.modifyAlarm a f).pin = s.pin := rfl
@[simp] theorem State.modifyAlarm_ch : (s.modifyAlarm a f).ch = s.ch := rfl
@[simp] theorem State.modifyAlarm_buf : (s.modifyAlarm a f).buf = s.buf := rfl
@[simp] theorem State.modifyAlarm_pps : (s.modifyAlarm a f).pps = s.pps := rfl
@[simp] theorem State.modifyAlarm_auxState : (s.modifyAlarm a f).auxState = s.auxState := rfl
@[simp] theorem State.modifyAlarm_intervalUs : (s.modifyAlarm a f).intervalUs = s.intervalUs := rfl
@[simp] theorem State.modifyAlarm_lastEmitUs : (s.modifyAlarm a f).lastEmitUs = s.lastEmitUs := rfl
@[simp] theorem State.modifyAlarm_prevInputs : (s.modifyAlarm a f).prevInputs = s.prevInputs := rfl
@[simp] theorem State.modifyAlarm_prevSynced : (s.modifyAlarm a f).prevSynced = s.prevSynced := rfl
@[simp] theorem State.modifyAlarm_fault : (s.modifyAlarm a f).fault = s.fault := rfl
@[simp] theorem State.modifyAlarm_quiet : (s.modifyAlarm a f).quiet = s.quiet := rfl
@[simp] theorem State.modifyAlarm_din : (s.modifyAlarm a f).din = s.din := rfl
@[simp] theorem State.modifyAlarm_wire : (s.modifyAlarm a f).wire = s.wire := rfl
@[simp] theorem State.modifyAlarm_txLog : (s.modifyAlarm a f).txLog = s.txLog := rfl
@[simp] theorem State.modifyAlarm_edgeLog : (s.modifyAlarm a f).edgeLog = s.edgeLog := rfl
@[simp] theorem State.modifyAlarm_rlog : (s.modifyAlarm a f).rlog = s.rlog := rfl
@[simp] theorem State.modifyAlarm_hist : (s.modifyAlarm a f).hist = s.hist := rfl
@[simp] theorem State.modifyAlarm_agenda : (s.modifyAlarm a f).agenda = s.agenda := rfl
@[simp] theorem State.modifyAlarm_draws : (s.modifyAlarm a f).draws = s.draws := rfl
@[simp] theorem State.modifyAlarm_freeCtr : (s.modifyAlarm a f).freeCtr = s.freeCtr := rfl

end

/-! ## modifyDma -/

section
variable (s : State) (d : Nat) (f : DmaChan → DmaChan)

@[simp] theorem State.modifyDma_params : (s.modifyDma d f).params = s.params := rfl
@[simp] theorem State.modifyDma_regs : (s.modifyDma d f).regs = s.regs := rfl
@[simp] theorem State.modifyDma_mpc : (s.modifyDma d f).mpc = s.mpc := rfl
@[simp] theorem State.modifyDma_booted : (s.modifyDma d f).booted = s.booted := rfl
@[simp] theorem State.modifyDma_lt : (s.modifyDma d f).lt = s.lt := rfl
@[simp] theorem State.modifyDma_offs : (s.modifyDma d f).offs = s.offs := rfl
@[simp] theorem State.modifyDma_hasSynced : (s.modifyDma d f).hasSynced = s.hasSynced := rfl
@[simp] theorem State.modifyDma_alarms : (s.modifyDma d f).alarms = s.alarms := rfl
@[simp] theorem State.modifyDma_lines : (s.modifyDma d f).lines = s.lines := rfl
@[simp] theorem State.modifyDma_dma : (s.modifyDma d f).dma = s.dma.modify d f := rfl
@[simp] theorem State.modifyDma_uart : (s.modifyDma d f).uart = s.uart := rfl
@[simp] theorem State.modifyDma_pin : (s.modifyDma d f).pin = s.pin := rfl
@[simp] theorem State.modifyDma_ch : (s.modifyDma d f).ch = s.ch := rfl
@[simp] theorem State.modifyDma_buf : (s.modifyDma d f).buf = s.buf := rfl
@[simp] theorem State.modifyDma_pps : (s.modifyDma d f).pps = s.pps := rfl
@[simp] theorem State.modifyDma_auxState : (s.modifyDma d f).auxState = s.auxState := rfl
@[simp] theorem State.modifyDma_intervalUs : (s.modifyDma d f).intervalUs = s.intervalUs := rfl
@[simp] theorem State.modifyDma_lastEmitUs : (s.modifyDma d f).lastEmitUs = s.lastEmitUs := rfl
@[simp] theorem State.modifyDma_prevInputs : (s.modifyDma d f).prevInputs = s.prevInputs := rfl
@[simp] theorem State.modifyDma_prevSynced : (s.modifyDma d f).prevSynced = s.prevSynced := rfl
@[simp] theorem State.modifyDma_fault : (s.modifyDma d f).fault = s.fault := rfl
@[simp] theorem State.modifyDma_quiet : (s.modifyDma d f).quiet = s.quiet := rfl
@[simp] theorem State.modifyDma_din : (s.modifyDma d f).din = s.din := rfl
@[simp] theorem State.modifyDma_wire : (s.modifyDma d f).wire = s.wire := rfl
@[simp] theorem State.modifyDma_txLog : (s.modifyDma d f).txLog = s.txLog := rfl
@[simp] theorem State.modifyDma_edgeLog : (s.modifyDma d f).edgeLog = s.edgeLog := rfl
@[simp] theorem State.modifyDma_rlog : (s.modifyDma d f).rlog = s.rlog := rfl
@[simp] theorem State.modifyDma_hist : (s.modifyDma d f).hist = s.hist := rfl
@[simp] theorem State.modifyDma_agenda : (s.modifyDma d f).agenda = s.agenda := rfl
@[simp] theorem State.modifyDma_draws : (s.modifyDma d f).draws = s.draws := rfl
@[simp] theorem State.modifyDma_freeCtr : (s.modifyDma d f).freeCtr = s.freeCtr := rfl

end

/-! ## memWrite -/

section
variable (s : State) (c : Ch) (sl : Slot) (n : Nat) (bs : List Byte)

@[simp] theorem State.memWrite_params : (s.memWrite c sl n bs).params = s.params := rfl
@[simp] theorem State.memWrite_regs : (s.memWrite c sl n bs).regs = s.regs := rfl
@[simp] theorem State.memWrite_mpc : (s.memWrite c sl n bs).mpc = s.mpc := rfl
@[simp] theorem State.memWrite_booted : (s.memWrite c sl n bs).booted = s.booted := rfl
@[simp] theorem State.memWrite_lt : (s.memWrite c sl n bs).lt = s.lt := rfl
@[simp] theorem State.memWrite_offs : (s.memWrite c sl n bs).offs = s.offs := rfl
@[simp] theorem State.memWrite_hasSynced : (s.memWrite c sl n bs).hasSynced = s.hasSynced := rfl
@[simp] theorem State.memWrite_alarms : (s.memWrite c sl n bs).alarms = s.alarms := rfl
@[simp] theorem State.memWrite_lines : (s.memWrite c sl n bs).lines = s.lines := rfl
@[simp] theorem State.memWrite_dma : (s.memWrite c sl n bs).dma = s.dma := rfl
@[simp] theorem State.memWrite_uart : (s.memWrite c sl n bs).uart = s.uart := rfl
@[simp] theorem State.memWrite_pin : (s.memWrite c sl n bs).pin = s.pin := rfl
@[simp] theorem State.memWrite_ch : (s.memWrite c sl n bs).ch = s.ch := rfl
@[simp] theorem State.memWrite_buf : (s.memWrite c sl n bs).buf = Memory.writeList s.buf (bufAddr c sl n) bs := rfl
@[simp] theorem State.memWrite_pps : (s.memWrite c sl n bs).pps = s.pps := rfl
@[simp] theorem State.memWrite_auxState : (s.memWrite c sl n bs).auxState = s.auxState := rfl
@[simp] theorem State.memWrite_intervalUs : (s.memWrite c sl n bs).intervalUs = s.intervalUs := rfl
@[simp] theorem State.memWrite_lastEmitUs : (s.memWrite c sl n bs).lastEmitUs = s.lastEmitUs := rfl
@[simp] theorem State.memWrite_prevInputs : (s.memWrite c sl n bs).prevInputs = s.prevInputs := rfl
@[simp] theorem State.memWrite_prevSynced : (s.memWrite c sl n bs).prevSynced = s.prevSynced := rfl
@[simp] theorem State.memWrite_fault : (s.memWrite c sl n bs).fault = s.fault := rfl
@[simp] theorem State.memWrite_quiet : (s.memWrite c sl n bs).quiet = s.quiet := rfl
@[simp] theorem State.memWrite_din : (s.memWrite c sl n bs).din = s.din := rfl
@[simp] theorem State.memWrite_wire : (s.memWrite c sl n bs).wire = s.wire := rfl
@[simp] theorem State.memWrite_txLog : (s.memWrite c sl n bs).txLog = s.txLog := rfl
@[simp] theorem State.memWrite_edgeLog : (s.memWrite c sl n bs).edgeLog = s.edgeLog := rfl
@[simp] theorem State.memWrite_rlog : (s.memWrite c sl n bs).rlog = s.rlog := rfl
@[simp] theorem State.memWrite_hist : (s.memWrite c sl n bs).hist = s.hist := rfl
@[simp] theorem State.memWrite_agenda : (s.memWrite c sl n bs).agenda = s.agenda := rfl
@[simp] theorem State.memWrite_draws : (s.memWrite c sl n bs).draws = s.draws := rfl
@[simp] theorem State.memWrite_freeCtr : (s.memWrite c sl n bs).freeCtr = s.freeCtr := rfl

end

/-! ## memWrite4 -/

section
variable (s : State) (c : Ch) (sl : Slot) (n : Nat) (v : BitVec 32)

@[simp] theorem State.memWrite4_params : (s.memWrite4 c sl n v).params = s.params := rfl
@[simp] theorem State.memWrite4_regs : (s.memWrite4 c sl n v).regs = s.regs := rfl
@[simp] theorem State.memWrite4_mpc : (s.memWrite4 c sl n v).mpc = s.mpc := rfl
@[simp] theorem State.memWrite4_booted : (s.memWrite4 c sl n v).booted = s.booted := rfl
@[simp] theorem State.memWrite4_lt : (s.memWrite4 c sl n v).lt = s.lt := rfl
@[simp] theorem State.memWrite4_offs : (s.memWrite4 c sl n v).offs = s.offs := rfl
@[simp] theorem State.memWrite4_hasSynced : (s.memWrite4 c sl n v).hasSynced = s.hasSynced := rfl
@[simp] theorem State.memWrite4_alarms : (s.memWrite4 c sl n v).alarms = s.alarms := rfl
@[simp] theorem State.memWrite4_lines : (s.memWrite4 c sl n v).lines = s.lines := rfl
@[simp] theorem State.memWrite4_dma : (s.memWrite4 c sl n v).dma = s.dma := rfl
@[simp] theorem State.memWrite4_uart : (s.memWrite4 c sl n v).uart = s.uart := rfl
@[simp] theorem State.memWrite4_pin : (s.memWrite4 c sl n v).pin = s.pin := rfl
@[simp] theorem State.memWrite4_ch : (s.memWrite4 c sl n v).ch = s.ch := rfl
@[simp] theorem State.memWrite4_buf : (s.memWrite4 c sl n v).buf = Memory.writeList s.buf (bufAddr c sl n) (le32 v) := rfl
@[simp] theorem State.memWrite4_pps : (s.memWrite4 c sl n v).pps = s.pps := rfl
@[simp] theorem State.memWrite4_auxState : (s.memWrite4 c sl n v).auxState = s.auxState := rfl
@[simp] theorem State.memWrite4_intervalUs : (s.memWrite4 c sl n v).intervalUs = s.intervalUs := rfl
@[simp] theorem State.memWrite4_lastEmitUs : (s.memWrite4 c sl n v).lastEmitUs = s.lastEmitUs := rfl
@[simp] theorem State.memWrite4_prevInputs : (s.memWrite4 c sl n v).prevInputs = s.prevInputs := rfl
@[simp] theorem State.memWrite4_prevSynced : (s.memWrite4 c sl n v).prevSynced = s.prevSynced := rfl
@[simp] theorem State.memWrite4_fault : (s.memWrite4 c sl n v).fault = s.fault := rfl
@[simp] theorem State.memWrite4_quiet : (s.memWrite4 c sl n v).quiet = s.quiet := rfl
@[simp] theorem State.memWrite4_din : (s.memWrite4 c sl n v).din = s.din := rfl
@[simp] theorem State.memWrite4_wire : (s.memWrite4 c sl n v).wire = s.wire := rfl
@[simp] theorem State.memWrite4_txLog : (s.memWrite4 c sl n v).txLog = s.txLog := rfl
@[simp] theorem State.memWrite4_edgeLog : (s.memWrite4 c sl n v).edgeLog = s.edgeLog := rfl
@[simp] theorem State.memWrite4_rlog : (s.memWrite4 c sl n v).rlog = s.rlog := rfl
@[simp] theorem State.memWrite4_hist : (s.memWrite4 c sl n v).hist = s.hist := rfl
@[simp] theorem State.memWrite4_agenda : (s.memWrite4 c sl n v).agenda = s.agenda := rfl
@[simp] theorem State.memWrite4_draws : (s.memWrite4 c sl n v).draws = s.draws := rfl
@[simp] theorem State.memWrite4_freeCtr : (s.memWrite4 c sl n v).freeCtr = s.freeCtr := rfl

end

/-! ## arm -/

section
variable (s : State) (a : Nat) (d : Int)

@[simp] theorem State.arm_params : (s.arm a d).params = s.params := rfl
@[simp] theorem State.arm_regs : (s.arm a d).regs = s.regs := rfl
@[simp] theorem State.arm_mpc : (s.arm a d).mpc = s.mpc := rfl
@[simp] theorem State.arm_booted : (s.arm a d).booted = s.booted := rfl
@[simp] theorem State.arm_lt : (s.arm a d).lt = s.lt := rfl
@[simp] theorem State.arm_offs : (s.arm a d).offs = s.offs := rfl
@[simp] theorem State.arm_hasSynced : (s.arm a d).hasSynced = s.hasSynced := rfl
@[simp] theorem State.arm_alarms : (s.arm a d).alarms = s.alarms.modify a fun x => { x with armed := true, target := s.s2l (BitVec.ofInt 32 d) } := rfl
@[simp] theorem State.arm_lines : (s.arm a d).lines = s.lines := rfl
@[simp] theorem State.arm_dma : (s.arm a d).dma = s.dma := rfl
@[simp] theorem State.arm_uart : (s.arm a d).uart = s.uart := rfl
@[simp] theorem State.arm_pin : (s.arm a d).pin = s.pin := rfl
@[simp] theorem State.arm_ch : (s.arm a d).ch = s.ch := rfl
@[simp] theorem State.arm_buf : (s.arm a d).buf = s.buf := rfl
@[simp] theorem State.arm_pps : (s.arm a d).pps = s.pps := rfl
@[simp] theorem State.arm_auxState : (s.arm a d).auxState = s.auxState := rfl
@[simp] theorem State.arm_intervalUs : (s.arm a d).intervalUs = s.intervalUs := rfl
@[simp] theorem State.arm_lastEmitUs : (s.arm a d).lastEmitUs = s.lastEmitUs := rfl
@[simp] theorem State.arm_prevInputs : (s.arm a d).prevInputs = s.prevInputs := rfl
@[simp] theorem State.arm_prevSynced : (s.arm a d).prevSynced = s.prevSynced := rfl
@[simp] theorem State.arm_fault : (s.arm a d).fault = s.fault := rfl
@[simp] theorem State.arm_quiet : (s.arm a d).quiet = s.quiet := rfl
@[simp] theorem State.arm_din : (s.arm a d).din = s.din := rfl
@[simp] theorem State.arm_wire : (s.arm a d).wire = s.wire := rfl
@[simp] theorem State.arm_txLog : (s.arm a d).txLog = s.txLog := rfl
@[simp] theorem State.arm_edgeLog : (s.arm a d).edgeLog = s.edgeLog := rfl
@[simp] theorem State.arm_rlog : (s.arm a d).rlog = s.rlog := rfl
@[simp] theorem State.arm_hist : (s.arm a d).hist = s.hist := rfl
@[simp] theorem State.arm_agenda : (s.arm a d).agenda = s.agenda := rfl
@[simp] theorem State.arm_draws : (s.arm a d).draws = s.draws := rfl
@[simp] theorem State.arm_freeCtr : (s.arm a d).freeCtr = s.freeCtr := rfl

end

/-! ## disarm -/

section
variable (s : State) (a : Nat)

@[simp] theorem State.disarm_params : (s.disarm a).params = s.params := rfl
@[simp] theorem State.disarm_regs : (s.disarm a).regs = s.regs := rfl
@[simp] theorem State.disarm_mpc : (s.disarm a).mpc = s.mpc := rfl
@[simp] theorem State.disarm_booted : (s.disarm a).booted = s.booted := rfl
@[simp] theorem State.disarm_lt : (s.disarm a).lt = s.lt := rfl
@[simp] theorem State.disarm_offs : (s.disarm a).offs = s.offs := rfl
@[simp] theorem State.disarm_hasSynced : (s.disarm a).hasSynced = s.hasSynced := rfl
@[simp] theorem State.disarm_alarms : (s.disarm a).alarms = s.alarms.modify a fun x => { x with armed := false } := rfl
@[simp] theorem State.disarm_lines : (s.disarm a).lines = s.lines := rfl
@[simp] theorem State.disarm_dma : (s.disarm a).dma = s.dma := rfl
@[simp] theorem State.disarm_uart : (s.disarm a).uart = s.uart := rfl
@[simp] theorem State.disarm_pin : (s.disarm a).pin = s.pin := rfl
@[simp] theorem State.disarm_ch : (s.disarm a).ch = s.ch := rfl
@[simp] theorem State.disarm_buf : (s.disarm a).buf = s.buf := rfl
@[simp] theorem State.disarm_pps : (s.disarm a).pps = s.pps := rfl
@[simp] theorem State.disarm_auxState : (s.disarm a).auxState = s.auxState := rfl
@[simp] theorem State.disarm_intervalUs : (s.disarm a).intervalUs = s.intervalUs := rfl
@[simp] theorem State.disarm_lastEmitUs : (s.disarm a).lastEmitUs = s.lastEmitUs := rfl
@[simp] theorem State.disarm_prevInputs : (s.disarm a).prevInputs = s.prevInputs := rfl
@[simp] theorem State.disarm_prevSynced : (s.disarm a).prevSynced = s.prevSynced := rfl
@[simp] theorem State.disarm_fault : (s.disarm a).fault = s.fault := rfl
@[simp] theorem State.disarm_quiet : (s.disarm a).quiet = s.quiet := rfl
@[simp] theorem State.disarm_din : (s.disarm a).din = s.din := rfl
@[simp] theorem State.disarm_wire : (s.disarm a).wire = s.wire := rfl
@[simp] theorem State.disarm_txLog : (s.disarm a).txLog = s.txLog := rfl
@[simp] theorem State.disarm_edgeLog : (s.disarm a).edgeLog = s.edgeLog := rfl
@[simp] theorem State.disarm_rlog : (s.disarm a).rlog = s.rlog := rfl
@[simp] theorem State.disarm_hist : (s.disarm a).hist = s.hist := rfl
@[simp] theorem State.disarm_agenda : (s.disarm a).agenda = s.agenda := rfl
@[simp] theorem State.disarm_draws : (s.disarm a).draws = s.draws := rfl
@[simp] theorem State.disarm_freeCtr : (s.disarm a).freeCtr = s.freeCtr := rfl

end

/-! ## acknowledge -/

section
variable (s : State) (a : Nat)

@[simp] theorem State.acknowledge_params : (s.acknowledge a).params = s.params := rfl
@[simp] theorem State.acknowledge_regs : (s.acknowledge a).regs = s.regs := rfl
@[simp] theorem State.acknowledge_mpc : (s.acknowledge a).mpc = s.mpc := rfl
@[simp] theorem State.acknowledge_booted : (s.acknowledge a).booted = s.booted := rfl
@[simp] theorem State.acknowledge_lt : (s.acknowledge a).lt = s.lt := rfl
@[simp] theorem State.acknowledge_offs : (s.acknowledge a).offs = s.offs := rfl
@[simp] theorem State.acknowledge_hasSynced : (s.acknowledge a).hasSynced = s.hasSynced := rfl
@[simp] theorem State.acknowledge_alarms : (s.acknowledge a).alarms = s.alarms.modify a fun x => { x with latch := false } := rfl
@[simp] theorem State.acknowledge_lines : (s.acknowledge a).lines = s.lines := rfl
@[simp] theorem State.acknowledge_dma : (s.acknowledge a).dma = s.dma := rfl
@[simp] theorem State.acknowledge_uart : (s.acknowledge a).uart = s.uart := rfl
@[simp] theorem State.acknowledge_pin : (s.acknowledge a).pin = s.pin := rfl
@[simp] theorem State.acknowledge_ch : (s.acknowledge a).ch = s.ch := rfl
@[simp] theorem State.acknowledge_buf : (s.acknowledge a).buf = s.buf := rfl
@[simp] theorem State.acknowledge_pps : (s.acknowledge a).pps = s.pps := rfl
@[simp] theorem State.acknowledge_auxState : (s.acknowledge a).auxState = s.auxState := rfl
@[simp] theorem State.acknowledge_intervalUs : (s.acknowledge a).intervalUs = s.intervalUs := rfl
@[simp] theorem State.acknowledge_lastEmitUs : (s.acknowledge a).lastEmitUs = s.lastEmitUs := rfl
@[simp] theorem State.acknowledge_prevInputs : (s.acknowledge a).prevInputs = s.prevInputs := rfl
@[simp] theorem State.acknowledge_prevSynced : (s.acknowledge a).prevSynced = s.prevSynced := rfl
@[simp] theorem State.acknowledge_fault : (s.acknowledge a).fault = s.fault := rfl
@[simp] theorem State.acknowledge_quiet : (s.acknowledge a).quiet = s.quiet := rfl
@[simp] theorem State.acknowledge_din : (s.acknowledge a).din = s.din := rfl
@[simp] theorem State.acknowledge_wire : (s.acknowledge a).wire = s.wire := rfl
@[simp] theorem State.acknowledge_txLog : (s.acknowledge a).txLog = s.txLog := rfl
@[simp] theorem State.acknowledge_edgeLog : (s.acknowledge a).edgeLog = s.edgeLog := rfl
@[simp] theorem State.acknowledge_rlog : (s.acknowledge a).rlog = s.rlog := rfl
@[simp] theorem State.acknowledge_hist : (s.acknowledge a).hist = s.hist := rfl
@[simp] theorem State.acknowledge_agenda : (s.acknowledge a).agenda = s.agenda := rfl
@[simp] theorem State.acknowledge_draws : (s.acknowledge a).draws = s.draws := rfl
@[simp] theorem State.acknowledge_freeCtr : (s.acknowledge a).freeCtr = s.freeCtr := rfl

end

/-! ## unclaimAlarm -/

section
variable (s : State) (a : Nat)

@[simp] theorem State.unclaimAlarm_params : (s.unclaimAlarm a).params = s.params := rfl
@[simp] theorem State.unclaimAlarm_regs : (s.unclaimAlarm a).regs = s.regs := rfl
@[simp] theorem State.unclaimAlarm_mpc : (s.unclaimAlarm a).mpc = s.mpc := rfl
@[simp] theorem State.unclaimAlarm_booted : (s.unclaimAlarm a).booted = s.booted := rfl
@[simp] theorem State.unclaimAlarm_lt : (s.unclaimAlarm a).lt = s.lt := rfl
@[simp] theorem State.unclaimAlarm_offs : (s.unclaimAlarm a).offs = s.offs := rfl
@[simp] theorem State.unclaimAlarm_hasSynced : (s.unclaimAlarm a).hasSynced = s.hasSynced := rfl
@[simp] theorem State.unclaimAlarm_alarms : (s.unclaimAlarm a).alarms = s.alarms.modify a fun x => { x with claimed := false } := rfl
@[simp] theorem State.unclaimAlarm_lines : (s.unclaimAlarm a).lines = s.lines := rfl
@[simp] theorem State.unclaimAlarm_dma : (s.unclaimAlarm a).dma = s.dma := rfl
@[simp] theorem State.unclaimAlarm_uart : (s.unclaimAlarm a).uart = s.uart := rfl
@[simp] theorem State.unclaimAlarm_pin : (s.unclaimAlarm a).pin = s.pin := rfl
@[simp] theorem State.unclaimAlarm_ch : (s.unclaimAlarm a).ch = s.ch := rfl
@[simp] theorem State.unclaimAlarm_buf : (s.unclaimAlarm a).buf = s.buf := rfl
@[simp] theorem State.unclaimAlarm_pps : (s.unclaimAlarm a).pps = s.pps := rfl
@[simp] theorem State.unclaimAlarm_auxState : (s.unclaimAlarm a).auxState = s.auxState := rfl
@[simp] theorem State.unclaimAlarm_intervalUs : (s.unclaimAlarm a).intervalUs = s.intervalUs := rfl
@[simp] theorem State.unclaimAlarm_lastEmitUs : (s.unclaimAlarm a).lastEmitUs = s.lastEmitUs := rfl
@[simp] theorem State.unclaimAlarm_prevInputs : (s.unclaimAlarm a).prevInputs = s.prevInputs := rfl
@[simp] theorem State.unclaimAlarm_prevSynced : (s.unclaimAlarm a).prevSynced = s.prevSynced := rfl
@[simp] theorem State.unclaimAlarm_fault : (s.unclaimAlarm a).fault = s.fault := rfl
@[simp] theorem State.unclaimAlarm_quiet : (s.unclaimAlarm a).quiet = s.quiet := rfl
@[simp] theorem State.unclaimAlarm_din : (s.unclaimAlarm a).din = s.din := rfl
@[simp] theorem State.unclaimAlarm_wire : (s.unclaimAlarm a).wire = s.wire := rfl
@[simp] theorem State.unclaimAlarm_txLog : (s.unclaimAlarm a).txLog = s.txLog := rfl
@[simp] theorem State.unclaimAlarm_edgeLog : (s.unclaimAlarm a).edgeLog = s.edgeLog := rfl
@[simp] theorem State.unclaimAlarm_rlog : (s.unclaimAlarm a).rlog = s.rlog := rfl
@[simp] theorem State.unclaimAlarm_hist : (s.unclaimAlarm a).hist = s.hist := rfl
@[simp] theorem State.unclaimAlarm_agenda : (s.unclaimAlarm a).agenda = s.agenda := rfl
@[simp] theorem State.unclaimAlarm_draws : (s.unclaimAlarm a).draws = s.draws := rfl
@[simp] theorem State.unclaimAlarm_freeCtr : (s.unclaimAlarm a).freeCtr = s.freeCtr := rfl

end

/-! ## releaseDma -/

section
variable (s : State) (d : Nat)

@[simp] theorem State.releaseDma_params : (s.releaseDma d).params = s.params := rfl
@[simp] theorem State.releaseDma_regs : (s.releaseDma d).regs = s.regs := rfl
@[simp] theorem State.releaseDma_mpc : (s.releaseDma d).mpc = s.mpc := rfl
@[simp] theorem State.releaseDma_booted : (s.releaseDma d).booted = s.booted := rfl
@[simp] theorem State.releaseDma_lt : (s.releaseDma d).lt = s.lt := rfl
@[simp] theorem State.releaseDma_offs : (s.releaseDma d).offs = s.offs := rfl
@[simp] theorem State.releaseDma_hasSynced : (s.releaseDma d).hasSynced = s.hasSynced := rfl
@[simp] theorem State.releaseDma_alarms : (s.releaseDma d).alarms = s.alarms := rfl
@[simp] theorem State.releaseDma_lines : (s.releaseDma d).lines = s.lines := rfl
@[simp] theorem State.releaseDma_dma : (s.releaseDma d).dma = s.dma.modify d fun x => { x with busy := false, claimed := false } := rfl
@[simp] theorem State.releaseDma_uart : (s.releaseDma d).uart = s.uart := rfl
@[simp] theorem State.releaseDma_pin : (s.releaseDma d).pin = s.pin := rfl
@[simp] theorem State.releaseDma_ch : (s.releaseDma d).ch = s.ch := rfl
@[simp] theorem State.releaseDma_buf : (s.releaseDma d).buf = s.buf := rfl
@[simp] theorem State.releaseDma_pps : (s.releaseDma d).pps = s.pps := rfl
@[simp] theorem State.releaseDma_auxState : (s.releaseDma d).auxState = s.auxState := rfl
@[simp] theorem State.releaseDma_intervalUs : (s.releaseDma d).intervalUs = s.intervalUs := rfl
@[simp] theorem State.releaseDma_lastEmitUs : (s.releaseDma d).lastEmitUs = s.lastEmitUs := rfl
@[simp] theorem State.releaseDma_prevInputs : (s.releaseDma d).prevInputs = s.prevInputs := rfl
@[simp] theorem State.releaseDma_prevSynced : (s.releaseDma d).prevSynced = s.prevSynced := rfl
@[simp] theorem State.releaseDma_fault : (s.releaseDma d).fault = s.fault := rfl
@[simp] theorem State.releaseDma_quiet : (s.releaseDma d).quiet = s.quiet := rfl
@[simp] theorem State.releaseDma_din : (s.releaseDma d).din = s.din := rfl
@[simp] theorem State.releaseDma_wire : (s.releaseDma d).wire = s.wire := rfl
@[simp] theorem State.releaseDma_txLog : (s.releaseDma d).txLog = s.txLog := rfl
@[simp] theorem State.releaseDma_edgeLog : (s.releaseDma d).edgeLog = s.edgeLog := rfl
@[simp] theorem State.releaseDma_rlog : (s.releaseDma d).rlog = s.rlog := rfl
@[simp] theorem State.releaseDma_hist : (s.releaseDma d).hist = s.hist := rfl
@[simp] theorem State.releaseDma_agenda : (s.releaseDma d).agenda = s.agenda := rfl
@[simp] theorem State.releaseDma_draws : (s.releaseDma d).draws = s.draws := rfl
@[simp] theorem State.releaseDma_freeCtr : (s.releaseDma d).freeCtr = s.freeCtr := rfl

end

/-! ## setCounter -/

section
variable (s : State) (v : BitVec 32)

@[simp] theorem State.setCounter_params : (s.setCounter v).params = s.params := rfl
@[simp] theorem State.setCounter_regs : (s.setCounter v).regs = { s.regs with counter := v } := rfl
@[simp] theorem State.setCounter_mpc : (s.setCounter v).mpc = s.mpc := rfl
@[simp] theorem State.setCounter_booted : (s.setCounter v).booted = s.booted := rfl
@[simp] theorem State.setCounter_lt : (s.setCounter v).lt = s.lt := rfl
@[simp] theorem State.setCounter_offs : (s.setCounter v).offs = s.offs := rfl
@[simp] theorem State.setCounter_hasSynced : (s.setCounter v).hasSynced = s.hasSynced := rfl
@[simp] theorem State.setCounter_alarms : (s.setCounter v).alarms = s.alarms := rfl
@[simp] theorem State.setCounter_lines : (s.setCounter v).lines = s.lines := rfl
@[simp] theorem State.setCounter_dma : (s.setCounter v).dma = s.dma := rfl
@[simp] theorem State.setCounter_uart : (s.setCounter v).uart = s.uart := rfl
@[simp] theorem State.setCounter_pin : (s.setCounter v).pin = s.pin := rfl
@[simp] theorem State.setCounter_ch : (s.setCounter v).ch = s.ch := rfl
@[simp] theorem State.setCounter_buf : (s.setCounter v).buf = s.buf := rfl
@[simp] theorem State.setCounter_pps : (s.setCounter v).pps = s.pps := rfl
@[simp] theorem State.setCounter_auxState : (s.setCounter v).auxState = s.auxState := rfl
@[simp] theorem State.setCounter_intervalUs : (s.setCounter v).intervalUs = s.intervalUs := rfl
@[simp] theorem State.setCounter_lastEmitUs : (s.setCounter v).lastEmitUs = s.lastEmitUs := rfl
@[simp] theorem State.setCounter_prevInputs : (s.setCounter v).prevInputs = s.prevInputs := rfl
@[simp] theorem State.setCounter_prevSynced : (s.setCounter v).prevSynced = s.prevSynced := rfl
@[simp] theorem State.setCounter_fault : (s.setCounter v).fault = s.fault := rfl
@[simp] theorem State.setCounter_quiet : (s.setCounter v).quiet = s.quiet := rfl
@[simp] theorem State.setCounter_din : (s.setCounter v).din = s.din := rfl
@[simp] theorem State.setCounter_wire : (s.setCounter v).wire = s.wire := rfl
@[simp] theorem State.setCounter_txLog : (s.setCounter v).txLog = s.txLog := rfl
@[simp] theorem State.setCounter_edgeLog : (s.setCounter v).edgeLog = s.edgeLog := rfl
@[simp] theorem State.setCounter_rlog : (s.setCounter v).rlog = s.rlog := rfl
@[simp] theorem State.setCounter_hist : (s.setCounter v).hist = s.hist := rfl
@[simp] theorem State.setCounter_agenda : (s.setCounter v).agenda = s.agenda := rfl
@[simp] theorem State.setCounter_draws : (s.setCounter v).draws = s.draws := rfl
@[simp] theorem State.setCounter_freeCtr : (s.setCounter v).freeCtr = s.freeCtr := rfl

end

/-! ## setFreq -/

section
variable (s : State) (v : BitVec 16)

@[simp] theorem State.setFreq_params : (s.setFreq v).params = s.params := rfl
@[simp] theorem State.setFreq_regs : (s.setFreq v).regs = { s.regs with counterFreqHz := v } := rfl
@[simp] theorem State.setFreq_mpc : (s.setFreq v).mpc = s.mpc := rfl
@[simp] theorem State.setFreq_booted : (s.setFreq v).booted = s.booted := rfl
@[simp] theorem State.setFreq_lt : (s.setFreq v).lt = s.lt := rfl
@[simp] theorem State.setFreq_offs : (s.setFreq v).offs = s.offs := rfl
@[simp] theorem State.setFreq_hasSynced : (s.setFreq v).hasSynced = s.hasSynced := rfl
@[simp] theorem State.setFreq_alarms : (s.setFreq v).alarms = s.alarms := rfl
@[simp] theorem State.setFreq_lines : (s.setFreq v).lines = s.lines := rfl
@[simp] theorem State.setFreq_dma : (s.setFreq v).dma = s.dma := rfl
@[simp] theorem State.setFreq_uart : (s.setFreq v).uart = s.uart := rfl
@[simp] theorem State.setFreq_pin : (s.setFreq v).pin = s.pin := rfl
@[simp] theorem State.setFreq_ch : (s.setFreq v).ch = s.ch := rfl
@[simp] theorem State.setFreq_buf : (s.setFreq v).buf = s.buf := rfl
@[simp] theorem State.setFreq_pps : (s.setFreq v).pps = s.pps := rfl
@[simp] theorem State.setFreq_auxState : (s.setFreq v).auxState = s.auxState := rfl
@[simp] theorem State.setFreq_intervalUs : (s.setFreq v).intervalUs = s.intervalUs := rfl
@[simp] theorem State.setFreq_lastEmitUs : (s.setFreq v).lastEmitUs = s.lastEmitUs := rfl
@[simp] theorem State.setFreq_prevInputs : (s.setFreq v).prevInputs = s.prevInputs := rfl
@[simp] theorem State.setFreq_prevSynced : (s.setFreq v).prevSynced = s.prevSynced := rfl
@[simp] theorem State.setFreq_fault : (s.setFreq v).fault = s.fault := rfl
@[simp] theorem State.setFreq_quiet : (s.setFreq v).quiet = s.quiet := rfl
@[simp] theorem State.setFreq_din : (s.setFreq v).din = s.din := rfl
@[simp] theorem State.setFreq_wire : (s.setFreq v).wire = s.wire := rfl
@[simp] theorem State.setFreq_txLog : (s.setFreq v).txLog = s.txLog := rfl
@[simp] theorem State.setFreq_edgeLog : (s.setFreq v).edgeLog = s.edgeLog := rfl
@[simp] theorem State.setFreq_rlog : (s.setFreq v).rlog = s.rlog := rfl
@[simp] theorem State.setFreq_hist : (s.setFreq v).hist = s.hist := rfl
@[simp] theorem State.setFreq_agenda : (s.setFreq v).agenda = s.agenda := rfl
@[simp] theorem State.setFreq_draws : (s.setFreq v).draws = s.draws := rfl
@[simp] theorem State.setFreq_freeCtr : (s.setFreq v).freeCtr = s.freeCtr := rfl

end

/-! ## setAuxfn -/

section
variable (s : State) (v : BitVec 8)

@[simp] theorem State.setAuxfn_params : (s.setAuxfn v).params = s.params := rfl
@[simp] theorem State.setAuxfn_regs : (s.setAuxfn v).regs = { s.regs with auxPortFn := v } := rfl
@[simp] theorem State.setAuxfn_mpc : (s.setAuxfn v).mpc = s.mpc := rfl
@[simp] theorem State.setAuxfn_booted : (s.setAuxfn v).booted = s.booted := rfl
@[simp] theorem State.setAuxfn_lt : (s.setAuxfn v).lt = s.lt := rfl
@[simp] theorem State.setAuxfn_offs : (s.setAuxfn v).offs = s.offs := rfl
@[simp] theorem State.setAuxfn_hasSynced : (s.setAuxfn v).hasSynced = s.hasSynced := rfl
@[simp] theorem State.setAuxfn_alarms : (s.setAuxfn v).alarms = s.alarms := rfl
@[simp] theorem State.setAuxfn_lines : (s.setAuxfn v).lines = s.lines := rfl
@[simp] theorem State.setAuxfn_dma : (s.setAuxfn v).dma = s.dma := rfl
@[simp] theorem State.setAuxfn_uart : (s.setAuxfn v).uart = s.uart := rfl
@[simp] theorem State.setAuxfn_pin : (s.setAuxfn v).pin = s.pin := rfl
@[simp] theorem State.setAuxfn_ch : (s.setAuxfn v).ch = s.ch := rfl
@[simp] theorem State.setAuxfn_buf : (s.setAuxfn v).buf = s.buf := rfl
@[simp] theorem State.setAuxfn_pps : (s.setAuxfn v).pps = s.pps := rfl
@[simp] theorem State.setAuxfn_auxState : (s.setAuxfn v).auxState = s.auxState := rfl
@[simp] theorem State.setAuxfn_intervalUs : (s.setAuxfn v).intervalUs = s.intervalUs := rfl
@[simp] theorem State.setAuxfn_lastEmitUs : (s.setAuxfn v).lastEmitUs = s.lastEmitUs := rfl
@[simp] theorem State.setAuxfn_prevInputs : (s.setAuxfn v).prevInputs = s.prevInputs := rfl
@[simp] theorem State.setAuxfn_prevSynced : (s.setAuxfn v).prevSynced = s.prevSynced := rfl
@[simp] theorem State.setAuxfn_fault : (s.setAuxfn v).fault = s.fault := rfl
@[simp] theorem State.setAuxfn_quiet : (s.setAuxfn v).quiet = s.quiet := rfl
@[simp] theorem State.setAuxfn_din : (s.setAuxfn v).din = s.din := rfl
@[simp] theorem State.setAuxfn_wire : (s.setAuxfn v).wire = s.wire := rfl
@[simp] theorem State.setAuxfn_txLog : (s.setAuxfn v).txLog = s.txLog := rfl
@[simp] theorem State.setAuxfn_edgeLog : (s.setAuxfn v).edgeLog = s.edgeLog := rfl
@[simp] theorem State.setAuxfn_rlog : (s.setAuxfn v).rlog = s.rlog := rfl
@[simp] theorem State.setAuxfn_hist : (s.setAuxfn v).hist = s.hist := rfl
@[simp] theorem State.setAuxfn_agenda : (s.setAuxfn v).agenda = s.agenda := rfl
@[simp] theorem State.setAuxfn_draws : (s.setAuxfn v).draws = s.draws := rfl
@[simp] theorem State.setAuxfn_freeCtr : (s.setAuxfn v).freeCtr = s.freeCtr := rfl

end

/-! ## setAuxbaud -/

section
variable (s : State) (v : BitVec 32)

@[simp] theorem State.setAuxbaud_params : (s.setAuxbaud v).params = s.params := rfl
@[simp] theorem State.setAuxbaud_regs : (s.setAuxbaud v).regs = { s.regs with auxBaudRate := v } := rfl
@[simp] theorem State.setAuxbaud_mpc : (s.setAuxbaud v).mpc = s.mpc := rfl
@[simp] theorem State.setAuxbaud_booted : (s.setAuxbaud v).booted = s.booted := rfl
@[simp] theorem State.setAuxbaud_lt : (s.setAuxbaud v).lt = s.lt := rfl
@[simp] theorem State.setAuxbaud_offs : (s.setAuxbaud v).offs = s.offs := rfl
@[simp] theorem State.setAuxbaud_hasSynced : (s.setAuxbaud v).hasSynced = s.hasSynced := rfl
@[simp] theorem State.setAuxbaud_alarms : (s.setAuxbaud v).alarms = s.alarms := rfl
@[simp] theorem State.setAuxbaud_lines : (s.setAuxbaud v).lines = s.lines := rfl
@[simp] theorem State.setAuxbaud_dma : (s.setAuxbaud v).dma = s.dma := rfl
@[simp] theorem State.setAuxbaud_uart : (s.setAuxbaud v).uart = s.uart := rfl
@[simp] theorem State.setAuxbaud_pin : (s.setAuxbaud v).pin = s.pin := rfl
@[simp] theorem State.setAuxbaud_ch : (s.setAuxbaud v).ch = s.ch := rfl
@[simp] theorem State.setAuxbaud_buf : (s.setAuxbaud v).buf = s.buf := rfl
@[simp] theorem State.setAuxbaud_pps : (s.setAuxbaud v).pps = s.pps := rfl
@[simp] theorem State.setAuxbaud_auxState : (s.setAuxbaud v).auxState = s.auxState := rfl
@[simp] theorem State.setAuxbaud_intervalUs : (s.setAuxbaud v).intervalUs = s.intervalUs := rfl
@[simp] theorem State.setAuxbaud_lastEmitUs : (s.setAuxbaud v).lastEmitUs = s.lastEmitUs := rfl
@[simp] theorem State.setAuxbaud_prevInputs : (s.setAuxbaud v).prevInputs = s.prevInputs := rfl
@[simp] theorem State.setAuxbaud_prevSynced : (s.setAuxbaud v).prevSynced = s.prevSynced := rfl
@[simp] theorem State.setAuxbaud_fault : (s.setAuxbaud v).fault = s.fault := rfl
@[simp] theorem State.setAuxbaud_quiet : (s.setAuxbaud v).quiet = s.quiet := rfl
@[simp] theorem State.setAuxbaud_din : (s.setAuxbaud v).din = s.din := rfl
@[simp] theorem State.setAuxbaud_wire : (s.setAuxbaud v).wire = s.wire := rfl
@[simp] theorem State.setAuxbaud_txLog : (s.setAuxbaud v).txLog = s.txLog := rfl
@[simp] theorem State.setAuxbaud_edgeLog : (s.setAuxbaud v).edgeLog = s.edgeLog := rfl
@[simp] theorem State.setAuxbaud_rlog : (s.setAuxbaud v).rlog = s.rlog := rfl
@[simp] theorem State.setAuxbaud_hist : (s.setAuxbaud v).hist = s.hist := rfl
@[simp] theorem State.setAuxbaud_agenda : (s.setAuxbaud v).agenda = s.agenda := rfl
@[simp] theorem State.setAuxbaud_draws : (s.setAuxbaud v).draws = s.draws := rfl
@[simp] theorem State.setAuxbaud_freeCtr : (s.setAuxbaud v).freeCtr = s.freeCtr := rfl

end

/-! ## restartInterval -/

section
variable (s : State) (v : BitVec 16)

@[simp] theorem State.restartInterval_params : (s.restartInterval v).params = s.params := rfl
@[simp] theorem State.restartInterval_regs : (s.restartInterval v).regs = s.regs := rfl
@[simp] theorem State.restartInterval_mpc : (s.restartInterval v).mpc = s.mpc := rfl
@[simp] theorem State.restartInterval_booted : (s.restartInterval v).booted = s.booted := rfl
@[simp] theorem State.restartInterval_lt : (s.restartInterval v).lt = s.lt := rfl
@[simp] theorem State.restartInterval_offs : (s.restartInterval v).offs = s.offs := rfl
@[simp] theorem State.restartInterval_hasSynced : (s.restartInterval v).hasSynced = s.hasSynced := rfl
@[simp] theorem State.restartInterval_alarms : (s.restartInterval v).alarms = s.alarms := rfl
@[simp] theorem State.restartInterval_lines : (s.restartInterval v).lines = s.lines := rfl
@[simp] theorem State.restartInterval_dma : (s.restartInterval v).dma = s.dma := rfl
@[simp] theorem State.restartInterval_uart : (s.restartInterval v).uart = s.uart := rfl
@[simp] theorem State.restartInterval_pin : (s.restartInterval v).pin = s.pin := rfl
@[simp] theorem State.restartInterval_ch : (s.restartInterval v).ch = s.ch := rfl
@[simp] theorem State.restartInterval_buf : (s.restartInterval v).buf = s.buf := rfl
@[simp] theorem State.restartInterval_pps : (s.restartInterval v).pps = s.pps := rfl
@[simp] theorem State.restartInterval_auxState : (s.restartInterval v).auxState = s.auxState := rfl
@[simp] theorem State.restartInterval_intervalUs : (s.restartInterval v).intervalUs = interval v := rfl
@[simp] theorem State.restartInterval_lastEmitUs : (s.restartInterval v).lastEmitUs = s.us32 := rfl
@[simp] theorem State.restartInterval_prevInputs : (s.restartInterval v).prevInputs = s.prevInputs := rfl
@[simp] theorem State.restartInterval_prevSynced : (s.restartInterval v).prevSynced = s.prevSynced := rfl
@[simp] theorem State.restartInterval_fault : (s.restartInterval v).fault = s.fault := rfl
@[simp] theorem State.restartInterval_quiet : (s.restartInterval v).quiet = s.quiet := rfl
@[simp] theorem State.restartInterval_din : (s.restartInterval v).din = s.din := rfl
@[simp] theorem State.restartInterval_wire : (s.restartInterval v).wire = s.wire := rfl
@[simp] theorem State.restartInterval_txLog : (s.restartInterval v).txLog = s.txLog := rfl
@[simp] theorem State.restartInterval_edgeLog : (s.restartInterval v).edgeLog = s.edgeLog := rfl
@[simp] theorem State.restartInterval_rlog : (s.restartInterval v).rlog = s.rlog := rfl
@[simp] theorem State.restartInterval_hist : (s.restartInterval v).hist = s.hist := rfl
@[simp] theorem State.restartInterval_agenda : (s.restartInterval v).agenda = s.agenda := rfl
@[simp] theorem State.restartInterval_draws : (s.restartInterval v).draws = s.draws := rfl
@[simp] theorem State.restartInterval_freeCtr : (s.restartInterval v).freeCtr = s.freeCtr := rfl

end

/-! ## modifyLine and the operations on lines -/

section
variable (s : State) (q : Nat) (f : IrqLine → IrqLine) (h : Handler) (b : Bool)

@[simp] theorem State.modifyLine_params : (s.modifyLine q f).params = s.params := by
  unfold State.modifyLine; cases s.alarmOf q <;> rfl
@[simp] theorem State.modifyLine_regs : (s.modifyLine q f).regs = s.regs := by
  unfold State.modifyLine; cases s.alarmOf q <;> rfl
@[simp] theorem State.modifyLine_mpc : (s.modifyLine q f).mpc = s.mpc := by
  unfold State.modifyLine; cases s.alarmOf q <;> rfl
@[simp] theorem State.modifyLine_booted : (s.modifyLine q f).booted = s.booted := by
  unfold State.modifyLine; cases s.alarmOf q <;> rfl
@[simp] theorem State.modifyLine_lt : (s.modifyLine q f).lt = s.lt := by
  unfold State.modifyLine; cases s.alarmOf q <;> rfl
@[simp] theorem State.modifyLine_offs : (s.modifyLine q f).offs = s.offs := by
  unfold State.modifyLine; cases s.alarmOf q <;> rfl
@[simp] theorem State.modifyLine_hasSynced : (s.modifyLine q f).hasSynced = s.hasSynced := by
  unfold State.modifyLine; cases s.alarmOf q <;> rfl
@[simp] theorem State.modifyLine_alarms : (s.modifyLine q f).alarms = s.alarms := by
  unfold State.modifyLine; cases s.alarmOf q <;> rfl
@[simp] theorem State.modifyLine_dma : (s.modifyLine q f).dma = s.dma := by
  unfold State.modifyLine; cases s.alarmOf q <;> rfl
@[simp] theorem State.modifyLine_uart : (s.modifyLine q f).uart = s.uart := by
  unfold State.modifyLine; cases s.alarmOf q <;> rfl
@[simp] theorem State.modifyLine_pin : (s.modifyLine q f).pin = s.pin := by
  unfold State.modifyLine; cases s.alarmOf q <;> rfl
@[simp] theorem State.modifyLine_ch : (s.modifyLine q f).ch = s.ch := by
  unfold State.modifyLine; cases s.alarmOf q <;> rfl
@[simp] theorem State.modifyLine_buf : (s.modifyLine q f).buf = s.buf := by
  unfold State.modifyLine; cases s.alarmOf q <;> rfl
@[simp] theorem State.modifyLine_pps : (s.modifyLine q f).pps = s.pps := by
  unfold State.modifyLine; cases s.alarmOf q <;> rfl
@[simp] theorem State.modifyLine_auxState : (s.modifyLine q f).auxState = s.auxState := by
  unfold State.modifyLine; cases s.alarmOf q <;> rfl
@[simp] theorem State.modifyLine_intervalUs : (s.modifyLine q f).intervalUs = s.intervalUs := by
  unfold State.modifyLine; cases s.alarmOf q <;> rfl
@[simp] theorem State.modifyLine_lastEmitUs : (s.modifyLine q f).lastEmitUs = s.lastEmitUs := by
  unfold State.modifyLine; cases s.alarmOf q <;> rfl
@[simp] theorem State.modifyLine_prevInputs : (s.modifyLine q f).prevInputs = s.prevInputs := by
  unfold State.modifyLine; cases s.alarmOf q <;> rfl
@[simp] theorem State.modifyLine_prevSynced : (s.modifyLine q f).prevSynced = s.prevSynced := by
  unfold State.modifyLine; cases s.alarmOf q <;> rfl
@[simp] theorem State.modifyLine_fault : (s.modifyLine q f).fault = s.fault := by
  unfold State.modifyLine; cases s.alarmOf q <;> rfl
@[simp] theorem State.modifyLine_quiet : (s.modifyLine q f).quiet = s.quiet := by
  unfold State.modifyLine; cases s.alarmOf q <;> rfl
@[simp] theorem State.modifyLine_din : (s.modifyLine q f).din = s.din := by
  unfold State.modifyLine; cases s.alarmOf q <;> rfl
@[simp] theorem State.modifyLine_wire : (s.modifyLine q f).wire = s.wire := by
  unfold State.modifyLine; cases s.alarmOf q <;> rfl
@[simp] theorem State.modifyLine_txLog : (s.modifyLine q f).txLog = s.txLog := by
  unfold State.modifyLine; cases s.alarmOf q <;> rfl
@[simp] theorem State.modifyLine_edgeLog : (s.modifyLine q f).edgeLog = s.edgeLog := by
  unfold State.modifyLine; cases s.alarmOf q <;> rfl
@[simp] theorem State.modifyLine_rlog : (s.modifyLine q f).rlog = s.rlog := by
  unfold State.modifyLine; cases s.alarmOf q <;> rfl
@[simp] theorem State.modifyLine_hist : (s.modifyLine q f).hist = s.hist := by
  unfold State.modifyLine; cases s.alarmOf q <;> rfl
@[simp] theorem State.modifyLine_agenda : (s.modifyLine q f).agenda = s.agenda := by
  unfold State.modifyLine; cases s.alarmOf q <;> rfl
@[simp] theorem State.modifyLine_draws : (s.modifyLine q f).draws = s.draws := by
  unfold State.modifyLine; cases s.alarmOf q <;> rfl
@[simp] theorem State.modifyLine_freeCtr : (s.modifyLine q f).freeCtr = s.freeCtr := by
  unfold State.modifyLine; cases s.alarmOf q <;> rfl
@[simp] theorem State.bind_params : (s.bind q h).params = s.params := s.modifyLine_params q _
@[simp] theorem State.enableIrq_params : (s.enableIrq q b).params = s.params := s.modifyLine_params q _
@[simp] theorem State.bind_regs : (s.bind q h).regs = s.regs := s.modifyLine_regs q _
@[simp] theorem State.enableIrq_regs : (s.enableIrq q b).regs = s.regs := s.modifyLine_regs q _
@[simp] theorem State.bind_mpc : (s.bind q h).mpc = s.mpc := s.modifyLine_mpc q _
@[simp] theorem State.enableIrq_mpc : (s.enableIrq q b).mpc = s.mpc := s.modifyLine_mpc q _
@[simp] theorem State.bind_booted : (s.bind q h).booted = s.booted := s.modifyLine_booted q _
@[simp] theorem State.enableIrq_booted : (s.enableIrq q b).booted = s.booted := s.modifyLine_booted q _
@[simp] theorem State.bind_lt : (s.bind q h).lt = s.lt := s.modifyLine_lt q _
@[simp] theorem State.enableIrq_lt : (s.enableIrq q b).lt = s.lt := s.modifyLine_lt q _
@[simp] theorem State.bind_offs : (s.bind q h).offs = s.offs := s.modifyLine_offs q _
@[simp] theorem State.enableIrq_offs : (s.enableIrq q b).offs = s.offs := s.modifyLine_offs q _
@[simp] theorem State.bind_hasSynced : (s.bind q h).hasSynced = s.hasSynced := s.modifyLine_hasSynced q _
@[simp] theorem State.enableIrq_hasSynced : (s.enableIrq q b).hasSynced = s.hasSynced := s.modifyLine_hasSynced q _
@[simp] theorem State.bind_alarms : (s.bind q h).alarms = s.alarms := s.modifyLine_alarms q _
@[simp] theorem State.enableIrq_alarms : (s.enableIrq q b).alarms = s.alarms := s.modifyLine_alarms q _
@[simp] theorem State.bind_dma : (s.bind q h).dma = s.dma := s.modifyLine_dma q _
@[simp] theorem State.enableIrq_dma : (s.enableIrq q b).dma = s.dma := s.modifyLine_dma q _
@[simp] theorem State.bind_uart : (s.bind q h).uart = s.uart := s.modifyLine_uart q _
@[simp] theorem State.enableIrq_uart : (s.enableIrq q b).uart = s.uart := s.modifyLine_uart q _
@[simp] theorem State.bind_pin : (s.bind q h).pin = s.pin := s.modifyLine_pin q _
@[simp] theorem State.enableIrq_pin : (s.enableIrq q b).pin = s.pin := s.modifyLine_pin q _
@[simp] theorem State.bind_ch : (s.bind q h).ch = s.ch := s.modifyLine_ch q _
@[simp] theorem State.enableIrq_ch : (s.enableIrq q b).ch = s.ch := s.modifyLine_ch q _
@[simp] theorem State.bind_buf : (s.bind q h).buf = s.buf := s.modifyLine_buf q _
@[simp] theorem State.enableIrq_buf : (s.enableIrq q b).buf = s.buf := s.modifyLine_buf q _
@[simp] theorem State.bind_pps : (s.bind q h).pps = s.pps := s.modifyLine_pps q _
@[simp] theorem State.enableIrq_pps : (s.enableIrq q b).pps = s.pps := s.modifyLine_pps q _
@[simp] theorem State.bind_auxState : (s.bind q h).auxState = s.auxState := s.modifyLine_auxState q _
@[simp] theorem State.enableIrq_auxState : (s.enableIrq q b).auxState = s.auxState := s.modifyLine_auxState q _
@[simp] theorem State.bind_intervalUs : (s.bind q h).intervalUs = s.intervalUs := s.modifyLine_intervalUs q _
@[simp] theorem State.enableIrq_intervalUs : (s.enableIrq q b).intervalUs = s.intervalUs := s.modifyLine_intervalUs q _
@[simp] theorem State.bind_lastEmitUs : (s.bind q h).lastEmitUs = s.lastEmitUs := s.modifyLine_lastEmitUs q _
@[simp] theorem State.enableIrq_lastEmitUs : (s.enableIrq q b).lastEmitUs = s.lastEmitUs := s.modifyLine_lastEmitUs q _
@[simp] theorem State.bind_prevInputs : (s.bind q h).prevInputs = s.prevInputs := s.modifyLine_prevInputs q _
@[simp] theorem State.enableIrq_prevInputs : (s.enableIrq q b).prevInputs = s.prevInputs := s.modifyLine_prevInputs q _
@[simp] theorem State.bind_prevSynced : (s.bind q h).prevSynced = s.prevSynced := s.modifyLine_prevSynced q _
@[simp] theorem State.enableIrq_prevSynced : (s.enableIrq q b).prevSynced = s.prevSynced := s.modifyLine_prevSynced q _
@[simp] theorem State.bind_fault : (s.bind q h).fault = s.fault := s.modifyLine_fault q _
@[simp] theorem State.enableIrq_fault : (s.enableIrq q b).fault = s.fault := s.modifyLine_fault q _
@[simp] theorem State.bind_quiet : (s.bind q h).quiet = s.quiet := s.modifyLine_quiet q _
@[simp] theorem State.enableIrq_quiet : (s.enableIrq q b).quiet = s.quiet := s.modifyLine_quiet q _
@[simp] theorem State.bind_din : (s.bind q h).din = s.din := s.modifyLine_din q _
@[simp] theorem State.enableIrq_din : (s.enableIrq q b).din = s.din := s.modifyLine_din q _
@[simp] theorem State.bind_wire : (s.bind q h).wire = s.wire := s.modifyLine_wire q _
@[simp] theorem State.enableIrq_wire : (s.enableIrq q b).wire = s.wire := s.modifyLine_wire q _
@[simp] theorem State.bind_txLog : (s.bind q h).txLog = s.txLog := s.modifyLine_txLog q _
@[simp] theorem State.enableIrq_txLog : (s.enableIrq q b).txLog = s.txLog := s.modifyLine_txLog q _
@[simp] theorem State.bind_edgeLog : (s.bind q h).edgeLog = s.edgeLog := s.modifyLine_edgeLog q _
@[simp] theorem State.enableIrq_edgeLog : (s.enableIrq q b).edgeLog = s.edgeLog := s.modifyLine_edgeLog q _
@[simp] theorem State.bind_rlog : (s.bind q h).rlog = s.rlog := s.modifyLine_rlog q _
@[simp] theorem State.enableIrq_rlog : (s.enableIrq q b).rlog = s.rlog := s.modifyLine_rlog q _
@[simp] theorem State.bind_hist : (s.bind q h).hist = s.hist := s.modifyLine_hist q _
@[simp] theorem State.enableIrq_hist : (s.enableIrq q b).hist = s.hist := s.modifyLine_hist q _
@[simp] theorem State.bind_agenda : (s.bind q h).agenda = s.agenda := s.modifyLine_agenda q _
@[simp] theorem State.enableIrq_agenda : (s.enableIrq q b).agenda = s.agenda := s.modifyLine_agenda q _
@[simp] theorem State.bind_draws : (s.bind q h).draws = s.draws := s.modifyLine_draws q _
@[simp] theorem State.enableIrq_draws : (s.enableIrq q b).draws = s.draws := s.modifyLine_draws q _
@[simp] theorem State.bind_freeCtr : (s.bind q h).freeCtr = s.freeCtr := s.modifyLine_freeCtr q _
@[simp] theorem State.enableIrq_freeCtr : (s.enableIrq q b).freeCtr = s.freeCtr := s.modifyLine_freeCtr q _

end

/-! ## Pairs -/

section
variable {α : Type} (x : Pair α) (v : α)

@[simp] theorem Pair.get_pri : x.get .pri = x.pri := rfl
@[simp] theorem Pair.get_aux : x.get .aux = x.aux := rfl
@[simp] theorem Pair.set_pri : x.set .pri v = { x with pri := v } := rfl
@[simp] theorem Pair.set_aux : x.set .aux v = { x with aux := v } := rfl

@[simp] theorem Pair.get_set_same (c : Ch) : (x.set c v).get c = v := by cases c <;> rfl

theorem Pair.get_set_other {c d : Ch} (h : d ≠ c) : (x.set c v).get d = x.get d := by
  cases c <;> cases d <;> first | rfl | exact absurd rfl h

theorem Pair.get_set (c d : Ch) : (x.set c v).get d = if d = c then v else x.get d := by
  cases c <;> cases d <;> rfl

end

end Sys2Proof.Machine
end

