-- ==== Sys2Proof/Laws/Memory.lean ====
section
/-!
SUPPORT. The laws of the buffer memory: a read after a write, the canonical form, consecutive stores, distinct addresses.
-/

namespace Sys2Proof.Machine

theorem Memory.read_write_same (m : List Host.Cell) (a : Nat) (b : Byte) :
    Memory.read (Memory.write m a b) a = some b := by
  induction m with
  | nil => simp [Memory.write, Memory.read]
  | cons e m ih =>
    obtain ⟨k, x⟩ := e
    unfold Memory.write
    split
    · simp [Memory.read]
    · split
      · simp [Memory.read]
      · have : ¬k = a := fun h => by omega
        simp [Memory.read, this, ih]

theorem Memory.read_write_other (m : List Host.Cell) {a k : Nat} (b : Byte) (h : k ≠ a) :
    Memory.read (Memory.write m a b) k = Memory.read m k := by
  induction m with
  | nil => simp [Memory.write, Memory.read, h.symm]
  | cons e m ih =>
    obtain ⟨j, x⟩ := e
    unfold Memory.write
    split
    · simp [Memory.read, h.symm]
    · split
      · next hj => subst hj; simp [Memory.read, h.symm]
      · simp [Memory.read, ih]

theorem Memory.read_write (m : List Host.Cell) (a k : Nat) (b : Byte) :
    Memory.read (Memory.write m a b) k = if k = a then some b else Memory.read m k := by
  split
  · next h => subst h; exact Memory.read_write_same m k b
  · next h => exact Memory.read_write_other m b h

/-- The canonical form, as a chain of rising addresses. -/
theorem Memory.wf_cons_cons (e f : Host.Cell) (m : List Host.Cell) :
    Memory.wf (e :: f :: m) = (decide (e.1 < f.1) && Memory.wf (f :: m)) := rfl

/-- Every address of a canonical memory's tail is above its head. -/
theorem Memory.wf_tail {e : Host.Cell} {m : List Host.Cell} (h : Memory.wf (e :: m) = true) :
    Memory.wf m = true := by
  cases m with
  | nil => rfl
  | cons f m => rw [Memory.wf_cons_cons, Bool.and_eq_true] at h; exact h.2

theorem Memory.wf_write (m : List Host.Cell) (a : Nat) (b : Byte) (h : Memory.wf m = true) :
    Memory.wf (Memory.write m a b) = true := by
  induction m with
  | nil => rfl
  | cons e m ih =>
    obtain ⟨k, x⟩ := e
    have ht := ih (Memory.wf_tail h)
    unfold Memory.write
    split
    · next hlt => rw [Memory.wf_cons_cons, h]; simp [hlt]
    · next hge =>
      split
      · next he =>
        subst he
        cases m with
        | nil => rfl
        | cons f m => rw [Memory.wf_cons_cons] at h ⊢; exact h
      · next hne =>
        have hk : k < a := by omega
        cases m with
        | nil => simp [Memory.write, Memory.wf, hk]
        | cons f m =>
          obtain ⟨j, y⟩ := f
          rw [Memory.wf_cons_cons, Bool.and_eq_true] at h
          have hkj : k < j := of_decide_eq_true h.1
          unfold Memory.write at ht ⊢
          split
          · next hlt => rw [if_pos hlt] at ht; rw [Memory.wf_cons_cons, ht]; simp [hk]
          · next hge' =>
            rw [if_neg hge'] at ht
            split
            · next he => rw [if_pos he] at ht; rw [Memory.wf_cons_cons, ht]; simp [hk]
            · next hne' => rw [if_neg hne'] at ht; rw [Memory.wf_cons_cons, ht]; simp [hkj]

theorem Memory.wf_writeList (bs : List Byte) : ∀ (m : List Host.Cell) (a : Nat), Memory.wf m = true →
    Memory.wf (Memory.writeList m a bs) = true := by
  induction bs with
  | nil => intro m a h; exact h
  | cons b bs ih => intro m a h; exact ih _ _ (Memory.wf_write m a b h)

theorem Memory.read_writeList_other (bs : List Byte) : ∀ (m : List Host.Cell) (a k : Nat),
    (k < a ∨ a + bs.length ≤ k) → Memory.read (Memory.writeList m a bs) k = Memory.read m k := by
  induction bs with
  | nil => intro m a k _; rfl
  | cons b bs ih =>
    intro m a k h
    simp only [List.length_cons] at h
    show Memory.read (Memory.writeList (Memory.write m a b) (a + 1) bs) k = _
    rw [ih _ _ _ (by omega), Memory.read_write_other _ _ (by omega)]

theorem Memory.read_writeList_same (bs : List Byte) : ∀ (m : List Host.Cell) (a i : Nat),
    i < bs.length → Memory.read (Memory.writeList m a bs) (a + i) = bs[i]? := by
  induction bs with
  | nil => intro m a i h; simp at h
  | cons b bs ih =>
    intro m a i h
    show Memory.read (Memory.writeList (Memory.write m a b) (a + 1) bs) (a + i) = _
    cases i with
    | zero =>
      rw [Memory.read_writeList_other _ _ _ _ (by omega)]
      simpa using Memory.read_write_same m a b
    | succ i =>
      simp only [List.length_cons] at h
      have := ih (Memory.write m a b) (a + 1) i (by omega)
      rw [show a + (i + 1) = a + 1 + i by omega, this]
      simp

/-- What a consecutive store does, at every address. -/
theorem Memory.read_writeList (m : List Host.Cell) (a k : Nat) (bs : List Byte) :
    Memory.read (Memory.writeList m a bs) k =
      if a ≤ k ∧ k < a + bs.length then bs[k - a]? else Memory.read m k := by
  split
  · next h =>
    have := Memory.read_writeList_same bs m a (k - a) (by omega)
    rwa [show a + (k - a) = k by omega] at this
  · next h => exact Memory.read_writeList_other bs m a k (by omega)

/-- A byte that has a value keeps having one. -/
theorem Memory.isSome_writeList (m : List Host.Cell) (a k : Nat) (bs : List Byte)
    (h : (Memory.read m k).isSome = true) : (Memory.read (Memory.writeList m a bs) k).isSome = true := by
  rw [Memory.read_writeList]
  split
  · next hk => rw [List.getElem?_eq_getElem (by omega)]; rfl
  · exact h

/-- A store adds no address but the ones stored to. -/
theorem Memory.mem_write (m : List Host.Cell) (a : Nat) (b : Byte) (e : Host.Cell)
    (h : e ∈ Memory.write m a b) : e.1 = a ∨ e ∈ m := by
  induction m with
  | nil => simp [Memory.write] at h; exact .inl (by rw [h])
  | cons f m ih =>
    obtain ⟨k, x⟩ := f
    unfold Memory.write at h
    split at h
    · rcases List.mem_cons.mp h with h | h
      · exact .inl (by rw [h])
      · exact .inr h
    · split at h
      · rcases List.mem_cons.mp h with h | h
        · exact .inl (by rw [h])
        · exact .inr (List.mem_cons_of_mem _ h)
      · rcases List.mem_cons.mp h with h | h
        · exact .inr (by rw [h]; exact List.mem_cons_self)
        · exact (ih h).imp id (List.mem_cons_of_mem _)

theorem Memory.mem_writeList (bs : List Byte) : ∀ (m : List Host.Cell) (a : Nat) (e : Host.Cell),
    e ∈ Memory.writeList m a bs → (a ≤ e.1 ∧ e.1 < a + bs.length) ∨ e ∈ m := by
  induction bs with
  | nil => intro m a e h; exact .inr h
  | cons b bs ih =>
    intro m a e h
    simp only [List.length_cons]
    rcases ih _ _ _ h with h | h
    · exact .inl ⟨by omega, by omega⟩
    · rcases Memory.mem_write m a b e h with h | h
      · exact .inl ⟨by omega, by omega⟩
      · exact .inr h

/-- Two buffer bytes share an address only if they are the same byte: indexes are below 8. -/
theorem bufAddr_injective {c d : Ch} {sl sm : Slot} {i j : Nat} (hi : i < 8) (hj : j < 8)
    (h : bufAddr c sl i = bufAddr d sm j) : c = d ∧ sl = sm ∧ i = j := by
  cases c <;> cases d <;> cases sl <;> cases sm <;> simp_all [bufAddr, slotIndex] <;> omega

theorem le32_length (v : BitVec 32) : (le32 v).length = 4 := rfl

end Sys2Proof.Machine
end

