-- ==== Sys2Proof/Laws/Ops.lean ====
section
/-!
SUPPORT. What each shared operation can do, said once: slots, lines and channels after an update, claims, the transmitter's
start, a running block, and where a fault leaves the state.
-/

namespace Sys2Proof.Machine

/-! ## Slots and channels -/

theorem State.alarm_modifyAlarm (s : State) (a b : Nat) (f : AlarmSlot → AlarmSlot) (ha : a < s.alarms.length) :
    (s.modifyAlarm a f).alarm b = if b = a then f (s.alarm b) else s.alarm b := by
  unfold State.alarm
  rw [State.modifyAlarm_alarms, List.getD_eq_getElem?_getD, List.getD_eq_getElem?_getD, List.getElem?_modify]
  by_cases h : a = b
  · subst h
    simp [List.getElem?_eq_getElem ha]
  · have : ¬b = a := fun e => h e.symm
    simp [h, this]

theorem State.alarm_modifyAlarm_other (s : State) {a b : Nat} (f : AlarmSlot → AlarmSlot) (h : b ≠ a) :
    (s.modifyAlarm a f).alarm b = s.alarm b := by
  unfold State.alarm
  rw [State.modifyAlarm_alarms, List.getD_eq_getElem?_getD, List.getD_eq_getElem?_getD, List.getElem?_modify]
  simp [h.symm]

theorem State.dmaChan_modifyDma (s : State) (a b : Nat) (f : DmaChan → DmaChan) (ha : a < s.dma.length) :
    (s.modifyDma a f).dmaChan b = if b = a then f (s.dmaChan b) else s.dmaChan b := by
  unfold State.dmaChan
  rw [State.modifyDma_dma, List.getD_eq_getElem?_getD, List.getD_eq_getElem?_getD, List.getElem?_modify]
  by_cases h : a = b
  · subst h
    simp [List.getElem?_eq_getElem ha]
  · have : ¬b = a := fun e => h e.symm
    simp [h, this]

theorem State.dmaChan_modifyDma_other (s : State) {a b : Nat} (f : DmaChan → DmaChan) (h : b ≠ a) :
    (s.modifyDma a f).dmaChan b = s.dmaChan b := by
  unfold State.dmaChan
  rw [State.modifyDma_dma, List.getD_eq_getElem?_getD, List.getD_eq_getElem?_getD, List.getElem?_modify]
  simp [h.symm]

/-- Every member of a modified list is an old member or the new value of one. -/
theorem mem_modify {α : Type} {f : α → α} {x : α} : ∀ {l : List α} {n : Nat}, x ∈ l.modify n f →
    x ∈ l ∨ ∃ y ∈ l, l[n]? = some y ∧ x = f y
  | [], n, h => by cases n <;> simp at h
  | y :: l, 0, h => by
    rw [List.modify_zero_cons] at h
    rcases List.mem_cons.mp h with h | h
    · exact .inr ⟨y, List.mem_cons_self, rfl, h⟩
    · exact .inl (List.mem_cons_of_mem _ h)
  | y :: l, n + 1, h => by
    rw [List.modify_succ_cons] at h
    rcases List.mem_cons.mp h with h | h
    · exact .inl (h ▸ List.mem_cons_self)
    · rcases mem_modify h with h | ⟨z, hz, he, hx⟩
      · exact .inl (List.mem_cons_of_mem _ h)
      · exact .inr ⟨z, List.mem_cons_of_mem _ hz, by simpa using he, hx⟩

/-! ## Draws and claims (R42) -/

theorem State.draw_snd (s : State) :
    s.draw.2 = { s with draws := s.draws.tail, freeCtr := if s.draws = [] then s.freeCtr + 1 else s.freeCtr } := by
  unfold State.draw
  cases h : s.draws <;> cases s <;> simp_all

theorem chooseFree_mem {free : List Nat} (want : Nat) (h : free ≠ []) : chooseFree free want ∈ free := by
  unfold chooseFree
  split
  · next hc => exact List.contains_iff_mem.mp hc
  · cases free with
    | nil => exact absurd rfl h
    | cons a l => exact List.mem_cons_self

theorem chooseFree_want {free : List Nat} {want : Nat} (h : want ∈ free) : chooseFree free want = want := by
  unfold chooseFree
  rw [if_pos (List.contains_iff_mem.mpr h)]

theorem State.mem_freeAlarms (s : State) (a : Nat) :
    a ∈ s.freeAlarms ↔ a < s.alarms.length ∧ (s.alarm a).claimed = false := by
  simp [State.freeAlarms]

theorem State.mem_freeDma (s : State) (d : Nat) :
    d ∈ s.freeDma ↔ d < s.dma.length ∧ (s.dmaChan d).claimed = false := by
  simp [State.freeDma]

theorem State.claimAlarm_none (s : State) : s.claimAlarm = none ↔ s.freeAlarms = [] := by
  unfold State.claimAlarm
  cases h : s.freeAlarms <;> simp

theorem State.claimDma_none (s : State) : s.claimDma = none ↔ s.freeDma = [] := by
  unfold State.claimDma
  cases h : s.freeDma <;> simp

/-- A claim that succeeds takes a free slot and changes nothing but its claim bit and the draws. -/
theorem State.claimAlarm_some {s t : State} {a : Nat} (h : s.claimAlarm = some (a, t)) :
    a ∈ s.freeAlarms ∧ a = chooseFree s.freeAlarms s.draw.1 ∧
      t = s.draw.2.modifyAlarm a fun x => { x with claimed := true } := by
  unfold State.claimAlarm at h
  cases hf : s.freeAlarms with
  | nil => rw [hf] at h; cases h
  | cons b l =>
    rw [hf] at h
    simp only [Option.some.injEq, Prod.mk.injEq] at h
    obtain ⟨rfl, rfl⟩ := h
    exact ⟨chooseFree_mem _ (by simp), rfl, rfl⟩

/-- A claim that succeeds takes a free channel and changes nothing but its claim bit and the draws. -/
theorem State.claimDma_some {s t : State} {d : Nat} (h : s.claimDma = some (d, t)) :
    d ∈ s.freeDma ∧ d = chooseFree s.freeDma s.draw.1 ∧
      t = s.draw.2.modifyDma d fun x => { x with claimed := true } := by
  unfold State.claimDma at h
  cases hf : s.freeDma with
  | nil => rw [hf] at h; cases h
  | cons b l =>
    rw [hf] at h
    simp only [Option.some.injEq, Prod.mk.injEq] at h
    obtain ⟨rfl, rfl⟩ := h
    exact ⟨chooseFree_mem _ (by simp), rfl, rfl⟩

/-! ## A running block, a fault (R253) -/

theorem State.running_of_none {s : State} (h : s.fault = none) (r : Result) : s.running r = r := by
  unfold State.running; rw [h]

theorem State.running_of_some {s : State} {e : FaultCode} (h : s.fault = some e) (r : Result) :
    s.running r = .fault (.stopped e) := by
  unfold State.running; rw [h]

theorem State.running_next {s t : State} {r : Result} (h : s.running r = .next t) :
    s.fault = none ∧ r = .next t := by
  unfold State.running at h
  cases hf : s.fault with
  | none => rw [hf] at h; exact ⟨rfl, h⟩
  | some e => rw [hf] at h; cases h

/-! ## The transmitter's start (R130) -/

/-- `TX.START` succeeds exactly on an active channel with a claimed, idle data mover and a count of 1 to `LEN`, and then
does this. -/
theorem txStart_ok {c : Ch} {sl : Slot} {n : Nat} {s t : State} (h : txStart c sl n s = .ok t) :
    (s.ch.get c).active = true ∧ (s.dmaOf c).claimed = true ∧ (s.dmaOf c).busy = false ∧ n ≠ 0 ∧ n ≤ s.len c ∧
      t =
        { s with
          dma := s.dma.modify (s.ch.get c).dma fun x =>
            { x with busy := true, srcCh := c, srcSlot := sl, pos := 0, count := n }
          txLog := s.txLog ++ [{ ch := c, slot := sl, at_ := s.ht }]
          hist := s.hist ++ [encode (.txStart c)] } := by
  unfold txStart at h
  split at h
  · cases h
  · next ha =>
    split at h
    · cases h
    · next hn =>
      split at h
      · cases h
      · next hb =>
        simp only [not_or, Bool.not_eq_false, Bool.not_eq_true, Nat.not_lt] at ha hn hb
        refine ⟨ha.1, ha.2, hb, hn.1, hn.2, ?_⟩
        cases h
        rfl

theorem txStart_error {c : Ch} {sl : Slot} {n : Nat} {s : State} {e : FaultCode} (h : txStart c sl n s = .error e) :
    e = .txUnclaimed ∨ (e = .dmaOverlap ∧ (s.dmaOf c).busy = true) := by
  unfold txStart at h
  split at h
  · cases h; exact .inl rfl
  · split at h
    · cases h; exact .inl rfl
    · split at h
      · next hb => cases h; exact .inr ⟨rfl, hb⟩
      · cases h

/-! ## Lengths that no operation changes -/

@[simp] theorem State.template_length (s : State) (c : Ch) : (s.template c).length = s.len c := by
  cases c <;> cases h : s.params.auxMsg <;> simp [State.template, State.len, MsgForm.len, h]

theorem State.tofs_add_four_le (s : State) (c : Ch) : s.tofs c + 4 ≤ s.len c := by
  cases c <;> cases h : s.params.auxMsg <;> simp [State.tofs, State.len, MsgForm.len, h]

theorem State.len_le (s : State) (c : Ch) : s.len c ≤ 6 := by
  cases c <;> cases h : s.params.auxMsg <;> simp [State.len, MsgForm.len, h]

end Sys2Proof.Machine
end

