-- ==== Sys2Proof/Laws/Step.lean ====
section
/-!
SUPPORT. How to take a step apart: the schedule entry, the next micro-op of the main thread, an operation as a run of
micro-ops; words as disjunctions of shifted fields; equality of states field by field.
-/

namespace Sys2Proof.Machine

open Sys2Proof.Safety

/-! ## The schedule (assumption 2) -/

theorem State.nextAction_cons {s : State} {a : Action} {rest : List Action} (h : s.agenda = a :: rest) :
    s.nextAction = (a, { s with agenda := rest }) := by
  unfold State.nextAction; rw [h]

/-- What taking a schedule entry changes: the agenda or the counter of free values. -/
theorem State.nextAction_snd (s : State) :
    s.nextAction.2 =
      { s with agenda := s.agenda.tail, freeCtr := if s.agenda = [] then s.freeCtr + 1 else s.freeCtr } := by
  unfold State.nextAction
  cases h : s.agenda <;> cases s <;> simp_all

theorem step_of_agenda {s : State} {a : Action} {rest : List Action} (h : s.agenda = a :: rest) :
    step s = perform a { s with agenda := rest } := by
  unfold step; rw [State.nextAction_cons h]

/-! ## The main thread -/

theorem mainStep_of_frame {s : State} {f : Frame} {fs : List Frame} (h : s.mpc = f :: fs)
    (hf : ∀ i, f ≠ .selected i) : mainStep s = exec f.instr s := by
  unfold mainStep
  rw [h]
  cases f <;> first | rfl | exact absurd rfl (hf _)

/-- One micro-op of a run of the main thread. -/
theorem mainRun_succ {s t : State} {f : Frame} {fs : List Frame} (n : Nat) (hs : s.fault = none)
    (h : s.mpc = f :: fs) (hf : ∀ i, f ≠ .selected i) (he : exec f.instr s = .next t) :
    mainRun (n + 1) s = mainRun n t := by
  rw [mainRun, State.running_of_none hs, mainStep_of_frame h hf, he]

theorem operation_of_next {i : Instr} {s t : State} (n : Nat) (he : exec i s = .next t) :
    operation i n s = mainRun n t := by
  unfold operation; rw [he]

theorem runOf_cons {a : Action} {as : List Action} {s t : State} (h : perform a s = .next t) :
    runOf (a :: as) s = runOf as t := by
  rw [runOf, h]

/-! ## Words of three fields (R101, R103) -/

/-- Two bytes and a 32-bit value, as the disjunction of the shifted fields. -/
theorem fields48 (k r : BitVec 8) (v : BitVec 32) :
    (k ++ r ++ v : BitVec 48) = (k.setWidth 48 <<< 40) ||| (r.setWidth 48 <<< 32) ||| v.setWidth 48 := by
  apply BitVec.eq_of_getLsbD_eq
  intro i hi
  simp only [BitVec.getLsbD_append, BitVec.getLsbD_or, BitVec.getLsbD_shiftLeft, BitVec.getLsbD_setWidth]
  by_cases h1 : i < 32
  · simp [h1, show i < 40 by omega, show i < 48 by omega]
  · have h4 : v.getLsbD i = false := BitVec.getLsbD_of_ge _ _ (by omega)
    by_cases h2 : i < 40
    · have h3 : i - 32 < 8 := by omega
      simp [h1, h2, h3, h4, show i < 48 by omega, show i - 32 < 48 by omega]
    · have h3 : ¬i - 32 < 8 := by omega
      have h5 : r.getLsbD (i - 32) = false := BitVec.getLsbD_of_ge _ _ (by omega)
      simp [h1, h2, h3, h4, h5, show i - 32 - 8 = i - 40 by omega, show i < 48 by omega, show i - 40 < 48 by omega]

/-! ## Equality of states -/

theorem State.eq_of_fields {s t : State} (params : s.params = t.params) (regs : s.regs = t.regs) (mpc : s.mpc = t.mpc)
    (booted : s.booted = t.booted) (lt : s.lt = t.lt) (offs : s.offs = t.offs)
    (hasSynced : s.hasSynced = t.hasSynced) (alarms : s.alarms = t.alarms) (lines : s.lines = t.lines)
    (dma : s.dma = t.dma) (uart : s.uart = t.uart) (pin : s.pin = t.pin) (ch : s.ch = t.ch) (buf : s.buf = t.buf)
    (pps : s.pps = t.pps) (auxState : s.auxState = t.auxState) (intervalUs : s.intervalUs = t.intervalUs)
    (lastEmitUs : s.lastEmitUs = t.lastEmitUs) (prevInputs : s.prevInputs = t.prevInputs)
    (prevSynced : s.prevSynced = t.prevSynced) (fault : s.fault = t.fault) (quiet : s.quiet = t.quiet)
    (din : s.din = t.din) (wire : s.wire = t.wire) (txLog : s.txLog = t.txLog) (edgeLog : s.edgeLog = t.edgeLog)
    (rlog : s.rlog = t.rlog) (hist : s.hist = t.hist) (agenda : s.agenda = t.agenda) (draws : s.draws = t.draws)
    (freeCtr : s.freeCtr = t.freeCtr) : s = t := by
  cases s; cases t; simp_all

end Sys2Proof.Machine
end

