-- ==== Sys2Proof/Laws/PerInstr.lean ====
section
/-!
SUPPORT. Statements made for every operation, one lemma per constructor: the encoding of an operation carries the match
bits of its row of the opcode table (30_encoding.md R116).
-/

namespace Sys2Proof.Laws.OpcodeRow

open Sys2Proof

/-- A row of R116: the mask and the match of its words, of one length. -/
inductive Row where
  | cmd (mask pattern : CmdWord)
  | tag (mask pattern : Tag)
  deriving DecidableEq, Repr

/-- The row of each operation (R116, spec/opcode_table.json). -/
def row : Instr → Row
  | .rdConnected _ => .cmd 0xFFFF00000000 0x010000000000
  | .rdCounter _ => .cmd 0xFFFF00000000 0x010100000000
  | .rdFreq _ => .cmd 0xFFFF00000000 0x010200000000
  | .rdAuxfn _ => .cmd 0xFFFF00000000 0x010300000000
  | .rdAuxbaud _ => .cmd 0xFFFF00000000 0x010400000000
  | .wrConnected _ => .cmd 0xFFFF00000000 0x020000000000
  | .wrCounter _ => .cmd 0xFFFF00000000 0x020100000000
  | .wrFreq _ => .cmd 0xFFFF00000000 0x020200000000
  | .wrAuxfn _ => .cmd 0xFFFF00000000 0x020300000000
  | .wrAuxbaud _ => .cmd 0xFFFF00000000 0x020400000000
  | .poll _ _ => .cmd 0xFF0000000000 0x030000000000
  | .boot => .tag 0xFF 0x40
  | .txStart _ => .tag 0xFE 0x16
  | .dmaBeat _ => .tag 0xFE 0x18
  | .uartShift _ => .tag 0xFE 0x1A
  | .chSetup _ => .tag 0xFE 0x10
  | .chFire _ => .tag 0xFE 0x12
  | .chTeardown _ => .tag 0xFE 0x14
  | .auxSwitch _ => .tag 0xFC 0x30
  | .auxRebaud => .tag 0xFF 0x34
  | .ppsSetup => .tag 0xFF 0x20
  | .ppsFire => .tag 0xFF 0x22
  | .ppsTeardown => .tag 0xFF 0x24

/-- The word is one of the row's. -/
def Row.holds : Row → OpWord → Prop
  | .cmd mask pattern, .cmd w => w &&& mask = pattern
  | .tag mask pattern, .tag t => t &&& mask = pattern
  | _, _ => False

/-- The operation's encoding is a word of its row. -/
def Statement (i : Instr) : Prop := Row.holds (row i) (encode i)

theorem and_ones (b : BitVec 8) : b &&& 0xFF = b := BitVec.and_allOnes

theorem make_and_opReg (k r : BitVec 8) (v : BitVec 32) :
    CmdWord.make k r v &&& (0xFFFF00000000 : CmdWord) = (k.setWidth 48 <<< 40) ||| (r.setWidth 48 <<< 32) := by
  unfold CmdWord.make
  rw [show (0xFFFF00000000 : CmdWord) = ((0xFF : BitVec 8) ++ (0xFF : BitVec 8)) ++ (0 : BitVec 32) from rfl,
    BitVec.and_append, BitVec.and_append, Machine.fields48, and_ones, and_ones]
  simp

theorem make_and_op (k r : BitVec 8) (v : BitVec 32) :
    CmdWord.make k r v &&& (0xFF0000000000 : CmdWord) = k.setWidth 48 <<< 40 := by
  unfold CmdWord.make
  rw [show (0xFF0000000000 : CmdWord) = ((0xFF : BitVec 8) ++ (0 : BitVec 8)) ++ (0 : BitVec 32) from rfl,
    BitVec.and_append, BitVec.and_append, Machine.fields48, and_ones]
  simp

theorem rdConnected (x : BitVec 32) : Statement (.rdConnected x) := make_and_opReg 1 0 x
theorem rdCounter (x : BitVec 32) : Statement (.rdCounter x) := make_and_opReg 1 1 x
theorem rdFreq (x : BitVec 32) : Statement (.rdFreq x) := make_and_opReg 1 2 x
theorem rdAuxfn (x : BitVec 32) : Statement (.rdAuxfn x) := make_and_opReg 1 3 x
theorem rdAuxbaud (x : BitVec 32) : Statement (.rdAuxbaud x) := make_and_opReg 1 4 x
theorem wrConnected (p : BitVec 32) : Statement (.wrConnected p) := make_and_opReg 2 0 p
theorem wrCounter (p : BitVec 32) : Statement (.wrCounter p) := make_and_opReg 2 1 p
theorem wrFreq (p : BitVec 32) : Statement (.wrFreq p) := make_and_opReg 2 2 p
theorem wrAuxfn (p : BitVec 32) : Statement (.wrAuxfn p) := make_and_opReg 2 3 p
theorem wrAuxbaud (p : BitVec 32) : Statement (.wrAuxbaud p) := make_and_opReg 2 4 p
theorem poll (reg : BitVec 8) (x : BitVec 32) : Statement (.poll reg x) := make_and_op 3 reg x
theorem boot : Statement .boot := rfl
theorem txStart (ch : Ch) : Statement (.txStart ch) := by cases ch <;> rfl
theorem dmaBeat (ch : Ch) : Statement (.dmaBeat ch) := by cases ch <;> rfl
theorem uartShift (ch : Ch) : Statement (.uartShift ch) := by cases ch <;> rfl
theorem chSetup (ch : Ch) : Statement (.chSetup ch) := by cases ch <;> rfl
theorem chFire (ch : Ch) : Statement (.chFire ch) := by cases ch <;> rfl
theorem chTeardown (ch : Ch) : Statement (.chTeardown ch) := by cases ch <;> rfl
theorem auxSwitch (fn : BitVec 2) : Statement (.auxSwitch fn) := by
  have h : ∀ g : BitVec 2, ((0b001100 : BitVec 6) ++ g) &&& 0xFC = (0x30 : Tag) := by decide
  exact h fn
theorem auxRebaud : Statement .auxRebaud := rfl
theorem ppsSetup : Statement .ppsSetup := rfl
theorem ppsFire : Statement .ppsFire := rfl
theorem ppsTeardown : Statement .ppsTeardown := rfl

end Sys2Proof.Laws.OpcodeRow
end

