-- ==== Sys2Proof/Tests/Slice0.lean ====
section
/-!
SUPPORT. Tests on fixed values: ill-formed terms, words written out from R101 to R104, one or two micro-ops of each
operation with the results of 95_test_vectors.md (the vector is named at each), and for each obligation with hypotheses
a state and operands that meet them, clause by clause.
-/

namespace Sys2Proof.Tests

open Sys2Proof Sys2Proof.Machine Sys2Proof.Safety

/-! ## Helpers -/

/-- The outcome is a next state of which `p` holds. -/
def ends (r : Result) (p : State → Bool) : Bool :=
  match r with
  | .next t => p t
  | _ => false

/-- The outcome is a next state. -/
def runs (r : Result) : Bool := ends r fun _ => true

/-- Configuration TC1 of 95_test_vectors.md section 0. -/
def tc1 : Params where
  maxCounterFreqHz := 1000
  minAuxBaud := 60
  maxAuxBaud := 1000000
  auxBaudReset := 1000
  primaryBaud := 100000
  offsetUsPrimary := -500
  offsetUsAux := []
  offsetUsAuxElse := -500
  auxMsg := .tagged
  nAlarms := 4
  nDma := 12
  alarmFree0 := [0, 1, 2, 3]
  dmaFree0 := List.range 12
  irqOf := [0, 1, 2, 3]
  nInputs := 3
  remap := (List.range 8).map (BitVec.ofNat 16)
  primaryUartShared := true
  uartFifoDepth := 8

/-- After `RESET; SYNC 100000000; TICK 250000`: `HT = 100_250_000`; claims ask for id 0, then for id 1. -/
def fresh : State :=
  { State.afterReset tc1 { offs := 100000000, hasSynced := true, uartPriInit := true, quiet := false, din := 0 } [] [0, 1]
      0 with
    lt := 250000 }

/-- The same with `BOOT` taken and nothing built. -/
def idle : State := { fresh with booted := true }

/-- `AA AF 64 00 00 00` in slot 0, `AA AF 65 00 00 00` in slot 1 of both channels. -/
def filled : List Host.Cell :=
  [Ch.pri, Ch.aux].foldl
    (fun m c =>
      Memory.writeList (Memory.writeList m (bufAddr c .zero 0) [0xAA, 0xAF, 0x64, 0, 0, 0]) (bufAddr c .one 0)
        [0xAA, 0xAF, 0x65, 0, 0, 0])
    []

/-- Both channels active on slots, lines and data movers 0 and 1, at `HT = 100_999_500`: the primary deadline has come,
and a transfer of the auxiliary channel from slot 0 has moved two bytes. -/
def live : State :=
  { idle with
    lt := 999500
    regs := { idle.regs with auxPortFn := 1 }
    auxState := .auxClockBroadcast
    alarms :=
      [{ armed := false, target := 999500, latch := true, claimed := true },
        { armed := true, target := 1999500, latch := false, claimed := true }] ++ idle.alarms.drop 2
    lines := [{ enabled := true, handler := .chFire .pri }, { enabled := true, handler := .chFire .aux }] ++
      idle.lines.drop 2
    dma :=
      [{ claimed := true, busy := false, srcCh := .pri, srcSlot := .zero, pos := 0, count := 0 },
        { claimed := true, busy := true, srcCh := .aux, srcSlot := .zero, pos := 2, count := 6 }] ++ idle.dma.drop 2
    ch :=
      { pri := { active := true, dma := 0, alarm := 0, irq := 0, baud := 100000, offsetUs := -500, dispatchIdx := .zero }
        aux := { active := true, dma := 1, alarm := 1, irq := 1, baud := 1000, offsetUs := -500, dispatchIdx := .one } }
    uart := { pri := idle.uart.pri, aux := { init := true, baud := 1000, fifo := [0xAA, 0xAF] } }
    pin := { pri := { fn := .uartTx, level := false }, aux := { fn := .uartTx, level := false } }
    buf := filled
    agenda := [.irq 0] }

/-- The primary channel as in `live`, and pulse-per-second on slot and line 1, at `HT = 102_500_000` with the level
high (V-A2). -/
def pulsing : State :=
  { live with
    lt := 2500000
    regs := { idle.regs with auxPortFn := 2 }
    auxState := .pulsePerSecond
    lines := [{ enabled := true, handler := .chFire .pri }, { enabled := true, handler := .ppsFire }] ++ idle.lines.drop 2
    alarms :=
      [{ armed := true, target := 2999500, latch := false, claimed := true },
        { armed := false, target := 2500000, latch := true, claimed := true }] ++ idle.alarms.drop 2
    dma :=
      { claimed := true, busy := false, srcCh := .pri, srcSlot := .zero, pos := 0, count := 0 } :: idle.dma.drop 1
    ch := { live.ch with aux := idle.ch.aux }
    uart := { pri := idle.uart.pri, aux := idle.uart.aux }
    pin := { pri := live.pin.pri, aux := { fn := .gpioOut, level := true } }
    pps := { active := true, alarm := 1, irq := 1 }
    agenda := [.irq 1] }

/-! ## Ill-formed terms (R104, R111) -/

theorem test_wf_refuses_reserved_function : (Instr.auxSwitch 3).wf = false := by decide

theorem test_wf_accepts_functions : ([0, 1, 2].all fun fn => (Instr.auxSwitch fn).wf) = true := by decide

/-! ## Words written out from the formats (R101 to R104, R116) -/

theorem test_decode_rdConnected :
    decodeOpWord (.cmd 0b000000010000000000000000000000000000000000000101) = some (.rdConnected 5) := by decide

theorem test_decode_rdCounter :
    decodeOpWord (.cmd 0b000000010000000111111111111111111111111111111111) = some (.rdCounter 0xFFFFFFFF) := by decide

theorem test_decode_rdFreq :
    decodeOpWord (.cmd 0b000000010000001000000000000000000000000000000000) = some (.rdFreq 0) := by decide

theorem test_decode_rdAuxfn :
    decodeOpWord (.cmd 0b000000010000001110000000000000000000000000000000) = some (.rdAuxfn 0x80000000) := by decide

theorem test_decode_rdAuxbaud :
    decodeOpWord (.cmd 0b000000010000010000000000000000000000000000000001) = some (.rdAuxbaud 1) := by decide

theorem test_decode_wrConnected :
    decodeOpWord (.cmd 0b000000100000000000000000000000000000000000000001) = some (.wrConnected 1) := by decide

theorem test_decode_wrCounter :
    decodeOpWord (.cmd 0b000000100000000100000000000000000000000000000111) = some (.wrCounter 7) := by decide

theorem test_decode_wrFreq :
    decodeOpWord (.cmd 0b000000100000001000000000000000000000001111101000) = some (.wrFreq 1000) := by decide

theorem test_decode_wrAuxfn :
    decodeOpWord (.cmd 0b000000100000001100000000000000000000000000000010) = some (.wrAuxfn 2) := by decide

theorem test_decode_wrAuxbaud :
    decodeOpWord (.cmd 0b000000100000010000000000000000000010010110000000) = some (.wrAuxbaud 9600) := by decide

/-- V-P3. -/
theorem test_decode_poll :
    decodeOpWord (.cmd 0b000000111111111100010010001101000101011001111000) = some (.poll 0xFF 0x12345678) := by decide

theorem test_decode_channel_tags :
    [decodeOpWord (.tag 0b00010000), decodeOpWord (.tag 0b00010001), decodeOpWord (.tag 0b00010010),
        decodeOpWord (.tag 0b00010011), decodeOpWord (.tag 0b00010100), decodeOpWord (.tag 0b00010101)] =
      [some (.chSetup .pri), some (.chSetup .aux), some (.chFire .pri), some (.chFire .aux), some (.chTeardown .pri),
        some (.chTeardown .aux)] := by decide

theorem test_decode_transmitter_tags :
    [decodeOpWord (.tag 0b00010110), decodeOpWord (.tag 0b00010111), decodeOpWord (.tag 0b00011000),
        decodeOpWord (.tag 0b00011001), decodeOpWord (.tag 0b00011010), decodeOpWord (.tag 0b00011011)] =
      [some (.txStart .pri), some (.txStart .aux), some (.dmaBeat .pri), some (.dmaBeat .aux), some (.uartShift .pri),
        some (.uartShift .aux)] := by decide

theorem test_decode_controller_tags :
    [decodeOpWord (.tag 0b00100000), decodeOpWord (.tag 0b00100010), decodeOpWord (.tag 0b00100100),
        decodeOpWord (.tag 0b00110000), decodeOpWord (.tag 0b00110001), decodeOpWord (.tag 0b00110010),
        decodeOpWord (.tag 0b00110100), decodeOpWord (.tag 0b01000000)] =
      [some .ppsSetup, some .ppsFire, some .ppsTeardown, some (.auxSwitch 0), some (.auxSwitch 1), some (.auxSwitch 2),
        some .auxRebaud, some .boot] := by decide

/-- R111: reserved tags do not fall through to a neighbour. -/
theorem test_decode_reserved_tags :
    ([0x00, 0x0F, 0x1C, 0x21, 0x23, 0x25, 0x33, 0x35, 0x41, 0xFF].all fun t => (decodeTag t).isNone) = true := by decide

theorem test_encode_words :
    [encode (.wrAuxfn 1), encode (.rdAuxbaud 0), encode (.chFire .aux), encode (.auxSwitch 2), encode .boot] =
      [.cmd 0x020300000001, .cmd 0x010400000000, .tag 0x13, .tag 0x32, .tag 0x40] := by decide

/-- R113: an operation has a 48-bit word or an 8-bit tag. -/
theorem test_table_words :
    decodeTableWord 48 0x020300000001 = some (.wrAuxfn 1) ∧ decodeTableWord 8 0x13 = some (.chFire .aux) ∧
      decodeTableWord 16 0x13 = none := by decide

/-- R114, R115: lines and pseudo-instructions of P1 to P4. -/
theorem test_lines_assemble :
    [Line.assemble (.wr .auxfn 1), Line.assemble (.wr .freq 2000), Line.assemble (.rd .counter), Line.assemble .poll,
        Line.assemble .auxPps, Line.assemble .cntOff, Line.assemble .cntClr, Line.assemble (.auxBaud 9600),
        Line.assemble .boot] =
      [some 0x020300000001, some 0x0202000007D0, some 0x010100000000, some 0x030000000000, some 0x020300000002,
        some 0x020200000000, some 0x020100000000, some 0x020400002580, none] := by decide

/-! ## Bytes (R6, R31, R88, R118) -/

/-- R31: 13 bytes, little-endian, in offset order. -/
theorem test_register_image :
    Regs.image
        { connectedDevices := 0x0102, counter := 0x03040506, counterFreqHz := 0x0708, auxPortFn := 0x09
          auxBaudRate := 0x0A0B0C0D } =
      [0x02, 0x01, 0x06, 0x05, 0x04, 0x03, 0x08, 0x07, 0x09, 0x0D, 0x0C, 0x0B, 0x0A] := by decide

/-- S10. -/
theorem test_le32 : le32 0x12345678 = [0x78, 0x56, 0x34, 0x12] := by decide

theorem test_store_and_load :
    (idle.memWrite4 .pri .one 2 0x12345678).memRead1 .pri .one 3 = .ok 0x56 ∧
      (idle.memWrite4 .pri .one 2 0x12345678).memRead1 .pri .one 6 = .error (.noSuchByte .pri .one 6) ∧
      (idle.memWrite4 .pri .one 2 0x12345678).memRead1 .pri .zero 2 = .error (.unwrittenByte .pri .zero 2) := ⟨rfl, rfl, rfl⟩

/-! ## Parameters (R4) -/

/-- `OFFSET_US_AUX` is bounded at the admitted rates 60 to 1000000 only. -/
theorem test_offsets_of_admitted_rates :
    { tc1 with offsetUsAux := [(59, 5000000), (1000001, -5000000)] }.valid = true ∧
      { tc1 with offsetUsAux := [(60, 1000000)] }.valid = false ∧
      { tc1 with offsetUsAux := [(1000000, 999999)] }.valid = true := by decide

/-! ## Arithmetic (V-D1 to V-D17, V-A, S4) -/

theorem test_next_deadline :
    [nextDeadline 100250000 (-500), nextDeadline 100999500 (-500), nextDeadline 101000200 200, nextDeadline 100000000 0,
        nextDeadline 101000050 (-500), nextDeadline 100000001 (-999999), nextDeadline 100999999 999999] =
      [100999500, 101999500, 102000200, 101000000, 101999500, 101000001, 101999999] := by decide

theorem test_time_field :
    timeField 100999500 = 100 ∧ timeField 101000200 = 101 ∧ timeField 4294967296999500 = 0 := by decide

/-- V-D15, V-D16. -/
theorem test_arm_target :
    ((idle.arm 0 4400000000).alarm 0).target = 5032704 ∧ ((idle.arm 0 4344967296).alarm 0).target = 4244967296 := by decide

theorem test_pulse_arithmetic :
    ppsNext 102500000 = 103000000 ∧ ppsNext 4294967296 = 4295000000 ∧ ppsPhase 102499999 = true ∧
      ppsPhase 4294967296 = false := by decide

theorem test_interval : [interval 1, interval 3, interval 7, interval 1000] = [1000000, 333333, 142857, 1000] := by decide

/-! ## Family R (V-R1 to V-R26, S5 to S7) -/

theorem test_rd_connected :
    ends (exec (.rdConnected 0) { idle with regs := { idle.regs with connectedDevices := 5 } })
      (fun t => t.rlog == [0x010000000005]) = true := by decide

theorem test_rd_counter_ignores_payload :
    ends (exec (.rdCounter 0xFFFFFFFF) (idle.setCounter 7))
      (fun t => t.rlog == [0x010100000007] && t.hist == [.cmd 0x0101FFFFFFFF]) = true := by decide

theorem test_rd_freq :
    ends (exec (.rdFreq 0) (idle.setFreq 1000)) (fun t => t.rlog == [0x0102000003E8]) = true := by decide

theorem test_rd_auxfn : ends (exec (.rdAuxfn 0) (idle.setAuxfn 2)) (fun t => t.rlog == [0x010300000002]) = true := by decide

theorem test_rd_auxbaud : ends (exec (.rdAuxbaud 0) idle) (fun t => t.rlog == [0x0104000003E8]) = true := by decide

theorem test_wr_connected_refused :
    ends (exec (.wrConnected 1) { idle with regs := { idle.regs with connectedDevices := 5 } })
      (fun t => t.rlog == [0x0A0000000005] && t.regs.connectedDevices == 5) = true := by decide

theorem test_wr_counter_stores :
    ends (exec (.wrCounter 0xFFFFFFFF) idle) (fun t => t.regs.counter == 0xFFFFFFFF && t.mpc == [.wrCounter 0xFFFFFFFF]) =
      true := by decide

/-- V-R7, V-R8: quiet mode suppresses the acknowledge. -/
theorem test_wr_counter_quiet :
    ends (exec (.wrCounter 0) ({ idle with quiet := true }.at [.wrCounter 0])) (fun t => t.rlog == [] && t.mpc == []) = true ∧
      ends (exec (.wrCounter 0) (idle.at [.wrCounter 0])) (fun t => t.rlog == [0x020100000000]) = true := by decide

/-- V-R14: 65536 is too wide. -/
theorem test_wr_freq_width :
    ends (exec (.wrFreq 65536) (idle.setFreq 4)) (fun t => t.rlog == [0x0A0200000004] && t.mpc == []) = true ∧
      ends (exec (.wrFreq 65535) idle) (fun t => t.rlog == [] && t.mpc == [.wrFreq 65535 .w2]) = true := by decide

/-- V-R10, V-R11: 1000 passes, 1001 is clamped with the timestamp reset. -/
theorem test_wr_freq_clamp :
    ends (exec (.wrFreq 1001) (idle.at [.wrFreq 1001 .w3]))
        (fun t => t.rlog == [0x0A02000003E8] && t.intervalUs == 1000 && t.lastEmitUs == 100250000) = true ∧
      ends (exec (.wrFreq 1000) (idle.at [.wrFreq 1000 .w3])) (fun t => t.rlog == [] && t.mpc == [.wrFreq 1000 .w4]) =
        true := by decide

/-- S7, V-R16: 3 is rejected, the previous value restored. -/
theorem test_wr_auxfn_rejects :
    ends (exec (.wrAuxfn 3) ((live.setAuxfn 3).at [.wrAuxfn 3 (.w3 1)]))
      (fun t => t.rlog == [0x0A0300000001] && t.regs.auxPortFn == 1) = true := by decide

/-- S2: `w5` enters `AUX.SWITCH(1)`. -/
theorem test_wr_auxfn_calls_switch :
    ends (exec (.wrAuxfn 1) (idle.at [.wrAuxfn 1 .w5]))
      (fun t => t.hist == [.tag 0x31] && t.mpc == [.auxSwitch 1 .a1, .wrAuxfn 1 .w6]) = true := by decide

/-- S6, V-R19: 59 is rejected, 60 is accepted. -/
theorem test_wr_auxbaud_range :
    ends (exec (.wrAuxbaud 59) ((idle.setAuxbaud 59).at [.wrAuxbaud 59 (.w2 1000)]))
        (fun t => t.rlog == [0x0A04000003E8] && t.regs.auxBaudRate == 1000) = true ∧
      ends (exec (.wrAuxbaud 60) ((idle.setAuxbaud 60).at [.wrAuxbaud 60 (.w2 1000)]))
        (fun t => t.rlog == [] && t.mpc == [.wrAuxbaud 60 .w3]) = true := by decide

/-- V-R19, V-A7: outside the broadcast mode `AUX.REBAUD` returns at `b0`. -/
theorem test_wr_auxbaud_without_broadcast :
    ends (exec (.wrAuxbaud 60) (idle.at [.wrAuxbaud 60 .w3]))
      (fun t => t.hist == [.tag 0x34] && t.mpc == [.wrAuxbaud 60 .w4]) = true := by decide

/-! ## Family P (V-P1 to V-P10, S1) -/

/-- V-P9: the sync edge sets the timestamp. -/
theorem test_poll_sync_edge :
    ends (exec (.poll 0 0) idle) (fun t => t.lastEmitUs == 100250000 && t.prevSynced && t.rlog == []) = true := by decide

/-- V-P2, V-P4, V-P6, V-P7: inputs changed to 4; the counter is due at an elapsed 1000 and not at 999, over the wrap. -/
theorem test_poll_events :
    ends (exec (.poll 0 0) ({ idle with din := 4 }.at [.poll 0 0 .p2]))
        (fun t => t.rlog == [0x030000000004] && t.prevInputs == 4) = true ∧
      ends (exec (.poll 0 0)
          ({ (idle.setFreq 1000).setCounter 0xFFFFFFFF with
            lt := 4194967296 + 704, intervalUs := 1000, lastEmitUs := 4294967000 }.at [.poll 0 0 .p3]))
        (fun t => t.rlog == [0x030100000000] && t.lastEmitUs == 704) = true ∧
      ends (exec (.poll 0 0)
          ({ idle.setFreq 1000 with lt := 4194967296 + 703, intervalUs := 1000, lastEmitUs := 4294967000 }.at
            [.poll 0 0 .p3]))
        (fun t => t.rlog == [] && t.lastEmitUs == 4294967000) = true := by decide

/-- R242 (4): with no inputs the first pass makes no event, whatever the table of `REMAP`. -/
theorem test_poll_without_inputs :
    { tc1 with nInputs := 0, remap := [5] }.valid = true ∧
      ends (exec (.poll 0 0) ({ idle with params := { tc1 with nInputs := 0, remap := [5] } }.at [.poll 0 0 .p2]))
        (fun t => t.rlog == [] && t.regs.connectedDevices == 0) = true := by decide

theorem test_boot :
    ends (exec .boot fresh) (fun t => t.hist == [.tag 0x40] && t.booted && t.mpc == [.boot]) = true ∧
      ends (exec .boot (idle.at [.boot])) (fun t => t.hist == [.tag 0x10] && t.mpc == [.chSetup .pri .s1a]) = true := by
  decide

/-! ## Family T (V-T1 to V-T8) -/

theorem test_tx_start :
    ends (exec (.txStart .pri) live)
      (fun t => t.txLog == [{ ch := .pri, slot := .zero, at_ := 100999500 }] && (t.dmaChan 0).busy &&
        (t.dmaChan 0).count == 6) = true := by decide

/-- V-T2, V-T3: the overlap and the unclaimed channel. -/
theorem test_tx_start_faults :
    ends (exec (.txStart .aux) live) (fun t => t.fault == some .dmaOverlap && t.txLog == []) = true ∧
      ends (exec (.txStart .aux) idle) (fun t => t.fault == some .txUnclaimed) = true := by decide

theorem test_dma_beat :
    ends (exec (.dmaBeat .aux) live) (fun t => t.uart.aux.fifo == [0xAA, 0xAF, 0x64] && (t.dmaChan 1).pos == 3) = true := by
  decide

/-- V-T8: without an initialised UART the transfer waits. -/
theorem test_dma_beat_waits :
    ends (exec (.dmaBeat .aux) (live.setUart .aux { init := false, baud := 0, fifo := [] }))
      (fun t => t.uart.aux.fifo == [] && (t.dmaChan 1).pos == 2) = true := by decide

/-- V-T5, V-T7: with the pin bound the byte reaches the wire, else it is lost. -/
theorem test_uart_shift :
    ends (exec (.uartShift .aux) live) (fun t => t.wire.aux == [0xAA] && t.uart.aux.fifo == [0xAF]) = true ∧
      ends (exec (.uartShift .aux) (live.setPin .aux { fn := .none, level := false }))
        (fun t => t.wire.aux == [] && t.uart.aux.fifo == [0xAF]) = true := by decide

/-! ## Family D (S1, V-D20 to V-D25, V-F2, V-F4) -/

/-- S1: `s5a` writes the first time field; `s5b` arms. -/
theorem test_ch_setup_deadline :
    ends (exec (.chSetup .pri) ({ live with lt := 250000 }.at [.chSetup .pri .s5a]))
        (fun t => t.memRead4 .pri .zero 2 == .ok 100 && t.mpc == [.chSetup .pri (.s5b 100999500)]) = true ∧
      ends (exec (.chSetup .pri) (live.at [.chSetup .pri (.s5b 100999500)]))
        (fun t => (t.alarm 0).target == 999500 && (t.alarm 0).armed && t.mpc == []) = true := by decide

/-- V-F2: `s1b` with no free slot. -/
theorem test_ch_setup_no_alarm :
    ends (exec (.chSetup .aux) ({ idle with alarms := [AlarmSlot.absent] }.at [.chSetup .aux .s1b]))
      (fun t => t.fault == some .noAlarm && t.mpc == [.chSetup .aux .s1b]) = true := by decide

/-- S1: the first fire. -/
theorem test_ch_fire :
    ends (exec (.chFire .pri) live)
      (fun t => t.memRead4 .pri .one 2 == .ok 101 && (t.alarm 0).target == 1999500 && t.ch.pri.dispatchIdx == .one &&
        !(t.alarm 0).latch && t.hist == [.tag 0x12, .tag 0x16]) = true := by decide

/-- V-F4: on an overlap the latch and the dispatch slot stay. -/
theorem test_ch_fire_overlap :
    ends (exec (.chFire .aux) live)
      (fun t => t.fault == some .dmaOverlap && t.hist == [.tag 0x13] && t.ch.aux.dispatchIdx == .one) = true := by decide

/-- S8, V-D25: a second teardown does nothing. -/
theorem test_ch_teardown_inactive :
    ends (exec (.chTeardown .aux) (idle.at [.chTeardown .aux .t0]))
      (fun t => t.hist == [.tag 0x15] && t.mpc == [] && t.alarms == idle.alarms) = true := by decide

/-- V-D23, V-D24: `t7` releases the exclusive UART and keeps the shared one. -/
theorem test_ch_teardown_uart :
    ends (exec (.chTeardown .aux) (live.at [.chTeardown .aux .t7]))
        (fun t => !t.uart.aux.init && t.uart.aux.fifo == [] && t.pin.aux.fn == .none) = true ∧
      ends (exec (.chTeardown .pri) (live.at [.chTeardown .pri .t7]))
        (fun t => t.uart.pri.init && t.pin.pri.fn == .uartTx) = true := by decide

/-! ## Family A (V-A1 to V-A9) -/

theorem test_aux_switch_calls :
    ends (exec (.auxSwitch 1) (pulsing.at [.auxSwitch 1 .a1]))
        (fun t => t.hist == [.tag 0x24] && t.mpc == [.ppsTeardown .r1, .auxSwitch 1 .a2]) = true ∧
      ends (exec (.auxSwitch 2) (idle.at [.auxSwitch 2 .a3]))
        (fun t => t.hist == [.tag 0x20] && t.mpc == [.ppsSetup .p1a, .auxSwitch 2 .a4]) = true := by decide

theorem test_aux_switch_reserved : exec (.auxSwitch 3) idle = .refused .reservedFunction := rfl

theorem test_aux_rebaud :
    ends (exec .auxRebaud (live.at [.auxRebaud .b1]))
      (fun t => t.hist == [.tag 0x15] && t.mpc == [.chTeardown .aux .t1, .auxRebaud .b2]) = true := by decide

/-- V-A1. -/
theorem test_pps_setup_level :
    ends (exec .ppsSetup ({ idle with lt := 2200000 }.at [.ppsSetup .p4a]))
      (fun t => t.edgeLog == [{ level := true, at_ := 102200000 }] && t.mpc == [.ppsSetup (.p4b 102500000)]) = true := by
  decide

/-- V-A2. -/
theorem test_pps_fire :
    ends (exec .ppsFire pulsing)
      (fun t => t.edgeLog == [{ level := false, at_ := 102500000 }] && (t.alarm 1).target == 3000000 &&
        !(t.alarm 1).latch) = true := by decide

/-- V-A9, V-A5. -/
theorem test_pps_teardown :
    ends (exec .ppsTeardown idle) (fun t => t.hist == [.tag 0x24] && t.mpc == []) = true ∧
      ends (exec .ppsTeardown (pulsing.at [.ppsTeardown .r6])) (fun t => t.pin.aux.fn == .none) = true := by decide

/-! ## Agents (V-R24 to V-R26, V-F5, R270) -/

theorem test_unknown_register_words :
    ends (step { idle with agenda := [.command 0x010500000000] }) (fun t => t.rlog == [0x090500000000]) = true ∧
      ends (step { idle with agenda := [.command 0x020900000007] }) (fun t => t.rlog == [0x0A0900000000]) = true := by decide

theorem test_reserved_word_refused :
    step { idle with agenda := [.command 0x7F0000000000] } = .refused (.reservedOpcode 0x7F) := rfl

theorem test_unhandled_interrupt :
    ends (perform (.irq 0) { live with lines := [{ enabled := true, handler := .none }] })
      (fun t => t.fault == some .unhandledIrq) = true := by decide

theorem test_tick_latches :
    ends (perform .tick (idle.armAt 2 250001)) (fun t => (t.alarm 2).latch && !(t.alarm 2).armed) = true ∧
      ends (perform .tick (idle.armAt 2 250000)) (fun t => !(t.alarm 2).latch && (t.alarm 2).armed) = true := by decide

theorem test_placed_words_run :
    ends (step (State.reset.withFetchWord 48 0x020000000001)) (fun t => t.hist == [.cmd 0x020000000001]) = true := rfl

/-! ## States and operands that meet the obligations' hypotheses

`live` meets every invariant, and its next step is a fire; `pulsing` likewise, with a pulse. -/

theorem witness_live_canonical : Canonical live :=
  ⟨by decide, by decide, by decide, by decide, by decide, by decide, by decide, by decide, by decide, by decide⟩

theorem witness_live_written : Written live :=
  ⟨by decide, fun l hl c => by cases c <;> revert l <;> decide, by decide⟩

theorem witness_live_bound : Bound live := ⟨by decide, trivial, by decide⟩

theorem witness_live_singleClaim : SingleClaim live := ⟨by decide, by decide, by decide, by decide, trivial, by decide⟩

theorem witness_live_multiplexed : Multiplexed live :=
  ⟨by decide, ⟨by decide, by decide⟩, ⟨by decide, by decide⟩, (by decide : baudOutOfRange _ _ = false)⟩

theorem line_cases (s : State) (q : Nat) (h : (s.line q).enabled = true) :
    ∃ a, s.alarmOf q = some a ∧ a < s.lines.length ∧ s.line q = s.lines.getD a IrqLine.absent := by
  unfold State.line at h ⊢
  cases ha : s.alarmOf q with
  | none => rw [ha] at h; exact absurd h Bool.false_ne_true
  | some a =>
    rw [ha] at h
    refine ⟨a, rfl, ?_, rfl⟩
    by_contra hn
    simp only [List.getD_eq_getElem?_getD, List.getElem?_eq_none (Nat.le_of_not_lt hn)] at h
    exact absurd h (by decide)

theorem dma_cases (s : State) (d : Nat) (h : (s.dmaChan d).busy = true) : d < s.dma.length := by
  by_contra hn
  simp only [State.dmaChan, List.getD_eq_getElem?_getD, List.getElem?_eq_none (Nat.le_of_not_lt hn)] at h
  exact absurd h (by decide)

theorem alarmOf_live (q : Nat) (a : Nat) (h : live.alarmOf q = some a) : q = a := by
  have h1 : ([0, 1, 2, 3] : List Nat).idxOf? q = some a := h
  by_cases hq : q < 4
  · interval_cases q <;> exact Option.some.inj h1
  · rw [List.idxOf?_eq_none_iff.mpr (by simp; omega)] at h1
    cases h1

theorem witness_live_pingPong : PingPong live := by
  refine ⟨fun d h => ?_, fun q c he hh => ?_, by decide, trivial⟩
  · have hd : d < 12 := dma_cases live d h
    interval_cases d <;> first | exact ⟨rfl, rfl, rfl⟩ | exact absurd h (by decide)
  · obtain ⟨a, ha, hl, hs⟩ := line_cases live q he
    have hq := alarmOf_live q a ha
    have hl' : a < 4 := hl
    rw [hs] at he hh
    subst hq
    interval_cases q <;> first
      | exact absurd he (by decide)
      | (cases c <;> first | exact ⟨rfl, rfl⟩ | exact absurd hh (by decide))

/-- Before `BOOT` nothing is built. -/
theorem witness_fresh_unbooted :
    fresh.booted = false ∧ fresh.mpc = [] ∧ fresh.ch.pri.active = false ∧ fresh.ch.aux.active = false ∧
      fresh.pps.active = false ∧ fresh.auxState = .disabled := by decide

theorem witness_live_supply : Supply live := ⟨by decide, by decide⟩

/-- The premises of the step invariants, with a step that is a fire. -/
theorem witness_StepKeeps :
    Canonical live ∧ Written live ∧ Bound live ∧ SingleClaim live ∧ Multiplexed live ∧ PingPong live ∧ Supply live ∧
      runs (step live) = true :=
  ⟨witness_live_canonical, witness_live_written, witness_live_bound, witness_live_singleClaim, witness_live_multiplexed,
    witness_live_pingPong, witness_live_supply, by decide⟩

/-- A transfer of slot 0 is in progress while the other channel fires. -/
theorem witness_SlotUnderTransferIsStable :
    (live.dmaChan 1).busy = true ∧ live.nextAction.1 = .irq 0 ∧ 5 < live.len (live.dmaChan 1).srcCh ∧
      runs (step live) = true := by decide

theorem witness_pulsing_singleClaim : SingleClaim pulsing :=
  ⟨by decide, by decide, by decide, by decide, trivial, by decide⟩

theorem witness_pulsing_multiplexed : Multiplexed pulsing :=
  ⟨by decide, ⟨by decide, by decide⟩, ⟨by decide, by decide⟩, (by decide : baudOutOfRange _ _ = false)⟩

/-- Both channels active; the primary channel and the pulse. -/
theorem witness_IdleClaimsAreSingle :
    live.mpc = [] ∧ pulsing.mpc = [] ∧ live.ch.pri.active = true ∧ live.ch.aux.active = true ∧
      pulsing.ch.pri.active = true ∧ pulsing.pps.active = true := by decide

/-- With a frequency that is not 0. -/
theorem witness_IdleRegistersAgree :
    Multiplexed ({ live with intervalUs := 250000 }.setFreq 4) ∧ ({ live with intervalUs := 250000 }.setFreq 4).mpc = [] ∧
      ({ live with intervalUs := 250000 }.setFreq 4).regs.counterFreqHz ≠ 0 :=
  ⟨⟨by decide, ⟨by decide, by decide⟩, ⟨by decide, by decide⟩, (by decide : baudOutOfRange _ _ = false)⟩, rfl, by decide⟩

/-- At `a3` and at `b2` nothing is built. -/
theorem witness_OneUserOfTheAuxiliaryPin :
    Multiplexed ((idle.setAuxfn 2).at [.auxSwitch 2 .a3, .wrAuxfn 2 .w6]) ∧
      Multiplexed ({ (idle.setAuxfn 1) with auxState := .auxClockBroadcast }.at [.auxRebaud .b2, .wrAuxbaud 1000 .w4]) :=
  ⟨⟨by decide, ⟨rfl, rfl, rfl, ⟨by decide, by decide⟩, (by decide : baudOutOfRange _ _ = false)⟩, rfl, rfl⟩,
    ⟨by decide, ⟨rfl, rfl, ⟨by decide, by decide⟩, (by decide : baudOutOfRange _ _ = false)⟩, rfl⟩⟩

/-! ### Encoding and steps -/

theorem witness_DecodeEncodeRoundTrip : (Instr.auxSwitch 2).wf = true ∧ (Instr.poll 0xFF 0xFFFFFFFF).wf = true := by decide

theorem witness_EncodeDecodeRoundTrip :
    decodeOpWord (.tag 0x32) = some (.auxSwitch 2) ∧ decodeOpWord (.cmd 0x03FFFFFFFFFF) = some (.poll 0xFF 0xFFFFFFFF) := by
  decide

/-- For each clause a word: every register offset of both operations, the offsets around 4, every kind of `op`. -/
theorem witness_CommandWordFields :
    ([0, 1, 2, 3, 4, 5, 0xFF].all fun r : BitVec 8 =>
        [1, 2, 3, 0, 4, 0xFF].all fun k : BitVec 8 =>
          decide ((CmdWord.make k r 0xFFFFFFFF).extractLsb' 40 8 = k) &&
            decide ((CmdWord.make k r 0xFFFFFFFF).extractLsb' 32 8 = r)) = true := by decide

/-- A command, the boot, an operation in progress, a beat, a shift: each entry is there and its step runs. -/
theorem witness_StepRunsSelectedOperation :
    (runs (step { idle with agenda := [.command 0x010100000000] }) && runs (step { fresh with agenda := [.main] }) &&
        runs (step ({ live with agenda := [.main] }.at [.chTeardown .aux .t0])) &&
        runs (step { live with agenda := [.dma .aux] }) && runs (step { live with agenda := [.uart .aux] })) = true ∧
      decodeCommand 0x010100000000 = .instr (.rdCounter 0) ∧ fresh.mpc = [] ∧ fresh.booted = false ∧ idle.booted = true ∧
      live.fault = none ∧ fresh.fault = none := by decide

theorem witness_PlacedWordRuns :
    live.fault = none ∧ decodeTableWord 48 0x02020000FFFF = some (.wrFreq 65535) ∧
      ([0x40, 0x18, 0x1A, 0x16, 0x12, 0x22, 0x10, 0x14, 0x30, 0x34, 0x20, 0x24].all fun w =>
        (decodeTableWord 8 w).isSome && runs (step (live.withFetchWord 8 w))) = true := by decide

theorem witness_ReservedCommandWords :
    idle.fault = none ∧ idle.mpc = [] ∧ idle.booted = true ∧ fresh.booted = false ∧ (live.at [.boot]).mpc ≠ [] ∧
      (0x010500000000 : CmdWord).extractLsb' 40 8 = 1 ∧ 4 < ((0x010500000000 : CmdWord).extractLsb' 32 8).toNat ∧
      (0x02FF00000000 : CmdWord).extractLsb' 40 8 = 2 ∧ 4 < ((0x02FF00000000 : CmdWord).extractLsb' 32 8).toNat ∧
      (0x040000000000 : CmdWord).extractLsb' 40 8 = 4 ∧ (0x000000000000 : CmdWord).extractLsb' 40 8 = 0 := by decide

/-- A line that is not pending; pending lines with no handler, a channel's, the pulse's. -/
theorem witness_InterruptEntry :
    live.fault = none ∧ live.pending 1 = false ∧ live.pending 0 = true ∧ (live.line 0).handler = .chFire .pri ∧
      pulsing.pending 1 = true ∧ (pulsing.line 1).handler = .ppsFire ∧
      { live with lines := [{ enabled := true, handler := .none }] }.pending 0 = true := by decide

theorem witness_EnvironmentSteps :
    live.fault = none ∧ (7 : BitVec 16).toNat < 2 ^ live.params.nInputs ∧ (live.alarm 1).armed = true := by decide

theorem witness_FaultStopsUntilReset :
    { live with fault := some .noDma }.fault = some .noDma ∧
      runs (step { live with fault := some .noDma, agenda := [.reset default] }) = true ∧
      (match step { live with fault := some .noDma, agenda := [.tick] } with
      | .fault f => f == .stopped .noDma
      | _ => false) = true := by decide

/-! ### Rules about the whole machine -/

theorem witness_ContextDiscipline :
    ([Action.irq 0, .dma .aux, .uart .aux, .tick, .sync 5, .din 7, .quiet true].all fun a => runs (perform a live)) = true := by
  decide

/-- For each register, and for the controller's state, an operation that changes it. -/
theorem witness_WritersOfEachRegister :
    (ends (exec (.poll 0 0) ({ idle with din := 4 }.at [.poll 0 0 .p2])) (fun t => t.regs.connectedDevices != 0) &&
        ends (exec (.wrCounter 7) idle) (fun t => t.regs.counter != 0) &&
        ends (exec (.wrFreq 4) (idle.at [.wrFreq 4 .w2])) (fun t => t.regs.counterFreqHz != 0) &&
        ends (exec (.wrAuxfn 1) (idle.at [.wrAuxfn 1 .w2])) (fun t => t.regs.auxPortFn != 0) &&
        ends (exec (.wrAuxbaud 60) idle) (fun t => t.regs.auxBaudRate != 1000) &&
        ends (exec (.auxSwitch 1) (idle.at [.auxSwitch 1 .a4])) (fun t => t.auxState != .disabled)) = true := by decide

theorem witness_TimeBaseIsTheEnvironments :
    (ends (step { live with agenda := [.tick] }) (fun t => t.lt == live.lt + 1) &&
        ends (step { live with agenda := [.sync 5] }) (fun t => t.offs == 5)) = true ∧ live.hasSynced = true := by decide

theorem witness_LogsOnlyGrow :
    live.nextAction.1 = .irq 0 ∧ ends (step live) (fun t => t.hist == [.tag 0x12, .tag 0x16]) = true := by decide

/-! ### Deadlines, arithmetic, memory -/

/-- Offsets at both ends of their range and 0; times just before, at and after the first candidate. -/
theorem witness_NextDeadlineRule :
    (-1000000 : Int) < -999999 ∧ (999999 : Int) < 1000000 ∧
      ((-500 : Int) < 0 ∧ (100999499 : Int) < (100999499 / 1000000 + 1) * 1000000 + -500) ∧
      ¬(100999500 : Int) < (100999500 / 1000000 + 1) * 1000000 + -500 := by decide

/-- A target 1 and 2^32 microseconds ahead; a deadline 1 and 2^32 - 1 microseconds ahead. -/
theorem witness_ArmedSlotFiresAtItsDeadline :
    0 < idle.alarms.length ∧ ((idle.armAt 0 250001).alarm 0).armed = true ∧
      ((idle.armAt 0 250001).alarm 0).target = idle.lt.setWidth 32 + BitVec.ofNat 32 1 ∧
      ((idle.armAt 0 250000).alarm 0).target = idle.lt.setWidth 32 + BitVec.ofNat 32 (2 ^ 32) ∧
      idle.now < 100250001 ∧ (100250001 : Int) - idle.now = 1 ∧ (4395217295 : Int) - idle.now = 2 ^ 32 - 1 := by decide

theorem witness_PulseAndIntervalArithmetic : (65535 : BitVec 16) ≠ 0 ∧ interval 65535 = 15 := by decide

/-- A written byte, one that nothing has written, the last that exists and the first that does not; the 4-byte form. -/
theorem witness_BufferReadsAndStores :
    Memory.read live.buf (bufAddr .aux .zero 5) = some 0 ∧ 5 < live.len .aux ∧ live.len .aux ≤ 6 ∧
      Memory.read idle.buf (bufAddr .aux .zero 5) = none ∧ 2 + 4 ≤ live.len .pri ∧
      live.memRead1 .pri .zero 5 = .ok 0 ∧ 0 + 4 ≤ { idle with params := { tc1 with auxMsg := .bare } }.len .aux :=
  ⟨rfl, by decide, by decide, rfl, by decide, rfl, by decide⟩

/-! ### Register handlers and the poll -/

theorem witness_ReadsReply : idle.fault = none ∧ idle.mpc = [] ∧ idle.regs.auxBaudRate = 1000 := by decide

theorem witness_WriteConnectedRefused : idle.fault = none ∧ runs (exec (.wrConnected 1) idle) = true := by decide

theorem witness_WriteCounter : idle.fault = none ∧ idle.mpc = [] ∧ runs (operation (.wrCounter 7) 1 idle) = true := by decide

/-- Every label; payloads at 65536, 65535, 1001 and 1000. -/
theorem witness_WriteFreq :
    ([FreqAt.w2, .w3, .w4, .w5].all fun l => runs (exec (.wrFreq 4) (idle.at [.wrFreq 4 l]))) = true ∧
      2 ^ 16 ≤ (65536 : BitVec 32).toNat ∧ (65535 : BitVec 32).toNat < 2 ^ 16 ∧
      idle.params.maxCounterFreqHz.toNat < (1001 : BitVec 32).toNat ∧
      (1000 : BitVec 32).toNat ≤ idle.params.maxCounterFreqHz.toNat ∧ idle.fault = none ∧ idle.mpc = [] := by decide

/-- Every label; payloads at 256, 255, 3, 2 and the value held. -/
theorem witness_WriteAuxfn :
    ([AuxfnAt.w2, .w3 0, .w4 0, .w4 2, .w5, .w6].all fun l => runs (exec (.wrAuxfn 2) (idle.at [.wrAuxfn 2 l]))) = true ∧
      2 ^ 8 ≤ (256 : BitVec 32).toNat ∧ (255 : BitVec 32).toNat < 2 ^ 8 ∧ 2 < (3 : BitVec 32).toNat ∧
      (0 : BitVec 32).toNat = idle.regs.auxPortFn.toNat ∧ (1 : BitVec 32).toNat = live.regs.auxPortFn.toNat ∧
      idle.fault = none ∧ idle.mpc = [] ∧ live.fault = none ∧ live.mpc = [] := by decide

theorem witness_WriteAuxfnBuildsBroadcast :
    idle.fault = none ∧ idle.mpc = [] ∧ idle.regs.auxPortFn = 0 ∧ idle.auxState = .disabled ∧
      idle.ch.aux.active = false ∧ idle.uart.aux.init = false ∧ idle.freeDma ≠ [] ∧ idle.freeAlarms ≠ [] := by decide

/-- Every label, inside and outside the broadcast mode; payloads at 59, 60, 1000000 and 1000001. -/
theorem witness_WriteAuxbaud :
    ([AuxbaudAt.w2 1000, .w3, .w4].all fun l =>
        runs (exec (.wrAuxbaud 60) (idle.at [.wrAuxbaud 60 l])) && runs (exec (.wrAuxbaud 60) (live.at [.wrAuxbaud 60 l]))) =
        true ∧
      (59 : BitVec 32).toNat < idle.params.minAuxBaud.toNat ∧ idle.params.minAuxBaud.toNat ≤ (60 : BitVec 32).toNat ∧
      (1000000 : BitVec 32).toNat ≤ idle.params.maxAuxBaud.toNat ∧
      idle.params.maxAuxBaud.toNat < (1000001 : BitVec 32).toNat ∧ idle.auxState ≠ .auxClockBroadcast ∧ idle.mpc = [] := by
  decide

theorem witness_PollPass :
    ([PollAt.p2, .p3].all fun l => runs (exec (.poll 0 0) (idle.at [.poll 0 0 l]))) = true ∧ idle.fault = none ∧
      idle.mpc = [] ∧ { idle with prevSynced := true }.prevSynced = idle.hasSynced ∧
      { idle with params := { tc1 with nInputs := 0 } }.params.nInputs = 0 ∧ idle.prevInputs = 0 ∧
      { idle.setFreq 1000 with intervalUs := 1000, lastEmitUs := 100249000 }.counterDue = true ∧
      { idle.setFreq 1000 with intervalUs := 1000, lastEmitUs := 100249001 }.counterDue = false := by decide

theorem witness_BootBuildsThePrimaryChannel :
    fresh.fault = none ∧ fresh.mpc = [] ∧ fresh.ch.pri.active = false ∧ fresh.freeDma ≠ [] ∧ fresh.freeAlarms ≠ [] ∧
      runs (exec .boot (fresh.at [.boot])) = true := by decide

/-! ### The transmitter and the dispatcher -/

/-- The start, the inactive channel, the unclaimed data mover, the overlap. -/
theorem witness_TransmitStart :
    live.ch.pri.active = true ∧ (live.dmaChan live.ch.pri.dma).claimed = true ∧
      (live.dmaChan live.ch.pri.dma).busy = false ∧ idle.ch.pri.active = false ∧
      (idle.dmaChan idle.ch.pri.dma).claimed = false ∧ (live.dmaChan live.ch.aux.dma).busy = true ∧
      live.fault = none ∧ idle.fault = none := by decide

/-- Enabled with the FIFO one short of its depth; waiting with the FIFO full. -/
theorem witness_DataMoverBeat :
    live.beatEnabled .aux = true ∧ live.memRead1 .aux .zero 2 = .ok 0x64 ∧
      (live.setUart .aux { init := true, baud := 1000, fifo := List.replicate 7 0 }).beatEnabled .aux = true ∧
      live.params.uartFifoDepth ≤ (List.replicate 8 (0 : Byte)).length ∧ (live.dmaChan live.ch.pri.dma).busy = false ∧
      idle.ch.aux.active = false ∧ live.fault = none := by decide

theorem witness_SerialiserShift :
    live.uart.aux.init = true ∧ live.uart.aux.fifo = [0xAA, 0xAF] ∧ live.uart.pri.fifo = [] ∧ idle.uart.aux.init = false ∧
      live.fault = none := by decide

theorem witness_ByteOrderIsKept :
    (live.pin.get .aux).fn = .uartTx ∧
      ends (runOf [.dma .aux, .uart .aux, .tick] live)
        (fun t => t.wire.aux == [0xAA] && t.uart.aux.fifo == [0xAF, 0x64]) = true := by decide

/-- A fire of the primary channel and a run that drains it. -/
theorem witness_WholeMessageReachesTheWire :
    (live.pin.get .pri).fn = .uartTx ∧
      ends (exec (.chFire .pri) live)
        (fun u =>
          u.fault == none &&
            ends (runOf (List.replicate 6 (.dma .pri) ++ List.replicate 6 (.uart .pri)) u)
              (fun t => !(t.dmaOf .pri).busy && t.uart.pri.fifo == [] && t.wire.pri.length == 6)) = true := by decide

/-- Every label, on an active channel; `s1a`, `s1b` also on an inactive one, with and without something free. -/
theorem witness_ChannelSetupMicroOps :
    ([SetupAt.s0, .s1a, .s1b, .s1c, .s2a, .s2b, .s3a, .s3b, .s3c, .s4a, .s4b, .s5a, .s5b 100999500].all fun l =>
        runs (exec (.chSetup .aux) (live.at [.chSetup .aux l])) && runs (exec (.chSetup .aux) (idle.at [.chSetup .aux l]))) =
        true ∧
      idle.ch.aux.active = false ∧ 0 ∈ idle.freeDma ∧ 0 ∈ idle.freeAlarms ∧ idle.draws = [0, 1] ∧
      { idle with dma := [] }.freeDma = [] ∧ { idle with alarms := [] }.freeAlarms = [] ∧ live.fault = none := by decide

theorem witness_ChannelSetupWhole :
    (idle.at [.chSetup .aux .s0]).fault = none ∧ (idle.ch.get .aux).active = false ∧ idle.freeDma ≠ [] ∧
      idle.freeAlarms ≠ [] ∧ runs (mainRun 13 (idle.at [.chSetup .aux .s0])) = true := by decide

/-- A fire; an inactive channel; an unclaimed data mover; an overlap. -/
theorem witness_ChannelFire :
    live.fault = none ∧ live.ch.pri.active = true ∧ (live.dmaChan live.ch.pri.dma).claimed = true ∧
      (live.dmaChan live.ch.pri.dma).busy = false ∧ idle.ch.pri.active = false ∧
      ((live.releaseDma 0).dmaChan 0).claimed = false ∧ (live.dmaChan live.ch.aux.dma).busy = true := by decide

/-- Served at its deadline and 499 microseconds later, the latest that the latency bound admits. -/
theorem witness_UndisturbedCycle :
    (live.ch.get .pri).offsetUs = -500 ∧ (100999500 : Int) = 101 * 1000000 + (live.ch.get .pri).offsetUs ∧
      live.now - 100999500 = 0 ∧ { live with lt := 999999 }.now - 100999500 = 499 ∧
      (ends (exec (.chFire .pri) live) (fun t => t.fault == none) &&
        ends (exec (.chFire .pri) { live with lt := 999999 }) (fun t => t.fault == none)) = true ∧
      (live.ch.get .pri).alarm < live.alarms.length := by decide

theorem witness_ChannelTeardownMicroOps :
    ([TeardownAt.t0, .t1, .t2, .t3, .t4, .t5, .t6, .t7, .t8].all fun l =>
        runs (exec (.chTeardown .aux) (live.at [.chTeardown .aux l]))) = true ∧ live.fault = none := by decide

theorem witness_ChannelTeardownWhole :
    (live.at [.chTeardown .aux .t0]).fault = none ∧ (live.ch.get .aux).active = true ∧
      runs (mainRun 9 (live.at [.chTeardown .aux .t0])) = true := by decide

/-! ### The controller and the pulse -/

/-- Every label of `AUX.SWITCH`, from each controller state and to each; every label of `AUX.REBAUD`. -/
theorem witness_ControllerMicroOps :
    ([SwitchAt.a0, .a1, .a2, .a3, .a4].all fun l =>
        [idle, live, pulsing].all fun s =>
          [0, 1, 2].all fun fn => runs (exec (.auxSwitch fn) (s.at [.auxSwitch fn l]))) = true ∧
      ([RebaudAt.b0, .b1, .b2].all fun l => runs (exec .auxRebaud (live.at [.auxRebaud l]))) = true ∧
      [idle.auxState, live.auxState, pulsing.auxState] = [.disabled, .auxClockBroadcast, .pulsePerSecond] ∧
      live.fault = none := by decide

theorem witness_AuxRebaudWhole :
    live.fault = none ∧ live.auxState = .auxClockBroadcast ∧ live.ch.aux.active = true ∧
      live.ch.aux.alarm < live.alarms.length ∧ live.ch.aux.dma < live.dma.length := by decide

/-- Every label, on an active context; `p1a` also on an inactive one, with and without a free slot. -/
theorem witness_PpsSetupMicroOps :
    ([PpsSetupAt.p0, .p1a, .p1b, .p2, .p3a, .p3b, .p4a, .p4b 102500000].all fun l =>
        runs (exec .ppsSetup (pulsing.at [.ppsSetup l])) && runs (exec .ppsSetup (idle.at [.ppsSetup l]))) = true ∧
      pulsing.pps.active = true ∧ idle.pps.active = false ∧ 0 ∈ idle.freeAlarms ∧ idle.draws = [0, 1] ∧
      { idle with alarms := [] }.freeAlarms = [] ∧ idle.fault = none := by decide

theorem witness_PpsSetupWhole :
    (idle.at [.ppsSetup .p0]).fault = none ∧ idle.pps.active = false ∧ idle.freeAlarms ≠ [] ∧
      runs (mainRun 8 (idle.at [.ppsSetup .p0])) = true := by decide

theorem witness_PulseFire : pulsing.fault = none ∧ runs (exec .ppsFire pulsing) = true := by decide

theorem witness_PpsTeardownMicroOps :
    ([PpsTeardownAt.r0, .r1, .r2, .r3, .r4, .r5, .r6, .r7].all fun l =>
        runs (exec .ppsTeardown (pulsing.at [.ppsTeardown l]))) = true ∧ pulsing.fault = none := by decide

/-! ### The named premises: what counts as a micro-op of the main thread (R8, R33, R110, R253) -/

/-- With a line pending: an entry for the idle thread, a word that finds it busy and a reserved word are no micro-ops. -/
theorem test_noMicroOp :
    live.pending 0 = true ∧ ¬Moment.microOp { action := .main, before := live } ∧
      ¬Moment.microOp { action := .command 0x010000000000, before := live.at [.chTeardown .aux .t0] } ∧
      ¬Moment.microOp { action := .command 0, before := live } :=
  ⟨by decide, fun h => h.2 ⟨rfl, rfl⟩, fun h => (nomatch h.2.1.1), fun h => h.2.2 0 (by decide)⟩

/-- An operation in progress, `BOOT`, and a word taken, the one for a missing register too, are micro-ops; on a faulted
block nothing is. -/
theorem test_microOp :
    Moment.microOp { action := .main, before := live.at [.chTeardown .aux .t0] } ∧
      Moment.microOp { action := .main, before := fresh } ∧
      Moment.microOp { action := .command 0x010500000000, before := live } ∧
      ¬Moment.microOp { action := .main, before := { fresh with fault := some .unhandledIrq } } :=
  ⟨⟨rfl, fun h => (nomatch h.1)⟩, ⟨rfl, fun h => (nomatch h.2)⟩, ⟨rfl, ⟨rfl, rfl⟩, fun _ h => (nomatch h)⟩,
    fun h => (nomatch h.1)⟩

end Sys2Proof.Tests
end

section
/-!
PROOF. The statements of 00_scope.md. One relation, `Evolves`, says what every operation does to the parameters, the time
base and the canonical form of the state; `exec_evolves` proves it once for all operations, and `perform_cases` takes a
schedule entry apart. O13 and O27 are read off these two.
-/

namespace Sys2Proof.Safety

open Sys2Proof Sys2Proof.Machine

/-! ## What a next state satisfies -/

/-- If the outcome is a next state, `P` holds of it. -/
structure Ensures (P : State → Prop) (r : Result) : Prop where
  of_next : ∀ {t}, r = .next t → P t

theorem Ensures.next {P : State → Prop} {t : State} (h : P t) : Ensures P (.next t) :=
  ⟨fun hu => Host.Outcome.next.inj hu ▸ h⟩

theorem Ensures.fault {P : State → Prop} (f : Fault) : Ensures P (.fault f) := ⟨fun hu => nomatch hu⟩

theorem Ensures.refused {P : State → Prop} (r : Refusal) : Ensures P (.refused r) := ⟨fun hu => nomatch hu⟩

theorem Ensures.running {P : State → Prop} {s : State} {r : Result} (h : Ensures P r) : Ensures P (s.running r) :=
  ⟨fun ht => h.of_next (State.running_next ht).2⟩

theorem Ensures.mono {P Q : State → Prop} {r : Result} (h : Ensures P r) (hPQ : ∀ t, P t → Q t) : Ensures Q r :=
  ⟨fun ht => hPQ _ (h.of_next ht)⟩

/-! ## What the operations leave unchanged, where Laws/State.lean does not say it -/

@[simp] theorem lines_length_modifyLine (s : State) (q : Nat) (f : IrqLine → IrqLine) :
    (s.modifyLine q f).lines.length = s.lines.length := by
  unfold State.modifyLine
  cases s.alarmOf q <;> simp

@[simp] theorem lines_length_bind (s : State) (q : Nat) (h : Handler) :
    (s.bind q h).lines.length = s.lines.length :=
  lines_length_modifyLine s q _

@[simp] theorem lines_length_enableIrq (s : State) (q : Nat) (b : Bool) :
    (s.enableIrq q b).lines.length = s.lines.length :=
  lines_length_modifyLine s q _

theorem inputBits_idem (s : State) (v : BitVec 16) : s.inputBits (s.inputBits v) = s.inputBits v := by
  simp only [State.inputBits, BitVec.and_assoc, BitVec.and_self]

/-! ## The canonical form under single updates (R43, R44, R71) -/

theorem addressExists_bufAddr {s : State} {c : Ch} {i : Nat} (sl : Slot) (h : i < s.len c) :
    addressExists s (bufAddr c sl i) = true := by
  simp only [addressExists, List.any_eq_true, List.mem_range, beq_iff_eq]
  exact ⟨c, by cases c <;> simp, sl, by cases sl <;> simp, i, h, rfl⟩

/-- A store within the message keeps the buffer canonical. -/
theorem Canonical.memWrite {s : State} (hc : Canonical s) {c : Ch} {i : Nat} {bs : List Byte} (sl : Slot)
    (h : i + bs.length ≤ s.len c) : Canonical (s.memWrite c sl i bs) :=
  { hc with
    bufWf := Memory.wf_writeList bs s.buf _ hc.bufWf
    bufOk := by
      refine List.all_eq_true.mpr fun e he => ?_
      rcases Memory.mem_writeList bs s.buf _ e he with ⟨hlo, hhi⟩ | hmem
      · have haddr : e.1 = bufAddr c sl (i + (e.1 - bufAddr c sl i)) := by
          unfold bufAddr at hlo ⊢
          omega
        rw [haddr]
        exact addressExists_bufAddr (s := s) sl (by omega)
      · exact List.all_eq_true.mp hc.bufOk e hmem }

/-- An update of a data-mover channel that keeps a transfer a whole message's keeps the canonical form. -/
theorem Canonical.modifyDma {s : State} (hc : Canonical s) (d : Nat) {f : DmaChan → DmaChan}
    (h : ∀ x, transferOk s x = true → transferOk s (f x) = true) : Canonical (s.modifyDma d f) :=
  { hc with
    dma := by simpa using hc.dma
    transfers := by
      have old := List.all_eq_true.mp hc.transfers
      refine List.all_eq_true.mpr fun x hx => ?_
      rcases mem_modify hx with hx | ⟨y, hy, -, rfl⟩
      · exact old x hx
      · exact h y (old y hy) }

/-- A UART whose FIFO is within the depth may replace either one. -/
theorem Canonical.setUart {s : State} (hc : Canonical s) (c : Ch) {u : Uart}
    (h : u.fifo.length ≤ s.params.uartFifoDepth) : Canonical (s.setUart c u) := by
  cases c with
  | pri => exact { hc with fifoPri := h }
  | aux => exact { hc with fifoAux := h }

theorem Canonical.fifo {s : State} (hc : Canonical s) (c : Ch) :
    (s.uart.get c).fifo.length ≤ s.params.uartFifoDepth := by
  cases c with
  | pri => exact hc.fifoPri
  | aux => exact hc.fifoAux

theorem transferOk_advance {s : State} {x : DmaChan} (h : transferOk s x = true) : transferOk s x.advance = true := by
  simp only [transferOk, Bool.or_eq_true, Bool.not_eq_true', Bool.and_eq_true, decide_eq_true_eq] at h
  by_cases hlast : x.pos + 1 = x.count
  · simp [transferOk, DmaChan.advance, hlast]
  · rcases h with hidle | ⟨hpos, hcount⟩
    · simp [transferOk, DmaChan.advance, hidle]
    · have hleft : x.pos + 1 < s.len x.srcCh := by omega
      simp [transferOk, DmaChan.advance, hcount, hleft]

/-! ## Evolution: what every operation keeps -/

/-- From `s` to `t` the parameters and the time base stay, and so does the canonical form (R4, R23, R35). -/
structure Evolves (s t : State) : Prop where
  params : t.params = s.params
  lt : t.lt = s.lt
  offs : t.offs = s.offs
  hasSynced : t.hasSynced = s.hasSynced
  canonical : Canonical s → Canonical t

theorem Evolves.refl (s : State) : Evolves s s := ⟨rfl, rfl, rfl, rfl, id⟩

theorem Evolves.trans {s t u : State} (h : Evolves s t) (k : Evolves t u) : Evolves s u :=
  ⟨k.params.trans h.params, k.lt.trans h.lt, k.offs.trans h.offs, k.hasSynced.trans h.hasSynced,
    fun hc => k.canonical (h.canonical hc)⟩

/-- What the canonical form and the time base are read from: of the alarm slots and the lines only how many there are. -/
structure Body where
  params : Params
  lt : BitVec 64
  offs : BitVec 64
  hasSynced : Bool
  alarms : Nat
  lines : Nat
  dma : List DmaChan
  uart : Pair Uart
  din : BitVec 16
  buf : List Host.Cell

def bodyOf (s : State) : Body where
  params := s.params
  lt := s.lt
  offs := s.offs
  hasSynced := s.hasSynced
  alarms := s.alarms.length
  lines := s.lines.length
  dma := s.dma
  uart := s.uart
  din := s.din
  buf := s.buf

@[simp] theorem bodyOf_eq_iff (s t : State) :
    bodyOf t = bodyOf s ↔
      t.params = s.params ∧ t.lt = s.lt ∧ t.offs = s.offs ∧ t.hasSynced = s.hasSynced ∧
        t.alarms.length = s.alarms.length ∧ t.lines.length = s.lines.length ∧ t.dma = s.dma ∧ t.uart = s.uart ∧
        t.din = s.din ∧ t.buf = s.buf := by
  simp only [bodyOf, Body.mk.injEq]

theorem Canonical.of_body {s t : State} (hc : Canonical s) (h : bodyOf t = bodyOf s) : Canonical t := by
  obtain ⟨params, -, -, -, alarms, lines, dma, uart, din, buf⟩ := (bodyOf_eq_iff s t).mp h
  have hlen : t.len = s.len := by funext c; cases c <;> simp [State.len, params]
  have haddr : addressExists t = addressExists s := by funext a; simp [addressExists, hlen]
  have hok : transferOk t = transferOk s := by funext x; simp [transferOk, hlen]
  exact
    { params := by rw [params]; exact hc.params
      alarms := by rw [alarms, params]; exact hc.alarms
      lines := by rw [lines, params]; exact hc.lines
      dma := by rw [dma, params]; exact hc.dma
      fifoPri := by rw [uart, params]; exact hc.fifoPri
      fifoAux := by rw [uart, params]; exact hc.fifoAux
      din := by rw [din, State.inputBits, params]; exact hc.din
      bufWf := by rw [buf]; exact hc.bufWf
      bufOk := by rw [buf, haddr]; exact hc.bufOk
      transfers := by rw [dma, hok]; exact hc.transfers }

/-- An update that touches nothing of the body. -/
theorem Evolves.unchanged {s t : State} (h : bodyOf t = bodyOf s) : Evolves s t := by
  obtain ⟨params, lt, offs, hasSynced, -⟩ := (bodyOf_eq_iff s t).mp h
  exact ⟨params, lt, offs, hasSynced, fun hc => hc.of_body h⟩

theorem Evolves.at {s t : State} (h : Evolves s t) (fs : List Frame) : Evolves s (t.at fs) := h.trans (.unchanged (by simp))

theorem Evolves.log {s t : State} (h : Evolves s t) (i : Instr) : Evolves s (t.log i) := h.trans (.unchanged (by simp))

/-! ## The shared operations -/

theorem ack_evolves (s : State) (r : BitVec 8) : Evolves s (s.ack r) := by
  unfold State.ack
  split
  · exact .refl s
  · exact .unchanged (by simp)

theorem setLevel_evolves (s : State) (v : Bool) : Evolves s (s.setLevel v) := by
  unfold State.setLevel
  split
  · exact .refl s
  · exact .unchanged (by simp)

theorem syncEdge_evolves (s : State) : Evolves s s.syncEdge := by
  unfold State.syncEdge
  exact .unchanged (by simp)

theorem inputs_evolves (s : State) : Evolves s s.inputs := by
  unfold State.inputs State.event
  dsimp only
  split <;> exact .unchanged (by simp)

theorem counterTick_evolves (s : State) : Evolves s s.counterTick := by
  unfold State.counterTick State.event
  split
  · exact .unchanged (by simp)
  · exact .refl s

theorem draw_evolves (s : State) : Evolves s s.draw.2 := by
  rw [State.draw_snd]
  exact .unchanged (by simp)

theorem modifyDma_evolves {s : State} (d : Nat) {f : DmaChan → DmaChan}
    (h : ∀ x, transferOk s x = true → transferOk s (f x) = true) : Evolves s (s.modifyDma d f) :=
  ⟨rfl, rfl, rfl, rfl, fun hc => hc.modifyDma d h⟩

theorem setUart_evolves {s : State} (c : Ch) {u : Uart} (h : u.fifo.length ≤ s.params.uartFifoDepth) :
    Evolves s (s.setUart c u) :=
  ⟨rfl, rfl, rfl, rfl, fun hc => hc.setUart c h⟩

theorem memWrite_evolves {s : State} {c : Ch} {i : Nat} {bs : List Byte} (sl : Slot)
    (h : i + bs.length ≤ s.len c) : Evolves s (s.memWrite c sl i bs) :=
  ⟨rfl, rfl, rfl, rfl, fun hc => hc.memWrite sl h⟩

/-- The time field lies within the message (R47). -/
theorem writeTime_evolves (s : State) (c : Ch) (sl : Slot) (v : BitVec 32) :
    Evolves s (s.memWrite4 c sl (s.tofs c) v) :=
  memWrite_evolves sl (by rw [le32_length]; exact s.tofs_add_four_le c)

theorem writeTemplate_evolves (s : State) (c : Ch) (sl : Slot) :
    Evolves s (s.memWrite c sl 0 (s.template c)) :=
  memWrite_evolves sl (by simp)

theorem claimAlarm_evolves {s t : State} {a : Nat} (h : s.claimAlarm = some (a, t)) : Evolves s t := by
  obtain ⟨-, -, rfl⟩ := State.claimAlarm_some h
  exact (draw_evolves s).trans (.unchanged (by simp))

theorem claimDma_evolves {s t : State} {d : Nat} (h : s.claimDma = some (d, t)) : Evolves s t := by
  obtain ⟨-, -, rfl⟩ := State.claimDma_some h
  exact (draw_evolves s).trans (modifyDma_evolves d fun _ hx => hx)

theorem setupUart_evolves (s : State) (c : Ch) : Evolves s (s.setupUart c) := by
  unfold State.setupUart
  split
  · exact .unchanged (by simp)
  · have context (v : Channel) : Evolves s (s.setCh c v) := .unchanged (by simp)
    exact (context _).trans (setUart_evolves c (Nat.zero_le _))

theorem releaseUart_evolves (s : State) (c : Ch) : Evolves s (s.releaseUart c) := by
  unfold State.releaseUart
  split
  · have stopped : Evolves s (s.setUart c { s.uart.get c with init := false, fifo := [] }) :=
      setUart_evolves c (Nat.zero_le _)
    exact stopped.trans (.unchanged (by simp))
  · exact .refl s

/-- A next state whose body is the old one. -/
theorem Ensures.unchanged {s t : State} (h : bodyOf t = bodyOf s) : Ensures (Evolves s) (.next t) := .next (.unchanged h)

theorem raise_evolves (s : State) (e : FaultCode) : Ensures (Evolves s) (s.raise e) := .unchanged (by simp)

/-! ## Family T (R130 to R132) -/

/-- A transfer of the whole message is a legal one: `LEN` is not 0. -/
theorem txStart_evolves {c : Ch} {sl : Slot} {s t : State} (h : txStart c sl (s.len c) s = .ok t) : Evolves s t := by
  obtain ⟨-, -, -, hpos, -, rfl⟩ := txStart_ok h
  have start := modifyDma_evolves (s := s) (s.ch.get c).dma
    (f := fun x => { x with busy := true, srcCh := c, srcSlot := sl, pos := 0, count := s.len c })
    fun x _ => by simp [transferOk, Nat.pos_of_ne_zero hpos]
  exact start.trans (.unchanged (by simp))

theorem execTxStart_evolves (c : Ch) (s : State) : Ensures (Evolves s) (execTxStart c s) := by
  unfold execTxStart
  refine .running ?_
  split
  next t h => exact .next (txStart_evolves h)
  next e _ => exact raise_evolves s e

/-- A beat is taken only where the FIFO has room (R44, R131). -/
theorem beat_evolves {s : State} {c : Ch} (b : Byte) (h : s.beatEnabled c = true) : Evolves s (s.beat c b) := by
  have hroom : (s.uart.get c).fifo.length < s.params.uartFifoDepth := by
    simp only [State.beatEnabled, State.txReady, Bool.and_eq_true, decide_eq_true_eq] at h
    obtain ⟨-, -, hless⟩ := h
    exact hless
  have put : Evolves s (s.setUart c { s.uart.get c with fifo := (s.uart.get c).fifo ++ [b] }) :=
    setUart_evolves c (by simpa using hroom)
  exact (put.trans (modifyDma_evolves _ fun _ => transferOk_advance)).log _

theorem execDmaBeat_evolves (c : Ch) (s : State) : Ensures (Evolves s) (execDmaBeat c s) := by
  unfold execDmaBeat
  refine .running ?_
  split
  next henabled =>
    split
    · exact .next (beat_evolves _ henabled)
    · exact .fault _
  next => exact .next (.refl s)

theorem shift_evolves {s : State} {c : Ch} {b : Byte} {rest : List Byte} (h : (s.uart.get c).fifo = b :: rest) :
    Evolves s (s.shift c b rest) := by
  have pop : Evolves s (s.setUart c { s.uart.get c with fifo := rest }) :=
    ⟨rfl, rfl, rfl, rfl, fun hc => hc.setUart c <| by
      have := hc.fifo c
      rw [h, List.length_cons] at this
      exact Nat.le_of_succ_le this⟩
  unfold State.shift
  dsimp only
  split <;> exact pop.trans (.unchanged (by simp))

theorem execUartShift_evolves (c : Ch) (s : State) : Ensures (Evolves s) (execUartShift c s) := by
  unfold execUartShift
  refine .running ?_
  split
  next b rest hfifo =>
    split
    · exact .next (shift_evolves hfifo)
    · exact .next (.refl s)
  next => exact .next (.refl s)

/-! ## Family D (R154 to R156) -/

theorem setupAt_evolves (c : Ch) (fs : List Frame) (l : SetupAt) (s : State) :
    Ensures (Evolves s) (setupAt c fs l s) := by
  cases l with
  | s0 => exact .unchanged (by simp)
  | s1a =>
    unfold setupAt
    dsimp only
    split
    next => exact .unchanged (by simp)
    next =>
      split
      next => exact raise_evolves s _
      next h => exact .next ((claimDma_evolves h).trans (.unchanged (by simp)))
  | s1b =>
    unfold setupAt
    dsimp only
    split
    next => exact .unchanged (by simp)
    next =>
      split
      next => exact raise_evolves s _
      next h => exact .next ((claimAlarm_evolves h).trans (.unchanged (by simp)))
  | s1c => exact .unchanged (by simp)
  | s2a => exact .next ((setupUart_evolves s c).at _)
  | s2b => exact .unchanged (by simp)
  | s3a => exact .next ((writeTemplate_evolves s c _).at _)
  | s3b => exact .next ((writeTemplate_evolves s c _).at _)
  | s3c => exact .unchanged (by simp)
  | s4a => exact .unchanged (by simp)
  | s4b => exact .unchanged (by simp)
  | s5a => exact .next ((writeTime_evolves s c _ _).at _)
  | s5b d => exact .unchanged (by simp)

theorem execChSetup_evolves (c : Ch) (s : State) : Ensures (Evolves s) (execChSetup c s) := by
  unfold execChSetup
  refine .running ?_
  split
  · split
    · exact setupAt_evolves ..
    · exact setupAt_evolves ..
  · exact setupAt_evolves ..

theorem reschedule_evolves (s : State) (c : Ch) : Evolves s (s.reschedule c) := by
  have acknowledged : Evolves s (s.acknowledge (s.ch.get c).alarm) := .unchanged (by simp)
  have written : Evolves s ((s.acknowledge (s.ch.get c).alarm).memWrite4 c (otherSlot (s.ch.get c).dispatchIdx)
      (s.tofs c) (timeField (nextDeadline s.now (s.ch.get c).offsetUs))) :=
    acknowledged.trans (writeTime_evolves _ c _ _)
  unfold State.reschedule
  exact written.trans (.unchanged (by simp))

theorem execChFire_evolves (c : Ch) (s : State) : Ensures (Evolves s) (execChFire c s) := by
  have logged : Evolves s (s.log (.chFire c)) := .unchanged (by simp)
  unfold execChFire
  refine .running ?_
  dsimp only
  split
  next u h => exact .next ((logged.trans (txStart_evolves h)).trans (reschedule_evolves u c))
  next e _ => exact .unchanged (by simp)

theorem teardownAt_evolves (c : Ch) (fs : List Frame) (l : TeardownAt) (s : State) :
    Ensures (Evolves s) (teardownAt c fs l s) := by
  cases l with
  | t0 =>
    unfold teardownAt
    dsimp only
    split <;> exact .unchanged (by simp)
  | t1 => exact .unchanged (by simp)
  | t2 => exact .unchanged (by simp)
  | t3 => exact .unchanged (by simp)
  | t4 => exact .unchanged (by simp)
  | t5 => exact .unchanged (by simp)
  | t6 => exact .next ((modifyDma_evolves _ fun _ _ => rfl).at _)
  | t7 => exact .next ((releaseUart_evolves s c).at _)
  | t8 => exact .unchanged (by simp)

theorem execChTeardown_evolves (c : Ch) (s : State) : Ensures (Evolves s) (execChTeardown c s) := by
  unfold execChTeardown
  refine .running ?_
  split
  · split
    · exact teardownAt_evolves ..
    · exact teardownAt_evolves ..
  · exact teardownAt_evolves ..

/-! ## Family A (R181, R182, R185 to R187) -/

theorem ppsSetupAt_evolves (fs : List Frame) (l : PpsSetupAt) (s : State) :
    Ensures (Evolves s) (ppsSetupAt fs l s) := by
  cases l with
  | p0 => exact .unchanged (by simp)
  | p1a =>
    unfold ppsSetupAt
    dsimp only
    split
    next => exact .unchanged (by simp)
    next =>
      split
      next => exact raise_evolves s _
      next h => exact .next ((claimAlarm_evolves h).trans (.unchanged (by simp)))
  | p1b => exact .unchanged (by simp)
  | p2 => exact .unchanged (by simp)
  | p3a => exact .unchanged (by simp)
  | p3b => exact .unchanged (by simp)
  | p4a => exact .next ((setLevel_evolves s _).at _)
  | p4b d => exact .unchanged (by simp)

theorem execPpsSetup_evolves (s : State) : Ensures (Evolves s) (execPpsSetup s) := by
  unfold execPpsSetup
  refine .running ?_
  split <;> exact ppsSetupAt_evolves ..

theorem pulse_evolves (s : State) : Evolves s s.pulse := by
  unfold State.pulse
  exact (setLevel_evolves s (!s.pin.aux.level)).trans (.unchanged (by simp))

theorem execPpsFire_evolves (s : State) : Ensures (Evolves s) (execPpsFire s) := by
  have logged : Evolves s (s.log .ppsFire) := .unchanged (by simp)
  exact .running (.next (logged.trans (pulse_evolves _)))

theorem ppsTeardownAt_evolves (fs : List Frame) (l : PpsTeardownAt) (s : State) :
    Ensures (Evolves s) (ppsTeardownAt fs l s) := by
  cases l with
  | r0 =>
    unfold ppsTeardownAt
    dsimp only
    split <;> exact .unchanged (by simp)
  | r1 => exact .unchanged (by simp)
  | r2 => exact .unchanged (by simp)
  | r3 => exact .unchanged (by simp)
  | r4 => exact .unchanged (by simp)
  | r5 => exact .unchanged (by simp)
  | r6 => exact .unchanged (by simp)
  | r7 => exact .unchanged (by simp)

theorem execPpsTeardown_evolves (s : State) : Ensures (Evolves s) (execPpsTeardown s) := by
  unfold execPpsTeardown
  refine .running ?_
  split <;> exact ppsTeardownAt_evolves ..

theorem switchAt_evolves (fn : BitVec 2) (target : AuxState) (fs : List Frame) (l : SwitchAt) (s : State) :
    Ensures (Evolves s) (switchAt fn target fs l s) := by
  cases l with
  | a0 => exact .unchanged (by simp)
  | a1 =>
    unfold switchAt
    dsimp only
    split
    · exact teardownAt_evolves ..
    · exact ppsTeardownAt_evolves ..
    · exact .unchanged (by simp)
  | a2 => exact .unchanged (by simp)
  | a3 =>
    cases target with
    | auxClockBroadcast => exact setupAt_evolves .aux _ .s0 s
    | pulsePerSecond => exact ppsSetupAt_evolves _ .p0 s
    | disabled => exact .unchanged (by simp)
  | a4 => exact .unchanged (by simp)

theorem switchOrRefuse_evolves (fn : BitVec 2) (fs : List Frame) (l : SwitchAt) (s : State) :
    Ensures (Evolves s) (switchOrRefuse fn fs l s) := by
  unfold switchOrRefuse
  split
  · exact switchAt_evolves ..
  · exact .refused _

theorem execAuxSwitch_evolves (fn : BitVec 2) (s : State) : Ensures (Evolves s) (execAuxSwitch fn s) := by
  unfold execAuxSwitch
  refine .running ?_
  split
  · split
    · exact switchOrRefuse_evolves ..
    · exact switchOrRefuse_evolves ..
  · exact switchOrRefuse_evolves ..

theorem rebaudAt_evolves (fs : List Frame) (l : RebaudAt) (s : State) : Ensures (Evolves s) (rebaudAt fs l s) := by
  cases l with
  | b0 =>
    unfold rebaudAt
    dsimp only
    split <;> exact .unchanged (by simp)
  | b1 => exact teardownAt_evolves .aux _ .t0 s
  | b2 => exact setupAt_evolves .aux fs .s0 s

theorem execAuxRebaud_evolves (s : State) : Ensures (Evolves s) (execAuxRebaud s) := by
  unfold execAuxRebaud
  refine .running ?_
  split <;> exact rebaudAt_evolves ..

/-! ## Family R (R213 to R222) -/

theorem readRegister_evolves (i : Instr) (r : BitVec 8) (s : State) : Ensures (Evolves s) (readRegister i r s) :=
  .running (.unchanged (by simp))

theorem execWrConnected_evolves (p : BitVec 32) (s : State) : Ensures (Evolves s) (execWrConnected p s) :=
  .running (.unchanged (by simp))

/-- The acknowledgement that ends a write. -/
theorem acknowledged_evolves (s : State) (r : BitVec 8) (fs : List Frame) :
    Ensures (Evolves s) (.next ((s.ack r).at fs)) :=
  .next ((ack_evolves s r).at _)

theorem execWrCounter_evolves (p : BitVec 32) (s : State) : Ensures (Evolves s) (execWrCounter p s) := by
  unfold execWrCounter
  refine .running ?_
  split
  · split
    · exact acknowledged_evolves ..
    · exact .unchanged (by simp)
  · exact .unchanged (by simp)

theorem freqStart_evolves (p : BitVec 32) (s : State) : Ensures (Evolves s) (freqStart p s) := by
  unfold freqStart
  dsimp only
  split <;> exact .unchanged (by simp)

theorem freqAt_evolves (p : BitVec 32) (fs : List Frame) (l : FreqAt) (s : State) :
    Ensures (Evolves s) (freqAt p fs l s) := by
  cases l with
  | w2 => exact .unchanged (by simp)
  | w3 =>
    unfold freqAt
    dsimp only
    split <;> exact .unchanged (by simp)
  | w4 => exact .unchanged (by simp)
  | w5 => exact acknowledged_evolves ..

theorem execWrFreq_evolves (p : BitVec 32) (s : State) : Ensures (Evolves s) (execWrFreq p s) := by
  unfold execWrFreq
  refine .running ?_
  split
  · split
    · exact freqAt_evolves ..
    · exact freqStart_evolves ..
  · exact freqStart_evolves ..

theorem auxfnStart_evolves (p : BitVec 32) (s : State) : Ensures (Evolves s) (auxfnStart p s) := by
  unfold auxfnStart
  dsimp only
  split <;> exact .unchanged (by simp)

theorem auxfnAt_evolves (p : BitVec 32) (fs : List Frame) (l : AuxfnAt) (s : State) :
    Ensures (Evolves s) (auxfnAt p fs l s) := by
  cases l with
  | w2 => exact .unchanged (by simp)
  | w3 prev =>
    unfold auxfnAt
    dsimp only
    split <;> exact .unchanged (by simp)
  | w4 prev =>
    unfold auxfnAt
    dsimp only
    split
    · exact acknowledged_evolves ..
    · exact .unchanged (by simp)
  | w5 => exact switchOrRefuse_evolves ..
  | w6 => exact acknowledged_evolves ..

theorem execWrAuxfn_evolves (p : BitVec 32) (s : State) : Ensures (Evolves s) (execWrAuxfn p s) := by
  unfold execWrAuxfn
  refine .running ?_
  split
  · split
    · exact auxfnAt_evolves ..
    · exact auxfnStart_evolves ..
  · exact auxfnStart_evolves ..

theorem auxbaudStart_evolves (p : BitVec 32) (s : State) : Ensures (Evolves s) (auxbaudStart p s) :=
  .unchanged (by simp)

theorem auxbaudAt_evolves (p : BitVec 32) (fs : List Frame) (l : AuxbaudAt) (s : State) :
    Ensures (Evolves s) (auxbaudAt p fs l s) := by
  cases l with
  | w2 prev =>
    unfold auxbaudAt
    dsimp only
    split <;> exact .unchanged (by simp)
  | w3 => exact rebaudAt_evolves _ .b0 s
  | w4 => exact acknowledged_evolves ..

theorem execWrAuxbaud_evolves (p : BitVec 32) (s : State) : Ensures (Evolves s) (execWrAuxbaud p s) := by
  unfold execWrAuxbaud
  refine .running ?_
  split
  · split
    · exact auxbaudAt_evolves ..
    · exact auxbaudStart_evolves ..
  · exact auxbaudStart_evolves ..

/-! ## Family P and boot (R240 to R243, R291) -/

theorem pollStart_evolves (reg : BitVec 8) (x : BitVec 32) (fs : List Frame) (s : State) :
    Ensures (Evolves s) (.next ((s.log (.poll reg x)).syncEdge.at fs)) := by
  have logged : Evolves s (s.log (.poll reg x)) := .unchanged (by simp)
  exact .next ((logged.trans (syncEdge_evolves _)).at fs)

theorem execPoll_evolves (reg : BitVec 8) (x : BitVec 32) (s : State) : Ensures (Evolves s) (execPoll reg x s) := by
  unfold execPoll
  refine .running ?_
  split
  · split
    · split
      · exact .next ((inputs_evolves s).at _)
      · exact .next ((counterTick_evolves s).at _)
    · exact pollStart_evolves ..
  · exact pollStart_evolves ..

theorem execBoot_evolves (s : State) : Ensures (Evolves s) (execBoot s) := by
  unfold execBoot
  refine .running ?_
  split
  · exact setupAt_evolves ..
  · exact .unchanged (by simp)

/-! ## Every operation, every agent -/

theorem exec_evolves (i : Instr) (s : State) : Ensures (Evolves s) (exec i s) := by
  cases i with
  | rdConnected x => exact readRegister_evolves ..
  | rdCounter x => exact readRegister_evolves ..
  | rdFreq x => exact readRegister_evolves ..
  | rdAuxfn x => exact readRegister_evolves ..
  | rdAuxbaud x => exact readRegister_evolves ..
  | wrConnected p => exact execWrConnected_evolves p s
  | wrCounter p => exact execWrCounter_evolves p s
  | wrFreq p => exact execWrFreq_evolves p s
  | wrAuxfn p => exact execWrAuxfn_evolves p s
  | wrAuxbaud p => exact execWrAuxbaud_evolves p s
  | poll reg x => exact execPoll_evolves reg x s
  | boot => exact execBoot_evolves s
  | txStart c => exact execTxStart_evolves c s
  | dmaBeat c => exact execDmaBeat_evolves c s
  | uartShift c => exact execUartShift_evolves c s
  | chSetup c => exact execChSetup_evolves c s
  | chFire c => exact execChFire_evolves c s
  | chTeardown c => exact execChTeardown_evolves c s
  | auxSwitch fn => exact execAuxSwitch_evolves fn s
  | auxRebaud => exact execAuxRebaud_evolves s
  | ppsSetup => exact execPpsSetup_evolves s
  | ppsFire => exact execPpsFire_evolves s
  | ppsTeardown => exact execPpsTeardown_evolves s

theorem mainStep_evolves (s : State) : Ensures (Evolves s) (mainStep s) := by
  unfold mainStep
  split
  next =>
    split
    · exact .next (.refl s)
    · exact exec_evolves ..
  next i fs _ =>
    have returned : Evolves s (s.at fs) := .unchanged (by simp)
    exact (exec_evolves i _).mono fun _ => returned.trans
  next => exact exec_evolves ..

theorem takeCommand_evolves (w : CmdWord) (s : State) : Ensures (Evolves s) (takeCommand w s) := by
  unfold takeCommand
  split
  · split
    · exact exec_evolves ..
    · exact .unchanged (by simp)
    · exact .unchanged (by simp)
    · exact .refused _
  · exact .next (.refl s)

theorem serveIrq_evolves (q : Nat) (s : State) : Ensures (Evolves s) (serveIrq q s) := by
  unfold serveIrq
  split
  · split
    · exact raise_evolves s _
    · exact exec_evolves ..
    · exact exec_evolves ..
  · exact .next (.refl s)

theorem setDin_evolves (s : State) (v : BitVec 16) : Evolves s (s.setDin v) :=
  ⟨rfl, rfl, rfl, rfl, fun hc => { hc with din := inputBits_idem s v }⟩

theorem setQuiet_evolves (s : State) (b : Bool) : Evolves s (s.setQuiet b) := by
  unfold State.setQuiet
  exact .unchanged (by simp)

/-- What a schedule entry does to the parameters, the time base and the canonical form: only a reset, a tick and the
synchroniser do more than `Evolves` says. -/
theorem perform_cases {a : Action} {s t : State} (h : perform a s = .next t) :
    Evolves s t ∨ (∃ d, a = .reset d ∧ t = s.applyReset d) ∨ (a = .tick ∧ t = s.tick) ∨
      ∃ offs, a = .sync offs ∧ t = s.sync offs := by
  cases a with
  | reset d => cases h; exact .inr (.inl ⟨d, rfl, rfl⟩)
  | main => exact .inl ((mainStep_evolves s).of_next (State.running_next h).2)
  | command w => exact .inl ((takeCommand_evolves w s).of_next (State.running_next h).2)
  | irq q => exact .inl ((serveIrq_evolves q s).of_next (State.running_next h).2)
  | dma c => exact .inl ((exec_evolves _ s).of_next (State.running_next h).2)
  | uart c => exact .inl ((exec_evolves _ s).of_next (State.running_next h).2)
  | tick => cases (State.running_next h).2; exact .inr (.inr (.inl ⟨rfl, rfl⟩))
  | sync offs => cases (State.running_next h).2; exact .inr (.inr (.inr ⟨offs, rfl, rfl⟩))
  | din v => cases (State.running_next h).2; exact .inl (setDin_evolves s v)
  | quiet b => cases (State.running_next h).2; exact .inl (setQuiet_evolves s b)

/-- Taking the schedule entry touches the environment's lists only. -/
theorem nextAction_evolves (s : State) : Evolves s s.nextAction.2 := by
  rw [State.nextAction_snd]
  exact .unchanged (by simp)

/-! ## The reset, the tick and the synchroniser keep the canonical form (R54, R270, R271) -/

/-- The state after reset is canonical whenever the parameters meet R4. -/
theorem canonical_afterReset {p : Params} (hp : p.valid = true) (d : ResetDraws) (agenda : List Action)
    (draws : List Nat) (freeCtr : Nat) : Canonical (State.afterReset p d agenda draws freeCtr) where
  params := hp
  alarms := by simp [State.afterReset]
  lines := by simp [State.afterReset]
  dma := by simp [State.afterReset]
  fifoPri := Nat.zero_le _
  fifoAux := Nat.zero_le _
  din := inputBits_idem _ d.din
  bufWf := rfl
  bufOk := rfl
  transfers := by simp [State.afterReset, transferOk]

theorem Canonical.tick {s : State} (hc : Canonical s) : Canonical s.tick :=
  { hc with alarms := by simpa [State.tick] using hc.alarms }

theorem Canonical.sync {s : State} (hc : Canonical s) (offs : BitVec 64) : Canonical (s.sync offs) :=
  { hc with }

end Sys2Proof.Safety

/-! ## The obligations -/

open Sys2Proof Sys2Proof.Machine Sys2Proof.Safety

/-- Settles O13: an operation keeps the canonical form by `exec_evolves`; a reset, a tick and the synchroniser each by
their own lemma. -/
theorem stepKeepsCanonical : Obligations.StepKeepsCanonical := by
  intro s t hs hstep
  have hc : Canonical s.nextAction.2 := (nextAction_evolves s).canonical hs
  rcases perform_cases hstep with hev | ⟨d, -, rfl⟩ | ⟨-, rfl⟩ | ⟨offs, -, rfl⟩
  · exact hev.canonical hc
  · exact canonical_afterReset hc.params d _ _ _
  · exact hc.tick
  · exact hc.sync offs

/-- Settles O27: no operation touches the parameters or the time base, and a tick, the synchroniser and a reset do to
them what the statement says. -/
theorem timeBaseIsTheEnvironments : Obligations.TimeBaseIsTheEnvironments := by
  intro s t hstep
  have taken := nextAction_evolves s
  rcases perform_cases hstep with hev | ⟨d, hreset, rfl⟩ | ⟨htick, rfl⟩ | ⟨offs, hsync, rfl⟩
  · have whole := taken.trans hev
    exact ⟨whole.params, fun _ => ⟨.inl whole.lt, .inl whole.offs, whole.hasSynced.trans⟩⟩
  · exact ⟨taken.params, fun hno => absurd hreset (hno d)⟩
  · exact ⟨taken.params, fun _ =>
      ⟨.inr ⟨htick, congrArg (· + 1) taken.lt⟩, .inl taken.offs, taken.hasSynced.trans⟩⟩
  · exact ⟨taken.params, fun _ => ⟨.inl taken.lt, .inr hsync, fun _ => rfl⟩⟩

end

section
/-!
PROOF. The statements of 10_state.md, first the layer they share. Every operation is of one of three kinds, and one relation
each says what such an operation leaves alone: `Attends` for what the other agents perform (handlers, data movers,
serialisers), `Builds` for the listings that set up or tear down a channel or the pulse, `Handles` for the rest of the main
thread. What is left alone is an equality of views: a view is the state with everything else blanked.
-/

namespace Sys2Proof.Safety

open Sys2Proof Sys2Proof.Machine

/-! ## Views of a state -/

/-- The same function on both members of a pair. -/
def pairMap {α : Type} (f : α → α) (x : Pair α) : Pair α := { pri := f x.pri, aux := f x.aux }

@[simp] theorem pairMap_get {α : Type} (f : α → α) (x : Pair α) (c : Ch) : (pairMap f x).get c = f (x.get c) := by
  cases c <;> rfl

/-- An alarm slot but for its claim bit. -/
def claimOfAlarm (x : AlarmSlot) : AlarmSlot := { AlarmSlot.absent with claimed := x.claimed }

/-- A data-mover channel but for its claim bit. -/
def claimOfDma (x : DmaChan) : DmaChan := { DmaChan.absent with claimed := x.claimed }

@[simp] theorem claimOfAlarm_eq_iff (x y : AlarmSlot) : claimOfAlarm x = claimOfAlarm y ↔ x.claimed = y.claimed := by
  simp [claimOfAlarm]

@[simp] theorem claimOfDma_eq_iff (x y : DmaChan) : claimOfDma x = claimOfDma y ↔ x.claimed = y.claimed := by
  simp [claimOfDma]

/-- What only the main thread, a command and a reset may change: everything else is blanked (R25, R42, R256, R262). -/
def mainView (s : State) : State :=
  { s with
    lt := 0
    offs := 0
    hasSynced := false
    alarms := s.alarms.map claimOfAlarm
    dma := s.dma.map claimOfDma
    uart := pairMap (fun u => { u with fifo := [] }) s.uart
    pin := pairMap (fun p => { p with level := false }) s.pin
    ch := pairMap (fun x => { x with dispatchIdx := .zero }) s.ch
    buf := []
    fault := none
    quiet := false
    din := 0
    wire := { pri := [], aux := [] }
    txLog := []
    edgeLog := []
    hist := []
    agenda := [] }

/-- What only the listings of setups and teardowns, the other agents and a reset may change: the registers, the controller's
and the poll's variables, the replies, the history and the position are blanked. -/
def hardwareView (s : State) : State :=
  { s with
    mpc := []
    booted := false
    regs := { connectedDevices := 0, counter := 0, counterFreqHz := 0, auxPortFn := 0, auxBaudRate := 0 }
    auxState := .disabled
    intervalUs := 0
    lastEmitUs := 0
    prevInputs := 0
    prevSynced := false
    fault := none
    rlog := []
    hist := []
    agenda := []
    freeCtr := 0 }

/-- What no setup and no teardown of a channel or the pulse changes, but for the variables of the poll. -/
structure Settings where
  params : Params
  booted : Bool
  regs : Regs
  auxState : AuxState
  intervalUs : BitVec 32

def settingsOf (s : State) : Settings where
  params := s.params
  booted := s.booted
  regs := s.regs
  auxState := s.auxState
  intervalUs := s.intervalUs

/-! ### The views under single updates -/

theorem map_modify_absorb {α β : Type} {g : α → β} {f : α → α} (h : ∀ x, g (f x) = g x) (l : List α) (n : Nat) :
    (l.modify n f).map g = l.map g := by
  apply List.ext_getElem?
  intro i
  simp only [List.getElem?_map, List.getElem?_modify]
  split
  · cases l[i]? <;> simp [h]
  · simp

theorem mainView_modifyAlarm {f : AlarmSlot → AlarmSlot} (h : ∀ x, (f x).claimed = x.claimed) (s : State) (a : Nat) :
    mainView (s.modifyAlarm a f) = mainView s := by
  have claims := map_modify_absorb (g := claimOfAlarm) (f := f) (fun x => by simp [claimOfAlarm, h]) s.alarms a
  simp [mainView, State.modifyAlarm, claims]

theorem mainView_modifyDma {f : DmaChan → DmaChan} (h : ∀ x, (f x).claimed = x.claimed) (s : State) (d : Nat) :
    mainView (s.modifyDma d f) = mainView s := by
  have claims := map_modify_absorb (g := claimOfDma) (f := f) (fun x => by simp [claimOfDma, h]) s.dma d
  simp [mainView, State.modifyDma, claims]

theorem mainView_setLevel (s : State) (v : Bool) : mainView (s.setLevel v) = mainView s := by
  unfold State.setLevel
  split <;> rfl

theorem mainView_setDispatch (s : State) (c : Ch) (sl : Slot) :
    mainView (s.setCh c { s.ch.get c with dispatchIdx := sl }) = mainView s := by
  cases c <;> rfl

theorem mainView_setFifo (s : State) (c : Ch) (bs : List Byte) :
    mainView (s.setUart c { s.uart.get c with fifo := bs }) = mainView s := by
  cases c <;> rfl

theorem alarm_mainView (s : State) (a : Nat) : (mainView s).alarm a = claimOfAlarm (s.alarm a) := by
  simp only [State.alarm, mainView, List.getD_eq_getElem?_getD, List.getElem?_map]
  cases s.alarms[a]? <;> rfl

theorem dmaChan_mainView (s : State) (d : Nat) : (mainView s).dmaChan d = claimOfDma (s.dmaChan d) := by
  simp only [State.dmaChan, mainView, List.getD_eq_getElem?_getD, List.getElem?_map]
  cases s.dma[d]? <;> rfl

/-! ## Logs that grow (R52) -/

/-- From `s` to `t` logs and wires only grow, the history by words it may hold. -/
structure Grows (s t : State) : Prop where
  rlog : s.rlog <+: t.rlog
  txLog : s.txLog <+: t.txLog
  edgeLog : s.edgeLog <+: t.edgeLog
  wirePri : s.wire.pri <+: t.wire.pri
  wireAux : s.wire.aux <+: t.wire.aux
  hist : ∃ new, t.hist = s.hist ++ new ∧ ∀ w ∈ new, loggable w = true

/-- The logs and wires of a state. -/
structure Logs where
  rlog : List ReplyWord
  txLog : List TxRecord
  edgeLog : List EdgeRecord
  wire : Pair (List Byte)
  hist : List OpWord

def logsOf (s : State) : Logs where
  rlog := s.rlog
  txLog := s.txLog
  edgeLog := s.edgeLog
  wire := s.wire
  hist := s.hist

@[simp] theorem logsOf_eq_iff (s t : State) :
    logsOf t = logsOf s ↔
      t.rlog = s.rlog ∧ t.txLog = s.txLog ∧ t.edgeLog = s.edgeLog ∧ t.wire = s.wire ∧ t.hist = s.hist := by
  simp only [logsOf, Logs.mk.injEq]

theorem Grows.unchanged {s t : State} (h : logsOf t = logsOf s) : Grows s t := by
  obtain ⟨rlog, txLog, edgeLog, wire, hist⟩ := (logsOf_eq_iff s t).mp h
  exact ⟨rlog ▸ List.prefix_rfl, txLog ▸ List.prefix_rfl, edgeLog ▸ List.prefix_rfl, wire ▸ List.prefix_rfl,
    wire ▸ List.prefix_rfl, [], by simpa using hist, by simp⟩

theorem Grows.trans {s t u : State} (h : Grows s t) (k : Grows t u) : Grows s u := by
  obtain ⟨new, hnew, hold⟩ := h.hist
  obtain ⟨more, hmore, hold'⟩ := k.hist
  refine ⟨h.rlog.trans k.rlog, h.txLog.trans k.txLog, h.edgeLog.trans k.edgeLog, h.wirePri.trans k.wirePri,
    h.wireAux.trans k.wireAux, new ++ more, by rw [hmore, hnew, List.append_assoc], fun w hw => ?_⟩
  exact (List.mem_append.mp hw).elim (hold w) (hold' w)

/-! ### The words that operations log -/

theorem op_make (k r : BitVec 8) (v : BitVec 32) : CmdWord.op (CmdWord.make k r v) = k := by
  apply BitVec.eq_of_getLsbD_eq
  intro i hi
  simp only [CmdWord.op, CmdWord.make, BitVec.getLsbD_extractLsb', BitVec.getLsbD_append]
  simp [hi, show ¬40 + i < 32 by omega, show ¬40 + i - 32 < 8 by omega, show 40 + i - 32 - 8 = i by omega]

theorem decodeRead_ne_reserved (r op : BitVec 8) (v : BitVec 32) : decodeRead r v ≠ .reserved op := by
  unfold decodeRead
  split <;> simp

theorem decodeWrite_ne_reserved (r op : BitVec 8) (v : BitVec 32) : decodeWrite r v ≠ .reserved op := by
  unfold decodeWrite
  split <;> simp

theorem loggable_cmd {w : CmdWord} (h : ∀ op, decodeCommand w ≠ .reserved op) : loggable (.cmd w) = true := by
  unfold loggable
  dsimp only
  split
  next op hw => exact absurd hw (h op)
  next => rfl

theorem loggable_read (r : BitVec 8) (v : BitVec 32) : loggable (.cmd (CmdWord.make 1 r v)) = true :=
  loggable_cmd fun op => by
    simpa [decodeCommand, op_make] using decodeRead_ne_reserved _ op _

theorem loggable_write (r : BitVec 8) (v : BitVec 32) : loggable (.cmd (CmdWord.make 2 r v)) = true :=
  loggable_cmd fun op => by
    simpa [decodeCommand, op_make] using decodeWrite_ne_reserved _ op _

theorem loggable_poll (r : BitVec 8) (v : BitVec 32) : loggable (.cmd (CmdWord.make 3 r v)) = true :=
  loggable_cmd fun op => by simp [decodeCommand, op_make]

/-- The history may hold the word of every operation of R100. -/
theorem loggable_encode {i : Instr} (h : i.wf = true) : loggable (encode i) = true := by
  cases i with
  | rdConnected x => exact loggable_read 0 x
  | rdCounter x => exact loggable_read 1 x
  | rdFreq x => exact loggable_read 2 x
  | rdAuxfn x => exact loggable_read 3 x
  | rdAuxbaud x => exact loggable_read 4 x
  | wrConnected p => exact loggable_write 0 p
  | wrCounter p => exact loggable_write 1 p
  | wrFreq p => exact loggable_write 2 p
  | wrAuxfn p => exact loggable_write 3 p
  | wrAuxbaud p => exact loggable_write 4 p
  | poll r x => exact loggable_poll r x
  | boot => rfl
  | txStart c => cases c <;> rfl
  | dmaBeat c => cases c <;> rfl
  | uartShift c => cases c <;> rfl
  | chSetup c => cases c <;> rfl
  | chFire c => cases c <;> rfl
  | chTeardown c => cases c <;> rfl
  | auxSwitch fn =>
    have functions : ∀ g : BitVec 2, (Instr.auxSwitch g).wf = true → loggable (encode (.auxSwitch g)) = true := by decide
    exact functions fn h
  | auxRebaud => rfl
  | ppsSetup => rfl
  | ppsFire => rfl
  | ppsTeardown => rfl

theorem Grows.hist_append {s t : State} (w : OpWord) (hw : loggable w = true) (rlog : s.rlog <+: t.rlog)
    (txLog : s.txLog <+: t.txLog) (edgeLog : s.edgeLog <+: t.edgeLog) (wire : t.wire = s.wire)
    (hist : t.hist = s.hist ++ [w]) : Grows s t :=
  ⟨rlog, txLog, edgeLog, wire ▸ List.prefix_rfl, wire ▸ List.prefix_rfl, [w], hist, by simpa using hw⟩

theorem log_grows (s : State) {i : Instr} (h : i.wf = true) : Grows s (s.log i) :=
  .hist_append _ (loggable_encode h) List.prefix_rfl List.prefix_rfl List.prefix_rfl rfl rfl

theorem reply_grows (s : State) (k : ReplyKind) (r : BitVec 8) (v : BitVec 32) : Grows s (s.reply k r v) where
  rlog := List.prefix_append _ _
  txLog := List.prefix_rfl
  edgeLog := List.prefix_rfl
  wirePri := List.prefix_rfl
  wireAux := List.prefix_rfl
  hist := ⟨[], by simp⟩

theorem setLevel_grows (s : State) (v : Bool) : Grows s (s.setLevel v) := by
  unfold State.setLevel
  split
  · exact .unchanged rfl
  · exact ⟨List.prefix_rfl, List.prefix_rfl, List.prefix_append _ _, List.prefix_rfl, List.prefix_rfl, [], by simp⟩

theorem txStart_grows {c : Ch} {sl : Slot} {n : Nat} {s t : State} (h : txStart c sl n s = .ok t) : Grows s t := by
  obtain ⟨-, -, -, -, -, rfl⟩ := txStart_ok h
  exact .hist_append _ (loggable_encode (i := .txStart c) rfl) List.prefix_rfl (List.prefix_append _ _) List.prefix_rfl
    rfl rfl

/-- One byte more on a wire. -/
theorem wire_grows (s : State) (c : Ch) (b : Byte) : Grows s { s with wire := s.wire.set c (s.wire.get c ++ [b]) } := by
  cases c
  · exact ⟨List.prefix_rfl, List.prefix_rfl, List.prefix_rfl, List.prefix_append _ _, List.prefix_rfl, [], by simp⟩
  · exact ⟨List.prefix_rfl, List.prefix_rfl, List.prefix_rfl, List.prefix_rfl, List.prefix_append _ _, [], by simp⟩

/-! ## What the other agents perform (R130 to R132, R155, R186, R256, R270 to R272) -/

/-- From `s` to `t` the main thread's own is left alone and the logs grow. -/
structure Attends (s t : State) : Prop where
  view : mainView t = mainView s
  grows : Grows s t

theorem Attends.trans {s t u : State} (h : Attends s t) (k : Attends t u) : Attends s u :=
  ⟨k.view.trans h.view, h.grows.trans k.grows⟩

theorem Attends.refl (s : State) : Attends s s := ⟨rfl, .unchanged rfl⟩

theorem Attends.log {s t : State} (h : Attends s t) {i : Instr} (hi : i.wf = true) : Attends s (t.log i) :=
  h.trans ⟨rfl, log_grows t hi⟩

theorem modifyAlarm_attends {f : AlarmSlot → AlarmSlot} (h : ∀ x, (f x).claimed = x.claimed) (s : State) (a : Nat) :
    Attends s (s.modifyAlarm a f) :=
  ⟨mainView_modifyAlarm h s a, .unchanged rfl⟩

theorem modifyDma_attends {f : DmaChan → DmaChan} (h : ∀ x, (f x).claimed = x.claimed) (s : State) (d : Nat) :
    Attends s (s.modifyDma d f) :=
  ⟨mainView_modifyDma h s d, .unchanged rfl⟩

theorem arm_attends (s : State) (a : Nat) (d : Int) : Attends s (s.arm a d) :=
  modifyAlarm_attends (by exact fun _ => rfl) s a

theorem acknowledge_attends (s : State) (a : Nat) : Attends s (s.acknowledge a) :=
  modifyAlarm_attends (by exact fun _ => rfl) s a

theorem raise_attends (s : State) (e : FaultCode) : Ensures (Attends s) (s.raise e) := .next ⟨rfl, .unchanged rfl⟩

theorem txStart_attends {c : Ch} {sl : Slot} {n : Nat} {s t : State} (h : txStart c sl n s = .ok t) : Attends s t := by
  refine ⟨?_, txStart_grows h⟩
  obtain ⟨-, -, -, -, -, rfl⟩ := txStart_ok h
  exact mainView_modifyDma (f := fun x => { x with busy := true, srcCh := c, srcSlot := sl, pos := 0, count := n })
    (fun _ => rfl) s _

theorem execTxStart_attends (c : Ch) (s : State) : Ensures (Attends s) (execTxStart c s) := by
  unfold execTxStart
  refine .running ?_
  split
  next h => exact .next (txStart_attends h)
  next => exact raise_attends s _

theorem beat_attends (s : State) (c : Ch) (b : Byte) : Attends s (s.beat c b) := by
  have pushed : Attends s (s.setUart c { s.uart.get c with fifo := (s.uart.get c).fifo ++ [b] }) :=
    ⟨mainView_setFifo s c _, .unchanged rfl⟩
  have advanced (t : State) : Attends t (t.modifyDma (s.ch.get c).dma DmaChan.advance) :=
    modifyDma_attends (f := DmaChan.advance) (fun _ => rfl) t _
  exact (pushed.trans (advanced _)).log (i := .dmaBeat c) rfl

theorem execDmaBeat_attends (c : Ch) (s : State) : Ensures (Attends s) (execDmaBeat c s) := by
  unfold execDmaBeat
  refine .running ?_
  split
  · split
    · exact .next (beat_attends s c _)
    · exact .fault _
  · exact .next (.refl s)

theorem shift_attends (s : State) (c : Ch) (b : Byte) (rest : List Byte) : Attends s (s.shift c b rest) := by
  have popped : Attends s (s.setUart c { s.uart.get c with fifo := rest }) := ⟨mainView_setFifo s c _, .unchanged rfl⟩
  unfold State.shift
  dsimp only
  refine Attends.log ?_ rfl
  split
  · exact popped.trans ⟨rfl, wire_grows _ c b⟩
  · exact popped

theorem execUartShift_attends (c : Ch) (s : State) : Ensures (Attends s) (execUartShift c s) := by
  unfold execUartShift
  refine .running ?_
  split
  · split
    · exact .next (shift_attends s c _ _)
    · exact .next (.refl s)
  · exact .next (.refl s)

theorem reschedule_attends (s : State) (c : Ch) : Attends s (s.reschedule c) := by
  have written (t : State) (sl : Slot) (v : BitVec 32) : Attends t (t.memWrite4 c sl (t.tofs c) v) :=
    ⟨rfl, .unchanged rfl⟩
  have swapped (t : State) (sl : Slot) : Attends t (t.setCh c { t.ch.get c with dispatchIdx := sl }) :=
    ⟨mainView_setDispatch t c sl, .unchanged rfl⟩
  unfold State.reschedule
  exact (((acknowledge_attends s _).trans (written _ _ _)).trans (swapped _ _)).trans (arm_attends _ _ _)

theorem execChFire_attends (c : Ch) (s : State) : Ensures (Attends s) (execChFire c s) := by
  have logged : Attends s (s.log (.chFire c)) := (Attends.refl s).log rfl
  unfold execChFire
  refine .running ?_
  dsimp only
  split
  next u h => exact .next ((logged.trans (txStart_attends h)).trans (reschedule_attends u c))
  next => exact (raise_attends _ _).mono fun _ => logged.trans

theorem execPpsFire_attends (s : State) : Ensures (Attends s) (execPpsFire s) := by
  have toggled (t : State) : Attends t (t.setLevel (!t.pin.aux.level)) := ⟨mainView_setLevel t _, setLevel_grows t _⟩
  refine .running (.next (((Attends.refl s).log (i := .ppsFire) rfl).trans ?_))
  exact ((toggled _).trans (acknowledge_attends _ _)).trans (arm_attends _ _ _)

theorem serveIrq_attends (q : Nat) (s : State) : Ensures (Attends s) (serveIrq q s) := by
  unfold serveIrq
  split
  · split
    · exact raise_attends s _
    · exact execChFire_attends _ s
    · exact execPpsFire_attends s
  · exact .next (.refl s)

theorem tick_attends (s : State) : Attends s s.tick := by
  have claims (x : AlarmSlot) (v : BitVec 32) : claimOfAlarm (x.compare v) = claimOfAlarm x := by
    unfold AlarmSlot.compare
    split <;> rfl
  exact ⟨by simp [mainView, State.tick, claims], .unchanged rfl⟩

/-- The entries of the interrupts, the data movers, the serialisers and the environment but for its reset. -/
def isOther : Action → Bool
  | .main | .command _ | .reset _ => false
  | _ => true

/-- Whatever the entry of another agent performs leaves the main thread's own alone. -/
theorem perform_attends {a : Action} (ha : isOther a = true) (s : State) : Ensures (Attends s) (perform a s) := by
  cases a with
  | main | command | reset => cases ha
  | irq q => exact .running (serveIrq_attends q s)
  | dma c => exact .running (execDmaBeat_attends c s)
  | uart c => exact .running (execUartShift_attends c s)
  | tick => exact .running (.next (tick_attends s))
  | sync offs => exact .running (.next ⟨rfl, .unchanged rfl⟩)
  | din v => exact .running (.next ⟨rfl, .unchanged rfl⟩)
  | quiet b => exact .running (.next ⟨rfl, .unchanged rfl⟩)

/-! ## Handlers and the registers (R25, R30, R83, R312) -/

/-- The state with other register values. -/
def withRegs (r : Regs) (s : State) : State := { s with regs := r }

/-- The outcome with a next state mapped. -/
def mapNext (f : State → State) : Result → Result
  | .next t => .next (f t)
  | .fault e => .fault e
  | .refused e => .refused e

theorem running_withRegs {r : Regs} {s : State} {x y : Result} (h : y = mapNext (withRegs r) x) :
    (withRegs r s).running y = mapNext (withRegs r) (s.running x) := by
  subst h
  unfold State.running withRegs
  cases s.fault <;> rfl

theorem txStart_withRegs (c : Ch) (sl : Slot) (n : Nat) (r : Regs) (s : State) :
    txStart c sl n (withRegs r s) = (txStart c sl n s).map (withRegs r) := by
  have hch : (withRegs r s).ch = s.ch := rfl
  have hdma : (withRegs r s).dmaOf c = s.dmaOf c := rfl
  have hlen : (withRegs r s).len c = s.len c := rfl
  simp only [txStart, hch, hdma, hlen]
  split_ifs <;> rfl

theorem execChFire_withRegs (c : Ch) (r : Regs) (s : State) :
    execChFire c (withRegs r s) = mapNext (withRegs r) (execChFire c s) := by
  unfold execChFire
  refine running_withRegs ?_
  have logged : (withRegs r s).log (.chFire c) = withRegs r (s.log (.chFire c)) := rfl
  have hch (t : State) : (withRegs r t).ch = t.ch := rfl
  have hlen (t : State) : (withRegs r t).len c = t.len c := rfl
  simp only [logged, hlen, hch, txStart_withRegs, State.log_ch]
  cases txStart c (s.ch.get c).dispatchIdx ((s.log (.chFire c)).len c) (s.log (.chFire c)) <;> rfl

theorem setLevel_withRegs (v : Bool) (r : Regs) (s : State) :
    (withRegs r s).setLevel v = withRegs r (s.setLevel v) := by
  unfold State.setLevel withRegs
  dsimp only
  split <;> rfl

theorem execPpsFire_withRegs (r : Regs) (s : State) :
    execPpsFire (withRegs r s) = mapNext (withRegs r) (execPpsFire s) := by
  refine running_withRegs (congrArg Host.Outcome.next ?_)
  have toggled := setLevel_withRegs (!s.pin.aux.level) r (s.log .ppsFire)
  exact congrArg (fun t => (t.acknowledge s.pps.alarm).arm s.pps.alarm (ppsNext s.now)) toggled

theorem serveIrq_withRegs (q : Nat) (r : Regs) (s : State) :
    serveIrq q (withRegs r s) = mapNext (withRegs r) (serveIrq q s) := by
  have hpending : (withRegs r s).pending q = s.pending q := rfl
  have hline : (withRegs r s).line q = s.line q := rfl
  simp only [serveIrq, hpending, hline]
  split
  · split
    · rfl
    · exact execChFire_withRegs _ r s
    · exact execPpsFire_withRegs r s
  · rfl

end Sys2Proof.Safety

open Sys2Proof Sys2Proof.Machine Sys2Proof.Safety

/-- Settles O24: everything the statement lists can be read off the view that the other agents leave alone. -/
theorem contextDiscipline : Obligations.ContextDiscipline := by
  intro a s t hmain hcommand hreset h
  have other : isOther a = true := by
    cases a with
    | main => exact absurd rfl hmain
    | command w => exact absurd rfl (hcommand w)
    | reset d => exact absurd rfl (hreset d)
    | irq | dma | uart | tick | sync | din | quiet => rfl
  have view : mainView t = mainView s := ((perform_attends other s).of_next h).view
  have alarm (n : Nat) : (t.alarm n).claimed = (s.alarm n).claimed := by
    rw [← claimOfAlarm_eq_iff, ← alarm_mainView, view, alarm_mainView]
  have dma (n : Nat) : (t.dmaChan n).claimed = (s.dmaChan n).claimed := by
    rw [← claimOfDma_eq_iff, ← dmaChan_mainView, view, dmaChan_mainView]
  have channel (c : Ch) : (mainView t).ch.get c = (mainView s).ch.get c := by rw [view]
  have uart (c : Ch) : (mainView t).uart.get c = (mainView s).uart.get c := by rw [view]
  have pin (c : Ch) : (mainView t).pin.get c = (mainView s).pin.get c := by rw [view]
  simp only [mainView, pairMap_get, Channel.mk.injEq, Uart.mk.injEq, Pin.mk.injEq] at channel uart pin
  simp only [mainView, State.mk.injEq] at view
  refine ⟨by simp [view], by simp [view], by simp [view], by simp [view], by simp [view], by simp [view], by simp [view],
    by simp [view], by simp [view], by simp [view], by simp [view], by simp [view], by simp [view], by simp [view],
    alarm, dma, fun c => ?_⟩
  simp [channel c, uart c, pin c]

/-- Settles O25: every case of interrupt service commutes with an exchange of the registers. -/
theorem handlersReadNoRegister : Obligations.HandlersReadNoRegister := by
  intro s r q
  have same : perform (.irq q) { s with regs := r } = mapNext (withRegs r) (perform (.irq q) s) :=
    running_withRegs (serveIrq_withRegs q r s)
  rw [same]
  cases perform (.irq q) s <;> rfl

end

section
/-!
PROOF. The operations of the main thread: what a listing of a setup or a teardown leaves alone (`Builds`), what every other
operation leaves alone and where it can leave the main thread (`Handles`).
-/

namespace Sys2Proof.Safety

open Sys2Proof Sys2Proof.Machine

/-! ## Setups and teardowns (R154, R156, R185, R187) -/

/-- From `s` to `t` the registers and the controller's state are left alone and the logs grow. -/
structure Builds (s t : State) : Prop where
  settings : settingsOf t = settingsOf s
  grows : Grows s t

@[simp] theorem settingsOf_eq_iff (s t : State) :
    settingsOf t = settingsOf s ↔
      t.params = s.params ∧ t.booted = s.booted ∧ t.regs = s.regs ∧ t.auxState = s.auxState ∧
        t.intervalUs = s.intervalUs := by
  simp only [settingsOf, Settings.mk.injEq]

theorem Builds.trans {s t u : State} (h : Builds s t) (k : Builds t u) : Builds s u :=
  ⟨k.settings.trans h.settings, h.grows.trans k.grows⟩

theorem Builds.at {s t : State} (h : Builds s t) (fs : List Frame) : Builds s (t.at fs) :=
  h.trans ⟨rfl, .unchanged rfl⟩

/-- A next state with the settings and the logs of the old one. -/
theorem Ensures.builds {s t : State} (h : settingsOf t = settingsOf s) (k : logsOf t = logsOf s) :
    Ensures (Builds s) (.next t) :=
  .next ⟨h, .unchanged k⟩

theorem log_builds (s : State) {i : Instr} (h : i.wf = true) : Builds s (s.log i) := ⟨rfl, log_grows s h⟩

theorem claimDma_builds {s t : State} {d : Nat} (h : s.claimDma = some (d, t)) : Builds s t := by
  obtain ⟨-, -, rfl⟩ := State.claimDma_some h
  rw [State.draw_snd]
  exact ⟨rfl, .unchanged rfl⟩

theorem claimAlarm_builds {s t : State} {a : Nat} (h : s.claimAlarm = some (a, t)) : Builds s t := by
  obtain ⟨-, -, rfl⟩ := State.claimAlarm_some h
  rw [State.draw_snd]
  exact ⟨rfl, .unchanged rfl⟩

theorem setupUart_builds (s : State) (c : Ch) : Builds s (s.setupUart c) := by
  unfold State.setupUart
  split <;> exact ⟨rfl, .unchanged rfl⟩

theorem releaseUart_builds (s : State) (c : Ch) : Builds s (s.releaseUart c) := by
  unfold State.releaseUart
  split <;> exact ⟨rfl, .unchanged rfl⟩

theorem setLevel_builds (s : State) (v : Bool) : Builds s (s.setLevel v) := by
  refine ⟨?_, setLevel_grows s v⟩
  unfold State.setLevel
  split <;> rfl

theorem raise_builds (s : State) (e : FaultCode) : Ensures (Builds s) (s.raise e) := .builds rfl rfl

theorem setupAt_builds (c : Ch) (fs : List Frame) (l : SetupAt) (s : State) :
    Ensures (Builds s) (setupAt c fs l s) := by
  cases l with
  | s0 => exact .next ((log_builds s rfl).at _)
  | s1a =>
    unfold setupAt
    dsimp only
    split
    next => exact .builds rfl rfl
    next =>
      split
      next => exact raise_builds s _
      next h => exact .next ((claimDma_builds h).trans ⟨rfl, .unchanged rfl⟩)
  | s1b =>
    unfold setupAt
    dsimp only
    split
    next => exact .builds rfl rfl
    next =>
      split
      next => exact raise_builds s _
      next h => exact .next ((claimAlarm_builds h).trans ⟨rfl, .unchanged rfl⟩)
  | s1c => exact .builds rfl rfl
  | s2a => exact .next ((setupUart_builds s c).at _)
  | s2b => exact .builds rfl rfl
  | s3a => exact .builds rfl rfl
  | s3b => exact .builds rfl rfl
  | s3c => exact .builds rfl rfl
  | s4a => exact .builds (by simp) (by simp)
  | s4b => exact .builds (by simp) (by simp)
  | s5a => exact .builds rfl rfl
  | s5b d => exact .builds rfl rfl

theorem teardownAt_builds (c : Ch) (fs : List Frame) (l : TeardownAt) (s : State) :
    Ensures (Builds s) (teardownAt c fs l s) := by
  cases l with
  | t0 =>
    unfold teardownAt
    dsimp only
    split <;> exact .next ((log_builds s rfl).at _)
  | t1 => exact .builds rfl rfl
  | t2 => exact .builds rfl rfl
  | t3 => exact .builds (by simp) (by simp)
  | t4 => exact .builds rfl rfl
  | t5 => exact .builds (by simp) (by simp)
  | t6 => exact .builds rfl rfl
  | t7 => exact .next ((releaseUart_builds s c).at _)
  | t8 => exact .builds rfl rfl

theorem ppsSetupAt_builds (fs : List Frame) (l : PpsSetupAt) (s : State) :
    Ensures (Builds s) (ppsSetupAt fs l s) := by
  cases l with
  | p0 => exact .next ((log_builds s rfl).at _)
  | p1a =>
    unfold ppsSetupAt
    dsimp only
    split
    next => exact .builds rfl rfl
    next =>
      split
      next => exact raise_builds s _
      next h => exact .next ((claimAlarm_builds h).trans ⟨rfl, .unchanged rfl⟩)
  | p1b => exact .builds rfl rfl
  | p2 => exact .builds rfl rfl
  | p3a => exact .builds (by simp) (by simp)
  | p3b => exact .builds (by simp) (by simp)
  | p4a => exact .next ((setLevel_builds s _).at _)
  | p4b d => exact .builds rfl rfl

theorem ppsTeardownAt_builds (fs : List Frame) (l : PpsTeardownAt) (s : State) :
    Ensures (Builds s) (ppsTeardownAt fs l s) := by
  cases l with
  | r0 =>
    unfold ppsTeardownAt
    dsimp only
    split <;> exact .next ((log_builds s rfl).at _)
  | r1 => exact .builds rfl rfl
  | r2 => exact .builds rfl rfl
  | r3 => exact .builds (by simp) (by simp)
  | r4 => exact .builds rfl rfl
  | r5 => exact .builds (by simp) (by simp)
  | r6 => exact .builds rfl rfl
  | r7 => exact .builds rfl rfl

/-! ### Each listing from its own frame -/

theorem Ensures.of_eq {P : State → Prop} {s : State} {q r : Result} (he : q = s.running r) (h : Ensures P r) :
    Ensures P q :=
  he ▸ .running h

/-- The operation in progress is the one performed: its next label. -/
theorem execChSetup_at {c : Ch} {l : SetupAt} {fs : List Frame} {s : State} (h : s.mpc = .chSetup c l :: fs) :
    execChSetup c s = s.running (setupAt c fs l s) := by
  simp [execChSetup, h]

theorem execChTeardown_at {c : Ch} {l : TeardownAt} {fs : List Frame} {s : State}
    (h : s.mpc = .chTeardown c l :: fs) : execChTeardown c s = s.running (teardownAt c fs l s) := by
  simp [execChTeardown, h]

theorem execPpsSetup_at {l : PpsSetupAt} {fs : List Frame} {s : State} (h : s.mpc = .ppsSetup l :: fs) :
    execPpsSetup s = s.running (ppsSetupAt fs l s) := by
  simp [execPpsSetup, h]

theorem execPpsTeardown_at {l : PpsTeardownAt} {fs : List Frame} {s : State} (h : s.mpc = .ppsTeardown l :: fs) :
    execPpsTeardown s = s.running (ppsTeardownAt fs l s) := by
  simp [execPpsTeardown, h]

/-- At some label of the listing, or at its first one. -/
theorem execChSetup_label (c : Ch) (s : State) : ∃ fs l, execChSetup c s = s.running (setupAt c fs l s) := by
  unfold execChSetup
  split
  · split
    · exact ⟨_, _, rfl⟩
    · exact ⟨_, _, rfl⟩
  · exact ⟨_, _, rfl⟩

theorem execChTeardown_label (c : Ch) (s : State) :
    ∃ fs l, execChTeardown c s = s.running (teardownAt c fs l s) := by
  unfold execChTeardown
  split
  · split
    · exact ⟨_, _, rfl⟩
    · exact ⟨_, _, rfl⟩
  · exact ⟨_, _, rfl⟩

theorem execPpsSetup_label (s : State) : ∃ fs l, execPpsSetup s = s.running (ppsSetupAt fs l s) := by
  unfold execPpsSetup
  split <;> exact ⟨_, _, rfl⟩

theorem execPpsTeardown_label (s : State) : ∃ fs l, execPpsTeardown s = s.running (ppsTeardownAt fs l s) := by
  unfold execPpsTeardown
  split <;> exact ⟨_, _, rfl⟩

/-- The operations that set up or tear down a channel or the pulse. -/
def isListing : Instr → Bool
  | .chSetup _ | .chTeardown _ | .ppsSetup | .ppsTeardown => true
  | _ => false

/-- The operations that an agent other than the main thread performs, and the transmitter's start. -/
def isAttendance : Instr → Bool
  | .txStart _ | .dmaBeat _ | .uartShift _ | .chFire _ | .ppsFire => true
  | _ => false

theorem exec_builds {i : Instr} (h : isListing i = true) (s : State) : Ensures (Builds s) (exec i s) := by
  cases i with
  | chSetup c =>
    obtain ⟨fs, l, hexec⟩ := execChSetup_label c s
    exact .of_eq hexec (setupAt_builds c fs l s)
  | chTeardown c =>
    obtain ⟨fs, l, hexec⟩ := execChTeardown_label c s
    exact .of_eq hexec (teardownAt_builds c fs l s)
  | ppsSetup =>
    obtain ⟨fs, l, hexec⟩ := execPpsSetup_label s
    exact .of_eq hexec (ppsSetupAt_builds fs l s)
  | ppsTeardown =>
    obtain ⟨fs, l, hexec⟩ := execPpsTeardown_label s
    exact .of_eq hexec (ppsTeardownAt_builds fs l s)
  | _ => cases h

theorem exec_attends {i : Instr} (h : isAttendance i = true) (s : State) : Ensures (Attends s) (exec i s) := by
  cases i with
  | txStart c => exact execTxStart_attends c s
  | dmaBeat c => exact execDmaBeat_attends c s
  | uartShift c => exact execUartShift_attends c s
  | chFire c => exact execChFire_attends c s
  | ppsFire => exact execPpsFire_attends s
  | _ => cases h

/-! ## The other operations of the main thread -/

/-- Only callers are in progress: no setup or teardown. -/
def callersOnly (fs : List Frame) : Bool := fs.all fun f => !Frame.isLeaf f

/-- A setup or teardown that has performed its first micro-op just now. -/
def justStarted (s : State) : Frame → Bool
  | .chSetup _ l => l == .s1a
  | .chTeardown c l => l == .t1 && (s.ch.get c).active
  | .ppsSetup l => l == .p1a
  | .ppsTeardown l => l == .r1 && s.pps.active
  | _ => true

/-- Only callers are in progress, but for a setup or teardown on top that has just started. -/
def started (s : State) : List Frame → Bool
  | [] => true
  | f :: fs => justStarted s f && callersOnly fs

theorem started_of_callersOnly {s : State} {fs : List Frame} (h : callersOnly fs = true) : started s fs = true := by
  cases fs with
  | nil => rfl
  | cons f fs =>
    obtain ⟨hf, hfs⟩ : Frame.isLeaf f = false ∧ callersOnly fs = true := by simpa [callersOnly] using h
    cases f <;> simp_all [started, justStarted, Frame.isLeaf]

/-- The frames of the primary channel's setup and of `BOOT`, which calls it. -/
def concernsPrimary : Frame → Bool
  | .boot | .chSetup .pri _ => true
  | _ => false

/-- No setup of the primary channel is in progress or to come. -/
def sparesPrimary (fs : List Frame) : Bool := fs.all fun f => !concernsPrimary f

/-- What operation `i` may write of the registers and the controller's state (R25 to R30, R49). -/
structure Writes (i : Instr) (s t : State) : Prop where
  connectedDevices : t.regs.connectedDevices ≠ s.regs.connectedDevices → ∃ r x, i = .poll r x
  counter : t.regs.counter ≠ s.regs.counter → (∃ p, i = .wrCounter p) ∨ ∃ r x, i = .poll r x
  counterFreqHz : t.regs.counterFreqHz ≠ s.regs.counterFreqHz → ∃ p, i = .wrFreq p
  auxPortFn : t.regs.auxPortFn ≠ s.regs.auxPortFn → ∃ p, i = .wrAuxfn p
  auxBaudRate : t.regs.auxBaudRate ≠ s.regs.auxBaudRate → ∃ p, i = .wrAuxbaud p
  auxState : t.auxState ≠ s.auxState → ∃ fn, i = .auxSwitch fn

theorem Writes.of_regs {i : Instr} {s t : State} (regs : t.regs = s.regs) (auxState : t.auxState = s.auxState) :
    Writes i s t :=
  ⟨by simp [regs], by simp [regs], by simp [regs], by simp [regs], by simp [regs], by simp [auxState]⟩

theorem Writes.of_settings {i : Instr} {s t : State} (h : settingsOf t = settingsOf s) : Writes i s t :=
  have ⟨_, _, regs, auxState, _⟩ := (settingsOf_eq_iff s t).mp h
  .of_regs regs auxState

/-- What operation `i`, which builds and tears down nothing, does from `s` to `t`. -/
structure Touches (i : Instr) (s t : State) : Prop where
  hardware : hardwareView t = hardwareView s
  booted : s.booted = true → t.booted = true
  grows : Grows s t
  writes : Writes i s t

/-- An old value or one of two steps changed it. -/
theorem ne_split {α : Type} {a b c : α} (h : c ≠ a) : c ≠ b ∨ b ≠ a :=
  (Classical.em (c = b)).symm.imp id fun hcb hba => h (hcb.trans hba)

theorem Writes.trans {i : Instr} {s t u : State} (h : Writes i s t) (k : Writes i t u) : Writes i s u where
  connectedDevices hne := (ne_split hne).elim k.connectedDevices h.connectedDevices
  counter hne := (ne_split hne).elim k.counter h.counter
  counterFreqHz hne := (ne_split hne).elim k.counterFreqHz h.counterFreqHz
  auxPortFn hne := (ne_split hne).elim k.auxPortFn h.auxPortFn
  auxBaudRate hne := (ne_split hne).elim k.auxBaudRate h.auxBaudRate
  auxState hne := (ne_split hne).elim k.auxState h.auxState

theorem Touches.trans {i : Instr} {s t u : State} (h : Touches i s t) (k : Touches i t u) : Touches i s u :=
  ⟨k.hardware.trans h.hardware, fun hb => k.booted (h.booted hb), h.grows.trans k.grows, h.writes.trans k.writes⟩

theorem Touches.refl (i : Instr) (s : State) : Touches i s s := ⟨rfl, id, .unchanged rfl, .of_settings rfl⟩

/-- An update of the position or of the variables of the poll. -/
theorem Touches.quiet {i : Instr} {s t : State} (hardware : hardwareView t = hardwareView s)
    (settings : settingsOf t = settingsOf s) (logs : logsOf t = logsOf s) : Touches i s t :=
  ⟨hardware, fun hb => ((settingsOf_eq_iff s t).mp settings).2.1.trans hb, .unchanged logs, .of_settings settings⟩

section
variable {i : Instr} {s t : State} (h : Touches i s t)
include h

theorem Touches.at (fs : List Frame) : Touches i s (t.at fs) := h.trans (.quiet rfl rfl rfl)

theorem Touches.log {j : Instr} (hj : j.wf = true) : Touches i s (t.log j) :=
  h.trans ⟨rfl, id, log_grows t hj, .of_settings rfl⟩

theorem Touches.replyReg (k : ReplyKind) (r : BitVec 8) : Touches i s (t.replyReg k r) :=
  h.trans ⟨rfl, id, reply_grows t k r _, .of_settings rfl⟩

theorem Touches.ack (r : BitVec 8) : Touches i s (t.ack r) := by
  unfold State.ack
  split
  · exact h
  · exact h.replyReg _ _

end

theorem Touches.setCounter {p : BitVec 32} {s t : State} (h : Touches (.wrCounter p) s t) (v : BitVec 32) :
    Touches (.wrCounter p) s (t.setCounter v) :=
  h.trans ⟨rfl, id, .unchanged rfl, by simp, by simp, by simp, by simp, by simp, by simp⟩

theorem Touches.setFreq {p : BitVec 32} {s t : State} (h : Touches (.wrFreq p) s t) (v : BitVec 16) :
    Touches (.wrFreq p) s (t.setFreq v) :=
  h.trans ⟨rfl, id, .unchanged rfl, by simp, by simp, by simp, by simp, by simp, by simp⟩

theorem Touches.restartInterval {i : Instr} {s t : State} (h : Touches i s t) (v : BitVec 16) :
    Touches i s (t.restartInterval v) :=
  h.trans ⟨rfl, id, .unchanged rfl, by simp, by simp, by simp, by simp, by simp, by simp⟩

theorem Touches.setAuxfn {p : BitVec 32} {s t : State} (h : Touches (.wrAuxfn p) s t) (v : BitVec 8) :
    Touches (.wrAuxfn p) s (t.setAuxfn v) :=
  h.trans ⟨rfl, id, .unchanged rfl, by simp, by simp, by simp, by simp, by simp, by simp⟩

theorem Touches.setAuxbaud {p : BitVec 32} {s t : State} (h : Touches (.wrAuxbaud p) s t) (v : BitVec 32) :
    Touches (.wrAuxbaud p) s (t.setAuxbaud v) :=
  h.trans ⟨rfl, id, .unchanged rfl, by simp, by simp, by simp, by simp, by simp, by simp⟩

theorem setAuxState_touches (fn : BitVec 2) (s : State) (x : AuxState) :
    Touches (.auxSwitch fn) s { s with auxState := x } :=
  ⟨rfl, id, .unchanged rfl, by simp, by simp, by simp, by simp, by simp, by simp⟩

theorem syncEdge_touches (i : Instr) (s : State) : Touches i s s.syncEdge := .quiet rfl rfl rfl

theorem inputs_touches (r : BitVec 8) (x : BitVec 32) (s : State) : Touches (.poll r x) s s.inputs := by
  have stored : Touches (.poll r x) s { s with regs := { s.regs with connectedDevices := s.remapped } } :=
    ⟨rfl, id, .unchanged rfl, by simp, by simp, by simp, by simp, by simp, by simp⟩
  have seen : Touches (.poll r x) s
      { s with regs := { s.regs with connectedDevices := s.remapped }, prevInputs := s.remapped } :=
    stored.trans (.quiet rfl rfl rfl)
  unfold State.inputs State.event
  dsimp only
  split
  · exact stored
  · exact seen.replyReg .event 0

theorem counterTick_touches (r : BitVec 8) (x : BitVec 32) (s : State) : Touches (.poll r x) s s.counterTick := by
  have counted : Touches (.poll r x) s
      { s with regs := { s.regs with counter := s.regs.counter + 1 }, lastEmitUs := s.lastEmitUs + s.intervalUs } :=
    ⟨rfl, id, .unchanged rfl, by simp, by simp, by simp, by simp, by simp, by simp⟩
  unfold State.counterTick State.event
  split
  · exact counted.replyReg .event 1
  · exact .refl _ s

/-- What operation `i`, which builds and tears down nothing, does with `fs` below it: it returns to `fs`, or leaves a caller
or a setup or teardown that has just started on top. -/
structure Handles (i : Instr) (fs : List Frame) (s t : State) : Prop where
  touches : Touches i s t
  position : callersOnly fs = true → started t t.mpc = true
  spares : i ≠ .boot → i ≠ .chSetup .pri → sparesPrimary fs = true → sparesPrimary t.mpc = true

/-- The operation returns to the frames below it. -/
theorem Touches.returned {i : Instr} {s t : State} (h : Touches i s t) (fs : List Frame) : Handles i fs s (t.at fs) :=
  ⟨h.at fs, started_of_callersOnly, fun _ _ => id⟩

/-- The operation goes on, callers on top. -/
theorem Touches.goesOn {i : Instr} {s t : State} (h : Touches i s t) {fs gs : List Frame}
    (hgs : callersOnly fs = true → started (t.at gs) gs = true)
    (hspares : i ≠ .boot → i ≠ .chSetup .pri → sparesPrimary fs = true → sparesPrimary gs = true := by
      exact fun _ _ => id) : Handles i fs s (t.at gs) :=
  ⟨h.at gs, hgs, hspares⟩

/-! ### First micro-ops of setups and teardowns: where a call goes (R7) -/

/-- Only `BOOT` calls the primary channel's setup. -/
theorem setupStart_handles (i : Instr) (c : Ch) (hc : c = .pri → i = .boot ∨ i = .chSetup .pri) (fs : List Frame)
    (s : State) : Ensures (Handles i fs s) (setupAt c fs .s0 s) := by
  refine .next (((Touches.refl i s).log (j := .chSetup c) rfl).goesOn id fun hboot hsetup hfs => ?_)
  cases c with
  | pri => exact ((hc rfl).elim hboot hsetup).elim
  | aux => exact hfs

theorem ppsSetupStart_handles (i : Instr) (fs : List Frame) (s : State) :
    Ensures (Handles i fs s) (ppsSetupAt fs .p0 s) :=
  .next (((Touches.refl i s).log (j := .ppsSetup) rfl).goesOn id)

theorem teardownStart_handles (i : Instr) (c : Ch) (fs : List Frame) (s : State) :
    Ensures (Handles i fs s) (teardownAt c fs .t0 s) := by
  have logged : Touches i s (s.log (.chTeardown c)) := (Touches.refl i s).log rfl
  unfold teardownAt
  dsimp only
  split
  next hactive => exact .next (logged.goesOn fun hfs => by simp [started, justStarted, hactive, hfs])
  next => exact .next (logged.returned fs)

theorem ppsTeardownStart_handles (i : Instr) (fs : List Frame) (s : State) :
    Ensures (Handles i fs s) (ppsTeardownAt fs .r0 s) := by
  have logged : Touches i s (s.log .ppsTeardown) := (Touches.refl i s).log rfl
  unfold ppsTeardownAt
  dsimp only
  split
  next hactive => exact .next (logged.goesOn fun hfs => by simp [started, justStarted, hactive, hfs])
  next => exact .next (logged.returned fs)

/-! ### Families A, R and P -/

/-- The frames below a call keep to callers. -/
theorem Handles.called {i : Instr} {f : Frame} {fs : List Frame} {s t : State} (hf : Frame.isLeaf f = false)
    (hprimary : concernsPrimary f = false) (h : Handles i (f :: fs) s t) : Handles i fs s t :=
  ⟨h.touches, fun hfs => h.position (by simpa [callersOnly, hf] using hfs),
    fun hboot hsetup hfs => h.spares hboot hsetup (by simpa [sparesPrimary, hprimary] using hfs)⟩

theorem switchAt_handles (fn : BitVec 2) (hfn : (Instr.auxSwitch fn).wf = true) (target : AuxState) (fs : List Frame)
    (l : SwitchAt) (s : State) : Ensures (Handles (.auxSwitch fn) fs s) (switchAt fn target fs l s) := by
  have here := Touches.refl (.auxSwitch fn) s
  cases l with
  | a0 => exact .next ((here.log hfn).goesOn id)
  | a1 =>
    unfold switchAt
    dsimp only
    split
    · exact (teardownStart_handles _ .aux _ s).mono fun _ => .called rfl rfl
    · exact (ppsTeardownStart_handles _ _ s).mono fun _ => .called rfl rfl
    · exact .next (here.goesOn id)
  | a2 => exact .next ((setAuxState_touches fn s .disabled).goesOn id)
  | a3 =>
    cases target with
    | auxClockBroadcast => exact (setupStart_handles _ .aux nofun _ s).mono fun _ => .called rfl rfl
    | pulsePerSecond => exact (ppsSetupStart_handles _ _ s).mono fun _ => .called rfl rfl
    | disabled => exact .next (here.goesOn id)
  | a4 => exact .next ((setAuxState_touches fn s target).returned fs)

theorem wf_of_stateOf {fn : BitVec 2} {x : AuxState} (h : stateOf fn = some x) : (Instr.auxSwitch fn).wf = true := by
  have functions : ∀ g : BitVec 2, (stateOf g).isSome = true → (Instr.auxSwitch g).wf = true := by decide
  exact functions fn (by simp [h])

theorem switchOrRefuse_handles (fn : BitVec 2) (fs : List Frame) (l : SwitchAt) (s : State) :
    Ensures (Handles (.auxSwitch fn) fs s) (switchOrRefuse fn fs l s) := by
  unfold switchOrRefuse
  split
  next target h => exact switchAt_handles fn (wf_of_stateOf h) target fs l s
  next => exact .refused _

/-- `AUX.SWITCH` called: its first micro-op writes nothing. -/
theorem switchStart_handles (i : Instr) (fn : BitVec 2) (fs : List Frame) (s : State) :
    Ensures (Handles i fs s) (switchOrRefuse fn fs .a0 s) := by
  unfold switchOrRefuse
  split
  next target h => exact .next (((Touches.refl i s).log (wf_of_stateOf h)).goesOn id)
  next => exact .refused _

theorem rebaudAt_handles (i : Instr) (fs : List Frame) (l : RebaudAt) (s : State) :
    Ensures (Handles i fs s) (rebaudAt fs l s) := by
  cases l with
  | b0 =>
    have logged : Touches i s (s.log .auxRebaud) := (Touches.refl i s).log rfl
    unfold rebaudAt
    dsimp only
    split
    · exact .next (logged.goesOn id)
    · exact .next (logged.returned fs)
  | b1 => exact (teardownStart_handles i .aux _ s).mono fun _ => .called rfl rfl
  | b2 => exact setupStart_handles i .aux nofun fs s

/-- The operation in progress is the one performed; what is below it are callers when all are. -/
theorem Handles.of_frame {i : Instr} {f : Frame} {fs : List Frame} {s t : State} (hmpc : s.mpc = f :: fs)
    (h : Handles i fs s t) : Handles i s.mpc s t := by
  refine ⟨h.touches, fun hcallers => h.position ?_, fun hboot hsetup hspares => h.spares hboot hsetup ?_⟩
  · rw [hmpc] at hcallers
    exact (Bool.and_eq_true _ _ ▸ hcallers : _ ∧ _).2
  · rw [hmpc] at hspares
    exact (Bool.and_eq_true _ _ ▸ hspares : _ ∧ _).2

theorem execAuxSwitch_handles (fn : BitVec 2) (s : State) :
    Ensures (Handles (.auxSwitch fn) s.mpc s) (execAuxSwitch fn s) := by
  unfold execAuxSwitch
  refine .running ?_
  split
  next hmpc =>
    split
    · exact (switchOrRefuse_handles ..).mono fun _ => .of_frame hmpc
    · exact switchOrRefuse_handles ..
  next => exact switchOrRefuse_handles ..

theorem execAuxRebaud_handles (s : State) : Ensures (Handles .auxRebaud s.mpc s) (execAuxRebaud s) := by
  unfold execAuxRebaud
  refine .running ?_
  split
  next hmpc => exact (rebaudAt_handles ..).mono fun _ => .of_frame hmpc
  next => exact rebaudAt_handles ..

/-- An operation that answers in one step leaves the main thread where it is. -/
theorem Touches.answered {i : Instr} {s t : State} (h : Touches i s t) (hmpc : t.mpc = s.mpc) :
    Handles i s.mpc s t :=
  ⟨h, fun hcallers => hmpc ▸ started_of_callersOnly hcallers, fun _ _ hspares => hmpc ▸ hspares⟩

theorem readRegister_handles {i : Instr} (hi : i.wf = true) (r : BitVec 8) (s : State) :
    Ensures (Handles i s.mpc s) (readRegister i r s) :=
  .running (.next ((((Touches.refl i s).log hi).replyReg .readReply r).answered rfl))

theorem execWrConnected_handles (p : BitVec 32) (s : State) :
    Ensures (Handles (.wrConnected p) s.mpc s) (execWrConnected p s) :=
  .running (.next ((((Touches.refl _ s).log rfl).replyReg .writeError 0).answered rfl))

theorem execWrCounter_handles (p : BitVec 32) (s : State) :
    Ensures (Handles (.wrCounter p) s.mpc s) (execWrCounter p s) := by
  have here := Touches.refl (.wrCounter p) s
  have first := ((here.log (j := .wrCounter p) rfl).setCounter p).goesOn (fs := s.mpc) (gs := .wrCounter p :: s.mpc) id
  unfold execWrCounter
  refine .running ?_
  split
  next hmpc =>
    split
    · exact .next (((here.ack 1).returned _).of_frame hmpc)
    · exact .next first
  next => exact .next first

theorem freqStart_handles (p : BitVec 32) (s : State) :
    Ensures (Handles (.wrFreq p) s.mpc s) (freqStart p s) := by
  have logged := (Touches.refl (.wrFreq p) s).log (j := .wrFreq p) rfl
  unfold freqStart
  dsimp only
  split
  · exact .next ((logged.replyReg .writeError 2).answered rfl)
  · exact .next (logged.goesOn id)

theorem freqAt_handles (p : BitVec 32) (fs : List Frame) (l : FreqAt) (s : State) :
    Ensures (Handles (.wrFreq p) fs s) (freqAt p fs l s) := by
  have here := Touches.refl (.wrFreq p) s
  cases l with
  | w2 => exact .next ((here.setFreq _).goesOn id)
  | w3 =>
    unfold freqAt
    dsimp only
    split
    · exact .next ((((here.setFreq _).restartInterval _).replyReg .writeError 2).returned fs)
    · exact .next (here.goesOn id)
  | w4 => exact .next ((here.restartInterval _).goesOn id)
  | w5 => exact .next ((here.ack 2).returned fs)

theorem execWrFreq_handles (p : BitVec 32) (s : State) :
    Ensures (Handles (.wrFreq p) s.mpc s) (execWrFreq p s) := by
  unfold execWrFreq
  refine .running ?_
  split
  next hmpc =>
    split
    · exact (freqAt_handles ..).mono fun _ => .of_frame hmpc
    · exact freqStart_handles p s
  next => exact freqStart_handles p s

theorem auxfnStart_handles (p : BitVec 32) (s : State) :
    Ensures (Handles (.wrAuxfn p) s.mpc s) (auxfnStart p s) := by
  have logged := (Touches.refl (.wrAuxfn p) s).log (j := .wrAuxfn p) rfl
  unfold auxfnStart
  dsimp only
  split
  · exact .next ((logged.replyReg .writeError 3).answered rfl)
  · exact .next (logged.goesOn id)

theorem auxfnAt_handles (p : BitVec 32) (fs : List Frame) (l : AuxfnAt) (s : State) :
    Ensures (Handles (.wrAuxfn p) fs s) (auxfnAt p fs l s) := by
  have here := Touches.refl (.wrAuxfn p) s
  cases l with
  | w2 => exact .next ((here.setAuxfn _).goesOn id)
  | w3 prev =>
    unfold auxfnAt
    dsimp only
    split
    · exact .next (((here.setAuxfn _).replyReg .writeError 3).returned fs)
    · exact .next (here.goesOn id)
  | w4 prev =>
    unfold auxfnAt
    dsimp only
    split
    · exact .next ((here.ack 3).returned fs)
    · exact .next (here.goesOn id)
  | w5 => exact (switchStart_handles ..).mono fun _ => .called rfl rfl
  | w6 => exact .next ((here.ack 3).returned fs)

theorem execWrAuxfn_handles (p : BitVec 32) (s : State) :
    Ensures (Handles (.wrAuxfn p) s.mpc s) (execWrAuxfn p s) := by
  unfold execWrAuxfn
  refine .running ?_
  split
  next hmpc =>
    split
    · exact (auxfnAt_handles ..).mono fun _ => .of_frame hmpc
    · exact auxfnStart_handles p s
  next => exact auxfnStart_handles p s

theorem auxbaudStart_handles (p : BitVec 32) (s : State) :
    Ensures (Handles (.wrAuxbaud p) s.mpc s) (auxbaudStart p s) :=
  .next ((((Touches.refl (.wrAuxbaud p) s).log (j := .wrAuxbaud p) rfl).setAuxbaud p).goesOn id)

theorem auxbaudAt_handles (p : BitVec 32) (fs : List Frame) (l : AuxbaudAt) (s : State) :
    Ensures (Handles (.wrAuxbaud p) fs s) (auxbaudAt p fs l s) := by
  have here := Touches.refl (.wrAuxbaud p) s
  cases l with
  | w2 prev =>
    unfold auxbaudAt
    dsimp only
    split
    · exact .next (((here.setAuxbaud _).replyReg .writeError 4).returned fs)
    · exact .next (here.goesOn id)
  | w3 => exact (rebaudAt_handles (.wrAuxbaud p) (.wrAuxbaud p .w4 :: fs) .b0 s).mono fun _ => .called rfl rfl
  | w4 => exact .next ((here.ack 4).returned fs)

theorem execWrAuxbaud_handles (p : BitVec 32) (s : State) :
    Ensures (Handles (.wrAuxbaud p) s.mpc s) (execWrAuxbaud p s) := by
  unfold execWrAuxbaud
  refine .running ?_
  split
  next hmpc =>
    split
    · exact (auxbaudAt_handles ..).mono fun _ => .of_frame hmpc
    · exact auxbaudStart_handles p s
  next => exact auxbaudStart_handles p s

theorem execPoll_handles (r : BitVec 8) (x : BitVec 32) (s : State) :
    Ensures (Handles (.poll r x) s.mpc s) (execPoll r x s) := by
  have first := (((Touches.refl (.poll r x) s).log (j := .poll r x) rfl).trans (syncEdge_touches _ _)).goesOn
    (fs := s.mpc) (gs := .poll r x .p2 :: s.mpc) id
  unfold execPoll
  refine .running ?_
  split
  next hmpc =>
    split
    · split
      · exact .next (((inputs_touches r x s).goesOn id).of_frame hmpc)
      · exact .next (((counterTick_touches r x s).returned _).of_frame hmpc)
    · exact .next first
  next => exact .next first

theorem execBoot_handles (s : State) : Ensures (Handles .boot s.mpc s) (execBoot s) := by
  have booted : Touches .boot s { s.log .boot with booted := true } :=
    ((Touches.refl .boot s).log rfl).trans ⟨rfl, fun _ => rfl, .unchanged rfl, .of_regs rfl rfl⟩
  unfold execBoot
  refine .running ?_
  split
  next hmpc => exact (setupStart_handles _ .pri (fun _ => .inl rfl) _ s).mono fun _ => .of_frame hmpc
  next => exact .next (booted.goesOn id fun hboot => absurd rfl hboot)

/-- What every operation does that is neither a listing nor another agent's. -/
theorem exec_handles {i : Instr} (hlisting : isListing i = false) (hattendance : isAttendance i = false) (s : State) :
    Ensures (Handles i s.mpc s) (exec i s) := by
  cases i with
  | rdConnected x => exact readRegister_handles rfl 0 s
  | rdCounter x => exact readRegister_handles rfl 1 s
  | rdFreq x => exact readRegister_handles rfl 2 s
  | rdAuxfn x => exact readRegister_handles rfl 3 s
  | rdAuxbaud x => exact readRegister_handles rfl 4 s
  | wrConnected p => exact execWrConnected_handles p s
  | wrCounter p => exact execWrCounter_handles p s
  | wrFreq p => exact execWrFreq_handles p s
  | wrAuxfn p => exact execWrAuxfn_handles p s
  | wrAuxbaud p => exact execWrAuxbaud_handles p s
  | poll r x => exact execPoll_handles r x s
  | boot => exact execBoot_handles s
  | auxSwitch fn => exact execAuxSwitch_handles fn s
  | auxRebaud => exact execAuxRebaud_handles s
  | txStart | dmaBeat | uartShift | chFire | ppsFire => cases hattendance
  | chSetup | chTeardown | ppsSetup | ppsTeardown => cases hlisting

/-! ## Every operation -/

/-- The three kinds of operation. -/
theorem exec_kinds (i : Instr) (s : State) :
    Ensures (Attends s) (exec i s) ∨ Ensures (Builds s) (exec i s) ∨ Ensures (Handles i s.mpc s) (exec i s) := by
  cases hattendance : isAttendance i with
  | true => exact .inl (exec_attends hattendance s)
  | false =>
    cases hlisting : isListing i with
    | true => exact .inr (.inl (exec_builds hlisting s))
    | false => exact .inr (.inr (exec_handles hlisting hattendance s))

theorem Attends.settings {s t : State} (h : Attends s t) : settingsOf t = settingsOf s := by
  have view := congrArg settingsOf h.view
  exact view

theorem exec_grows (i : Instr) (s : State) : Ensures (Grows s) (exec i s) := by
  rcases exec_kinds i s with h | h | h
  · exact h.mono fun _ => Attends.grows
  · exact h.mono fun _ => Builds.grows
  · exact h.mono fun _ ht => ht.touches.grows

theorem exec_writes (i : Instr) (s : State) : Ensures (Writes i s) (exec i s) := by
  rcases exec_kinds i s with h | h | h
  · exact h.mono fun _ ht => .of_settings ht.settings
  · exact h.mono fun _ ht => .of_settings ht.settings
  · exact h.mono fun _ ht => ht.touches.writes

/-! ## Every agent's logs -/

theorem mainStep_grows (s : State) : Ensures (Grows s) (mainStep s) := by
  unfold mainStep
  split
  next =>
    split
    · exact .next (.unchanged rfl)
    · exact exec_grows ..
  next i fs _ => exact (exec_grows i (s.at fs)).mono fun _ => (Grows.unchanged (s := s) (t := s.at fs) rfl).trans
  next => exact exec_grows ..

/-- A word for a register the block does not have, answered and logged (log entry 31). -/
theorem answered_grows {w : CmdWord} (hw : ∀ op, decodeCommand w ≠ .reserved op) (s : State) (k : ReplyKind)
    (r : BitVec 8) : Grows s (State.reply { s with hist := s.hist ++ [.cmd w] } k r 0) :=
  .hist_append _ (loggable_cmd hw) (List.prefix_append _ _) List.prefix_rfl List.prefix_rfl rfl rfl

theorem takeCommand_grows (w : CmdWord) (s : State) : Ensures (Grows s) (takeCommand w s) := by
  unfold takeCommand
  split
  · split
    next => exact exec_grows ..
    next h => exact .next (answered_grows (by simp [h]) s _ _)
    next h => exact .next (answered_grows (by simp [h]) s _ _)
    next => exact .refused _
  · exact .next (.unchanged rfl)

theorem perform_grows {a : Action} (hreset : ∀ d, a ≠ .reset d) (s : State) : Ensures (Grows s) (perform a s) := by
  cases a with
  | main => exact .running (mainStep_grows s)
  | command w => exact .running (takeCommand_grows w s)
  | reset d => exact absurd rfl (hreset d)
  | irq | dma | uart | tick | sync | din | quiet => exact (perform_attends rfl s).mono fun _ => Attends.grows

theorem nextAction_grows (s : State) : Grows s s.nextAction.2 := by
  rw [State.nextAction_snd]
  exact .unchanged rfl

end Sys2Proof.Safety

open Sys2Proof Sys2Proof.Machine Sys2Proof.Safety

/-- Settles O26: only `Handles` writes a register or the controller's state, each by its own operation. -/
theorem writersOfEachRegister : Obligations.WritersOfEachRegister := by
  intro i s t h
  have writes := (exec_writes i s).of_next h
  exact ⟨writes.connectedDevices, writes.counter, writes.counterFreqHz, writes.auxPortFn, writes.auxBaudRate,
    writes.auxState⟩

/-- Settles O28: every agent's step but a reset lets the logs grow by legal words. -/
theorem logsOnlyGrow : Obligations.LogsOnlyGrow := by
  intro s t hreset h
  have grows := (nextAction_grows s).trans ((perform_grows hreset _).of_next h)
  exact ⟨grows.rlog, grows.txLog, grows.edgeLog, grows.wirePri, grows.wireAux, grows.hist⟩

end

section
/-!
PROOF. O16: every step keeps the single-claim invariant. Held ids are distinct exactly if no two users hold the same one
(`Owned`); only the micro-ops that claim, release, activate or deactivate change what is held, and every other step leaves
`claimView` alone.
-/

namespace Sys2Proof.Safety

open Sys2Proof Sys2Proof.Machine

/-! ## Users and what they hold (R42, R56) -/

/-- Each user that holds has an id that is taken, and no two of them the same. -/
structure Owned {α : Type} (holds : α → Bool) (id : α → Nat) (taken : Nat → Prop) : Prop where
  injective : ∀ x y, holds x = true → holds y = true → id x = id y → x = y
  taken : ∀ x, holds x = true → taken (id x)

section
variable {α : Type} {holds holds' : α → Bool} {id id' : α → Nat} {taken taken' : Nat → Prop}

/-- Over a list of all users: the held ids are distinct and taken. -/
theorem owned_iff {users : List α} (hnodup : users.Nodup) (hall : ∀ x, x ∈ users) :
    Owned holds id taken ↔
      ((users.filter holds).map id).Nodup ∧ ∀ a ∈ (users.filter holds).map id, taken a := by
  rw [List.nodup_map_iff_inj_on (hnodup.filter _)]
  simp only [List.mem_filter, hall, true_and, List.mem_map]
  constructor
  · intro h
    exact ⟨fun x hx y hy => h.injective x y hx hy, fun a ⟨x, hx, ha⟩ => ha ▸ h.taken x hx⟩
  · intro ⟨hinj, htaken⟩
    exact ⟨fun x y hx hy => hinj x hx y hy, fun x hx => htaken _ ⟨x, hx, rfl⟩⟩

/-- No one holds more, nothing is released. -/
theorem Owned.mono (h : Owned holds id taken) (hold : ∀ x, holds' x = true → holds x = true ∧ id' x = id x)
    (htaken : ∀ a, taken a → taken' a) : Owned holds' id' taken' where
  injective x y hx hy he := by
    obtain ⟨hx', hxid⟩ := hold x hx
    obtain ⟨hy', hyid⟩ := hold y hy
    exact h.injective x y hx' hy' (by rw [← hxid, ← hyid, he])
  taken x hx := by
    obtain ⟨hx', hxid⟩ := hold x hx
    exact htaken _ (hxid ▸ h.taken x hx')

/-- One user claims an id that was not taken. -/
theorem Owned.claim (h : Owned holds id taken) (x₀ : α)
    (hold : ∀ x, x ≠ x₀ → holds' x = true → holds x = true ∧ id' x = id x) (hfree : ¬taken (id' x₀))
    (htaken : ∀ a, taken' a ↔ a = id' x₀ ∨ taken a) : Owned holds' id' taken' where
  injective x y hx hy he := by
    by_cases hx₀ : x = x₀ <;> by_cases hy₀ : y = x₀
    · rw [hx₀, hy₀]
    · obtain ⟨hy', hyid⟩ := hold y hy₀ hy
      exact absurd (h.taken y hy') (by rw [← hyid, ← he, hx₀]; exact hfree)
    · obtain ⟨hx', hxid⟩ := hold x hx₀ hx
      exact absurd (h.taken x hx') (by rw [← hxid, he, hy₀]; exact hfree)
    · obtain ⟨hx', hxid⟩ := hold x hx₀ hx
      obtain ⟨hy', hyid⟩ := hold y hy₀ hy
      exact h.injective x y hx' hy' (by rw [← hxid, ← hyid, he])
  taken x hx := by
    by_cases hx₀ : x = x₀
    · exact (htaken _).mpr (.inl (by rw [hx₀]))
    · obtain ⟨hx', hxid⟩ := hold x hx₀ hx
      exact (htaken _).mpr (.inr (hxid ▸ h.taken x hx'))

/-- One user releases the id it holds. -/
theorem Owned.release (h : Owned holds id taken) (x₀ : α) (hx₀ : holds x₀ = true)
    (hold : ∀ x, holds' x = true → x ≠ x₀ ∧ holds x = true ∧ id' x = id x)
    (htaken : ∀ a, taken' a ↔ a ≠ id x₀ ∧ taken a) : Owned holds' id' taken' where
  injective x y hx hy he := by
    obtain ⟨-, hx', hxid⟩ := hold x hx
    obtain ⟨-, hy', hyid⟩ := hold y hy
    exact h.injective x y hx' hy' (by rw [← hxid, ← hyid, he])
  taken x hx := by
    obtain ⟨hne, hx', hxid⟩ := hold x hx
    exact (htaken _).mpr ⟨fun he => hne (h.injective x x₀ hx' hx₀ (hxid ▸ he)), hxid ▸ h.taken x hx'⟩

end

/-- The contexts that hold an alarm slot. -/
inductive User where
  | channel (c : Ch)
  | pulse

def isActive (s : State) : User → Bool
  | .channel c => (s.ch.get c).active
  | .pulse => s.pps.active

def holdsAlarm (s : State) : User → Bool
  | .channel c => alarmHeld s c
  | .pulse => ppsHeld s

def alarmId (s : State) : User → Nat
  | .channel c => (s.ch.get c).alarm
  | .pulse => s.pps.alarm

def dmaId (s : State) (c : Ch) : Nat := (s.ch.get c).dma

/-- The slot exists and is claimed. -/
def alarmTaken (s : State) (a : Nat) : Prop := a < s.alarms.length ∧ (s.alarm a).claimed = true

/-- The data-mover channel exists and is claimed. -/
def dmaTaken (s : State) (d : Nat) : Prop := d < s.dma.length ∧ (s.dmaChan d).claimed = true

def AlarmsOwned (s : State) : Prop := Owned (holdsAlarm s) (alarmId s) (alarmTaken s)

def DmaOwned (s : State) : Prop := Owned (dmaHeld s) (dmaId s) (dmaTaken s)

theorem ite_eq_map_filter {α : Type} (holds : α → Bool) (id : α → Nat) (x : α) :
    (if holds x = true then [id x] else []) = ([x].filter holds).map id := by
  cases h : holds x <;> simp [h]

theorem heldAlarms_eq (s : State) :
    heldAlarms s = ([User.channel .pri, .channel .aux, .pulse].filter (holdsAlarm s)).map (alarmId s) := by
  change _ = (([User.channel .pri] ++ [User.channel .aux] ++ [User.pulse]).filter (holdsAlarm s)).map (alarmId s)
  simp only [List.filter_append, List.map_append, ← ite_eq_map_filter]
  rfl

theorem heldDma_eq (s : State) : heldDma s = ([Ch.pri, Ch.aux].filter (dmaHeld s)).map (dmaId s) := by
  change _ = (([Ch.pri] ++ [Ch.aux]).filter (dmaHeld s)).map (dmaId s)
  simp only [List.filter_append, List.map_append, ← ite_eq_map_filter]
  rfl

theorem alarmsOwned_iff (s : State) :
    AlarmsOwned s ↔ (heldAlarms s).Nodup ∧ ∀ a ∈ heldAlarms s, alarmTaken s a := by
  rw [heldAlarms_eq]
  refine owned_iff (by simp) fun u => ?_
  rcases u with (_ | _) | _ <;> simp

theorem dmaOwned_iff (s : State) : DmaOwned s ↔ (heldDma s).Nodup ∧ ∀ d ∈ heldDma s, dmaTaken s d := by
  rw [heldDma_eq]
  refine owned_iff (by simp) fun c => ?_
  cases c <;> simp

theorem singleClaim_iff (s : State) :
    SingleClaim s ↔ AlarmsOwned s ∧ DmaOwned s ∧ teardownActive s s.mpc ∧ callersBelow s.mpc = true := by
  rw [alarmsOwned_iff, dmaOwned_iff]
  constructor
  · intro h
    exact ⟨⟨h.alarmsDistinct, h.alarmsClaimed⟩, ⟨h.dmaDistinct, h.dmaClaimed⟩, h.position, h.callers⟩
  · rintro ⟨⟨alarmsDistinct, alarmsClaimed⟩, ⟨dmaDistinct, dmaClaimed⟩, position, callers⟩
    exact ⟨alarmsDistinct, alarmsClaimed, dmaDistinct, dmaClaimed, position, callers⟩

/-! ## What the invariant is read from -/

/-- The claim bits, the contexts' ids and active flags, and the position; everything else is blanked. -/
def claimView (s : State) : State :=
  { hardwareView s with
    mpc := s.mpc
    lt := 0
    offs := 0
    hasSynced := false
    alarms := s.alarms.map claimOfAlarm
    lines := []
    dma := s.dma.map claimOfDma
    uart := { pri := { init := false, baud := 0, fifo := [] }, aux := { init := false, baud := 0, fifo := [] } }
    pin := { pri := { fn := .none, level := false }, aux := { fn := .none, level := false } }
    ch := pairMap (fun x => { x with irq := 0, baud := 0, offsetUs := 0, dispatchIdx := .zero }) s.ch
    buf := []
    pps := { s.pps with irq := 0 }
    quiet := false
    din := 0
    wire := { pri := [], aux := [] }
    txLog := []
    edgeLog := []
    draws := [] }

theorem alarm_claimView (s : State) (a : Nat) : (claimView s).alarm a = claimOfAlarm (s.alarm a) := alarm_mainView s a

theorem dmaChan_claimView (s : State) (d : Nat) : (claimView s).dmaChan d = claimOfDma (s.dmaChan d) :=
  dmaChan_mainView s d

theorem teardownActive_claimView (s : State) (fs : List Frame) :
    teardownActive (claimView s) fs ↔ teardownActive s fs := by
  unfold teardownActive
  split <;> simp [claimView]

theorem singleClaim_claimView (s : State) : SingleClaim (claimView s) ↔ SingleClaim s := by
  have alarms : heldAlarms (claimView s) = heldAlarms s := rfl
  have dma : heldDma (claimView s) = heldDma s := rfl
  have alarmsTaken : alarmTaken (claimView s) = alarmTaken s := by
    have length : (claimView s).alarms.length = s.alarms.length := by simp [claimView]
    funext a
    simp only [alarmTaken, length, alarm_claimView, claimOfAlarm]
  have dmaTaken : dmaTaken (claimView s) = dmaTaken s := by
    have length : (claimView s).dma.length = s.dma.length := by simp [claimView]
    funext d
    simp only [Safety.dmaTaken, length, dmaChan_claimView, claimOfDma]
  simp only [singleClaim_iff, alarmsOwned_iff, dmaOwned_iff, alarms, dma, alarmsTaken, dmaTaken,
    teardownActive_claimView]
  rfl

theorem SingleClaim.of_view {s t : State} (h : SingleClaim s) (hview : claimView t = claimView s) : SingleClaim t :=
  (singleClaim_claimView t).mp (hview ▸ (singleClaim_claimView s).mpr h)

theorem claimView_mainView (s : State) : claimView (mainView s) = claimView s := by
  have alarms : claimOfAlarm ∘ claimOfAlarm = claimOfAlarm := rfl
  have dma : claimOfDma ∘ claimOfDma = claimOfDma := rfl
  simp [claimView, mainView, hardwareView, pairMap, alarms, dma]

/-- The other agents touch nothing of it. -/
theorem Attends.singleClaim {s t : State} (h : Attends s t) (hs : SingleClaim s) : SingleClaim t :=
  hs.of_view (by rw [← claimView_mainView t, h.view, claimView_mainView])

/-- An operation that builds and tears down nothing touches the position only. -/
theorem claimView_of_hardwareView {s t : State} (h : hardwareView t = hardwareView s) :
    claimView t = claimView (s.at t.mpc) := by
  have moved := congrArg (fun v => (claimView v).at t.mpc) h
  exact moved

theorem claimView_at {s t : State} (h : claimView t = claimView s) (fs : List Frame) :
    claimView (t.at fs) = claimView (s.at fs) := by
  have moved := congrArg (fun v => v.at fs) h
  exact moved

theorem claimView_modifyLine (s : State) (q : Nat) (f : IrqLine → IrqLine) :
    claimView (s.modifyLine q f) = claimView s := by
  unfold State.modifyLine
  split <;> rfl

theorem claimView_modifyAlarm {f : AlarmSlot → AlarmSlot} (h : ∀ x, (f x).claimed = x.claimed) (s : State) (a : Nat) :
    claimView (s.modifyAlarm a f) = claimView s := by
  have view := congrArg claimView (mainView_modifyAlarm h s a)
  rwa [claimView_mainView, claimView_mainView] at view

theorem claimView_arm (s : State) (a : Nat) (d : Int) : claimView (s.arm a d) = claimView s :=
  claimView_modifyAlarm (by exact fun _ => rfl) s a

theorem claimView_setLevel (s : State) (v : Bool) : claimView (s.setLevel v) = claimView s := by
  have view := congrArg claimView (mainView_setLevel s v)
  rwa [claimView_mainView, claimView_mainView] at view

theorem claimView_setupUart (s : State) (c : Ch) : claimView (s.setupUart c) = claimView s := by
  unfold State.setupUart
  cases c <;> dsimp only <;> split <;> rfl

theorem claimView_releaseUart (s : State) (c : Ch) : claimView (s.releaseUart c) = claimView s := by
  unfold State.releaseUart
  split <;> rfl

/-! ## Moves of the main thread's position -/

/-- At this position the active contexts hold their slot and their data mover, and no other does. -/
def heldByActive : List Frame → Bool
  | .chSetup _ l :: _ => !(l == .s1b || l == .s1c)
  | .chTeardown _ l :: _ => !(l == .t5 || l == .t6 || l == .t7 || l == .t8)
  | .ppsSetup l :: _ => !(l == .p1b)
  | .ppsTeardown l :: _ => !(l == .r5 || l == .r6 || l == .r7)
  | _ => true

theorem holdsAlarm_of_heldByActive {s : State} (h : heldByActive s.mpc = true) (u : User) :
    holdsAlarm s u = isActive s u := by
  rcases hm : s.mpc with _ | ⟨f, fs⟩
  · cases u <;> simp [holdsAlarm, isActive, alarmHeld, ppsHeld, hm]
  · rw [hm] at h
    cases f <;> cases u <;> simp_all [heldByActive, holdsAlarm, isActive, alarmHeld, ppsHeld]

theorem dmaHeld_of_heldByActive {s : State} (h : heldByActive s.mpc = true) (c : Ch) :
    dmaHeld s c = (s.ch.get c).active := by
  rcases hm : s.mpc with _ | ⟨f, fs⟩
  · simp [dmaHeld, hm]
  · rw [hm] at h
    cases f <;> simp_all [heldByActive, dmaHeld]

theorem heldByActive_of_started {s : State} {fs : List Frame} (h : started s fs = true) : heldByActive fs = true := by
  cases fs with
  | nil => rfl
  | cons f fs => cases f <;> simp_all [started, justStarted, heldByActive]

theorem teardownActive_of_started {s : State} {fs : List Frame} (h : started s fs = true) : teardownActive s fs := by
  cases fs with
  | nil => trivial
  | cons f fs => cases f <;> simp_all [started, justStarted, teardownActive]

theorem callersBelow_of_started {s : State} {fs : List Frame} (h : started s fs = true) :
    callersBelow fs = true := by
  cases fs with
  | nil => rfl
  | cons f fs => exact (Bool.and_eq_true _ _ ▸ h : _ ∧ _).2

/-- The main thread moves, and everyone holds what it held. -/
theorem SingleClaim.at {s : State} (h : SingleClaim s) {fs : List Frame}
    (alarms : ∀ u, holdsAlarm (s.at fs) u = holdsAlarm s u) (dma : ∀ c, dmaHeld (s.at fs) c = dmaHeld s c)
    (position : teardownActive s fs) (callers : callersBelow fs = true) : SingleClaim (s.at fs) := by
  obtain ⟨halarms, hdma, -, -⟩ := (singleClaim_iff s).mp h
  refine (singleClaim_iff _).mpr ⟨?_, ?_, position, callers⟩
  · exact halarms.mono (fun u hu => ⟨alarms u ▸ hu, rfl⟩) fun _ => id
  · exact hdma.mono (fun c hc => ⟨dma c ▸ hc, rfl⟩) fun _ => id

/-- A move between positions at which the active contexts hold. -/
theorem SingleClaim.move {s : State} (h : SingleClaim s) {fs : List Frame} (here : heldByActive s.mpc = true)
    (there : heldByActive fs = true) (position : teardownActive s fs) (callers : callersBelow fs = true) :
    SingleClaim (s.at fs) :=
  h.at (fun u => (holdsAlarm_of_heldByActive (s := s.at fs) there u).trans (holdsAlarm_of_heldByActive here u).symm)
    (fun c => (dmaHeld_of_heldByActive (s := s.at fs) there c).trans (dmaHeld_of_heldByActive here c).symm)
    position callers

theorem Handles.singleClaim {i : Instr} {s t : State} (h : Handles i s.mpc s t) (hs : SingleClaim s)
    (hcallers : callersOnly s.mpc = true) : SingleClaim t := by
  have there := h.position hcallers
  have view (u : State) : started u t.mpc = started (hardwareView u) t.mpc := rfl
  have hactive : started s t.mpc = true := by rw [view, ← h.touches.hardware, ← view]; exact there
  have here : started s s.mpc = true := started_of_callersOnly hcallers
  have moved : SingleClaim (s.at t.mpc) :=
    hs.move (heldByActive_of_started here) (heldByActive_of_started there) (teardownActive_of_started hactive)
      (callersBelow_of_started there)
  exact moved.of_view (claimView_of_hardwareView h.touches.hardware)

/-- What a caller finds when the operation it called returns. -/
theorem returned_of_callersOnly {s : State} {fs : List Frame} (h : callersOnly fs = true) :
    heldByActive fs = true ∧ teardownActive s fs ∧ callersBelow fs = true := by
  have hstarted : started s fs = true := started_of_callersOnly h
  exact ⟨heldByActive_of_started hstarted, teardownActive_of_started hstarted, callersBelow_of_started hstarted⟩

/-- A move between such positions, with anything done that no claim is read from. -/
theorem SingleClaim.step {s t : State} (h : SingleClaim s) {fs : List Frame} (hview : claimView t = claimView (s.at fs))
    (here : heldByActive s.mpc = true) (there : heldByActive fs = true) (position : teardownActive s fs)
    (callers : callersBelow fs = true) : Ensures SingleClaim (.next t) :=
  .next ((h.move here there position callers).of_view hview)

/-- A fault leaves everything where it is (R253). -/
theorem SingleClaim.raise {s : State} (h : SingleClaim s) (e : FaultCode) : Ensures SingleClaim (s.raise e) :=
  .next (h.of_view (t := s.withFault e) rfl)

/-! ## Claims and releases as such -/

section
variable (s : State)

@[simp] theorem draw_alarms : s.draw.2.alarms = s.alarms := by rw [State.draw_snd]
@[simp] theorem draw_dma : s.draw.2.dma = s.dma := by rw [State.draw_snd]
@[simp] theorem draw_ch : s.draw.2.ch = s.ch := by rw [State.draw_snd]
@[simp] theorem draw_pps : s.draw.2.pps = s.pps := by rw [State.draw_snd]

@[simp] theorem draw_alarm (a : Nat) : s.draw.2.alarm a = s.alarm a := by simp [State.alarm]
@[simp] theorem draw_dmaChan (d : Nat) : s.draw.2.dmaChan d = s.dmaChan d := by simp [State.dmaChan]

end

theorem dmaTaken_claimDma {s t : State} {d : Nat} (h : s.claimDma = some (d, t)) :
    ¬dmaTaken s d ∧ ∀ a, dmaTaken t a ↔ a = d ∨ dmaTaken s a := by
  obtain ⟨hfree, -, rfl⟩ := State.claimDma_some h
  obtain ⟨hlt, hunclaimed⟩ := (State.mem_freeDma s d).mp hfree
  refine ⟨fun hd => by simp [dmaTaken, hunclaimed] at hd, fun a => ?_⟩
  unfold dmaTaken
  rw [State.dmaChan_modifyDma _ _ _ _ (by simpa using hlt)]
  by_cases ha : a = d
  · simp [ha, hlt]
  · simp [ha]

theorem alarmTaken_claimAlarm {s t : State} {b : Nat} (h : s.claimAlarm = some (b, t)) :
    ¬alarmTaken s b ∧ ∀ a, alarmTaken t a ↔ a = b ∨ alarmTaken s a := by
  obtain ⟨hfree, -, rfl⟩ := State.claimAlarm_some h
  obtain ⟨hlt, hunclaimed⟩ := (State.mem_freeAlarms s b).mp hfree
  refine ⟨fun hb => by simp [alarmTaken, hunclaimed] at hb, fun a => ?_⟩
  unfold alarmTaken
  rw [State.alarm_modifyAlarm _ _ _ _ (by simpa using hlt)]
  by_cases ha : a = b
  · simp [ha, hlt]
  · simp [ha]

theorem dmaTaken_releaseDma (s : State) (d a : Nat) : dmaTaken (s.releaseDma d) a ↔ a ≠ d ∧ dmaTaken s a := by
  unfold dmaTaken State.releaseDma
  by_cases ha : a = d
  · subst ha
    by_cases hlt : a < s.dma.length
    · simp [State.dmaChan_modifyDma _ _ _ _ hlt]
    · simp [hlt]
  · simp [State.dmaChan_modifyDma_other _ _ ha, ha]

theorem alarmTaken_unclaimAlarm (s : State) (b a : Nat) :
    alarmTaken (s.unclaimAlarm b) a ↔ a ≠ b ∧ alarmTaken s a := by
  unfold alarmTaken State.unclaimAlarm
  by_cases ha : a = b
  · subst ha
    by_cases hlt : a < s.alarms.length
    · simp [State.alarm_modifyAlarm _ _ _ _ hlt]
    · simp [hlt]
  · simp [State.alarm_modifyAlarm_other _ _ ha, ha]

theorem claimDma_keeps {s t : State} {d : Nat} (h : s.claimDma = some (d, t)) :
    t.alarms = s.alarms ∧ t.ch = s.ch ∧ t.pps = s.pps := by
  obtain ⟨-, -, rfl⟩ := State.claimDma_some h
  simp

theorem claimAlarm_keeps {s t : State} {a : Nat} (h : s.claimAlarm = some (a, t)) :
    t.dma = s.dma ∧ t.ch = s.ch ∧ t.pps = s.pps := by
  obtain ⟨-, -, rfl⟩ := State.claimAlarm_some h
  simp

/-- No user holds more in `t` than in `s`, but perhaps those left out. -/
def HoldsNoMoreAlarms (s t : State) (but : User → Prop) : Prop :=
  ∀ u, ¬but u → holdsAlarm t u = true → holdsAlarm s u = true ∧ alarmId t u = alarmId s u

/-- No channel holds more in `t` than in `s`, but perhaps those left out. -/
def HoldsNoMoreDma (s t : State) (but : Ch → Prop) : Prop :=
  ∀ c, ¬but c → dmaHeld t c = true → dmaHeld s c = true ∧ dmaId t c = dmaId s c

section
variable {s t : State} (h : SingleClaim s) (position : teardownActive t t.mpc) (callers : callersBelow t.mpc = true)
include h

theorem AlarmsOwned.of_no_more (hold : HoldsNoMoreAlarms s t fun _ => False) (alarms : t.alarms = s.alarms) :
    AlarmsOwned t :=
  Owned.mono ((singleClaim_iff s).mp h).1 (fun u => hold u id) fun a ha => by
    simpa [alarmTaken, State.alarm, alarms] using ha

theorem DmaOwned.of_no_more (hold : HoldsNoMoreDma s t fun _ => False) (dma : t.dma = s.dma) : DmaOwned t :=
  Owned.mono ((singleClaim_iff s).mp h).2.1 (fun c => hold c id) fun a ha => by
    simpa [dmaTaken, State.dmaChan, dma] using ha

include position callers

/-- A step that neither claims nor releases. -/
theorem SingleClaim.hold (alarms : HoldsNoMoreAlarms s t fun _ => False) (dma : HoldsNoMoreDma s t fun _ => False)
    (halarms : t.alarms = s.alarms) (hdma : t.dma = s.dma) : SingleClaim t :=
  (singleClaim_iff t).mpr ⟨.of_no_more h alarms halarms, .of_no_more h dma hdma, position, callers⟩

/-- A step that claims an alarm slot for `u`. -/
theorem SingleClaim.claimsAlarm (u : User) (alarms : HoldsNoMoreAlarms s t (· = u))
    (dma : HoldsNoMoreDma s t fun _ => False) (hfree : ¬alarmTaken s (alarmId t u))
    (htaken : ∀ a, alarmTaken t a ↔ a = alarmId t u ∨ alarmTaken s a) (hdma : t.dma = s.dma) : SingleClaim t :=
  (singleClaim_iff t).mpr
    ⟨Owned.claim ((singleClaim_iff s).mp h).1 u alarms hfree htaken, .of_no_more h dma hdma, position, callers⟩

/-- A step that claims a data mover for `c`. -/
theorem SingleClaim.claimsDma (c : Ch) (alarms : HoldsNoMoreAlarms s t fun _ => False)
    (dma : HoldsNoMoreDma s t (· = c)) (hfree : ¬dmaTaken s (dmaId t c))
    (htaken : ∀ a, dmaTaken t a ↔ a = dmaId t c ∨ dmaTaken s a) (halarms : t.alarms = s.alarms) : SingleClaim t :=
  (singleClaim_iff t).mpr
    ⟨.of_no_more h alarms halarms, Owned.claim ((singleClaim_iff s).mp h).2.1 c dma hfree htaken, position, callers⟩

/-- A step that releases the alarm slot of `u`. -/
theorem SingleClaim.releasesAlarm (u : User) (hheld : holdsAlarm s u = true)
    (alarms : HoldsNoMoreAlarms s t fun _ => False) (hreleased : holdsAlarm t u = false)
    (dma : HoldsNoMoreDma s t fun _ => False) (htaken : ∀ a, alarmTaken t a ↔ a ≠ alarmId s u ∧ alarmTaken s a)
    (hdma : t.dma = s.dma) : SingleClaim t := by
  have released := Owned.release (holds' := holdsAlarm t) (id' := alarmId t) ((singleClaim_iff s).mp h).1 u hheld
    (fun v hv => ⟨by rintro rfl; simp [hreleased] at hv, alarms v (fun h => h) hv⟩) htaken
  exact (singleClaim_iff t).mpr ⟨released, .of_no_more h dma hdma, position, callers⟩

/-- A step that releases the data mover of `c`. -/
theorem SingleClaim.releasesDma (c : Ch) (hheld : dmaHeld s c = true)
    (alarms : HoldsNoMoreAlarms s t fun _ => False) (dma : HoldsNoMoreDma s t fun _ => False)
    (hreleased : dmaHeld t c = false) (htaken : ∀ a, dmaTaken t a ↔ a ≠ dmaId s c ∧ dmaTaken s a)
    (halarms : t.alarms = s.alarms) : SingleClaim t := by
  have released := Owned.release (holds' := dmaHeld t) (id' := dmaId t) ((singleClaim_iff s).mp h).2.1 c hheld
    (fun e he => ⟨by rintro rfl; simp [hreleased] at he, dma e (fun h => h) he⟩) htaken
  exact (singleClaim_iff t).mpr ⟨.of_no_more h alarms halarms, released, position, callers⟩

end

/-! ## The listings, label by label -/

section
variable {c : Ch} {fs : List Frame} {s : State}

theorem SingleClaim.callersOnly_of_leaf (h : SingleClaim s) {f : Frame} (hmpc : s.mpc = f :: fs) :
    callersOnly fs = true := by
  have callers := h.callers
  rw [hmpc] at callers
  exact callers

/-- A context that is not rewritten holds no more than before: said of the position by `simp`. -/
theorem holdsNoMoreAlarms_of_eq {t : State} (ch : t.ch = s.ch) (pps : t.pps = s.pps)
    (hold : ∀ u, holdsAlarm (s.at t.mpc) u = true → holdsAlarm s u = true) : HoldsNoMoreAlarms s t fun _ => False := by
  intro u _ hu
  have holds : holdsAlarm t u = holdsAlarm (s.at t.mpc) u := by
    cases u <;> simp [holdsAlarm, alarmHeld, ppsHeld, ch, pps]
  refine ⟨hold u (holds ▸ hu), ?_⟩
  cases u <;> simp [alarmId, ch, pps]

theorem holdsNoMoreDma_of_eq {t : State} (ch : t.ch = s.ch)
    (hold : ∀ c, dmaHeld (s.at t.mpc) c = true → dmaHeld s c = true) : HoldsNoMoreDma s t fun _ => False := by
  intro c _ hc
  have holds : dmaHeld t c = dmaHeld (s.at t.mpc) c := by simp [dmaHeld, ch]
  exact ⟨hold c (holds ▸ hc), by simp [dmaId, ch]⟩

/-- `s1a` claims a data mover for the context. -/
theorem SingleClaim.setupDma (h : SingleClaim s) (hmpc : s.mpc = .chSetup c .s1a :: fs) {d : Nat} {t : State}
    (hclaim : s.claimDma = some (d, t)) :
    SingleClaim ((t.setCh c { t.ch.get c with dma := d }).at (.chSetup c .s1b :: fs)) := by
  obtain ⟨hfree, htaken⟩ := dmaTaken_claimDma hclaim
  obtain ⟨alarms, ch, pps⟩ := claimDma_keeps hclaim
  refine h.claimsDma trivial (h.callersOnly_of_leaf hmpc) c ?_ ?_ ?_ ?_ alarms
  · rintro (e | _) -
    · by_cases hce : e = c <;> simp_all [holdsAlarm, alarmId, alarmHeld, Pair.get_set]
    · simp_all [holdsAlarm, alarmId, ppsHeld]
  · intro e hce
    have hec : ¬c = e := fun he => hce he.symm
    simp_all [dmaId, dmaHeld, Pair.get_set]
  · simpa [dmaId] using hfree
  · simpa [dmaId, dmaTaken, State.dmaChan] using htaken

/-- `s1b` claims an alarm slot for the context. -/
theorem SingleClaim.setupAlarm (h : SingleClaim s) (hmpc : s.mpc = .chSetup c .s1b :: fs) {a : Nat} {t : State}
    (hclaim : s.claimAlarm = some (a, t)) :
    SingleClaim ((t.setCh c { t.ch.get c with alarm := a, irq := s.irqOf a }).at (.chSetup c .s1c :: fs)) := by
  obtain ⟨hfree, htaken⟩ := alarmTaken_claimAlarm hclaim
  obtain ⟨dma, ch, pps⟩ := claimAlarm_keeps hclaim
  refine h.claimsAlarm trivial (h.callersOnly_of_leaf hmpc) (.channel c) ?_ ?_ ?_ ?_ dma
  · rintro (e | _) hne
    · have hec : ¬c = e := fun he => hne (by rw [he])
      have hce : ¬e = c := fun he => hec he.symm
      simp_all [holdsAlarm, alarmId, alarmHeld, Pair.get_set]
    · simp_all [holdsAlarm, alarmId, ppsHeld]
  · intro e _
    by_cases hce : e = c <;> simp_all [dmaId, dmaHeld, Pair.get_set]
  · simpa [alarmId] using hfree
  · simpa [alarmId, alarmTaken, State.alarm] using htaken

/-- `s1c` activates the context, which holds both ids by now. -/
theorem SingleClaim.setupActive (h : SingleClaim s) (hmpc : s.mpc = .chSetup c .s1c :: fs) :
    SingleClaim ((s.setCh c { s.ch.get c with active := true }).at (.chSetup c .s2a :: fs)) := by
  refine h.hold trivial (h.callersOnly_of_leaf hmpc) ?_ ?_ rfl rfl
  · rintro (e | _) -
    · by_cases hce : e = c <;> simp_all [holdsAlarm, alarmId, alarmHeld, Pair.get_set]
    · simp_all [holdsAlarm, alarmId, ppsHeld]
  · intro e _
    by_cases hce : e = c <;> simp_all [dmaId, dmaHeld, Pair.get_set]

/-- A label of an active context's setup that holds what it held (`s1a`, `s1b` of a second setup). -/
theorem SingleClaim.setupAgain (h : SingleClaim s) {l l' : SetupAt} (hmpc : s.mpc = .chSetup c l :: fs)
    (hactive : (s.ch.get c).active = true) : SingleClaim (s.at (.chSetup c l' :: fs)) := by
  refine h.hold trivial (h.callersOnly_of_leaf hmpc) (holdsNoMoreAlarms_of_eq rfl rfl ?_) (holdsNoMoreDma_of_eq rfl ?_)
    rfl rfl
  · rintro (e | _)
    · by_cases hce : c = e <;> simp_all [holdsAlarm, alarmHeld]
    · simp [holdsAlarm, ppsHeld, hmpc]
  · intro e
    by_cases hce : c = e <;> simp_all [dmaHeld]

theorem setupAt_singleClaim (h : SingleClaim s) {l : SetupAt} (hmpc : s.mpc = .chSetup c l :: fs) :
    Ensures SingleClaim (setupAt c fs l s) := by
  have below : callersOnly fs = true := h.callersOnly_of_leaf hmpc
  obtain ⟨there, position, callers⟩ := returned_of_callersOnly (s := s) below
  have on {t : State} {l' : SetupAt} (hview : claimView t = claimView s)
      (here : heldByActive s.mpc = true) (there : heldByActive (.chSetup c l' :: fs) = true) :
      Ensures SingleClaim (.next (t.at (.chSetup c l' :: fs))) :=
    h.step (claimView_at hview _) here there trivial below
  cases l with
  | s0 => exact on rfl (by simp [hmpc, heldByActive]) rfl
  | s1a =>
    unfold setupAt
    dsimp only
    split
    next hactive => exact .next (h.setupAgain hmpc hactive)
    next =>
      split
      next => exact h.raise _
      next hclaim => exact .next (h.setupDma hmpc hclaim)
  | s1b =>
    unfold setupAt
    dsimp only
    split
    next hactive => exact .next (h.setupAgain hmpc hactive)
    next =>
      split
      next => exact h.raise _
      next hclaim => exact .next (h.setupAlarm hmpc hclaim)
  | s1c => exact .next (h.setupActive hmpc)
  | s2a => exact on (claimView_setupUart s c) (by simp [hmpc, heldByActive]) rfl
  | s2b => exact on rfl (by simp [hmpc, heldByActive]) rfl
  | s3a => exact on rfl (by simp [hmpc, heldByActive]) rfl
  | s3b => exact on rfl (by simp [hmpc, heldByActive]) rfl
  | s3c => exact on (by cases c <;> rfl) (by simp [hmpc, heldByActive]) rfl
  | s4a => exact on (claimView_modifyLine ..) (by simp [hmpc, heldByActive]) rfl
  | s4b => exact on (claimView_modifyLine ..) (by simp [hmpc, heldByActive]) rfl
  | s5a => exact on rfl (by simp [hmpc, heldByActive]) rfl
  | s5b d => exact h.step (claimView_at (claimView_arm ..) fs) (by simp [hmpc, heldByActive]) there position callers

/-- `t4` releases the alarm slot. -/
theorem SingleClaim.teardownAlarm (h : SingleClaim s) (hmpc : s.mpc = .chTeardown c .t4 :: fs)
    (hactive : (s.ch.get c).active = true) :
    SingleClaim ((s.unclaimAlarm (s.ch.get c).alarm).at (.chTeardown c .t5 :: fs)) := by
  refine h.releasesAlarm (.inr hactive) (h.callersOnly_of_leaf hmpc) (.channel c) ?_
    (holdsNoMoreAlarms_of_eq rfl rfl ?_) ?_ (holdsNoMoreDma_of_eq rfl ?_) (alarmTaken_unclaimAlarm s _) rfl
  · simpa [holdsAlarm, alarmHeld, hmpc] using hactive
  · rintro (e | _) <;> simp_all [holdsAlarm, alarmHeld, ppsHeld]
  · simp [holdsAlarm, alarmHeld]
  · intro e
    simp [dmaHeld, hmpc]

/-- `t6` releases the data mover. -/
theorem SingleClaim.teardownDma (h : SingleClaim s) (hmpc : s.mpc = .chTeardown c .t6 :: fs)
    (hactive : (s.ch.get c).active = true) :
    SingleClaim ((s.releaseDma (s.ch.get c).dma).at (.chTeardown c .t7 :: fs)) := by
  refine h.releasesDma (.inr hactive) (h.callersOnly_of_leaf hmpc) c ?_
    (holdsNoMoreAlarms_of_eq rfl rfl ?_) (holdsNoMoreDma_of_eq rfl ?_) ?_ (dmaTaken_releaseDma s _) rfl
  · simpa [dmaHeld, hmpc] using hactive
  · rintro (e | _) <;> simp [holdsAlarm, alarmHeld, ppsHeld, hmpc]
  · intro e
    simp_all [dmaHeld]
  · simp [dmaHeld]

/-- `t8` deactivates the context, which holds nothing any more. -/
theorem SingleClaim.teardownDone (h : SingleClaim s) (hmpc : s.mpc = .chTeardown c .t8 :: fs) :
    SingleClaim ((s.setCh c { s.ch.get c with active := false }).at fs) := by
  generalize ht : (s.setCh c { s.ch.get c with active := false }).at fs = t
  have hfs : t.mpc = fs := by rw [← ht]; rfl
  obtain ⟨there, position, callers⟩ := returned_of_callersOnly (s := t) (h.callersOnly_of_leaf hmpc)
  rw [← hfs] at there position callers
  have hch : t.ch = s.ch.set c { s.ch.get c with active := false } := by rw [← ht]; rfl
  have hpps : t.pps = s.pps := by rw [← ht]; rfl
  refine h.hold position callers (fun u _ hu => ?_) (fun e _ he => ?_) (by rw [← ht]; rfl) (by rw [← ht]; rfl)
  · rw [holdsAlarm_of_heldByActive there] at hu
    rcases u with e | _
    · by_cases hce : e = c
      · simp [isActive, hch, hce] at hu
      · have hec : ¬c = e := fun he => hce he.symm
        simp_all [isActive, holdsAlarm, alarmId, alarmHeld, Pair.get_set]
    · simp_all [isActive, holdsAlarm, alarmId, ppsHeld]
  · rw [dmaHeld_of_heldByActive there] at he
    by_cases hce : e = c
    · simp [hch, hce] at he
    · have hec : ¬c = e := fun he => hce he.symm
      simp_all [dmaHeld, dmaId, Pair.get_set]

/-- A label between two micro-ops that hold the same (`t5`, `t7`). -/
theorem SingleClaim.teardownOn (h : SingleClaim s) {l l' : TeardownAt} (hmpc : s.mpc = .chTeardown c l :: fs)
    (hactive : (s.ch.get c).active = true)
    (alarms : ∀ e, alarmHeld (s.at (.chTeardown c l' :: fs)) e = alarmHeld s e)
    (dma : ∀ e, dmaHeld (s.at (.chTeardown c l' :: fs)) e = dmaHeld s e) {t : State}
    (hview : claimView t = claimView s) : Ensures SingleClaim (.next (t.at (.chTeardown c l' :: fs))) := by
  refine .next (SingleClaim.of_view (h.at ?_ dma (.inr hactive) (h.callersOnly_of_leaf hmpc)) (claimView_at hview _))
  rintro (e | _)
  · exact alarms e
  · simp [holdsAlarm, ppsHeld, hmpc]

theorem teardownAt_singleClaim (h : SingleClaim s) {l : TeardownAt} (hmpc : s.mpc = .chTeardown c l :: fs) :
    Ensures SingleClaim (teardownAt c fs l s) := by
  have below : callersOnly fs = true := h.callersOnly_of_leaf hmpc
  have hactive : l = .t0 ∨ (s.ch.get c).active = true := by simpa [teardownActive, hmpc] using h.position
  obtain ⟨there, position, callers⟩ := returned_of_callersOnly (s := s) below
  have on {t : State} {l' : TeardownAt} (hview : claimView t = claimView s) (active : (s.ch.get c).active = true)
      (here : heldByActive s.mpc = true) (there : heldByActive (.chTeardown c l' :: fs) = true) :
      Ensures SingleClaim (.next (t.at (.chTeardown c l' :: fs))) :=
    h.step (claimView_at hview _) here there (.inr active) below
  cases l with
  | t0 =>
    unfold teardownAt
    dsimp only
    split
    next active => exact on rfl active (by simp [hmpc, heldByActive]) rfl
    next => exact h.step (fs := fs) rfl (by simp [hmpc, heldByActive]) there position callers
  | t1 =>
    exact on (claimView_modifyAlarm (by exact fun _ => rfl) s _) (by simpa using hactive) (by simp [hmpc, heldByActive]) rfl
  | t2 =>
    exact on (claimView_modifyAlarm (by exact fun _ => rfl) s _) (by simpa using hactive) (by simp [hmpc, heldByActive]) rfl
  | t3 => exact on (claimView_modifyLine ..) (by simpa using hactive) (by simp [hmpc, heldByActive]) rfl
  | t4 => exact .next (h.teardownAlarm hmpc (by simpa using hactive))
  | t5 =>
    have dma (e : Ch) : dmaHeld (s.at (.chTeardown c .t6 :: fs)) e = dmaHeld s e := by
      simp only [dmaHeld, State.at_mpc, hmpc]
      rfl
    exact h.teardownOn hmpc (by simpa using hactive) (by simp [alarmHeld, hmpc]) dma (claimView_modifyLine ..)
  | t6 => exact .next (h.teardownDma hmpc (by simpa using hactive))
  | t7 =>
    exact h.teardownOn hmpc (by simpa using hactive) (by simp [alarmHeld, hmpc]) (by simp [dmaHeld, hmpc])
      (claimView_releaseUart s c)
  | t8 => exact .next (h.teardownDone hmpc)

/-! ### Pulse-per-second -/

/-- `p1a` claims an alarm slot for the pulse. -/
theorem SingleClaim.pulseAlarm (h : SingleClaim s) (hmpc : s.mpc = .ppsSetup .p1a :: fs) {a : Nat} {t : State}
    (hclaim : s.claimAlarm = some (a, t)) :
    SingleClaim (State.at { t with pps := { t.pps with alarm := a, irq := s.irqOf a } } (.ppsSetup .p1b :: fs)) := by
  obtain ⟨hfree, htaken⟩ := alarmTaken_claimAlarm hclaim
  obtain ⟨dma, ch, pps⟩ := claimAlarm_keeps hclaim
  refine h.claimsAlarm trivial (h.callersOnly_of_leaf hmpc) .pulse ?_ (holdsNoMoreDma_of_eq ch ?_) ?_ ?_ dma
  · rintro (e | _) hne
    · simp_all [holdsAlarm, alarmId, alarmHeld]
    · exact absurd rfl hne
  · intro e
    simp [dmaHeld, hmpc]
  · simpa [alarmId] using hfree
  · simpa [alarmId, alarmTaken, State.alarm] using htaken

/-- `p1b` activates the pulse, which holds its slot by now. -/
theorem SingleClaim.pulseActive (h : SingleClaim s) (hmpc : s.mpc = .ppsSetup .p1b :: fs) :
    SingleClaim (State.at { s with pps := { s.pps with active := true } } (.ppsSetup .p2 :: fs)) := by
  refine h.hold trivial (h.callersOnly_of_leaf hmpc) ?_ (holdsNoMoreDma_of_eq rfl ?_) rfl rfl
  · rintro (e | _) - <;> simp_all [holdsAlarm, alarmId, alarmHeld, ppsHeld]
  · intro e
    simp [dmaHeld, hmpc]

/-- `p1a` of a second setup: the active pulse holds its slot. -/
theorem SingleClaim.pulseAgain (h : SingleClaim s) (hmpc : s.mpc = .ppsSetup .p1a :: fs)
    (hactive : s.pps.active = true) : SingleClaim (s.at (.ppsSetup .p1b :: fs)) := by
  refine h.at ?_ ?_ trivial (h.callersOnly_of_leaf hmpc)
  · rintro (e | _) <;> simp [holdsAlarm, alarmHeld, ppsHeld, hmpc, hactive]
  · simp [dmaHeld, hmpc]

theorem ppsSetupAt_singleClaim (h : SingleClaim s) {l : PpsSetupAt} (hmpc : s.mpc = .ppsSetup l :: fs) :
    Ensures SingleClaim (ppsSetupAt fs l s) := by
  have below : callersOnly fs = true := h.callersOnly_of_leaf hmpc
  obtain ⟨there, position, callers⟩ := returned_of_callersOnly (s := s) below
  have on {t : State} {l' : PpsSetupAt} (hview : claimView t = claimView s)
      (here : heldByActive s.mpc = true) (there : heldByActive (.ppsSetup l' :: fs) = true) :
      Ensures SingleClaim (.next (t.at (.ppsSetup l' :: fs))) :=
    h.step (claimView_at hview _) here there trivial below
  cases l with
  | p0 => exact on rfl (by simp [hmpc, heldByActive]) rfl
  | p1a =>
    unfold ppsSetupAt
    dsimp only
    split
    next hactive => exact .next (h.pulseAgain hmpc hactive)
    next =>
      split
      next => exact h.raise _
      next hclaim => exact .next (h.pulseAlarm hmpc hclaim)
  | p1b => exact .next (h.pulseActive hmpc)
  | p2 => exact on rfl (by simp [hmpc, heldByActive]) rfl
  | p3a => exact on (claimView_modifyLine ..) (by simp [hmpc, heldByActive]) rfl
  | p3b => exact on (claimView_modifyLine ..) (by simp [hmpc, heldByActive]) rfl
  | p4a => exact on (claimView_setLevel s _) (by simp [hmpc, heldByActive]) rfl
  | p4b d => exact h.step (claimView_at (claimView_arm ..) fs) (by simp [hmpc, heldByActive]) there position callers

/-- `r4` releases the pulse's alarm slot. -/
theorem SingleClaim.pulseRelease (h : SingleClaim s) (hmpc : s.mpc = .ppsTeardown .r4 :: fs)
    (hactive : s.pps.active = true) :
    SingleClaim ((s.unclaimAlarm s.pps.alarm).at (.ppsTeardown .r5 :: fs)) := by
  refine h.releasesAlarm (.inr hactive) (h.callersOnly_of_leaf hmpc) .pulse ?_
    (holdsNoMoreAlarms_of_eq rfl rfl ?_) ?_ (holdsNoMoreDma_of_eq rfl ?_) (alarmTaken_unclaimAlarm s _) rfl
  · simpa [holdsAlarm, ppsHeld, hmpc] using hactive
  · rintro (e | _) <;> simp [holdsAlarm, alarmHeld, ppsHeld, hmpc]
  · simp [holdsAlarm, ppsHeld]
  · intro e
    simp [dmaHeld, hmpc]

/-- `r7` deactivates the pulse, which holds nothing any more. -/
theorem SingleClaim.pulseInactive (h : SingleClaim s) (hmpc : s.mpc = .ppsTeardown .r7 :: fs) :
    SingleClaim (State.at { s with pps := { s.pps with active := false } } fs) := by
  generalize ht : State.at { s with pps := { s.pps with active := false } } fs = t
  have hfs : t.mpc = fs := by rw [← ht]; rfl
  obtain ⟨there, position, callers⟩ := returned_of_callersOnly (s := t) (h.callersOnly_of_leaf hmpc)
  rw [← hfs] at there position callers
  have hch : t.ch = s.ch := by rw [← ht]; rfl
  have hpps : t.pps = { s.pps with active := false } := by rw [← ht]; rfl
  refine h.hold position callers (fun u _ hu => ?_) (fun e _ he => ?_) (by rw [← ht]; rfl) (by rw [← ht]; rfl)
  · rw [holdsAlarm_of_heldByActive there] at hu
    rcases u with e | _ <;> simp_all [isActive, holdsAlarm, alarmId, alarmHeld]
  · rw [dmaHeld_of_heldByActive there] at he
    simp_all [dmaHeld, dmaId]

/-- A label between two micro-ops at which the pulse holds nothing (`r5`, `r6`). -/
theorem SingleClaim.pulseOn (h : SingleClaim s) {l l' : PpsTeardownAt} (hmpc : s.mpc = .ppsTeardown l :: fs)
    (hactive : s.pps.active = true) (alarms : ppsHeld (s.at (.ppsTeardown l' :: fs)) = ppsHeld s) {t : State}
    (hview : claimView t = claimView s) : Ensures SingleClaim (.next (t.at (.ppsTeardown l' :: fs))) := by
  have below : callersOnly fs = true := h.callersOnly_of_leaf hmpc
  refine .next (SingleClaim.of_view (h.at (fs := .ppsTeardown l' :: fs) ?_ ?_ (.inr hactive) below)
    (claimView_at hview _))
  · rintro (e | _)
    · simp [holdsAlarm, alarmHeld, hmpc]
    · exact alarms
  · simp [dmaHeld, hmpc]

theorem ppsTeardownAt_singleClaim (h : SingleClaim s) {l : PpsTeardownAt} (hmpc : s.mpc = .ppsTeardown l :: fs) :
    Ensures SingleClaim (ppsTeardownAt fs l s) := by
  have below : callersOnly fs = true := h.callersOnly_of_leaf hmpc
  have hactive : l = .r0 ∨ s.pps.active = true := by simpa [teardownActive, hmpc] using h.position
  obtain ⟨there, position, callers⟩ := returned_of_callersOnly (s := s) below
  have on {t : State} {l' : PpsTeardownAt} (hview : claimView t = claimView s) (active : s.pps.active = true)
      (here : heldByActive s.mpc = true) (there : heldByActive (.ppsTeardown l' :: fs) = true) :
      Ensures SingleClaim (.next (t.at (.ppsTeardown l' :: fs))) :=
    h.step (fs := .ppsTeardown l' :: fs) (claimView_at hview _) here there (.inr active) below
  cases l with
  | r0 =>
    unfold ppsTeardownAt
    dsimp only
    split
    next active => exact on rfl active (by simp [hmpc, heldByActive]) rfl
    next => exact h.step (fs := fs) rfl (by simp [hmpc, heldByActive]) there position callers
  | r1 =>
    exact on (claimView_modifyAlarm (by exact fun _ => rfl) s _) (by simpa using hactive) (by simp [hmpc, heldByActive]) rfl
  | r2 =>
    exact on (claimView_modifyAlarm (by exact fun _ => rfl) s _) (by simpa using hactive) (by simp [hmpc, heldByActive]) rfl
  | r3 => exact on (claimView_modifyLine ..) (by simpa using hactive) (by simp [hmpc, heldByActive]) rfl
  | r4 => exact .next (h.pulseRelease hmpc (by simpa using hactive))
  | r5 => exact h.pulseOn hmpc (by simpa using hactive) (by simp [ppsHeld, hmpc]) (claimView_modifyLine ..)
  | r6 => exact h.pulseOn hmpc (by simpa using hactive) (by simp [ppsHeld, hmpc]) rfl
  | r7 => exact .next (h.pulseInactive hmpc)

end

/-! ## Every step -/

/-- With callers in progress only, a listing performs its first micro-op. -/
theorem exec_listing_handles {i : Instr} (hi : isListing i = true) {s : State} (hcallers : callersOnly s.mpc = true) :
    Ensures (Handles i s.mpc s) (exec i s) := by
  have absent {f : Frame} {fs : List Frame} (hmpc : s.mpc = f :: fs) (hf : Frame.isLeaf f = true) : False := by
    simp [hmpc, callersOnly, hf] at hcallers
  cases i with
  | chSetup c =>
    have first : execChSetup c s = s.running (setupAt c s.mpc .s0 s) := by
      unfold execChSetup
      split
      next hmpc => exact (absent hmpc rfl).elim
      next => rfl
    exact .of_eq first (setupStart_handles _ c (fun hc => .inr (by rw [hc])) s.mpc s)
  | chTeardown c =>
    have first : execChTeardown c s = s.running (teardownAt c s.mpc .t0 s) := by
      unfold execChTeardown
      split
      next hmpc => exact (absent hmpc rfl).elim
      next => rfl
    exact .of_eq first (teardownStart_handles _ c s.mpc s)
  | ppsSetup =>
    have first : execPpsSetup s = s.running (ppsSetupAt s.mpc .p0 s) := by
      unfold execPpsSetup
      split
      next hmpc => exact (absent hmpc rfl).elim
      next => rfl
    exact .of_eq first (ppsSetupStart_handles _ s.mpc s)
  | ppsTeardown =>
    have first : execPpsTeardown s = s.running (ppsTeardownAt s.mpc .r0 s) := by
      unfold execPpsTeardown
      split
      next hmpc => exact (absent hmpc rfl).elim
      next => rfl
    exact .of_eq first (ppsTeardownStart_handles _ s.mpc s)
  | _ => cases hi

/-- With callers in progress only, every operation of the main thread leaves the hardware alone in its next micro-op. -/
theorem exec_handles_of_callers {i : Instr} (hi : isAttendance i = false) {s : State}
    (hcallers : callersOnly s.mpc = true) : Ensures (Handles i s.mpc s) (exec i s) := by
  cases hlisting : isListing i with
  | true => exact exec_listing_handles hlisting hcallers
  | false => exact exec_handles hlisting hi s

theorem exec_singleClaim {s : State} (h : SingleClaim s) (hcallers : callersOnly s.mpc = true) (i : Instr) :
    Ensures SingleClaim (exec i s) := by
  cases hi : isAttendance i with
  | true => exact (exec_attends hi s).mono fun _ ht => ht.singleClaim h
  | false => exact (exec_handles_of_callers hi hcallers).mono fun _ ht => ht.singleClaim h hcallers

theorem mainStep_singleClaim {s : State} (h : SingleClaim s) : Ensures SingleClaim (mainStep s) := by
  unfold mainStep
  split
  next hmpc =>
    split
    · exact .next h
    · exact exec_singleClaim h (by simp [hmpc, callersOnly]) .boot
  next i fs hmpc =>
    have below : callersOnly fs = true := h.callersOnly_of_leaf hmpc
    obtain ⟨there, position, callers⟩ := returned_of_callersOnly (s := s) below
    exact exec_singleClaim (h.move (by simp [hmpc, heldByActive]) there position callers) below i
  next f fs hselected hmpc =>
    have below : callersOnly fs = true := h.callersOnly_of_leaf hmpc
    cases f with
    | chSetup c l => exact .of_eq (execChSetup_at hmpc) (setupAt_singleClaim h hmpc)
    | chTeardown c l =>
      exact .of_eq (execChTeardown_at hmpc) (teardownAt_singleClaim h hmpc)
    | ppsSetup l => exact .of_eq (execPpsSetup_at hmpc) (ppsSetupAt_singleClaim h hmpc)
    | ppsTeardown l =>
      exact .of_eq (execPpsTeardown_at hmpc) (ppsTeardownAt_singleClaim h hmpc)
    | selected i => exact absurd rfl (hselected i)
    | boot | auxSwitch | auxRebaud | wrCounter | wrFreq | wrAuxfn | wrAuxbaud | poll =>
      exact exec_singleClaim h (by simpa [hmpc, callersOnly, Frame.isLeaf] using below) _

/-- A command is taken by an idle main thread. -/
theorem takeCommand_singleClaim {s : State} (h : SingleClaim s) (w : CmdWord) :
    Ensures SingleClaim (takeCommand w s) := by
  unfold takeCommand
  split
  next hidle =>
    split
    next => exact exec_singleClaim h (by simp [hidle, callersOnly]) _
    next => exact .next (h.of_view (s := s) rfl)
    next => exact .next (h.of_view (s := s) rfl)
    next => exact .refused _
  next => exact .next h

/-- Nobody holds anything after a reset (R54). -/
theorem singleClaim_afterReset (p : Params) (d : ResetDraws) (agenda : List Action) (draws : List Nat)
    (freeCtr : Nat) : SingleClaim (State.afterReset p d agenda draws freeCtr) where
  alarmsDistinct := List.nodup_nil
  alarmsClaimed := by simp [heldAlarms, alarmHeld, ppsHeld, State.afterReset]
  dmaDistinct := List.nodup_nil
  dmaClaimed := by simp [heldDma, dmaHeld, State.afterReset]
  position := trivial
  callers := rfl

/-- A property that the steps of the main thread, its commands, the other agents and a reset keep holds after every
entry. -/
theorem perform_of_agents {P : State → Prop} {a : Action} {s : State} (main : Ensures P (mainStep s))
    (command : ∀ w, Ensures P (takeCommand w s))
    (others : ∀ t, isOther a = true → Attends s t → perform a s = .next t → P t)
    (reset : ∀ d, a = .reset d → P (s.applyReset d)) : Ensures P (perform a s) := by
  cases a with
  | main => exact .running main
  | command w => exact .running (command w)
  | reset d => exact .next (reset d rfl)
  | irq | dma | uart | tick | sync | din | quiet =>
    exact ⟨fun h => others _ rfl ((perform_attends rfl s).of_next h) h⟩

end Sys2Proof.Safety

open Sys2Proof Sys2Proof.Machine Sys2Proof.Safety

/-- Settles O16: the listings keep the invariant label by label; whatever else the main thread does moves its position only,
and the other agents touch no claim. -/
theorem stepKeepsSingleClaim : Obligations.StepKeepsSingleClaim := by
  intro s t hs hstep
  have taken : SingleClaim s.nextAction.2 := hs.of_view (by rw [State.nextAction_snd]; rfl)
  exact (perform_of_agents (mainStep_singleClaim taken) (takeCommand_singleClaim taken)
    (fun _ _ ht _ => ht.singleClaim taken) fun d _ => singleClaim_afterReset _ d _ _ _).of_next hstep

end

section
/-!
PROOF. O17: every step keeps the multiplexer's invariant. A listing changes of all that the invariant is read from only what
it builds or takes down (`Builds`, and the `_built` lemmas for the auxiliary resources); the other operations of the main
thread are taken position by position.
-/

namespace Sys2Proof.Safety

open Sys2Proof Sys2Proof.Machine

/-! ## What the invariant is read from -/

/-- The registers, the controller's state, the interval and the auxiliary resources decide what holds at a position. -/
theorem modeAt_congr {s t : State} (settings : settingsOf t = settingsOf s) (built : builtOf t = builtOf s)
    (fs : List Frame) : modeAt t fs ↔ modeAt s fs := by
  obtain ⟨params, -, regs, auxState, intervalUs⟩ := (settingsOf_eq_iff s t).mp settings
  unfold modeAt settled switching rebauding freqOk baudOk
  simp only [params, regs, auxState, intervalUs, built]

/-- What the invariant says of the main thread's position. -/
def Mode (s : State) : Prop := modeAt s s.mpc

theorem Attends.mode {s t : State} (h : Attends s t) (hs : Mode s) : Mode t := by
  have view (u : State) : Mode u = Mode (mainView u) := rfl
  rw [view, h.view, ← view]
  exact hs

/-- An acknowledgement leaves alone what the invariant is read from. -/
theorem ack_mode {s : State} {fs : List Frame} (h : modeAt s fs) (r : BitVec 8) :
    Ensures Mode (.next ((s.ack r).at fs)) := by
  refine .next ((modeAt_congr ?_ ?_ fs).mpr h)
  · unfold State.ack
    split <;> rfl
  · unfold State.ack
    split <;> rfl

/-! ## What a listing of the auxiliary port builds (R154, R156, R185, R187) -/

section
variable {fs : List Frame} {s : State}

/-- After a micro-op of a listing: at another label with its resources, or done and returned. -/
def BuiltAfter {α : Type} (frame : α → Frame) (at_ : α → Built) (done : Built) (fs : List Frame) (t : State) : Prop :=
  (∃ l, t.mpc = frame l :: fs ∧ builtOf t = at_ l) ∨ (t.mpc = fs ∧ builtOf t = done)

theorem builtOf_eq_iff (b : Built) :
    builtOf s = b ↔
      s.ch.aux.active = b.channel ∧ s.pps.active = b.pps ∧ s.pin.aux.fn = b.pin ∧ s.uart.aux.init = b.uart := by
  cases b
  simp only [builtOf, Built.mk.injEq]

theorem claimDma_built {t : State} {d : Nat} (h : s.claimDma = some (d, t)) : builtOf t = builtOf s := by
  obtain ⟨-, -, rfl⟩ := State.claimDma_some h
  rw [State.draw_snd]
  rfl

theorem claimAlarm_built {t : State} {a : Nat} (h : s.claimAlarm = some (a, t)) : builtOf t = builtOf s := by
  obtain ⟨-, -, rfl⟩ := State.claimAlarm_some h
  rw [State.draw_snd]
  rfl

theorem modifyLine_built (q : Nat) (f : IrqLine → IrqLine) : builtOf (s.modifyLine q f) = builtOf s := by
  simp [builtOf]

theorem setLevel_built (v : Bool) : builtOf (s.setLevel v) = builtOf s := by
  unfold State.setLevel
  split <;> rfl

theorem setupUart_built (h : s.uart.aux.init = false) :
    builtOf (s.setupUart .aux) = { builtOf s with uart := true } := by
  simp [State.setupUart, builtOf, h]

theorem setupAt_built {l : SetupAt} (hmpc : s.mpc = .chSetup .aux l :: fs) (hb : builtOf s = Built.setup l) :
    Ensures (BuiltAfter (.chSetup .aux) Built.setup (Built.complete .auxClockBroadcast) fs) (setupAt .aux fs l s) := by
  obtain ⟨channel, pps, pin, uart⟩ := (builtOf_eq_iff _).mp hb
  cases l with
  | s0 => exact .next (.inl ⟨_, rfl, hb⟩)
  | s1a =>
    unfold setupAt
    dsimp only
    split
    next => exact .next (.inl ⟨_, rfl, hb⟩)
    next =>
      split
      next => exact .next (.inl ⟨_, hmpc, hb⟩)
      next hclaim => exact .next (.inl ⟨_, rfl, (claimDma_built hclaim).trans hb⟩)
  | s1b =>
    unfold setupAt
    dsimp only
    split
    next => exact .next (.inl ⟨_, rfl, hb⟩)
    next =>
      split
      next => exact .next (.inl ⟨_, hmpc, hb⟩)
      next hclaim => exact .next (.inl ⟨_, rfl, (claimAlarm_built hclaim).trans hb⟩)
  | s1c => exact .next (.inl ⟨.s2a, rfl, (builtOf_eq_iff _).mpr ⟨rfl, pps, pin, uart⟩⟩)
  | s2a =>
    have ready : builtOf (s.setupUart .aux) = Built.setup .s2b := by
      rw [setupUart_built uart, hb]
      rfl
    exact .next (.inl ⟨.s2b, rfl, ready⟩)
  | s2b => exact .next (.inl ⟨.s3a, rfl, (builtOf_eq_iff _).mpr ⟨channel, pps, rfl, uart⟩⟩)
  | s3a => exact .next (.inl ⟨.s3b, rfl, hb⟩)
  | s3b => exact .next (.inl ⟨.s3c, rfl, hb⟩)
  | s3c => exact .next (.inl ⟨.s4a, rfl, hb⟩)
  | s4a => exact .next (.inl ⟨.s4b, rfl, (modifyLine_built _ _).trans hb⟩)
  | s4b => exact .next (.inl ⟨.s5a, rfl, (modifyLine_built _ _).trans hb⟩)
  | s5a => exact .next (.inl ⟨_, rfl, hb⟩)
  | s5b d => exact .next (.inr ⟨rfl, hb⟩)

theorem teardownAt_built {l : TeardownAt} (hmpc : s.mpc = .chTeardown .aux l :: fs)
    (hb : builtOf s = Built.teardown l) :
    Ensures (BuiltAfter (.chTeardown .aux) Built.teardown (Built.complete .disabled) fs) (teardownAt .aux fs l s) := by
  obtain ⟨channel, pps, pin, uart⟩ := (builtOf_eq_iff _).mp hb
  cases l with
  | t0 =>
    have active : (s.ch.get .aux).active = true := channel
    simp only [teardownAt, active, if_true]
    exact .next (.inl ⟨.t1, rfl, hb⟩)
  | t1 => exact .next (.inl ⟨.t2, rfl, hb⟩)
  | t2 => exact .next (.inl ⟨.t3, rfl, hb⟩)
  | t3 => exact .next (.inl ⟨.t4, rfl, (modifyLine_built _ _).trans hb⟩)
  | t4 => exact .next (.inl ⟨.t5, rfl, hb⟩)
  | t5 => exact .next (.inl ⟨.t6, rfl, (modifyLine_built _ _).trans hb⟩)
  | t6 => exact .next (.inl ⟨.t7, rfl, hb⟩)
  | t7 => exact .next (.inl ⟨.t8, rfl, (builtOf_eq_iff _).mpr ⟨channel, pps, rfl, rfl⟩⟩)
  | t8 => exact .next (.inr ⟨rfl, (builtOf_eq_iff _).mpr ⟨rfl, pps, pin, uart⟩⟩)

theorem ppsSetupAt_built {l : PpsSetupAt} (hmpc : s.mpc = .ppsSetup l :: fs) (hb : builtOf s = Built.ppsSetup l) :
    Ensures (BuiltAfter .ppsSetup Built.ppsSetup (Built.complete .pulsePerSecond) fs) (ppsSetupAt fs l s) := by
  obtain ⟨channel, pps, pin, uart⟩ := (builtOf_eq_iff _).mp hb
  cases l with
  | p0 => exact .next (.inl ⟨.p1a, rfl, hb⟩)
  | p1a =>
    unfold ppsSetupAt
    dsimp only
    split
    next => exact .next (.inl ⟨.p1b, rfl, hb⟩)
    next =>
      split
      next => exact .next (.inl ⟨.p1a, hmpc, hb⟩)
      next hclaim =>
        have claimed := (claimAlarm_built hclaim).trans hb
        exact .next (.inl ⟨.p1b, rfl, claimed⟩)
  | p1b => exact .next (.inl ⟨.p2, rfl, (builtOf_eq_iff _).mpr ⟨channel, rfl, pin, uart⟩⟩)
  | p2 => exact .next (.inl ⟨.p3a, rfl, (builtOf_eq_iff _).mpr ⟨channel, pps, rfl, uart⟩⟩)
  | p3a => exact .next (.inl ⟨.p3b, rfl, (modifyLine_built _ _).trans hb⟩)
  | p3b => exact .next (.inl ⟨.p4a, rfl, (modifyLine_built _ _).trans hb⟩)
  | p4a => exact .next (.inl ⟨_, rfl, (setLevel_built _).trans hb⟩)
  | p4b d => exact .next (.inr ⟨rfl, hb⟩)

theorem ppsTeardownAt_built {l : PpsTeardownAt} (hmpc : s.mpc = .ppsTeardown l :: fs)
    (hb : builtOf s = Built.ppsTeardown l) :
    Ensures (BuiltAfter .ppsTeardown Built.ppsTeardown (Built.complete .disabled) fs) (ppsTeardownAt fs l s) := by
  obtain ⟨channel, pps, pin, uart⟩ := (builtOf_eq_iff _).mp hb
  cases l with
  | r0 =>
    have active : s.pps.active = true := pps
    simp only [ppsTeardownAt, active, if_true]
    exact .next (.inl ⟨.r1, rfl, hb⟩)
  | r1 => exact .next (.inl ⟨.r2, rfl, hb⟩)
  | r2 => exact .next (.inl ⟨.r3, rfl, hb⟩)
  | r3 => exact .next (.inl ⟨.r4, rfl, (modifyLine_built _ _).trans hb⟩)
  | r4 => exact .next (.inl ⟨.r5, rfl, hb⟩)
  | r5 => exact .next (.inl ⟨.r6, rfl, (modifyLine_built _ _).trans hb⟩)
  | r6 => exact .next (.inl ⟨.r7, rfl, (builtOf_eq_iff _).mpr ⟨channel, pps, rfl, uart⟩⟩)
  | r7 => exact .next (.inr ⟨rfl, (builtOf_eq_iff _).mpr ⟨channel, rfl, pin, uart⟩⟩)

/-- The primary channel's setup touches no auxiliary resource. -/
theorem setupAt_pri_built {l : SetupAt} (hmpc : s.mpc = .chSetup .pri l :: fs) :
    Ensures (BuiltAfter (.chSetup .pri) (fun _ => builtOf s) (builtOf s) fs) (setupAt .pri fs l s) := by
  cases l with
  | s0 => exact .next (.inl ⟨_, rfl, rfl⟩)
  | s1a =>
    unfold setupAt
    dsimp only
    split
    next => exact .next (.inl ⟨_, rfl, rfl⟩)
    next =>
      split
      next => exact .next (.inl ⟨_, hmpc, rfl⟩)
      next hclaim =>
        have claimed := claimDma_built hclaim
        exact .next (.inl ⟨_, rfl, claimed⟩)
  | s1b =>
    unfold setupAt
    dsimp only
    split
    next => exact .next (.inl ⟨_, rfl, rfl⟩)
    next =>
      split
      next => exact .next (.inl ⟨_, hmpc, rfl⟩)
      next hclaim =>
        have claimed := claimAlarm_built hclaim
        exact .next (.inl ⟨_, rfl, claimed⟩)
  | s1c => exact .next (.inl ⟨_, rfl, rfl⟩)
  | s2a =>
    have ready : builtOf (s.setupUart .pri) = builtOf s := by
      unfold State.setupUart
      dsimp only
      split <;> rfl
    exact .next (.inl ⟨_, rfl, ready⟩)
  | s2b => exact .next (.inl ⟨_, rfl, rfl⟩)
  | s3a => exact .next (.inl ⟨_, rfl, rfl⟩)
  | s3b => exact .next (.inl ⟨_, rfl, rfl⟩)
  | s3c => exact .next (.inl ⟨_, rfl, rfl⟩)
  | s4a => exact .next (.inl ⟨_, rfl, modifyLine_built _ _⟩)
  | s4b => exact .next (.inl ⟨_, rfl, modifyLine_built _ _⟩)
  | s5a => exact .next (.inl ⟨_, rfl, rfl⟩)
  | s5b d => exact .next (.inr ⟨rfl, rfl⟩)

end

/-! ## The listings at the positions of the invariant -/

/-- Two facts of one outcome. -/
theorem Ensures.and {P Q : State → Prop} {r : Result} (h : Ensures P r) (k : Ensures Q r) :
    Ensures (fun t => P t ∧ Q t) r :=
  ⟨fun ht => ⟨h.of_next ht, k.of_next ht⟩⟩

section
variable {s : State}

theorem switching_congr {t : State} (settings : settingsOf t = settingsOf s) (fn : BitVec 2) (p : BitVec 32) :
    switching t fn p ↔ switching s fn p := by
  obtain ⟨params, -, regs, auxState, intervalUs⟩ := (settingsOf_eq_iff s t).mp settings
  simp only [switching, freqOk, baudOk, params, regs, intervalUs]

theorem rebauding_congr {t : State} (settings : settingsOf t = settingsOf s) : rebauding t ↔ rebauding s := by
  obtain ⟨params, -, regs, auxState, intervalUs⟩ := (settingsOf_eq_iff s t).mp settings
  simp only [rebauding, freqOk, baudOk, params, regs, auxState, intervalUs]

/-- A listing goes on below which nothing changes, or returns: what holds after it at either position. -/
theorem listing_mode {α : Type} {frame : α → Frame} {at_ : α → Built} {done : Built} {fs : List Frame} {r : Result}
    (built : Ensures (BuiltAfter frame at_ done fs) r) (builds : Ensures (Builds s) r)
    (on : ∀ t l, settingsOf t = settingsOf s → builtOf t = at_ l → modeAt t (frame l :: fs))
    (returned : ∀ t, settingsOf t = settingsOf s → builtOf t = done → modeAt t fs) : Ensures Mode r := by
  refine (built.and builds).mono fun t ⟨hbuilt, hbuilds⟩ => ?_
  unfold Mode
  rcases hbuilt with ⟨l, hmpc, hb⟩ | ⟨hmpc, hb⟩
  · exact hmpc ▸ on t l hbuilds.settings hb
  · exact hmpc ▸ returned t hbuilds.settings hb

theorem auxState_of_settings {t : State} (settings : settingsOf t = settingsOf s) : t.auxState = s.auxState :=
  have ⟨_, _, _, auxState, _⟩ := (settingsOf_eq_iff s t).mp settings
  auxState

theorem setupPri_mode {l : SetupAt} (hmpc : s.mpc = [.chSetup .pri l]) (h : Mode s) :
    Ensures Mode (setupAt .pri [] l s) := by
  have idle : modeAt s [] := by rw [Mode, hmpc] at h; exact h
  exact listing_mode (setupAt_pri_built hmpc) (setupAt_builds ..)
    (fun t l' settings hb => (modeAt_congr settings hb [.chSetup .pri l']).mpr idle)
    fun t settings hb => (modeAt_congr settings hb []).mpr idle

theorem switchSetup_mode {l : SetupAt} {fn : BitVec 2} {p : BitVec 32}
    (hmpc : s.mpc = [.chSetup .aux l, .auxSwitch fn .a4, .wrAuxfn p .w6]) (h : Mode s) :
    Ensures Mode (setupAt .aux [.auxSwitch fn .a4, .wrAuxfn p .w6] l s) := by
  rw [Mode, hmpc] at h
  obtain ⟨called, hfn, disabled, built⟩ := h
  refine listing_mode (setupAt_built hmpc built) (setupAt_builds ..) (fun t l' settings hb => ?_) fun t settings hb => ?_
  · exact ⟨(switching_congr settings fn p).mpr called, hfn, (auxState_of_settings settings).trans disabled, hb⟩
  · exact ⟨(switching_congr settings fn p).mpr called, (auxState_of_settings settings).trans disabled,
      .auxClockBroadcast, by rw [hfn]; rfl, hb⟩

theorem switchPulse_mode {l : PpsSetupAt} {fn : BitVec 2} {p : BitVec 32}
    (hmpc : s.mpc = [.ppsSetup l, .auxSwitch fn .a4, .wrAuxfn p .w6]) (h : Mode s) :
    Ensures Mode (ppsSetupAt [.auxSwitch fn .a4, .wrAuxfn p .w6] l s) := by
  rw [Mode, hmpc] at h
  obtain ⟨called, hfn, disabled, built⟩ := h
  refine listing_mode (ppsSetupAt_built hmpc built) (ppsSetupAt_builds ..) (fun t l' settings hb => ?_)
    fun t settings hb => ?_
  · exact ⟨(switching_congr settings fn p).mpr called, hfn, (auxState_of_settings settings).trans disabled, hb⟩
  · exact ⟨(switching_congr settings fn p).mpr called, (auxState_of_settings settings).trans disabled,
      .pulsePerSecond, by rw [hfn]; rfl, hb⟩

theorem switchTeardown_mode {l : TeardownAt} {fn : BitVec 2} {p : BitVec 32}
    (hmpc : s.mpc = [.chTeardown .aux l, .auxSwitch fn .a2, .wrAuxfn p .w6]) (h : Mode s) :
    Ensures Mode (teardownAt .aux [.auxSwitch fn .a2, .wrAuxfn p .w6] l s) := by
  rw [Mode, hmpc] at h
  obtain ⟨called, broadcast, built⟩ := h
  refine listing_mode (teardownAt_built hmpc built) (teardownAt_builds ..) (fun t l' settings hb => ?_)
    fun t settings hb => ?_
  · exact ⟨(switching_congr settings fn p).mpr called, (auxState_of_settings settings).trans broadcast, hb⟩
  · exact ⟨(switching_congr settings fn p).mpr called, hb⟩

theorem switchPulseTeardown_mode {l : PpsTeardownAt} {fn : BitVec 2} {p : BitVec 32}
    (hmpc : s.mpc = [.ppsTeardown l, .auxSwitch fn .a2, .wrAuxfn p .w6]) (h : Mode s) :
    Ensures Mode (ppsTeardownAt [.auxSwitch fn .a2, .wrAuxfn p .w6] l s) := by
  rw [Mode, hmpc] at h
  obtain ⟨called, pulsing, built⟩ := h
  refine listing_mode (ppsTeardownAt_built hmpc built) (ppsTeardownAt_builds ..) (fun t l' settings hb => ?_)
    fun t settings hb => ?_
  · exact ⟨(switching_congr settings fn p).mpr called, (auxState_of_settings settings).trans pulsing, hb⟩
  · exact ⟨(switching_congr settings fn p).mpr called, hb⟩

theorem rebaudTeardown_mode {l : TeardownAt} {p : BitVec 32}
    (hmpc : s.mpc = [.chTeardown .aux l, .auxRebaud .b2, .wrAuxbaud p .w4]) (h : Mode s) :
    Ensures Mode (teardownAt .aux [.auxRebaud .b2, .wrAuxbaud p .w4] l s) := by
  rw [Mode, hmpc] at h
  obtain ⟨called, built⟩ := h
  exact listing_mode (teardownAt_built hmpc built) (teardownAt_builds ..)
    (fun t l' settings hb => ⟨(rebauding_congr settings).mpr called, hb⟩)
    fun t settings hb => ⟨(rebauding_congr settings).mpr called, hb⟩

/-- A rebuilt broadcast is settled again. -/
theorem settled_of_rebauding (h : rebauding s) (hb : builtOf s = Built.complete .auxClockBroadcast) : settled s := by
  obtain ⟨broadcast, fn, -, -⟩ := h
  exact ⟨by rw [broadcast]; exact hb, by rw [broadcast]; exact fn⟩

theorem rebaudSetup_mode {l : SetupAt} {p : BitVec 32} (hmpc : s.mpc = [.chSetup .aux l, .wrAuxbaud p .w4])
    (h : Mode s) : Ensures Mode (setupAt .aux [.wrAuxbaud p .w4] l s) := by
  rw [Mode, hmpc] at h
  obtain ⟨called, built⟩ := h
  refine listing_mode (setupAt_built hmpc built) (setupAt_builds ..)
    (fun t l' settings hb => ⟨(rebauding_congr settings).mpr called, hb⟩) fun t settings hb => ?_
  have there : rebauding t := (rebauding_congr settings).mpr called
  have ⟨_, _, freq, baud⟩ := there
  exact ⟨settled_of_rebauding there hb, freq, baud⟩

end

/-! ## Legal values (R212, R219 to R221) -/

/-- A value within the width of the frequency register keeps its number when it is stored. -/
theorem setWidth16_le {p : BitVec 32} {m : Nat} (h : p.toNat ≤ m) : (p.setWidth 16).toNat ≤ m := by
  rw [BitVec.toNat_setWidth]
  exact (Nat.mod_le _ _).trans h

theorem auxfn_cases {p : BitVec 32} (h : auxfnIllegal p = false) : p = 0 ∨ p = 1 ∨ p = 2 := by
  have hp : p.toNat ≤ 2 := by simpa [auxfnIllegal] using h
  have values : p.toNat = 0 ∨ p.toNat = 1 ∨ p.toNat = 2 := by omega
  exact values.imp (fun h => BitVec.eq_of_toNat_eq h) fun h =>
    h.imp (fun h => BitVec.eq_of_toNat_eq h) fun h => BitVec.eq_of_toNat_eq h

/-- A legal function fits the register, and its controller state has its code. -/
theorem auxfn_legal {p : BitVec 32} (h : auxfnIllegal p = false) :
    tooWide 3 p = false ∧ ∀ x, stateOf (p.setWidth 2) = some x → p.setWidth 8 = codeOf x := by
  rcases auxfn_cases h with rfl | rfl | rfl
  · exact ⟨by decide, fun x hx => by cases hx; rfl⟩
  · exact ⟨by decide, fun x hx => by cases hx; rfl⟩
  · exact ⟨by decide, fun x hx => by cases hx; rfl⟩

theorem stateOf_eq_broadcast {fn : BitVec 2} (h : stateOf fn = some .auxClockBroadcast) : fn = 1 := by
  have functions : ∀ g : BitVec 2, stateOf g = some .auxClockBroadcast → g = 1 := by decide
  exact functions fn h

theorem stateOf_eq_pulse {fn : BitVec 2} (h : stateOf fn = some .pulsePerSecond) : fn = 2 := by
  have functions : ∀ g : BitVec 2, stateOf g = some .pulsePerSecond → g = 2 := by decide
  exact functions fn h

/-- A register byte widened and stored again. -/
theorem setWidth_codes (v : BitVec 8) : (v.setWidth 32).setWidth 8 = v := by
  rw [BitVec.setWidth_setWidth_of_le _ (by omega), BitVec.setWidth_eq]

/-! ## Each caller from its own frame (R32) -/

section
variable {s : State} {p : BitVec 32} {fs : List Frame}

theorem execWrCounter_at (h : s.mpc = .wrCounter p :: fs) :
    execWrCounter p s = s.running (.next ((s.ack 1).at fs)) := by
  simp [execWrCounter, h]

theorem execWrFreq_at {l : FreqAt} (h : s.mpc = .wrFreq p l :: fs) :
    execWrFreq p s = s.running (freqAt p fs l s) := by
  simp [execWrFreq, h]

theorem execWrAuxfn_at {l : AuxfnAt} (h : s.mpc = .wrAuxfn p l :: fs) :
    execWrAuxfn p s = s.running (auxfnAt p fs l s) := by
  simp [execWrAuxfn, h]

theorem execWrAuxbaud_at {l : AuxbaudAt} (h : s.mpc = .wrAuxbaud p l :: fs) :
    execWrAuxbaud p s = s.running (auxbaudAt p fs l s) := by
  simp [execWrAuxbaud, h]

theorem execAuxSwitch_at {fn : BitVec 2} {l : SwitchAt} (h : s.mpc = .auxSwitch fn l :: fs) :
    execAuxSwitch fn s = s.running (switchOrRefuse fn fs l s) := by
  simp [execAuxSwitch, h]

theorem execAuxRebaud_at {l : RebaudAt} (h : s.mpc = .auxRebaud l :: fs) :
    execAuxRebaud s = s.running (rebaudAt fs l s) := by
  simp [execAuxRebaud, h]

theorem execBoot_at (h : s.mpc = .boot :: fs) : execBoot s = s.running (setupAt .pri fs .s0 s) := by
  simp [execBoot, h]

/-- The main thread performs the next micro-op of the operation in progress. -/
theorem Ensures.of_frame {P : State → Prop} {f : Frame} {r : Result} (hmpc : s.mpc = f :: fs)
    (hexec : exec f.instr s = s.running r) (h : Ensures P r) (hf : ∀ i, f ≠ .selected i := by simp) :
    Ensures P (mainStep s) := by
  rw [mainStep_of_frame hmpc hf]
  exact .of_eq hexec h

end

/-! ## The callers, position by position (R181, R182, R217 to R222, R240, R291) -/

section
variable {s : State}

theorem wrFreq_mode {p : BitVec 32} {l : FreqAt} (hmpc : s.mpc = [.wrFreq p l]) (h : Mode s) :
    Ensures Mode (freqAt p [] l s) := by
  rw [Mode, hmpc] at h
  obtain ⟨agree, baud, wide, h⟩ := h
  cases l with
  | w2 => exact .next ⟨agree, baud, wide, rfl⟩
  | w3 =>
    unfold freqAt
    dsimp only
    split
    next => exact .next ⟨agree, ⟨le_refl _, fun _ => rfl⟩, baud⟩
    next hlow => exact .next ⟨agree, baud, wide, h, by simpa using hlow⟩
  | w4 =>
    obtain ⟨stored, hlow⟩ := h
    have legal : (p.setWidth 16).toNat ≤ s.params.maxCounterFreqHz.toNat :=
      setWidth16_le (by simpa [freqTooHigh] using hlow)
    exact .next ⟨agree, baud, wide, stored.symm ▸ legal, fun _ => congrArg interval stored.symm⟩
  | w5 => exact ack_mode (fs := []) ⟨agree, h, baud⟩ 2

theorem wrAuxfn_mode {p : BitVec 32} {l : AuxfnAt} (hmpc : s.mpc = [.wrAuxfn p l]) (h : Mode s) :
    Ensures Mode (auxfnAt p [] l s) := by
  rw [Mode, hmpc] at h
  obtain ⟨freq, baud, wide, built, h⟩ := h
  cases l with
  | w2 => exact .next ⟨freq, baud, wide, built, h, rfl⟩
  | w3 prev =>
    obtain ⟨hprev, stored⟩ := h
    unfold auxfnAt
    dsimp only
    split
    next => exact .next ⟨⟨built, hprev⟩, freq, baud⟩
    next legal => exact .next ⟨freq, baud, wide, built, hprev, stored, by simpa using legal⟩
  | w4 prev =>
    obtain ⟨hprev, stored, legal⟩ := h
    unfold auxfnAt
    dsimp only
    split
    next same =>
      have code : s.regs.auxPortFn = codeOf s.auxState := by rw [stored, same, setWidth_codes, hprev]
      exact ack_mode (fs := []) ⟨⟨built, code⟩, freq, baud⟩ 3
    next changed => exact .next ⟨freq, baud, wide, built, stored, legal, hprev ▸ changed⟩
  | w5 =>
    obtain ⟨stored, legal, changed⟩ := h
    unfold auxfnAt switchOrRefuse
    dsimp only
    split
    · exact .next ⟨⟨rfl, legal, stored, freq, baud⟩, built, changed⟩
    · exact .refused _
  | w6 => exact ack_mode (fs := []) ⟨⟨built, h⟩, freq, baud⟩ 3

theorem auxSwitch_mode {fn : BitVec 2} {p : BitVec 32} {l : SwitchAt}
    (hmpc : s.mpc = [.auxSwitch fn l, .wrAuxfn p .w6]) (h : Mode s) :
    Ensures Mode (switchOrRefuse fn [.wrAuxfn p .w6] l s) := by
  rw [Mode, hmpc] at h
  obtain ⟨called, h⟩ := h
  unfold switchOrRefuse
  split
  next target htarget =>
    cases l with
    | a0 => exact .next ⟨called, h⟩
    | a1 =>
      obtain ⟨built, -⟩ := h
      unfold switchAt
      dsimp only
      split
      next broadcast =>
        rw [broadcast] at built
        have active : (s.ch.get .aux).active = true := ((builtOf_eq_iff _).mp built).1
        simp only [teardownAt, active, if_true]
        exact .next ⟨called, broadcast, built⟩
      next pulsing =>
        rw [pulsing] at built
        obtain ⟨-, active, -⟩ := (builtOf_eq_iff _).mp built
        simp only [ppsTeardownAt, show s.pps.active = true from active, if_true]
        exact .next ⟨called, pulsing, built⟩
      next disabled =>
        rw [disabled] at built
        exact .next ⟨called, built⟩
    | a2 => exact .next ⟨called, rfl, h⟩
    | a3 =>
      obtain ⟨disabled, built⟩ := h
      cases target with
      | auxClockBroadcast => exact .next ⟨called, stateOf_eq_broadcast htarget, disabled, built⟩
      | pulsePerSecond => exact .next ⟨called, stateOf_eq_pulse htarget, disabled, built⟩
      | disabled => exact .next ⟨called, disabled, .disabled, htarget, built⟩
    | a4 =>
      obtain ⟨-, x, hx, built⟩ := h
      obtain ⟨hfn, legal, stored, freq, baud⟩ := called
      cases htarget.symm.trans hx
      obtain ⟨wide, code⟩ := auxfn_legal legal
      exact .next ⟨freq, baud, wide, built, stored.trans (code target (hfn ▸ htarget))⟩
  next => exact .refused _

theorem wrAuxbaud_mode {p : BitVec 32} {l : AuxbaudAt} (hmpc : s.mpc = [.wrAuxbaud p l]) (h : Mode s) :
    Ensures Mode (auxbaudAt p [] l s) := by
  rw [Mode, hmpc] at h
  obtain ⟨agree, freq, h⟩ := h
  cases l with
  | w2 prev =>
    obtain ⟨stored, legal⟩ := h
    unfold auxbaudAt
    dsimp only
    split
    next => exact .next ⟨agree, freq, legal⟩
    next inRange => exact .next ⟨agree, freq, by rw [← stored] at inRange; simpa [baudOk] using inRange⟩
  | w3 =>
    unfold auxbaudAt rebaudAt
    dsimp only
    split
    next broadcast =>
      obtain ⟨built, code⟩ := agree
      have broadcast : s.auxState = .auxClockBroadcast := broadcast
      rw [broadcast] at built code
      exact .next ⟨⟨broadcast, code, freq, h⟩, built⟩
    next => exact .next ⟨agree, freq, h⟩
  | w4 => exact ack_mode (fs := []) ⟨agree, freq, h⟩ 4

theorem auxRebaud_mode {p : BitVec 32} {l : RebaudAt} (hmpc : s.mpc = [.auxRebaud l, .wrAuxbaud p .w4])
    (h : Mode s) : Ensures Mode (rebaudAt [.wrAuxbaud p .w4] l s) := by
  rw [Mode, hmpc] at h
  obtain ⟨called, built⟩ := h
  have ⟨broadcast, _⟩ := called
  cases l with
  | b0 =>
    simp only [rebaudAt, broadcast, if_true]
    exact .next ⟨called, built⟩
  | b1 =>
    have active : (s.ch.get .aux).active = true := ((builtOf_eq_iff _).mp built).1
    simp only [rebaudAt, teardownAt, active, if_true]
    exact .next ⟨called, built⟩
  | b2 => exact .next ⟨called, built⟩

theorem poll_mode {r : BitVec 8} {x : BitVec 32} {l : PollAt} (hmpc : s.mpc = [.poll r x l]) (h : Mode s) :
    Ensures Mode (execPoll r x s) := by
  rw [Mode, hmpc] at h
  have idle : modeAt s [] := h
  unfold execPoll
  simp only [hmpc, and_self, if_true]
  refine .running ?_
  cases l with
  | p2 =>
    have seen : modeAt s.inputs [] := by
      unfold State.inputs
      dsimp only
      split <;> exact idle
    exact .next seen
  | p3 =>
    have counted : modeAt s.counterTick [] := by
      unfold State.counterTick
      split <;> exact idle
    exact .next counted

theorem boot_mode (hmpc : s.mpc = []) (h : Mode s) : Ensures Mode (execBoot s) := by
  rw [Mode, hmpc] at h
  unfold execBoot
  simp only [hmpc]
  exact .running (.next h)

/-- The operations that a command word can select (R102). -/
def isCommand : Instr → Bool
  | .rdConnected _ | .rdCounter _ | .rdFreq _ | .rdAuxfn _ | .rdAuxbaud _ => true
  | .wrConnected _ | .wrCounter _ | .wrFreq _ | .wrAuxfn _ | .wrAuxbaud _ => true
  | .poll _ _ => true
  | _ => false

theorem isCommand_of_decodeRead {r : BitVec 8} {v : BitVec 32} {i : Instr} (h : decodeRead r v = .instr i) :
    isCommand i = true := by
  unfold decodeRead at h
  split at h <;> cases h <;> rfl

theorem isCommand_of_decodeWrite {r : BitVec 8} {v : BitVec 32} {i : Instr} (h : decodeWrite r v = .instr i) :
    isCommand i = true := by
  unfold decodeWrite at h
  split at h <;> cases h <;> rfl

theorem isCommand_of_decode {w : CmdWord} {i : Instr} (h : decodeCommand w = .instr i) : isCommand i = true := by
  unfold decodeCommand at h
  split at h
  · exact isCommand_of_decodeRead h
  · exact isCommand_of_decodeWrite h
  · cases h
    rfl
  · cases h

theorem readRegister_mode (i : Instr) (r : BitVec 8) (h : Mode s) : Ensures Mode (readRegister i r s) :=
  .running (.next ((modeAt_congr (s := s) rfl rfl s.mpc).mpr h))

/-- A command of an idle main thread. -/
theorem command_mode {i : Instr} (hi : isCommand i = true) (hmpc : s.mpc = []) (h : Mode s) :
    Ensures Mode (exec i s) := by
  have ⟨⟨built, code⟩, freq, baud⟩ : modeAt s [] := by rw [Mode, hmpc] at h; exact h
  have idle : modeAt s [] := ⟨⟨built, code⟩, freq, baud⟩
  cases i with
  | rdConnected x => exact readRegister_mode _ 0 h
  | rdCounter x => exact readRegister_mode _ 1 h
  | rdFreq x => exact readRegister_mode _ 2 h
  | rdAuxfn x => exact readRegister_mode _ 3 h
  | rdAuxbaud x => exact readRegister_mode _ 4 h
  | wrConnected p => exact .running (.next ((modeAt_congr (s := s) rfl rfl s.mpc).mpr h))
  | wrCounter p =>
    change Ensures Mode (execWrCounter p s)
    simp only [execWrCounter, hmpc]
    exact .running (.next idle)
  | wrFreq p =>
    change Ensures Mode (execWrFreq p s)
    simp only [execWrFreq, hmpc, freqStart]
    refine .running ?_
    split
    next => exact .next ((modeAt_congr (s := s) rfl rfl s.mpc).mpr h)
    next fits => exact .next ⟨⟨built, code⟩, baud, by simpa using fits, freq⟩
  | wrAuxfn p =>
    change Ensures Mode (execWrAuxfn p s)
    simp only [execWrAuxfn, hmpc, auxfnStart]
    refine .running ?_
    split
    next => exact .next ((modeAt_congr (s := s) rfl rfl s.mpc).mpr h)
    next fits => exact .next ⟨freq, baud, by simpa using fits, built, code⟩
  | wrAuxbaud p =>
    change Ensures Mode (execWrAuxbaud p s)
    simp only [execWrAuxbaud, hmpc, auxbaudStart]
    exact .running (.next ⟨⟨built, code⟩, freq, rfl, baud⟩)
  | poll r x =>
    change Ensures Mode (execPoll r x s)
    simp only [execPoll, hmpc]
    exact .running (.next idle)
  | _ => cases hi

/-! ## Every step -/

theorem takeCommand_mode (h : Mode s) (w : CmdWord) : Ensures Mode (takeCommand w s) := by
  unfold takeCommand
  split
  next hidle =>
    split
    next hdecode => exact command_mode (isCommand_of_decode hdecode) hidle.1 h
    next => exact .next ((modeAt_congr (s := s) rfl rfl s.mpc).mpr h)
    next => exact .next ((modeAt_congr (s := s) rfl rfl s.mpc).mpr h)
    next => exact .refused _
  next => exact .next h

/-- The frames on which the main thread stands only by `State.withFetchWord` are no positions of the invariant. -/
theorem mainStep_mode (h : Mode s) : Ensures Mode (mainStep s) := by
  have hmode := h
  unfold Mode modeAt at h
  split at h
  next hmpc =>
    unfold mainStep
    simp only [hmpc]
    split
    · exact .next hmode
    · exact boot_mode hmpc hmode
  next hmpc => exact .of_frame hmpc (execBoot_at hmpc) (.next h)
  next hmpc => exact .of_frame hmpc (execChSetup_at hmpc) (setupPri_mode hmpc hmode)
  next hmpc => exact .of_frame hmpc (execWrCounter_at hmpc) (ack_mode (fs := []) h 1)
  next hmpc =>
    rw [mainStep_of_frame hmpc (by simp)]
    exact poll_mode hmpc hmode
  next hmpc => exact .of_frame hmpc (execWrFreq_at hmpc) (wrFreq_mode hmpc hmode)
  next hmpc => exact .of_frame hmpc (execWrAuxfn_at hmpc) (wrAuxfn_mode hmpc hmode)
  next hmpc => exact .of_frame hmpc (execAuxSwitch_at hmpc) (auxSwitch_mode hmpc hmode)
  next hmpc => exact .of_frame hmpc (execChTeardown_at hmpc) (switchTeardown_mode hmpc hmode)
  next hmpc => exact .of_frame hmpc (execPpsTeardown_at hmpc) (switchPulseTeardown_mode hmpc hmode)
  next hmpc => exact .of_frame hmpc (execChSetup_at hmpc) (switchSetup_mode hmpc hmode)
  next hmpc => exact .of_frame hmpc (execPpsSetup_at hmpc) (switchPulse_mode hmpc hmode)
  next hmpc => exact .of_frame hmpc (execWrAuxbaud_at hmpc) (wrAuxbaud_mode hmpc hmode)
  next hmpc => exact .of_frame hmpc (execAuxRebaud_at hmpc) (auxRebaud_mode hmpc hmode)
  next hmpc => exact .of_frame hmpc (execChTeardown_at hmpc) (rebaudTeardown_mode hmpc hmode)
  next hmpc => exact .of_frame hmpc (execChSetup_at hmpc) (rebaudSetup_mode hmpc hmode)
  next => exact h.elim

/-- The reset rate is a legal one (R4, R54). -/
theorem baudOk_reset {p : Params} (h : p.valid = true) : baudOutOfRange p p.auxBaudReset = false := by
  simp only [Params.valid, Bool.and_eq_true, decide_eq_true_eq] at h
  simp only [baudOutOfRange, Bool.or_eq_false_iff, decide_eq_false_iff_not, not_lt]
  simp only [h, and_self]

theorem mode_afterReset {p : Params} (h : p.valid = true) (d : ResetDraws) (agenda : List Action) (draws : List Nat)
    (freeCtr : Nat) : Mode (State.afterReset p d agenda draws freeCtr) :=
  ⟨⟨rfl, rfl⟩, ⟨Nat.zero_le _, fun h => absurd rfl h⟩, baudOk_reset h⟩

end

end Sys2Proof.Safety

open Sys2Proof Sys2Proof.Machine Sys2Proof.Safety

/-- Settles O17: the parameters never change (O27); what holds at the position the main thread reaches is proved position by
position, and the other agents leave alone what it is read from. -/
theorem stepKeepsMultiplexed : Obligations.StepKeepsMultiplexed := by
  intro s t hs hstep
  have valid : t.params.valid = true := (timeBaseIsTheEnvironments s t hstep).1 ▸ hs.params
  have taken : Mode s.nextAction.2 := by
    rw [State.nextAction_snd]
    exact (modeAt_congr (s := s) rfl rfl s.mpc).mpr hs.mode
  have params : s.nextAction.2.params = s.params := (nextAction_evolves s).params
  exact ⟨valid, (perform_of_agents (mainStep_mode taken) (takeCommand_mode taken) (fun _ _ ht _ => ht.mode taken)
    fun d _ => mode_afterReset (params ▸ hs.params) d _ _ _).of_next hstep⟩

end

section
/-!
PROOF. O18 and O19: every step keeps the ping-pong discipline, and with it no store reaches a slot that a transfer reads.
First what becomes of a line when a line is rewritten, then which updates touch nothing that the discipline is read from.
-/

namespace Sys2Proof.Safety

open Sys2Proof Sys2Proof.Machine

/-! ## Lines (R41) -/

theorem alarmOf_eq_some {s : State} {q a : Nat} (h : s.alarmOf q = some a) : s.params.irqOf[a]? = some q := by
  obtain ⟨hlt, hq, -⟩ := List.idxOf?_eq_some_iff.mp h
  rw [List.getElem?_eq_getElem hlt, hq]

theorem line_of_alarmOf {s : State} {q a : Nat} (h : s.alarmOf q = some a) :
    s.line q = s.lines.getD a IrqLine.absent := by
  unfold State.line
  rw [h]

theorem line_of_alarmOf_none {s : State} {q : Nat} (h : s.alarmOf q = none) : s.line q = IrqLine.absent := by
  unfold State.line
  rw [h]

theorem alarmOf_modifyLine (s : State) (q q' : Nat) (f : IrqLine → IrqLine) :
    (s.modifyLine q f).alarmOf q' = s.alarmOf q' := by
  simp [State.alarmOf]

theorem lines_modifyLine {s : State} {q a : Nat} (h : s.alarmOf q = some a) (f : IrqLine → IrqLine) :
    (s.modifyLine q f).lines = s.lines.modify a f := by
  unfold State.modifyLine
  rw [h]

theorem modifyLine_of_none {s : State} {q : Nat} (h : s.alarmOf q = none) (f : IrqLine → IrqLine) :
    s.modifyLine q f = s := by
  unfold State.modifyLine
  rw [h]

theorem line_modifyLine_other (s : State) {q q' : Nat} (f : IrqLine → IrqLine) (hq : q' ≠ q) :
    (s.modifyLine q f).line q' = s.line q' := by
  cases h : s.alarmOf q with
  | none => rw [modifyLine_of_none h]
  | some a =>
    cases h' : s.alarmOf q' with
    | none => rw [line_of_alarmOf_none h', line_of_alarmOf_none (by rw [alarmOf_modifyLine, h'])]
    | some a' =>
      have hne : a ≠ a' := by
        rintro rfl
        exact hq (Option.some.inj ((alarmOf_eq_some h').symm.trans (alarmOf_eq_some h)))
      rw [line_of_alarmOf h', line_of_alarmOf (by rw [alarmOf_modifyLine, h']), lines_modifyLine h]
      simp [List.getD_eq_getElem?_getD, hne]

/-- A line that exists is rewritten. -/
theorem line_modifyLine_same {s : State} {q a : Nat} (h : s.alarmOf q = some a) (hlt : a < s.lines.length)
    (f : IrqLine → IrqLine) : (s.modifyLine q f).line q = f (s.line q) := by
  rw [line_of_alarmOf h, line_of_alarmOf (by rw [alarmOf_modifyLine, h]), lines_modifyLine h]
  simp [List.getD_eq_getElem?_getD, List.getElem?_eq_getElem hlt]

/-- A line that does not exist stays disabled and without a handler. -/
theorem line_modifyLine_absent {s : State} {q : Nat} (h : ∀ a, s.alarmOf q = some a → s.lines.length ≤ a)
    (f : IrqLine → IrqLine) : (s.modifyLine q f).line q = IrqLine.absent := by
  cases ha : s.alarmOf q with
  | none => rw [modifyLine_of_none ha, line_of_alarmOf_none ha]
  | some a =>
    have hout : s.lines[a]? = none := List.getElem?_eq_none (h a ha)
    rw [line_of_alarmOf (by rw [alarmOf_modifyLine, ha]), lines_modifyLine ha]
    simp [List.getD_eq_getElem?_getD, hout]

/-- What a line is after one is rewritten. -/
theorem line_modifyLine_cases (s : State) (q q' : Nat) (f : IrqLine → IrqLine) :
    (q' = q ∧ (s.modifyLine q f).line q' = f (s.line q')) ∨
      (s.modifyLine q f).line q' = IrqLine.absent ∨ (q' ≠ q ∧ (s.modifyLine q f).line q' = s.line q') := by
  by_cases hq : q' = q
  · subst hq
    by_cases h : ∀ a, s.alarmOf q' = some a → s.lines.length ≤ a
    · exact .inr (.inl (line_modifyLine_absent h f))
    · obtain ⟨a, ha, hlt⟩ : ∃ a, s.alarmOf q' = some a ∧ a < s.lines.length := by
        simpa only [not_forall, not_le, exists_prop] using h
      exact .inl ⟨rfl, line_modifyLine_same ha hlt f⟩
  · exact .inr (.inr ⟨hq, line_modifyLine_other s f hq⟩)

/-- In a canonical state every line that belongs to a slot exists (R38, R41). -/
theorem Canonical.line_exists {s : State} (hc : Canonical s) {q a : Nat} (h : s.alarmOf q = some a) :
    a < s.lines.length := by
  have hlength : s.params.irqOf.length = s.params.nAlarms := by
    have valid := hc.params
    simp only [Params.valid, Bool.and_eq_true, decide_eq_true_eq] at valid
    simp only [valid]
  obtain ⟨hlt, -⟩ := List.idxOf?_eq_some_iff.mp h
  rw [hc.lines, ← hlength]
  exact hlt

/-- After a handler is bound, the line has it, or does not exist. -/
theorem Canonical.bind_handler {s : State} (hc : Canonical s) (q : Nat) (x : Handler) :
    ((s.bind q x).line q).handler = x ∨ (s.bind q x).alarmOf q = none := by
  cases h : s.alarmOf q with
  | none => exact .inr ((alarmOf_modifyLine s q q _).trans h)
  | some a =>
    refine .inl ?_
    unfold State.bind
    rw [line_modifyLine_same h (hc.line_exists h)]

/-! ## What the discipline is read from -/

/-- A data-mover channel but for its claim and its progress. -/
def transferOf (x : DmaChan) : DmaChan := { x with claimed := false, pos := 0, count := 0 }

/-- The transfers, the contexts' ids and flags, the lines and the position; everything else is blanked. -/
def swapView (s : State) : State :=
  { s with
    regs := { connectedDevices := 0, counter := 0, counterFreqHz := 0, auxPortFn := 0, auxBaudRate := 0 }
    lt := 0
    offs := 0
    hasSynced := false
    alarms := []
    dma := s.dma.map transferOf
    uart := { pri := { init := false, baud := 0, fifo := [] }, aux := { init := false, baud := 0, fifo := [] } }
    pin := { pri := { fn := .none, level := false }, aux := { fn := .none, level := false } }
    ch := pairMap (fun x => { x with alarm := 0, baud := 0, offsetUs := 0 }) s.ch
    buf := []
    pps := { s.pps with alarm := 0 }
    intervalUs := 0
    lastEmitUs := 0
    prevInputs := 0
    prevSynced := false
    fault := none
    quiet := false
    din := 0
    wire := { pri := [], aux := [] }
    txLog := []
    edgeLog := []
    rlog := []
    hist := []
    agenda := []
    draws := []
    freeCtr := 0 }

theorem dmaChan_swapView (s : State) (d : Nat) : (swapView s).dmaChan d = transferOf (s.dmaChan d) := by
  simp only [State.dmaChan, swapView, List.getD_eq_getElem?_getD, List.getElem?_map]
  cases s.dma[d]? <;> rfl

theorem ch_swapView (s : State) (c : Ch) :
    ((swapView s).ch.get c).active = (s.ch.get c).active ∧ ((swapView s).ch.get c).dma = (s.ch.get c).dma ∧
      ((swapView s).ch.get c).irq = (s.ch.get c).irq ∧
      ((swapView s).ch.get c).dispatchIdx = (s.ch.get c).dispatchIdx := by
  simp [swapView]

theorem line_swapView (s : State) (q : Nat) : (swapView s).line q = s.line q := rfl

theorem alarmOf_swapView (s : State) (q : Nat) : (swapView s).alarmOf q = s.alarmOf q := rfl

theorem quiet_iff_swapView (s : State) (c : Ch) : Quiet (swapView s) c ↔ Quiet s c := by
  constructor
  · intro h
    exact ⟨fun d => by simpa [dmaChan_swapView, transferOf] using h.transfers d, h.lines⟩
  · intro h
    exact ⟨fun d => by simpa [dmaChan_swapView, transferOf] using h.transfers d, h.lines⟩

theorem swapPosition_swapView (s : State) (fs : List Frame) : swapPosition (swapView s) fs ↔ swapPosition s fs := by
  have pps : (swapView s).pps.irq = s.pps.irq := rfl
  unfold swapPosition
  simp only [ch_swapView, quiet_iff_swapView, line_swapView, alarmOf_swapView, pps]

theorem pingPong_swapView (s : State) : PingPong (swapView s) ↔ PingPong s := by
  constructor
  · intro h
    exact ⟨fun d => by simpa [dmaChan_swapView, transferOf, ch_swapView] using h.transfers d,
      fun q c => by simpa [line_swapView, ch_swapView] using h.lines q c, h.unbooted,
      (swapPosition_swapView s _).mp h.position⟩
  · intro h
    exact ⟨fun d => by simpa [dmaChan_swapView, transferOf, ch_swapView] using h.transfers d,
      fun q c => by simpa [line_swapView, ch_swapView] using h.lines q c, h.unbooted,
      (swapPosition_swapView s _).mpr h.position⟩

theorem PingPong.of_view {s t : State} (h : PingPong s) (hview : swapView t = swapView s) : PingPong t :=
  (pingPong_swapView t).mp (hview ▸ (pingPong_swapView s).mpr h)

theorem swapView_at {s t : State} (h : swapView t = swapView s) (fs : List Frame) :
    swapView (t.at fs) = swapView (s.at fs) := by
  have moved := congrArg (fun v => v.at fs) h
  exact moved

theorem swapView_claimDma {s t : State} {d : Nat} (h : s.claimDma = some (d, t)) : swapView t = swapView s := by
  obtain ⟨-, -, rfl⟩ := State.claimDma_some h
  have transfers := map_modify_absorb (g := transferOf) (f := fun x => { x with claimed := true }) (fun _ => rfl) s.dma d
  rw [State.draw_snd]
  simp [swapView, State.modifyDma, transfers]

theorem swapView_claimAlarm {s t : State} {a : Nat} (h : s.claimAlarm = some (a, t)) : swapView t = swapView s := by
  obtain ⟨-, -, rfl⟩ := State.claimAlarm_some h
  rw [State.draw_snd]
  rfl

theorem swapView_setupUart (s : State) (c : Ch) : swapView (s.setupUart c) = swapView s := by
  unfold State.setupUart
  cases c <;> dsimp only <;> split <;> rfl

theorem swapView_releaseUart (s : State) (c : Ch) : swapView (s.releaseUart c) = swapView s := by
  unfold State.releaseUart
  split <;> rfl

theorem swapView_setLevel (s : State) (v : Bool) : swapView (s.setLevel v) = swapView s := by
  unfold State.setLevel
  split <;> rfl

theorem Quiet.congr {s t : State} (dma : t.dma = s.dma) (line : t.line = s.line) (c : Ch) : Quiet t c ↔ Quiet s c := by
  have chan : t.dmaChan = s.dmaChan := by
    funext d
    simp only [State.dmaChan, dma]
  constructor
  · intro h
    exact ⟨chan ▸ h.transfers, line ▸ h.lines⟩
  · intro h
    exact ⟨chan ▸ h.transfers, line ▸ h.lines⟩

theorem swapPosition_congr {s t : State} (ch : t.ch = s.ch) (dma : t.dma = s.dma) (line : t.line = s.line)
    (alarmOf : t.alarmOf = s.alarmOf) (irq : t.pps.irq = s.pps.irq) (fs : List Frame) :
    swapPosition t fs ↔ swapPosition s fs := by
  unfold swapPosition
  simp only [ch, line, alarmOf, irq, Quiet.congr dma line]

/-! ## Single updates under the discipline -/

section
variable {s : State} {fs : List Frame}

/-- An operation is in progress only after `BOOT` has been taken (R33). -/
theorem PingPong.booted (h : PingPong s) (hmpc : s.mpc ≠ []) : s.booted = true := by
  cases hb : s.booted with
  | true => rfl
  | false => exact absurd (h.unbooted hb).1 hmpc

theorem quiet_of_inactive (h : PingPong s) {c : Ch} (hinactive : (s.ch.get c).active = false) : Quiet s c where
  transfers d hbusy hsrc := by
    have active := (h.transfers d hbusy).1
    rw [hsrc, hinactive] at active
    cases active
  lines q henabled hhandler := by
    have active := (h.lines q c henabled hhandler).1
    rw [hinactive] at active
    cases active

theorem PingPong.at (h : PingPong s) (hbooted : s.booted = true) (position : swapPosition s fs) :
    PingPong (s.at fs) where
  transfers := h.transfers
  lines := h.lines
  unbooted hb := by simp [hbooted] at hb
  position := (swapPosition_congr (s := s) (t := s.at fs) rfl rfl rfl rfl rfl fs).mpr position

/-- A move, with anything done that the discipline is not read from. -/
theorem PingPong.step {t : State} (h : PingPong s) (hbooted : s.booted = true) (hview : swapView t = swapView s)
    (position : swapPosition s fs) : Ensures PingPong (.next (t.at fs)) :=
  .next ((h.at hbooted position).of_view (swapView_at hview fs))

theorem PingPong.raise (h : PingPong s) (e : FaultCode) : Ensures PingPong (s.raise e) :=
  .next (h.of_view (t := s.withFault e) rfl)

/-- The context of a quiet channel may be rewritten. -/
theorem PingPong.setCh (h : PingPong s) (hbooted : s.booted = true) {c : Ch} (hquiet : Quiet s c) (v : Channel)
    (position : swapPosition (s.setCh c v) fs) : PingPong ((s.setCh c v).at fs) where
  transfers d hbusy := by
    have other : (s.dmaChan d).srcCh ≠ c := hquiet.transfers d hbusy
    have old := h.transfers d hbusy
    rw [← Pair.get_set_other s.ch v other] at old
    exact old
  lines q e henabled hhandler := by
    have other : e ≠ c := fun hec => hquiet.lines q henabled (hec ▸ hhandler)
    have old := h.lines q e henabled hhandler
    rw [← Pair.get_set_other s.ch v other] at old
    exact old
  unbooted hb := by simp [hbooted] at hb
  position := (swapPosition_congr (s := s.setCh c v) (t := (s.setCh c v).at fs) rfl rfl rfl rfl rfl fs).mpr position

theorem quiet_setCh {c : Ch} (hquiet : Quiet s c) (v : Channel) : Quiet (s.setCh c v) c :=
  (Quiet.congr (s := s) (t := s.setCh c v) rfl rfl c).mpr hquiet

/-- A line may be rewritten if, enabled and bound to a channel, it is that active channel's own. -/
theorem PingPong.modifyLine (h : PingPong s) (hbooted : s.booted = true) (q : Nat) (f : IrqLine → IrqLine)
    (own : ∀ c, (f (s.line q)).enabled = true → (f (s.line q)).handler = .chFire c →
      (s.ch.get c).active = true ∧ (s.ch.get c).irq = q)
    (position : swapPosition (s.modifyLine q f) fs) : PingPong ((s.modifyLine q f).at fs) where
  transfers d hbusy := by
    simp only [State.dmaChan, State.at_dma, State.modifyLine_dma, State.at_ch, State.modifyLine_ch] at hbusy ⊢
    exact h.transfers d hbusy
  lines q' c henabled hhandler := by
    change ((s.modifyLine q f).line q').enabled = true at henabled
    change ((s.modifyLine q f).line q').handler = .chFire c at hhandler
    rw [State.at_ch, State.modifyLine_ch]
    rcases line_modifyLine_cases s q q' f with ⟨rfl, hline⟩ | hline | ⟨-, hline⟩
    · rw [hline] at henabled hhandler
      exact own c henabled hhandler
    · rw [hline] at henabled
      cases henabled
    · rw [hline] at henabled hhandler
      exact h.lines q' c henabled hhandler
  unbooted hb := by simp [hbooted] at hb
  position :=
    (swapPosition_congr (s := s.modifyLine q f) (t := (s.modifyLine q f).at fs) rfl rfl rfl rfl rfl fs).mpr position

/-- The pulse's context may be rewritten. -/
theorem PingPong.setPps (h : PingPong s) (hbooted : s.booted = true) (x : PpsContext)
    (position : swapPosition { s with pps := x } fs) : PingPong (State.at { s with pps := x } fs) where
  transfers := h.transfers
  lines := h.lines
  unbooted hb := by simp [hbooted] at hb
  position :=
    (swapPosition_congr (s := { s with pps := x }) (t := State.at { s with pps := x } fs) rfl rfl rfl rfl rfl fs).mpr
      position

/-- A data mover that is busy after one is released is another one, and as it was. -/
theorem dmaChan_releaseDma (d : Nat) {e : Nat} (hbusy : ((s.releaseDma d).dmaChan e).busy = true) :
    e ≠ d ∧ (s.releaseDma d).dmaChan e = s.dmaChan e := by
  have hne : e ≠ d := by
    rintro rfl
    by_cases hlt : e < s.dma.length
    · simp [State.releaseDma, State.dmaChan_modifyDma _ _ _ _ hlt] at hbusy
    · simp [State.dmaChan, hlt, DmaChan.absent] at hbusy
  exact ⟨hne, State.dmaChan_modifyDma_other s _ hne⟩

/-- `t6`: the channel's transfer is aborted, and its line no longer runs its handler. -/
theorem PingPong.releaseDma (h : PingPong s) (hbooted : s.booted = true) {c : Ch}
    (hlines : ∀ q, (s.line q).enabled = true → (s.line q).handler ≠ .chFire c) :
    PingPong ((s.releaseDma (s.ch.get c).dma).at (.chTeardown c .t7 :: fs)) := by
  generalize ht : (s.releaseDma (s.ch.get c).dma).at (.chTeardown c .t7 :: fs) = t
  have left {d : Nat} (hbusy : (t.dmaChan d).busy = true) :
      d ≠ (s.ch.get c).dma ∧ t.dmaChan d = s.dmaChan d := by
    rw [← ht] at hbusy ⊢
    exact dmaChan_releaseDma _ hbusy
  have hch : t.ch = s.ch := by rw [← ht]; rfl
  have hmpc : t.mpc = .chTeardown c .t7 :: fs := by rw [← ht]; rfl
  have lines : t.line = s.line := by rw [← ht]; rfl
  refine ⟨fun d hbusy => ?_, fun q e henabled hhandler => ?_, fun hb => ?_, hmpc ▸ ⟨fun d hbusy hsrc => ?_, ?_⟩⟩
  · obtain ⟨-, hsame⟩ := left hbusy
    rw [hsame] at hbusy ⊢
    rw [hch]
    exact h.transfers d hbusy
  · rw [lines] at henabled hhandler
    rw [hch]
    exact h.lines q e henabled hhandler
  · have booted : t.booted = s.booted := by rw [← ht]; rfl
    rw [booted, hbooted] at hb
    cases hb
  · obtain ⟨hne, hsame⟩ := left hbusy
    rw [hsame] at hbusy hsrc
    have own := (h.transfers d hbusy).2.1
    exact hne (hsrc ▸ own).symm
  · rw [lines]
    exact hlines

/-! ## The listings, label by label (R154, R156, R185, R187) -/

theorem setupAt_pingPong (h : PingPong s) (hc : Canonical s) {c : Ch} {l : SetupAt}
    (hmpc : s.mpc = .chSetup c l :: fs) (returned : swapPosition s fs) : Ensures PingPong (setupAt c fs l s) := by
  have hbooted : s.booted = true := h.booted (by simp [hmpc])
  have here := h.position
  rw [hmpc] at here
  have claimed {t : State} {l' : SetupAt} (hview : swapView t = swapView s) (hch : t.ch = s.ch)
      (hinactive : (s.ch.get c).active = false) (v : Channel) (position : swapPosition (t.setCh c v) (.chSetup c l' :: fs)) :
      PingPong ((t.setCh c v).at (.chSetup c l' :: fs)) := by
    have ht : PingPong t := h.of_view hview
    have inactive : (t.ch.get c).active = false := by rw [hch]; exact hinactive
    exact ht.setCh ((congrArg State.booted hview).trans hbooted) (quiet_of_inactive ht inactive) v position
  cases l with
  | s0 => exact h.step hbooted rfl here
  | s1a =>
    have inactive : (s.ch.get c).active = false := here
    simp only [setupAt, inactive, Bool.false_eq_true, if_false]
    split
    next => exact h.raise _
    next d t hclaim =>
      obtain ⟨-, hch, -⟩ := claimDma_keeps hclaim
      exact .next (claimed (swapView_claimDma hclaim) hch inactive _ (by simpa [swapPosition, hch] using inactive))
  | s1b =>
    have inactive : (s.ch.get c).active = false := here
    simp only [setupAt, inactive, Bool.false_eq_true, if_false]
    split
    next => exact h.raise _
    next a t hclaim =>
      obtain ⟨-, hch, -⟩ := claimAlarm_keeps hclaim
      exact .next (claimed (swapView_claimAlarm hclaim) hch inactive _ (by simpa [swapPosition, hch] using inactive))
  | s1c =>
    have hquiet : Quiet s c := quiet_of_inactive h here
    exact .next (h.setCh hbooted hquiet _ ⟨by simp, quiet_setCh hquiet _⟩)
  | s2a => exact h.step hbooted (swapView_setupUart s c) here
  | s2b => exact h.step hbooted rfl here
  | s3a => exact h.step hbooted rfl here
  | s3b => exact h.step hbooted rfl here
  | s3c =>
    obtain ⟨active, hquiet⟩ : (s.ch.get c).active = true ∧ Quiet s c := here
    exact .next (h.setCh hbooted hquiet _ ⟨by simpa using active, quiet_setCh hquiet _⟩)
  | s4a =>
    obtain ⟨active, hquiet⟩ : (s.ch.get c).active = true ∧ Quiet s c := here
    refine .next (h.modifyLine hbooted _ _ ?_ ?_)
    · intro e _ hhandler
      cases hhandler
      exact ⟨active, rfl⟩
    · have bound := hc.bind_handler (s.ch.get c).irq (.chFire c)
      simpa [swapPosition, State.bind] using And.intro active bound
  | s4b =>
    obtain ⟨active, bound⟩ : (s.ch.get c).active = true ∧
      ((s.line (s.ch.get c).irq).handler = .chFire c ∨ s.alarmOf (s.ch.get c).irq = none) := here
    refine .next (h.modifyLine hbooted _ _ ?_ trivial)
    intro e _ hhandler
    rcases bound with bound | absent
    · cases bound.symm.trans hhandler
      exact ⟨active, rfl⟩
    · rw [line_of_alarmOf_none absent] at hhandler
      cases hhandler
  | s5a => exact h.step hbooted rfl trivial
  | s5b d => exact h.step hbooted rfl returned

theorem teardownAt_pingPong (h : PingPong s) {c : Ch} {l : TeardownAt} (hmpc : s.mpc = .chTeardown c l :: fs)
    (returned : ∀ t, swapPosition t fs) : Ensures PingPong (teardownAt c fs l s) := by
  have hbooted : s.booted = true := h.booted (by simp [hmpc])
  have here := h.position
  rw [hmpc] at here
  cases l with
  | t0 =>
    unfold teardownAt
    dsimp only
    split
    next => exact h.step hbooted rfl trivial
    next => exact h.step hbooted rfl (returned s)
  | t1 => exact h.step hbooted rfl trivial
  | t2 => exact h.step hbooted rfl trivial
  | t3 =>
    refine .next (h.modifyLine hbooted _ _ (fun e henabled => by cases henabled) ?_)
    intro q henabled hhandler
    rcases line_modifyLine_cases s (s.ch.get c).irq q fun x => { x with enabled := false } with
      ⟨-, hline⟩ | hline | ⟨hne, hline⟩
    · rw [hline] at henabled
      cases henabled
    · rw [hline] at henabled
      cases henabled
    · rw [hline] at henabled hhandler
      exact hne (h.lines q c henabled hhandler).2.symm
  | t4 => exact h.step hbooted rfl here
  | t5 =>
    refine .next (h.modifyLine hbooted _ _ (fun e _ hhandler => by cases hhandler) ?_)
    intro q henabled hhandler
    rcases line_modifyLine_cases s (s.ch.get c).irq q fun x => { x with handler := .none } with
      ⟨-, hline⟩ | hline | ⟨-, hline⟩
    · rw [hline] at hhandler
      cases hhandler
    · rw [hline] at henabled
      cases henabled
    · rw [hline] at henabled hhandler
      exact here q henabled hhandler
  | t6 => exact .next (h.releaseDma hbooted here)
  | t7 => exact h.step hbooted (swapView_releaseUart s c) here
  | t8 => exact .next (h.setCh hbooted here _ (returned _))

theorem ppsSetupAt_pingPong (h : PingPong s) (hc : Canonical s) {l : PpsSetupAt} (hmpc : s.mpc = .ppsSetup l :: fs)
    (returned : swapPosition s fs) : Ensures PingPong (ppsSetupAt fs l s) := by
  have hbooted : s.booted = true := h.booted (by simp [hmpc])
  have here := h.position
  rw [hmpc] at here
  cases l with
  | p0 => exact h.step hbooted rfl trivial
  | p1a =>
    unfold ppsSetupAt
    dsimp only
    split
    next => exact h.step hbooted rfl trivial
    next =>
      split
      next => exact h.raise _
      next a t hclaim =>
        have hview := swapView_claimAlarm hclaim
        exact .next ((h.of_view hview).setPps ((congrArg State.booted hview).trans hbooted) _ trivial)
  | p1b => exact .next (h.setPps hbooted _ trivial)
  | p2 => exact h.step hbooted rfl trivial
  | p3a =>
    refine .next (h.modifyLine hbooted _ _ (fun e _ hhandler => by cases hhandler) ?_)
    have bound := hc.bind_handler s.pps.irq .ppsFire
    simpa [swapPosition, State.bind] using bound
  | p3b =>
    refine .next (h.modifyLine hbooted _ _ ?_ trivial)
    intro e _ hhandler
    have bound : (s.line s.pps.irq).handler = .ppsFire ∨ s.alarmOf s.pps.irq = none := here
    rcases bound with bound | absent
    · cases bound.symm.trans hhandler
    · rw [line_of_alarmOf_none absent] at hhandler
      cases hhandler
  | p4a => exact h.step hbooted (swapView_setLevel s _) trivial
  | p4b d => exact h.step hbooted rfl returned

theorem ppsTeardownAt_pingPong (h : PingPong s) {l : PpsTeardownAt} (hmpc : s.mpc = .ppsTeardown l :: fs)
    (returned : ∀ t, swapPosition t fs) : Ensures PingPong (ppsTeardownAt fs l s) := by
  have hbooted : s.booted = true := h.booted (by simp [hmpc])
  cases l with
  | r0 =>
    unfold ppsTeardownAt
    dsimp only
    split
    next => exact h.step hbooted rfl trivial
    next => exact h.step hbooted rfl (returned s)
  | r1 => exact h.step hbooted rfl trivial
  | r2 => exact h.step hbooted rfl trivial
  | r3 => exact .next (h.modifyLine hbooted _ _ (fun e henabled => by cases henabled) trivial)
  | r4 => exact h.step hbooted rfl trivial
  | r5 => exact .next (h.modifyLine hbooted _ _ (fun e _ hhandler => by cases hhandler) trivial)
  | r6 => exact h.step hbooted rfl trivial
  | r7 => exact .next (h.setPps hbooted _ (returned _))

end

/-! ## The positions of the main thread -/

/-- Callers only, and none that builds the primary channel. -/
def calm (fs : List Frame) : Bool := callersOnly fs && sparesPrimary fs

theorem swapPosition_of_calm {fs : List Frame} (h : calm fs = true) (t : State) : swapPosition t fs := by
  cases fs with
  | nil => trivial
  | cons f fs => cases f <;> simp_all [calm, callersOnly, sparesPrimary, Frame.isLeaf, concernsPrimary, swapPosition]

/-- The stacks that the multiplexer's invariant allows: nothing, `BOOT`, or an operation with calm callers below it. -/
def reached : List Frame → Bool
  | [] | [.boot] => true
  | .boot :: _ | .selected _ :: _ => false
  | _ :: fs => calm fs

theorem Mode.reached {s : State} (h : Mode s) : Safety.reached s.mpc = true := by
  unfold Mode modeAt at h
  split at h
  case h_17 => exact h.elim
  all_goals simp only [*]; rfl

theorem Mode.setup_aux {s : State} {l : SetupAt} {fs : List Frame} (h : Mode s) (hmpc : s.mpc = .chSetup .aux l :: fs) :
    builtOf s = Built.setup l := by
  unfold Mode modeAt at h
  rw [hmpc] at h
  split at h <;> simp_all

/-! ## The other operations of the main thread -/

theorem swapPosition_of_started {t : State} (hstarted : started t t.mpc = true) (hspares : sparesPrimary t.mpc = true)
    (hmode : Mode t) : swapPosition t t.mpc := by
  cases hmpc : t.mpc with
  | nil => trivial
  | cons f fs =>
    obtain ⟨hf, -⟩ : justStarted t f = true ∧ callersOnly fs = true := by
      rw [hmpc] at hstarted
      exact (Bool.and_eq_true _ _ ▸ hstarted : _ ∧ _)
    obtain ⟨hprimary, -⟩ : concernsPrimary f = false ∧ sparesPrimary fs = true := by
      simpa [hmpc, sparesPrimary] using hspares
    cases f with
    | boot => cases hprimary
    | chSetup c l =>
      cases c with
      | pri => cases hprimary
      | aux =>
        have hl : l = .s1a := by simpa [justStarted] using hf
        subst hl
        obtain ⟨inactive, -⟩ := (builtOf_eq_iff _).mp (hmode.setup_aux hmpc)
        exact inactive
    | chTeardown c l =>
      obtain ⟨rfl, -⟩ : l = .t1 ∧ (t.ch.get c).active = true := by simpa [justStarted] using hf
      trivial
    | ppsSetup l =>
      have hl : l = .p1a := by simpa [justStarted] using hf
      subst hl
      trivial
    | _ => trivial

/-- What an operation does that builds and tears down nothing: only the position can matter. -/
theorem PingPong.of_hardware {s t : State} (h : PingPong s) (hw : hardwareView t = hardwareView s)
    (hbooted : t.booted = true) (position : swapPosition t t.mpc) : PingPong t := by
  have transfers : t.dmaChan = s.dmaChan := by
    have x := congrArg State.dmaChan hw
    exact x
  have lines : t.line = s.line := by
    have x := congrArg State.line hw
    exact x
  have ch : t.ch = s.ch := by
    have x := congrArg State.ch hw
    exact x
  refine ⟨?_, ?_, fun hb => ?_, position⟩
  · rw [transfers, ch]
    exact h.transfers
  · rw [lines, ch]
    exact h.lines
  · rw [hbooted] at hb
    cases hb

theorem Handles.pingPong {i : Instr} {s t : State} (h : Handles i s.mpc s t) (hs : PingPong s)
    (hbooted : s.booted = true) (hcalm : calm s.mpc = true) (hboot : i ≠ .boot) (hsetup : i ≠ .chSetup .pri)
    (hmode : Mode t) : PingPong t := by
  obtain ⟨hcallers, hspares⟩ : callersOnly s.mpc = true ∧ sparesPrimary s.mpc = true := by simpa [calm] using hcalm
  exact hs.of_hardware h.touches.hardware (h.touches.booted hbooted)
    (swapPosition_of_started (h.position hcallers) (h.spares hboot hsetup hspares) hmode)

/-- A command is no listing, no other agent's step and not `BOOT`. -/
theorem isCommand_kinds {i : Instr} (hi : isCommand i = true) :
    isListing i = false ∧ isAttendance i = false ∧ i ≠ .boot := by
  cases i with
  | boot | txStart | dmaBeat | uartShift | chSetup | chFire | chTeardown | auxSwitch | auxRebaud | ppsSetup | ppsFire
  | ppsTeardown => cases hi
  | rdConnected | rdCounter | rdFreq | rdAuxfn | rdAuxbaud | wrConnected | wrCounter | wrFreq | wrAuxfn | wrAuxbaud
  | poll => exact ⟨rfl, rfl, by simp⟩

section
variable {s : State} (h : PingPong s)
include h

/-- `BOOT`, taken first: it is about to set up the primary channel (R291). -/
theorem PingPong.boot (hmpc : s.mpc = []) (hbooted : s.booted = false) : Ensures PingPong (execBoot s) := by
  obtain ⟨-, inactive, -⟩ := h.unbooted hbooted
  unfold execBoot
  simp only [hmpc]
  refine .running (.next ⟨h.transfers, h.lines, nofun, ?_⟩)
  exact inactive

/-- `BOOT` calls the primary channel's setup. -/
theorem PingPong.booting (hmpc : s.mpc = [.boot]) : Ensures PingPong (setupAt .pri [] .s0 s) := by
  have inactive := h.position
  rw [hmpc] at inactive
  exact h.step (h.booted (by simp [hmpc])) rfl inactive

/-- A caller's next micro-op. -/
theorem PingPong.calls {i : Instr} (hi : isListing i = false ∧ isAttendance i = false ∧ i ≠ .boot)
    (hbooted : s.booted = true) (hcalm : calm s.mpc = true) (exec_mode : Ensures Mode (exec i s)) :
    Ensures PingPong (exec i s) := by
  obtain ⟨hlisting, hattendance, hboot⟩ := hi
  refine ((exec_handles hlisting hattendance s).and exec_mode).mono fun t ⟨handles, mode⟩ =>
    handles.pingPong h hbooted hcalm hboot ?_ mode
  rintro rfl
  cases hlisting

theorem mainStep_pingPong (hc : Canonical s) (hmode : Mode s) : Ensures PingPong (mainStep s) := by
  have mode := mainStep_mode hmode
  have hreached := hmode.reached
  cases hmpc : s.mpc with
  | nil =>
    unfold mainStep
    simp only [hmpc]
    split
    next => exact .next h
    next hbooted => exact h.boot hmpc (by simpa using hbooted)
  | cons f fs =>
    have hbooted : s.booted = true := h.booted (by simp [hmpc])
    have below (t : State) (hfs : calm fs = true) : swapPosition t fs := swapPosition_of_calm hfs t
    rw [hmpc] at hreached
    cases f with
    | selected i => cases hreached
    | boot =>
      cases fs with
      | nil => exact .of_frame hmpc (execBoot_at hmpc) (h.booting hmpc)
      | cons => cases hreached
    | chSetup c l =>
      exact .of_frame hmpc (execChSetup_at hmpc) (setupAt_pingPong h hc hmpc (below s hreached))
    | chTeardown c l =>
      exact .of_frame hmpc (execChTeardown_at hmpc) (teardownAt_pingPong h hmpc fun t => below t hreached)
    | ppsSetup l =>
      exact .of_frame hmpc (execPpsSetup_at hmpc) (ppsSetupAt_pingPong h hc hmpc (below s hreached))
    | ppsTeardown l =>
      exact .of_frame hmpc (execPpsTeardown_at hmpc) (ppsTeardownAt_pingPong h hmpc fun t => below t hreached)
    | auxSwitch | auxRebaud | wrCounter | wrFreq | wrAuxfn | wrAuxbaud | poll =>
      have hcalm : calm s.mpc = true := by rw [hmpc]; exact hreached
      rw [mainStep_of_frame hmpc (by simp)] at mode ⊢
      exact h.calls ⟨rfl, rfl, nofun⟩ hbooted hcalm mode

theorem takeCommand_pingPong (hmode : Mode s) (w : CmdWord) : Ensures PingPong (takeCommand w s) := by
  unfold takeCommand
  split
  next hidle =>
    obtain ⟨hmpc, hbooted⟩ := hidle
    split
    next i hdecode =>
      have hi := isCommand_of_decode hdecode
      have hcalm : calm s.mpc = true := by rw [hmpc]; rfl
      exact h.calls (isCommand_kinds hi) hbooted hcalm (command_mode hi hmpc hmode)
    next => exact .next (h.of_view (s := s) rfl)
    next => exact .next (h.of_view (s := s) rfl)
    next => exact .refused _
  next => exact .next h

end

/-! ## The other agents: a transfer goes on, or starts (R130 to R132, R155) -/

/-- The contexts and the buffers stay, and no transfer starts: one in progress goes on or ends. -/
structure Progresses (s t : State) : Prop where
  ch : t.ch = s.ch
  buf : t.buf = s.buf
  transfers : ∀ d, (t.dmaChan d).busy = true →
    (s.dmaChan d).busy = true ∧ (t.dmaChan d).srcCh = (s.dmaChan d).srcCh ∧
      (t.dmaChan d).srcSlot = (s.dmaChan d).srcSlot

theorem Progresses.of_eq {s t : State} (ch : t.ch = s.ch) (buf : t.buf = s.buf) (dma : t.dma = s.dma) :
    Progresses s t := by
  have same : t.dmaChan = s.dmaChan := by
    funext d
    simp only [State.dmaChan, dma]
  exact ⟨ch, buf, fun d hbusy => by rw [same] at hbusy ⊢; exact ⟨hbusy, rfl, rfl⟩⟩

/-- What `CH.FIRE` of a channel does: the dispatch slot goes into transfer, the other one becomes the dispatch slot and
takes the next time field (R155). -/
structure Fires (c : Ch) (s t : State) : Prop where
  idle : (s.dmaOf c).busy = false
  ch : t.ch = s.ch.set c { s.ch.get c with dispatchIdx := otherSlot (s.ch.get c).dispatchIdx }
  dma : t.dma = s.dma.modify (s.ch.get c).dma fun x =>
    { x with busy := true, srcCh := c, srcSlot := (s.ch.get c).dispatchIdx, pos := 0, count := s.len c }
  buf : ∃ v, t.buf =
    Memory.writeList s.buf (bufAddr c (otherSlot (s.ch.get c).dispatchIdx) (s.tofs c)) (le32 v)

theorem beat_progresses (s : State) (c : Ch) (b : Byte) : Progresses s (s.beat c b) := by
  refine ⟨rfl, rfl, fun d hbusy => ?_⟩
  have beaten : (s.beat c b).dmaChan d = (s.modifyDma (s.ch.get c).dma DmaChan.advance).dmaChan d := rfl
  rw [beaten] at hbusy ⊢
  by_cases hd : d = (s.ch.get c).dma
  · subst hd
    by_cases hlt : (s.ch.get c).dma < s.dma.length
    · rw [State.dmaChan_modifyDma _ _ _ _ hlt] at hbusy ⊢
      simp only [if_true, DmaChan.advance] at hbusy ⊢
      split at hbusy
      · cases hbusy
      · exact ⟨hbusy, trivial, trivial⟩
    · simp [State.dmaChan, hlt, DmaChan.absent] at hbusy
  · rw [State.dmaChan_modifyDma_other s _ hd] at hbusy ⊢
    exact ⟨hbusy, rfl, rfl⟩

theorem execDmaBeat_progresses (c : Ch) (s : State) : Ensures (Progresses s) (execDmaBeat c s) := by
  unfold execDmaBeat
  refine .running ?_
  split
  · split
    · exact .next (beat_progresses s c _)
    · exact .fault _
  · exact .next (.of_eq rfl rfl rfl)

theorem execUartShift_progresses (c : Ch) (s : State) : Ensures (Progresses s) (execUartShift c s) := by
  have shifted (b : Byte) (rest : List Byte) : Progresses s (s.shift c b rest) := by
    unfold State.shift
    dsimp only
    split <;> exact .of_eq rfl rfl rfl
  unfold execUartShift
  refine .running ?_
  split
  · split
    · exact .next (shifted _ _)
    · exact .next (.of_eq rfl rfl rfl)
  · exact .next (.of_eq rfl rfl rfl)

theorem execPpsFire_progresses (s : State) : Ensures (Progresses s) (execPpsFire s) := by
  have levelled (t : State) (v : Bool) : Progresses t (t.setLevel v) := by
    unfold State.setLevel
    split <;> exact .of_eq rfl rfl rfl
  have toggled := levelled (s.log .ppsFire) (!s.pin.aux.level)
  exact .running (.next ⟨toggled.ch, toggled.buf, toggled.transfers⟩)

theorem raise_progresses (s : State) (e : FaultCode) : Ensures (Progresses s) (s.raise e) := .next (.of_eq rfl rfl rfl)

theorem execChFire_fires (c : Ch) (s : State) :
    Ensures (fun t => Fires c s t ∨ Progresses s t) (execChFire c s) := by
  unfold execChFire
  refine .running ?_
  dsimp only
  split
  next u h =>
    obtain ⟨-, -, idle, -, -, rfl⟩ := txStart_ok h
    exact .next (.inl ⟨idle, rfl, rfl, _, rfl⟩)
  next => exact (raise_progresses _ _).mono fun t ht => .inr ⟨ht.ch, ht.buf, ht.transfers⟩

/-- The line whose handler is served is pending, so it is enabled. -/
theorem serveIrq_fires (q : Nat) (s : State) :
    Ensures (fun t => Progresses s t ∨
      ∃ c, (s.line q).enabled = true ∧ (s.line q).handler = .chFire c ∧ Fires c s t) (serveIrq q s) := by
  unfold serveIrq
  split
  next hpending =>
    have enabled : (s.line q).enabled = true := by
      unfold State.pending at hpending
      split at hpending <;> simp_all
    split
    next => exact (raise_progresses s _).mono fun _ => .inl
    next c handler =>
      exact (execChFire_fires c s).mono fun t ht => ht.elim (fun fires => .inr ⟨c, enabled, handler, fires⟩) .inl
    next => exact (execPpsFire_progresses s).mono fun _ => .inl
  next => exact .next (.inl (.of_eq rfl rfl rfl))

/-- Only a channel's handler starts a transfer. -/
theorem perform_progresses {a : Action} (ha : isOther a = true) (s : State) :
    Ensures (fun t => Progresses s t ∨
      ∃ q c, (s.line q).enabled = true ∧ (s.line q).handler = .chFire c ∧ Fires c s t) (perform a s) := by
  cases a with
  | main | command | reset => cases ha
  | irq q => exact .running ((serveIrq_fires q s).mono fun t ht => ht.imp id fun hc => ⟨q, hc⟩)
  | dma c => exact .running ((execDmaBeat_progresses c s).mono fun _ => .inl)
  | uart c => exact .running ((execUartShift_progresses c s).mono fun _ => .inl)
  | tick | sync | din | quiet => exact .running (.next (.inl (.of_eq rfl rfl rfl)))

section
variable {s t : State} (h : PingPong s) (view : mainView t = mainView s)
include view

theorem line_of_mainView : t.line = s.line := by
  have x := congrArg State.line view
  exact x

theorem ch_of_mainView (c : Ch) :
    (t.ch.get c).active = (s.ch.get c).active ∧ (t.ch.get c).dma = (s.ch.get c).dma ∧
      (t.ch.get c).irq = (s.ch.get c).irq := by
  have x : (mainView t).ch.get c = (mainView s).ch.get c := by rw [view]
  simp only [mainView, pairMap_get, Channel.mk.injEq] at x
  simp only [x, and_self]

theorem swapPosition_of_mainView (quiet : ∀ c, Quiet s c → Quiet t c) {fs : List Frame} (position : swapPosition s fs) :
    swapPosition t fs := by
  have line := line_of_mainView view
  have alarmOf : t.alarmOf = s.alarmOf := by
    have x := congrArg State.alarmOf view
    exact x
  have pps : t.pps = s.pps := by
    have x := congrArg State.pps view
    exact x
  have active (c : Ch) := (ch_of_mainView view c).1
  have irq (c : Ch) := (ch_of_mainView view c).2.2
  unfold swapPosition at position ⊢
  simp only [line, alarmOf, pps, active, irq]
  split
  next => exact position
  next c l fs =>
    cases l with
    | s2a | s2b | s3a | s3b | s3c | s4a => exact ⟨position.1, quiet c position.2⟩
    | _ => exact position
  next c l fs =>
    cases l with
    | t7 | t8 => exact quiet c position
    | _ => exact position
  next => exact position
  next => trivial

include h

/-- What the other agents leave alone is the rest of the discipline. -/
theorem PingPong.attended (transfers : ∀ d, (t.dmaChan d).busy = true →
      (s.ch.get (t.dmaChan d).srcCh).active = true ∧ (s.ch.get (t.dmaChan d).srcCh).dma = d ∧
        (t.dmaChan d).srcSlot = otherSlot (t.ch.get (t.dmaChan d).srcCh).dispatchIdx)
    (quiet : ∀ c, Quiet s c → Quiet t c) : PingPong t := by
  have ch := ch_of_mainView view
  refine ⟨fun d hbusy => ?_, fun q c henabled hhandler => ?_, fun hbooted => ?_, ?_⟩
  · simpa only [ch] using transfers d hbusy
  · rw [line_of_mainView view] at henabled hhandler
    simpa only [ch] using h.lines q c henabled hhandler
  · have booted : t.booted = s.booted := by
      have x := congrArg State.booted view
      exact x
    obtain ⟨mpc, pri, aux, pps, auxState⟩ := h.unbooted (booted.symm.trans hbooted)
    have x := view
    simp only [mainView, State.mk.injEq] at x
    have hpri := ch .pri
    have haux := ch .aux
    simp only [Pair.get_pri, Pair.get_aux] at hpri haux
    simp only [x, hpri, haux, mpc, pri, aux, pps, auxState, and_self]
  · have mpc : t.mpc = s.mpc := by
      have x := congrArg State.mpc view
      exact x
    rw [mpc]
    exact swapPosition_of_mainView view quiet h.position

theorem Progresses.pingPong (p : Progresses s t) : PingPong t := by
  refine h.attended view (fun d hbusy => ?_) fun c hquiet => ⟨fun d hbusy => ?_, ?_⟩
  · obtain ⟨busy, srcCh, srcSlot⟩ := p.transfers d hbusy
    rw [srcCh, srcSlot, p.ch]
    exact h.transfers d busy
  · obtain ⟨busy, srcCh, -⟩ := p.transfers d hbusy
    rw [srcCh]
    exact hquiet.transfers d busy
  · rw [line_of_mainView view]
    exact hquiet.lines

omit view in
/-- The transfers in progress after a channel has fired: its own, and the other channel's as it was. -/
theorem Fires.transfers {c : Ch} (p : Fires c s t) {d : Nat} (hbusy : (t.dmaChan d).busy = true) :
    (d = (s.ch.get c).dma ∧ (t.dmaChan d).srcCh = c ∧ (t.dmaChan d).srcSlot = (s.ch.get c).dispatchIdx) ∨
      (t.dmaChan d = s.dmaChan d ∧ (s.dmaChan d).srcCh ≠ c) := by
  have started : t.dmaChan d = (s.modifyDma (s.ch.get c).dma fun x =>
      { x with busy := true, srcCh := c, srcSlot := (s.ch.get c).dispatchIdx, pos := 0, count := s.len c }).dmaChan d := by
    simp only [State.dmaChan, p.dma, State.modifyDma_dma]
  rw [started] at hbusy ⊢
  by_cases hd : d = (s.ch.get c).dma
  · refine .inl ⟨hd, ?_⟩
    subst hd
    by_cases hlt : (s.ch.get c).dma < s.dma.length
    · simp [State.dmaChan_modifyDma _ _ _ _ hlt]
    · simp [State.dmaChan, hlt, DmaChan.absent] at hbusy
  · rw [State.dmaChan_modifyDma_other s _ hd] at hbusy ⊢
    refine .inr ⟨rfl, fun hsrc => hd ?_⟩
    obtain ⟨-, own, -⟩ := h.transfers d hbusy
    rw [← own, hsrc]

theorem Fires.pingPong {q : Nat} {c : Ch} (p : Fires c s t) (enabled : (s.line q).enabled = true)
    (handler : (s.line q).handler = .chFire c) : PingPong t := by
  obtain ⟨active, -⟩ := h.lines q c enabled handler
  refine h.attended view (fun d hbusy => ?_) fun e hquiet => ⟨fun d hbusy => ?_, ?_⟩
  · rcases p.transfers h hbusy with ⟨rfl, srcCh, srcSlot⟩ | ⟨same, hother⟩
    · rw [srcCh, srcSlot, p.ch, Pair.get_set_same]
      exact ⟨active, rfl, by cases (s.ch.get c).dispatchIdx <;> rfl⟩
    · rw [same] at hbusy ⊢
      rw [p.ch, Pair.get_set_other _ _ hother]
      exact h.transfers d hbusy
  · rcases p.transfers h hbusy with ⟨-, srcCh, -⟩ | ⟨same, -⟩
    · rw [srcCh]
      rintro rfl
      exact hquiet.lines q enabled handler
    · rw [same] at hbusy ⊢
      exact hquiet.transfers d hbusy
  · rw [line_of_mainView view]
    exact hquiet.lines

end

/-! ## Every step -/

/-- After a reset every slot is disarmed and not latched, and claimed unless the pool of free slots has it (R54). -/
theorem alarm_afterReset (p : Params) (d : ResetDraws) (agenda : List Action) (draws : List Nat) (freeCtr a : Nat) :
    (State.afterReset p d agenda draws freeCtr).alarm a =
      if a < p.nAlarms then { AlarmSlot.absent with claimed := !p.alarmFree0.contains a } else AlarmSlot.absent := by
  simp only [State.alarm, State.afterReset, List.getD_eq_getElem?_getD, List.getElem?_map]
  by_cases ha : a < p.nAlarms <;> simp [ha, AlarmSlot.absent]

/-- After a reset no data mover is busy, and each is claimed unless the pool has it (R54). -/
theorem dmaChan_afterReset (p : Params) (d : ResetDraws) (agenda : List Action) (draws : List Nat) (freeCtr x : Nat) :
    (State.afterReset p d agenda draws freeCtr).dmaChan x =
      if x < p.nDma then { DmaChan.absent with claimed := !p.dmaFree0.contains x } else DmaChan.absent := by
  simp only [State.dmaChan, State.afterReset, List.getD_eq_getElem?_getD, List.getElem?_map]
  by_cases hx : x < p.nDma <;> simp [hx, DmaChan.absent]

theorem busy_afterReset (p : Params) (d : ResetDraws) (agenda : List Action) (draws : List Nat) (freeCtr x : Nat) :
    ((State.afterReset p d agenda draws freeCtr).dmaChan x).busy = false := by
  rw [dmaChan_afterReset]
  split <;> rfl

theorem line_afterReset (p : Params) (d : ResetDraws) (agenda : List Action) (draws : List Nat) (freeCtr q : Nat) :
    (State.afterReset p d agenda draws freeCtr).line q = IrqLine.absent := by
  unfold State.line
  split
  next a _ =>
    simp only [State.afterReset, List.getD_eq_getElem?_getD, List.getElem?_map]
    by_cases ha : a < p.nAlarms <;> simp [ha, IrqLine.absent]
  next => rfl

theorem pingPong_afterReset (p : Params) (d : ResetDraws) (agenda : List Action) (draws : List Nat) (freeCtr : Nat) :
    PingPong (State.afterReset p d agenda draws freeCtr) where
  transfers x hbusy := by
    rw [busy_afterReset] at hbusy
    cases hbusy
  lines q c henabled := by
    rw [line_afterReset] at henabled
    cases henabled
  unbooted _ := ⟨rfl, rfl, rfl, rfl, rfl⟩
  position := trivial

theorem Multiplexed.taken {s : State} (h : Multiplexed s) : Mode s.nextAction.2 := by
  rw [State.nextAction_snd]
  exact (modeAt_congr (s := s) rfl rfl s.mpc).mpr h.mode

theorem PingPong.taken {s : State} (h : PingPong s) : PingPong s.nextAction.2 := by
  rw [State.nextAction_snd]
  exact h.of_view rfl

end Sys2Proof.Safety

open Sys2Proof Sys2Proof.Machine Sys2Proof.Safety

/-- Settles O18: the listings keep the discipline label by label, every other operation of the main thread leaves the
hardware alone, and a channel's handler starts its transfer from a line that the discipline ties to the active channel. -/
theorem stepKeepsPingPong : Obligations.StepKeepsPingPong := by
  intro s t hcanonical hmultiplexed hs hstep
  have canonical : Canonical s.nextAction.2 := (nextAction_evolves s).canonical hcanonical
  have mode : Mode s.nextAction.2 := hmultiplexed.taken
  have taken : PingPong s.nextAction.2 := hs.taken
  refine (perform_of_agents (mainStep_pingPong taken canonical mode) (takeCommand_pingPong taken mode)
    (fun u ha hu hperform => ?_) fun d _ => pingPong_afterReset _ d _ _ _).of_next hstep
  rcases (perform_progresses ha _).of_next hperform with progresses | ⟨q, c, enabled, handler, fires⟩
  · exact progresses.pingPong taken hu.view
  · exact fires.pingPong taken hu.view enabled handler

end

section
/-!
PROOF. O19: with the ping-pong discipline no store reaches a slot that a transfer reads. Only a setup (`s3a`, `s3b`, `s5a`)
and a channel's handler store at all.
-/

namespace Sys2Proof.Safety

open Sys2Proof Sys2Proof.Machine

/-- From `s` to `t` no byte of a slot that a transfer reads changes. -/
def Stable (s t : State) : Prop :=
  ∀ d n, (s.dmaChan d).busy = true → n < s.len (s.dmaChan d).srcCh →
    Memory.read t.buf (bufAddr (s.dmaChan d).srcCh (s.dmaChan d).srcSlot n) =
      Memory.read s.buf (bufAddr (s.dmaChan d).srcCh (s.dmaChan d).srcSlot n)

theorem Stable.of_buf {s t : State} (h : t.buf = s.buf) : Stable s t := by
  intro d n _ _
  rw [h]

/-- A store within one slot changes no byte of another (R71). -/
theorem read_store_other (m : List Host.Cell) {c e : Ch} {sl sm : Slot} {i n : Nat} {bs : List Byte}
    (hbs : i + bs.length ≤ 8) (hn : n < 8) (hne : ¬(e = c ∧ sm = sl)) :
    Memory.read (Memory.writeList m (bufAddr c sl i) bs) (bufAddr e sm n) = Memory.read m (bufAddr e sm n) := by
  refine Memory.read_writeList_other bs m _ _ ?_
  by_contra hwithin
  push Not at hwithin
  have base (k : Nat) : bufAddr c sl k = bufAddr c sl 0 + k := by simp [bufAddr]
  rw [base i] at hwithin
  have hsame : bufAddr e sm n = bufAddr c sl (bufAddr e sm n - bufAddr c sl 0) := by
    rw [base]
    omega
  obtain ⟨hc, hsl, -⟩ := bufAddr_injective hn (by omega) hsame
  exact hne ⟨hc, hsl⟩

/-- A store into a slot that no transfer reads. -/
theorem Stable.store {s t : State} {c : Ch} {sl : Slot} {i : Nat} {bs : List Byte} (hbs : i + bs.length ≤ 8)
    (buf : t.buf = Memory.writeList s.buf (bufAddr c sl i) bs)
    (apart : ∀ d, (s.dmaChan d).busy = true → (s.dmaChan d).srcCh = c → (s.dmaChan d).srcSlot ≠ sl) : Stable s t := by
  intro d n hbusy hn
  have hn8 : n < 8 := by
    have := s.len_le (s.dmaChan d).srcCh
    omega
  rw [buf]
  exact read_store_other s.buf hbs hn8 fun ⟨hc, hsl⟩ => apart d hbusy hc hsl

/-! ## The listings -/

theorem claimDma_buf {s t : State} {d : Nat} (h : s.claimDma = some (d, t)) : t.buf = s.buf := by
  obtain ⟨-, -, rfl⟩ := State.claimDma_some h
  rw [State.draw_snd]
  rfl

theorem claimAlarm_buf {s t : State} {a : Nat} (h : s.claimAlarm = some (a, t)) : t.buf = s.buf := by
  obtain ⟨-, -, rfl⟩ := State.claimAlarm_some h
  rw [State.draw_snd]
  rfl

section
variable {s : State} {fs : List Frame}

theorem setupUart_buf (c : Ch) : (s.setupUart c).buf = s.buf := by
  unfold State.setupUart
  dsimp only
  split <;> rfl

theorem releaseUart_buf (c : Ch) : (s.releaseUart c).buf = s.buf := by
  unfold State.releaseUart
  split <;> rfl

theorem setLevel_buf (v : Bool) : (s.setLevel v).buf = s.buf := by
  unfold State.setLevel
  split <;> rfl

theorem Ensures.unstored {t : State} (h : t.buf = s.buf) : Ensures (Stable s) (.next t) := .next (.of_buf h)

theorem raise_stable (e : FaultCode) : Ensures (Stable s) (s.raise e) := .unstored (t := s.withFault e) rfl

/-- The whole template fits its slot, and the time field lies within it (R70). -/
theorem template_fits (s : State) (c : Ch) : 0 + (s.template c).length ≤ 8 := by
  have := s.len_le c
  simp only [State.template_length]
  omega

theorem timeField_fits (s : State) (c : Ch) (v : BitVec 32) : s.tofs c + (le32 v).length ≤ 8 := by
  have := s.len_le c
  have := s.tofs_add_four_le c
  rw [le32_length]
  omega

theorem setupAt_stable (h : PingPong s) {c : Ch} {l : SetupAt} (hmpc : s.mpc = .chSetup c l :: fs) :
    Ensures (Stable s) (setupAt c fs l s) := by
  have here := h.position
  rw [hmpc] at here
  cases l with
  | s1a =>
    unfold setupAt
    dsimp only
    split
    next => exact .unstored rfl
    next =>
      split
      next => exact raise_stable _
      next hclaim =>
        have buf := claimDma_buf hclaim
        exact .unstored buf
  | s1b =>
    unfold setupAt
    dsimp only
    split
    next => exact .unstored rfl
    next =>
      split
      next => exact raise_stable _
      next hclaim =>
        have buf := claimAlarm_buf hclaim
        exact .unstored buf
  | s2a => exact .unstored (setupUart_buf c)
  | s3a =>
    obtain ⟨-, quiet⟩ : (s.ch.get c).active = true ∧ Quiet s c := here
    exact .next (.store (template_fits s c) rfl fun d hbusy hsrc => absurd hsrc (quiet.transfers d hbusy))
  | s3b =>
    obtain ⟨-, quiet⟩ : (s.ch.get c).active = true ∧ Quiet s c := here
    exact .next (.store (template_fits s c) rfl fun d hbusy hsrc => absurd hsrc (quiet.transfers d hbusy))
  | s5a =>
    refine .next (.store (timeField_fits s c _) rfl fun d hbusy hsrc => ?_)
    obtain ⟨-, -, srcSlot⟩ := h.transfers d hbusy
    rw [srcSlot, hsrc]
    cases (s.ch.get c).dispatchIdx <;> simp [otherSlot]
  | s4a => exact .unstored (State.modifyLine_buf ..)
  | s4b => exact .unstored (State.modifyLine_buf ..)
  | s0 | s1c | s2b | s3c | s5b => exact .unstored rfl

theorem teardownAt_stable (c : Ch) (l : TeardownAt) : Ensures (Stable s) (teardownAt c fs l s) := by
  cases l with
  | t0 =>
    unfold teardownAt
    dsimp only
    split <;> exact .unstored rfl
  | t3 => exact .unstored (State.modifyLine_buf ..)
  | t5 => exact .unstored (State.modifyLine_buf ..)
  | t7 => exact .unstored (releaseUart_buf c)
  | t1 | t2 | t4 | t6 | t8 => exact .unstored rfl

theorem ppsSetupAt_stable (l : PpsSetupAt) : Ensures (Stable s) (ppsSetupAt fs l s) := by
  cases l with
  | p1a =>
    unfold ppsSetupAt
    dsimp only
    split
    next => exact .unstored rfl
    next =>
      split
      next => exact raise_stable _
      next hclaim =>
        have buf := claimAlarm_buf hclaim
        exact .unstored buf
  | p3a => exact .unstored (State.modifyLine_buf ..)
  | p3b => exact .unstored (State.modifyLine_buf ..)
  | p4a => exact .unstored (setLevel_buf _)
  | p0 | p1b | p2 | p4b => exact .unstored rfl

theorem ppsTeardownAt_stable (l : PpsTeardownAt) : Ensures (Stable s) (ppsTeardownAt fs l s) := by
  cases l with
  | r0 =>
    unfold ppsTeardownAt
    dsimp only
    split <;> exact .unstored rfl
  | r3 => exact .unstored (State.modifyLine_buf ..)
  | r5 => exact .unstored (State.modifyLine_buf ..)
  | r1 | r2 | r4 | r6 | r7 => exact .unstored rfl

/-! ## Every agent -/

theorem Handles.stable {i : Instr} {fs : List Frame} {s t : State} (h : Handles i fs s t) : Stable s t := by
  have buf := congrArg State.buf h.touches.hardware
  exact .of_buf buf

theorem mainStep_stable (h : PingPong s) (hmode : Mode s) : Ensures (Stable s) (mainStep s) := by
  have calls {i : Instr} (hlisting : isListing i = false) (hattendance : isAttendance i = false) :
      Ensures (Stable s) (exec i s) := (exec_handles hlisting hattendance s).mono fun _ => Handles.stable
  cases hmpc : s.mpc with
  | nil =>
    unfold mainStep
    simp only [hmpc]
    split
    · exact .next (.of_buf rfl)
    · exact calls (i := .boot) rfl rfl
  | cons f fs =>
    cases f with
    | selected i =>
      have hreached := hmode.reached
      rw [hmpc] at hreached
      cases hreached
    | chSetup c l => exact .of_frame hmpc (execChSetup_at hmpc) (setupAt_stable h hmpc)
    | chTeardown c l => exact .of_frame hmpc (execChTeardown_at hmpc) (teardownAt_stable c l)
    | ppsSetup l => exact .of_frame hmpc (execPpsSetup_at hmpc) (ppsSetupAt_stable l)
    | ppsTeardown l => exact .of_frame hmpc (execPpsTeardown_at hmpc) (ppsTeardownAt_stable l)
    | boot | auxSwitch | auxRebaud | wrCounter | wrFreq | wrAuxfn | wrAuxbaud | poll =>
      rw [mainStep_of_frame hmpc (by simp)]
      exact calls rfl rfl

theorem takeCommand_stable (w : CmdWord) : Ensures (Stable s) (takeCommand w s) := by
  unfold takeCommand
  split
  next =>
    split
    next hdecode =>
      obtain ⟨hlisting, hattendance, -⟩ := isCommand_kinds (isCommand_of_decode hdecode)
      exact (exec_handles hlisting hattendance s).mono fun _ => Handles.stable
    next => exact .next (.of_buf rfl)
    next => exact .next (.of_buf rfl)
    next => exact .refused _
  next => exact .next (.of_buf rfl)

/-- A channel that fires has no transfer in progress: nothing reads the slot it stores into (R55, R82). -/
theorem Fires.stable {t : State} {c : Ch} (p : Fires c s t) (h : PingPong s) : Stable s t := by
  obtain ⟨v, buf⟩ := p.buf
  refine .store (timeField_fits s c v) buf fun d hbusy hsrc => ?_
  obtain ⟨-, own, -⟩ := h.transfers d hbusy
  have idle : (s.dmaChan d).busy = false := by
    rw [← own, hsrc]
    exact p.idle
  rw [idle] at hbusy
  cases hbusy

end

end Sys2Proof.Safety

open Sys2Proof Sys2Proof.Machine Sys2Proof.Safety

/-- Settles O19: a setup stores before its channel can transmit, or into the dispatch slot; a handler stores when its own
channel has nothing in transfer. -/
theorem slotUnderTransferIsStable : Obligations.SlotUnderTransferIsStable := by
  intro s t hmultiplexed hs hreset hstep
  have stable : Stable s.nextAction.2 t := by
    refine (perform_of_agents (mainStep_stable hs.taken hmultiplexed.taken) takeCommand_stable
      (fun u ha _ hperform => ?_) fun d hd => absurd hd (hreset d)).of_next hstep
    rcases (perform_progresses ha _).of_next hperform with progresses | ⟨q, c, -, -, fires⟩
    · exact .of_buf progresses.buf
    · exact fires.stable hs.taken
  rw [State.nextAction_snd] at stable
  exact stable

end

section
/-!
PROOF. O21, O22, O23: what the multiplexer's invariant says of the auxiliary resources and the registers.
-/

namespace Sys2Proof.Safety

open Sys2Proof Sys2Proof.Machine

/-- At most one user of the auxiliary resources, and the pin's function is its user's (R57, R188). -/
structure Built.Single (b : Built) : Prop where
  users : ¬(b.channel = true ∧ b.pps = true)
  uart : b.pin = .uartTx → b.channel = true
  pulse : b.pin = .gpioOut → b.pps = true

theorem Built.single_complete (x : AuxState) : (Built.complete x).Single := by
  cases x <;> exact ⟨by decide, by decide, by decide⟩

theorem Built.single_setup (l : SetupAt) : (Built.setup l).Single := by
  cases l <;> exact ⟨by simp [setup, complete], by simp [setup, complete], by simp [setup, complete]⟩

theorem Built.single_teardown (l : TeardownAt) : (Built.teardown l).Single := by
  cases l <;> exact ⟨by decide, by decide, by decide⟩

theorem Built.single_ppsSetup (l : PpsSetupAt) : (Built.ppsSetup l).Single := by
  cases l <;> exact ⟨by simp [ppsSetup, complete], by simp [ppsSetup, complete], by simp [ppsSetup, complete]⟩

theorem Built.single_ppsTeardown (l : PpsTeardownAt) : (Built.ppsTeardown l).Single := by
  cases l <;> exact ⟨by decide, by decide, by decide⟩

theorem settled.single {s : State} (h : settled s) : (builtOf s).Single := by
  obtain ⟨built, -⟩ := h
  exact built ▸ Built.single_complete _

/-- At every position the listings have built what one user needs, or part of it. -/
theorem Mode.single {s : State} (h : Mode s) : (builtOf s).Single := by
  unfold Mode modeAt at h
  split at h
  case h_7 =>
    obtain ⟨-, -, -, built, -⟩ := h
    exact built ▸ Built.single_complete _
  case h_8 fn l p _ =>
    obtain ⟨-, h⟩ := h
    cases l with
    | a0 | a1 =>
      obtain ⟨built, -⟩ := h
      exact built ▸ Built.single_complete _
    | a2 => exact h ▸ Built.single_complete _
    | a3 =>
      obtain ⟨-, built⟩ := h
      exact built ▸ Built.single_complete _
    | a4 =>
      obtain ⟨-, x, -, built⟩ := h
      exact built ▸ Built.single_complete x
  case h_9 =>
    obtain ⟨-, -, built⟩ := h
    exact built ▸ Built.single_teardown _
  case h_10 =>
    obtain ⟨-, -, built⟩ := h
    exact built ▸ Built.single_ppsTeardown _
  case h_11 =>
    obtain ⟨-, -, -, built⟩ := h
    exact built ▸ Built.single_setup _
  case h_12 =>
    obtain ⟨-, -, -, built⟩ := h
    exact built ▸ Built.single_ppsSetup _
  case h_14 p l q _ =>
    obtain ⟨-, h⟩ := h
    cases l with
    | b0 | b1 => exact h ▸ Built.single_complete _
    | b2 => exact h ▸ Built.single_complete _
  case h_15 =>
    obtain ⟨-, built⟩ := h
    exact built ▸ Built.single_teardown _
  case h_16 =>
    obtain ⟨-, built⟩ := h
    exact built ▸ Built.single_setup _
  case h_17 => exact h.elim
  all_goals
    obtain ⟨settled, -⟩ := h
    exact settled.single

/-- The positions before a setup is called: `a3` of `AUX.SWITCH` and `b2` of `AUX.REBAUD`. -/
theorem Mode.nothing_built_at_a3 {s : State} (h : Mode s) {fn : BitVec 2} {fs : List Frame}
    (hmpc : s.mpc = .auxSwitch fn .a3 :: fs) : builtOf s = Built.complete .disabled := by
  unfold Mode modeAt at h
  rw [hmpc] at h
  split at h
  case h_8 heq =>
    cases heq
    obtain ⟨-, -, built⟩ := h
    exact built
  all_goals simp_all

theorem Mode.nothing_built_at_b2 {s : State} (h : Mode s) {fs : List Frame}
    (hmpc : s.mpc = .auxRebaud .b2 :: fs) : builtOf s = Built.complete .disabled := by
  unfold Mode modeAt at h
  rw [hmpc] at h
  split at h
  case h_14 heq =>
    cases heq
    obtain ⟨-, built⟩ := h
    exact built
  all_goals simp_all

theorem Multiplexed.idle {s : State} (h : Multiplexed s) (hmpc : s.mpc = []) : settled s ∧ freqOk s ∧ baudOk s := by
  have mode := h.mode
  rw [hmpc] at mode
  exact mode

/-- The resources of each settled controller state (R180). -/
theorem settled_iff {s : State} (h : settled s) :
    (s.ch.aux.active = true ↔ s.auxState = .auxClockBroadcast) ∧ (s.pps.active = true ↔ s.auxState = .pulsePerSecond) ∧
      (s.pin.aux.fn = .uartTx ↔ s.auxState = .auxClockBroadcast) ∧
      (s.pin.aux.fn = .gpioOut ↔ s.auxState = .pulsePerSecond) := by
  obtain ⟨built, -⟩ := h
  obtain ⟨channel, pps, pin, -⟩ := (builtOf_eq_iff _).mp built
  rw [channel, pps, pin]
  cases s.auxState <;> decide

/-- The interval of a frequency fits its word (R223). -/
theorem interval_toNat (f : BitVec 16) : (interval f).toNat = 1000000 / f.toNat := by
  have small : 1000000 / f.toNat < 2 ^ 32 := (Nat.div_le_self _ _).trans_lt (by decide)
  rw [interval, BitVec.toNat_ofNat, Nat.mod_eq_of_lt small]

/-- An idle main thread: the active contexts hold their ids. -/
theorem holdsAlarm_idle {s : State} (hmpc : s.mpc = []) (u : User) : holdsAlarm s u = isActive s u :=
  holdsAlarm_of_heldByActive (by rw [hmpc]; rfl) u

theorem dmaHeld_idle {s : State} (hmpc : s.mpc = []) (c : Ch) : dmaHeld s c = (s.ch.get c).active :=
  dmaHeld_of_heldByActive (by rw [hmpc]; rfl) c

end Sys2Proof.Safety

open Sys2Proof Sys2Proof.Machine Sys2Proof.Safety

/-- Settles O21: the single-claim invariant read at the idle position, and the resources of a settled controller. -/
theorem idleClaimsAreSingle : Obligations.IdleClaimsAreSingle := by
  intro s hclaim hmultiplexed hmpc
  obtain ⟨alarms, dma, -, -⟩ := (singleClaim_iff s).mp hclaim
  obtain ⟨settled, -, -⟩ := hmultiplexed.idle hmpc
  have mode : Mode s := hmultiplexed.mode
  obtain ⟨channel, pulse, uartTx, gpioOut⟩ := settled_iff settled
  have alarmHolds (u : User) (active : isActive s u = true) : holdsAlarm s u = true := (holdsAlarm_idle hmpc u).trans active
  have dmaHolds (c : Ch) (active : (s.ch.get c).active = true) : dmaHeld s c = true := (dmaHeld_idle hmpc c).trans active
  refine ⟨fun pri aux => ⟨fun same => ?_, fun same => ?_⟩, fun pri pps same => ?_, fun c active => ⟨?_, ?_⟩,
    fun active => ?_, uartTx.trans channel.symm, gpioOut.trans pulse.symm, mode.single.users⟩
  · cases alarms.injective (.channel .pri) (.channel .aux) (alarmHolds _ pri) (alarmHolds _ aux) same
  · cases dma.injective .pri .aux (dmaHolds _ pri) (dmaHolds _ aux) same
  · cases alarms.injective (.channel .pri) .pulse (alarmHolds _ pri) (alarmHolds _ pps) same
  · exact (alarms.taken (.channel c) (alarmHolds _ active)).2
  · exact (dma.taken c (dmaHolds c active)).2
  · exact (alarms.taken .pulse (alarmHolds _ active)).2

/-- Settles O22: the multiplexer's invariant read at the idle position. -/
theorem idleRegistersAgree : Obligations.IdleRegistersAgree := by
  intro s hmultiplexed hmpc
  obtain ⟨settled, ⟨freq, interval⟩, baud⟩ := hmultiplexed.idle hmpc
  obtain ⟨channel, pulse, -, -⟩ := settled_iff settled
  obtain ⟨-, code⟩ := settled
  simp only [baudOk, baudOutOfRange, Bool.or_eq_false_iff, decide_eq_false_iff_not, not_lt] at baud
  obtain ⟨least, greatest⟩ := baud
  refine ⟨?_, freq, least, greatest, fun hfreq => ?_, channel.symm, pulse.symm⟩
  · cases hstate : s.auxState with
    | disabled => exact .inl ⟨by rw [code, hstate]; rfl, rfl⟩
    | auxClockBroadcast => exact .inr (.inl ⟨by rw [code, hstate]; rfl, rfl⟩)
    | pulsePerSecond => exact .inr (.inr ⟨by rw [code, hstate]; rfl, rfl⟩)
  · rw [interval hfreq, interval_toNat]

/-- Settles O23: what every position of the multiplexer's invariant has built has one user at most. -/
theorem oneUserOfTheAuxiliaryPin : Obligations.OneUserOfTheAuxiliaryPin := by
  intro s h
  have mode : Mode s := h.mode
  exact ⟨mode.single.users, mode.single.uart, mode.single.pulse, fun fn fs => mode.nothing_built_at_a3,
    fun fs => mode.nothing_built_at_b2⟩

end

section
/-!
PROOF. O31: an armed slot through a run of ticks, its target counted from local time.
-/

namespace Sys2Proof.Safety

open Sys2Proof Sys2Proof.Machine

section
variable (s : State)

theorem alarm_tick (a : Nat) : s.tick.alarm a = (s.alarm a).compare ((s.lt + 1).setWidth 32) := by
  simp only [State.alarm, State.tick, List.getD_eq_getElem?_getD, List.getElem?_map]
  cases s.alarms[a]? <;> simp [AlarmSlot.compare, AlarmSlot.absent]

/-- The last tick of a run. -/
theorem tickRun_succ (n : Nat) : tickRun (n + 1) s = (tickRun n s).tick := by
  induction n generalizing s with
  | zero => rfl
  | succ n ih => exact ih s.tick

theorem tickRun_lt (n : Nat) : (tickRun n s).lt = s.lt + BitVec.ofNat 64 n := by
  induction n with
  | zero => simp [tickRun]
  | succ n ih =>
    rw [tickRun_succ]
    change (tickRun n s).lt + 1 = _
    rw [ih, BitVec.ofNat_add, BitVec.add_assoc]
    rfl

theorem tickRun_offs (n : Nat) : (tickRun n s).offs = s.offs := by
  induction n with
  | zero => rfl
  | succ n ih => rw [tickRun_succ]; exact ih

/-- The low word of local time after a run. -/
theorem tickRun_lt32 (n : Nat) : (s.lt + BitVec.ofNat 64 n).setWidth 32 = s.lt.setWidth 32 + BitVec.ofNat 32 n := by
  rw [BitVec.setWidth_add _ _ (by decide), BitVec.setWidth_ofNat_of_le (by decide)]

/-- The comparison that the `n + 1`-st tick makes. -/
theorem alarm_tickRun_succ (n a : Nat) :
    (tickRun (n + 1) s).alarm a =
      ((tickRun n s).alarm a).compare (s.lt.setWidth 32 + BitVec.ofNat 32 (n + 1)) := by
  have reached : (tickRun n s).lt + 1 = s.lt + BitVec.ofNat 64 (n + 1) := by
    rw [← tickRun_lt, tickRun_succ]
    rfl
  rw [tickRun_succ, alarm_tick, reached, tickRun_lt32]

/-- Synchronized time some microseconds on, in a word of the given width. -/
theorem ofInt_now_add (w k : Nat) :
    BitVec.ofInt w (s.now + k) = s.ht.setWidth w + BitVec.ofNat w k := by
  have here : BitVec.ofInt w s.now = s.ht.setWidth w := by
    simp [State.now, BitVec.ofInt_natCast]
  rw [BitVec.ofInt_add, here, BitVec.ofInt_natCast]

end

section
variable {s : State} {a k : Nat} (harmed : (s.alarm a).armed = true) (hk : k ≤ 2 ^ 32)
  (target : (s.alarm a).target = s.lt.setWidth 32 + BitVec.ofNat 32 k)
include target

include hk in
/-- Before its time comes a slot stays as it is. -/
theorem alarm_before {j : Nat} (hj : j < k) : (tickRun j s).alarm a = s.alarm a := by
  induction j with
  | zero => rfl
  | succ j ih =>
    have apart : (s.alarm a).target ≠ s.lt.setWidth 32 + BitVec.ofNat 32 (j + 1) := by
      rw [target]
      intro same
      have counts : k % 2 ^ 32 = (j + 1) % 2 ^ 32 := by
        simpa using congrArg BitVec.toNat (add_left_cancel same)
      omega
    rw [alarm_tickRun_succ, ih (by omega), AlarmSlot.compare, if_neg fun reached => apart reached.2]

include hk harmed in
/-- When its time comes a slot latches and is disarmed. -/
theorem alarm_fires (hpos : 0 < k) : (tickRun k s).alarm a = { s.alarm a with armed := false, latch := true } := by
  obtain ⟨n, rfl⟩ : ∃ n, k = n + 1 := ⟨k - 1, by omega⟩
  rw [alarm_tickRun_succ, alarm_before hk target (by omega), AlarmSlot.compare, if_pos ⟨harmed, target⟩]

end

/-- A slot that exists, armed for a deadline: its target is the local time of that deadline (R37, R153). -/
theorem alarm_arm {s : State} {a : Nat} (ha : a < s.alarms.length) (k : Nat) :
    (s.arm a (s.now + k)).alarm a =
      { s.alarm a with armed := true, target := s.lt.setWidth 32 + BitVec.ofNat 32 k } := by
  have target : s.s2l (BitVec.ofInt 32 (s.now + k)) = s.lt.setWidth 32 + BitVec.ofNat 32 k := by
    rw [State.s2l, ofInt_now_add, State.ht, BitVec.setWidth_add _ _ (by decide)]
    grind
  rw [State.arm, State.armAt, State.alarm_modifyAlarm _ _ _ _ ha, if_pos rfl, target]

end Sys2Proof.Safety

open Sys2Proof Sys2Proof.Machine Sys2Proof.Safety

/-- Settles O31: the `n`-th tick compares with local time plus `n`, and arming stores the deadline in local time. -/
theorem armedSlotFiresAtItsDeadline : Obligations.ArmedSlotFiresAtItsDeadline := by
  refine ⟨fun s a k _ harmed hpos hk target => ?_, fun s a d ha hnow hnear => ?_⟩
  · exact ⟨fun j hj => alarm_before hk target hj, alarm_fires harmed hk target hpos, tickRun_lt s k⟩
  · obtain ⟨k, rfl⟩ : ∃ k : Nat, d = s.now + k := ⟨(d - s.now).toNat, by omega⟩
    have count : (s.now + (k : Int) - s.now).toNat = k := by omega
    have armed := alarm_arm ha k
    have target : ((s.arm a (s.now + k)).alarm a).target = (s.arm a (s.now + k)).lt.setWidth 32 + BitVec.ofNat 32 k :=
      congrArg AlarmSlot.target armed
    have fired := alarm_fires (congrArg AlarmSlot.armed armed) (by omega) target (by omega)
    rw [count]
    refine ⟨fun j hj => ?_, by rw [fired], by rw [fired], ?_⟩
    · rw [alarm_before (by omega) target hj, armed]
    · have now := ofInt_now_add s 64 k
      rw [now, BitVec.setWidth_eq, State.ht, tickRun_lt, tickRun_offs]
      exact add_right_comm s.lt (BitVec.ofNat 64 k) s.offs

end

section
/-!
PROOF. O5, O6, O8, O10, O11, O12: what one step performs, where a placed word is run, interrupt entry, the reset and the
stop after a fault.
-/

namespace Sys2Proof.Safety

open Sys2Proof Sys2Proof.Machine

/-! ## A faulted block (R253) -/

theorem exec_stopped {s : State} {code : FaultCode} (h : s.fault = some code) (i : Instr) :
    exec i s = .fault (.stopped code) := by
  cases i <;> exact State.running_of_some h _

theorem perform_stopped {s : State} {code : FaultCode} (h : s.fault = some code) {a : Action}
    (ha : ∀ d, a ≠ .reset d) : perform a s = .fault (.stopped code) := by
  cases a with
  | reset d => exact absurd rfl (ha d)
  | _ => exact State.running_of_some h _

theorem fault_nextAction (s : State) : s.nextAction.2.fault = s.fault := by rw [State.nextAction_snd]

/-! ## The reset (R54) -/

section
variable (p : Params) (d : ResetDraws) (agenda : List Action) (draws : List Nat) (freeCtr : Nat)

/-- After a reset every line is disabled and has no handler. -/
theorem eq_absent_of_mem_lines_afterReset {l : IrqLine} (h : l ∈ (State.afterReset p d agenda draws freeCtr).lines) :
    l = IrqLine.absent := by
  obtain ⟨-, -, rfl⟩ := List.mem_map.mp h
  rfl

theorem written_afterReset : Written (State.afterReset p d agenda draws freeCtr) where
  frames := rfl
  handlers l hl c hhandler := by
    rw [eq_absent_of_mem_lines_afterReset p d agenda draws freeCtr hl] at hhandler
    cases hhandler
  transfers x hx := by
    obtain ⟨-, -, rfl⟩ := List.mem_map.mp hx
    exact nofun

theorem bound_afterReset : Bound (State.afterReset p d agenda draws freeCtr) where
  lines l hl henabled := by
    rw [eq_absent_of_mem_lines_afterReset p d agenda draws freeCtr hl] at henabled
    cases henabled
  position := trivial
  callers := rfl

end

/-! ## A running block -/

section
variable {s : State} (h : s.fault = none)
include h

theorem perform_command {w : CmdWord} {i : Instr} (hmpc : s.mpc = []) (hbooted : s.booted = true)
    (hw : decodeCommand w = .instr i) : perform (.command w) s = exec i s := by
  rw [perform, State.running_of_none h, takeCommand, if_pos ⟨hmpc, hbooted⟩, hw]

theorem perform_boot (hmpc : s.mpc = []) (hbooted : s.booted = false) : perform .main s = exec .boot s := by
  rw [perform, State.running_of_none h, mainStep, hmpc]
  simp [hbooted]

theorem perform_frame {f : Frame} {fs : List Frame} (hmpc : s.mpc = f :: fs) (hf : ∀ i, f ≠ .selected i) :
    perform .main s = exec f.instr s := by
  rw [perform, State.running_of_none h, mainStep_of_frame hmpc hf]

/-- An operation placed where no frame of the main thread is its own: it is performed with the frame taken away. -/
theorem perform_selected {i : Instr} {fs : List Frame} (hmpc : s.mpc = .selected i :: fs) :
    perform .main s = exec i (s.at fs) := by
  rw [perform, State.running_of_none h, mainStep, hmpc]

theorem perform_dma (c : Ch) : perform (.dma c) s = exec (.dmaBeat c) s := State.running_of_none h _

theorem perform_uart (c : Ch) : perform (.uart c) s = exec (.uartShift c) s := State.running_of_none h _

theorem perform_irq (q : Nat) : perform (.irq q) s = serveIrq q s := State.running_of_none h _

end

/-- A line is pending exactly if its slot exists, it is enabled and the slot's latch is set (R41). -/
theorem pending_iff (s : State) (q : Nat) :
    s.pending q = true ↔ ∃ a, s.alarmOf q = some a ∧ (s.line q).enabled = true ∧ (s.alarm a).latch = true := by
  unfold State.pending
  cases s.alarmOf q <;> simp

/-! ## Placed words (assumption 17) -/

theorem decodeTableWord_command {w : Nat} {i : Instr} (h : decodeTableWord 48 w = some i) :
    decodeCommand (BitVec.ofNat 48 w) = .instr i := by
  simp only [decodeTableWord, if_true, decodeOpWord] at h
  split at h
  next hw => rw [hw, Option.some.inj h]
  next => cases h

theorem isCommand_of_decodeChannelTag {high : BitVec 7} {c : Ch} {i : Instr} (h : decodeChannelTag high c = some i) :
    isCommand i = false := by
  unfold decodeChannelTag at h
  split at h <;> cases h <;> rfl

theorem isCommand_of_decodePlainTag {t : Tag} {i : Instr} (h : decodePlainTag t = some i) : isCommand i = false := by
  unfold decodePlainTag at h
  split at h <;> cases h <;> rfl

/-- A tag selects no command (R104). -/
theorem isCommand_of_decodeTag {t : Tag} {i : Instr} (h : decodeTag t = some i) : isCommand i = false := by
  unfold decodeTag at h
  split at h
  next hchannel => exact isCommand_of_decodeChannelTag (hchannel.trans h)
  next => exact isCommand_of_decodePlainTag h

section
variable {s : State} (h : s.fault = none)
include h

theorem step_fetchCommand {w : CmdWord} {i : Instr} (hw : decodeCommand w = .instr i) :
    step (s.fetchCommand w) = exec i { s with mpc := [], booted := true } :=
  (step_of_agenda rfl).trans (perform_command (s := { s with mpc := [], booted := true }) h rfl rfl hw)

theorem step_placed_selected (i : Instr) :
    step { s with mpc := [.selected i], agenda := .main :: s.agenda } = exec i { s with mpc := [] } :=
  (step_of_agenda rfl).trans (perform_selected (s := { s with mpc := [.selected i] }) h rfl)

theorem step_placed_frame (f : Frame) (hf : ∀ i, f ≠ .selected i) :
    step { s with mpc := [f], agenda := .main :: s.agenda } = exec f.instr { s with mpc := [f] } :=
  (step_of_agenda rfl).trans (perform_frame (s := { s with mpc := [f] }) h rfl hf)

end

end Sys2Proof.Safety

open Sys2Proof Sys2Proof.Machine Sys2Proof.Safety

/-- Settles O5: each agent's entry on a running block. -/
theorem stepRunsSelectedOperation : Obligations.StepRunsSelectedOperation := by
  intro s rest h
  refine ⟨fun w i hagenda hmpc hbooted hw => ?_, fun hagenda hmpc hbooted => ?_, fun f fs hagenda hmpc hf => ?_,
    fun c hagenda => ?_, fun c hagenda => ?_, fun a hagenda => step_of_agenda hagenda⟩
  all_goals rw [step_of_agenda hagenda]
  · exact perform_command (s := { s with agenda := rest }) h hmpc hbooted hw
  · exact perform_boot (s := { s with agenda := rest }) h hmpc hbooted
  · exact perform_frame (s := { s with agenda := rest }) h hmpc hf
  · exact perform_dma (s := { s with agenda := rest }) h c
  · exact perform_uart (s := { s with agenda := rest }) h c

/-- Settles O6: a command word stands at the head of the schedule, a tag's operation at its own agent. -/
theorem placedWordRuns : Obligations.PlacedWordRuns := by
  intro s w i h
  refine ⟨fun hw => step_fetchCommand h (decodeTableWord_command hw), fun hw => ?_⟩
  have placed : s.withFetchWord 8 w = s.fetchTagged i := by simp [State.withFetchWord, hw]
  have tagged : isCommand i = false := isCommand_of_decodeTag hw
  rw [placed]
  cases i with
  | rdConnected | rdCounter | rdFreq | rdAuxfn | rdAuxbaud | wrConnected | wrCounter | wrFreq | wrAuxfn | wrAuxbaud
  | poll => cases tagged
  | boot => exact (step_of_agenda rfl).trans (perform_boot (s := { s with mpc := [], booted := false }) h rfl rfl)
  | dmaBeat c => exact (step_of_agenda rfl).trans (perform_dma h c)
  | uartShift c => exact (step_of_agenda rfl).trans (perform_uart h c)
  | txStart | chFire | ppsFire => exact step_placed_selected h _
  | chSetup | chTeardown | auxSwitch | auxRebaud | ppsSetup | ppsTeardown =>
    exact step_placed_frame h (firstFrame _) (by simp [firstFrame])

/-- Settles O8: interrupt service, by the handler bound to the line. -/
theorem interruptEntry : Obligations.InterruptEntry := by
  intro s q h
  rw [perform_irq h]
  refine ⟨pending_iff s q, fun hidle => ?_, fun hpending => ⟨fun hhandler => ?_, fun c hhandler => ?_,
    fun hhandler => ?_⟩⟩
  · simp [serveIrq, hidle]
  all_goals simp only [serveIrq, hpending, if_true, hhandler]
  rfl

/-- Settles O10: the slots and data movers by their lemmas, the rest by the definition. -/
theorem resetValues : Obligations.ResetValues := by
  intro p d agenda draws freeCtr
  have alarms (a : Nat) := alarm_afterReset p d agenda draws freeCtr a
  have movers (x : Nat) := dmaChan_afterReset p d agenda draws freeCtr x
  refine ⟨rfl, rfl, rfl, rfl, fun a => ?_, fun q => ?_, fun a ha => ?_, fun x hx => ?_, fun x => busy_afterReset ..,
    fun hshared => ?_, fun hinit => ?_, rfl, rfl, rfl, rfl, rfl, rfl, rfl, rfl, rfl, rfl, rfl, rfl, rfl, rfl, rfl, rfl,
    rfl, rfl, rfl, rfl⟩
  · rw [alarms]
    split <;> exact ⟨rfl, rfl⟩
  · rw [line_afterReset]
    exact ⟨rfl, rfl⟩
  · simp [alarms, ha]
  · simp [movers, hx]
  · simp [State.afterReset, hshared]
  · exact if_pos hinit

/-- Settles O11: each invariant holds of a reset with any draws. -/
theorem resetEstablishesInvariants : Obligations.ResetEstablishesInvariants := by
  have valid : Config.params.valid = true := Config.checked.ok
  refine ⟨canonical_afterReset valid _ _ _ _, written_afterReset .., bound_afterReset .., singleClaim_afterReset ..,
    ⟨valid, mode_afterReset valid _ _ _ _⟩, pingPong_afterReset ..⟩

/-- Settles O12: on a faulted block only a reset's entry gives a next state, the one after reset. -/
theorem faultStopsUntilReset : Obligations.FaultStopsUntilReset := by
  refine ⟨fun s code h => ⟨exec_stopped h, fun a rest hagenda ha => ?_, fun t hstep => ?_⟩, fun s rest d hagenda => ?_⟩
  · rw [step_of_agenda hagenda]
    exact perform_stopped (s := { s with agenda := rest }) h ha
  · by_cases hreset : ∃ d, s.nextAction.1 = .reset d
    · obtain ⟨d, hd⟩ := hreset
      rw [step, hd] at hstep
      cases hstep
      exact ⟨⟨d, hd⟩, rfl⟩
    · have stopped := perform_stopped ((fault_nextAction s).trans h) (not_exists.mp hreset)
      cases stopped.symm.trans hstep
  · rw [step_of_agenda hagenda]
    rfl

end

section
/-!
PROOF. O14: buffers are filled before they are read. Bytes never lose their value, so all that matters is what comes to ask
for filled buffers (`Retains`): a line bound at `s4a`, after the fills, and a transfer started by a handler that is bound.
`Stacked` says which frames an operation can leave on the main thread, `Yields` that a next state satisfies a predicate and
that an operation stops on a faulted block only.
-/

namespace Sys2Proof.Safety

open Sys2Proof Sys2Proof.Machine

/-! ## Outcomes that stop for no byte (R88) -/

/-- A next state satisfies `P`, and the only stop is that of a faulted block. -/
structure Yields (P : State → Prop) (r : Result) : Prop where
  ensures : Ensures P r
  stops : ∀ f, r = .fault f → ∃ code, f = .stopped code

section
variable {P Q : State → Prop} {s t : State} {r : Result}

theorem Yields.next (h : P t) : Yields P (.next t) := ⟨.next h, nofun⟩

theorem Yields.refused (e : Refusal) : Yields P (.refused e) := ⟨.refused e, nofun⟩

theorem Yields.stopped (code : FaultCode) : Yields P (.fault (.stopped code)) :=
  ⟨.fault _, fun _ hf => ⟨code, (Host.Outcome.fault.inj hf).symm⟩⟩

theorem Yields.running (h : Yields P r) : Yields P (s.running r) := by
  cases hfault : s.fault with
  | none => rwa [State.running_of_none hfault]
  | some code =>
    rw [State.running_of_some hfault]
    exact .stopped code

theorem Yields.of_eq {q : Result} (he : q = s.running r) (h : Yields P r) : Yields P q := he ▸ h.running

/-- The main thread performs the next micro-op of the operation in progress. -/
theorem Yields.of_frame {f : Frame} {fs : List Frame} (hmpc : s.mpc = f :: fs)
    (hexec : exec f.instr s = s.running r) (h : Yields P r) (hf : ∀ i, f ≠ .selected i := by simp) :
    Yields P (mainStep s) := by
  rw [mainStep_of_frame hmpc hf]
  exact .of_eq hexec h

theorem Yields.mono (h : Yields P r) (hPQ : ∀ t, P t → Q t) : Yields Q r := ⟨h.ensures.mono hPQ, h.stops⟩

theorem Yields.and (h : Yields P r) (k : Ensures Q r) : Yields (fun t => P t ∧ Q t) r := ⟨h.ensures.and k, h.stops⟩

end

/-! ## Who asks for filled buffers -/

/-- A line runs the channel's handler, or a transfer of the channel is in progress. -/
def engages (s : State) (c : Ch) : Prop :=
  (∃ l ∈ s.lines, l.handler = .chFire c) ∨ ∃ x ∈ s.dma, x.busy = true ∧ x.srcCh = c

theorem written_iff (s : State) :
    Written s ↔ s.mpc.all (frameWritten s) = true ∧ ∀ c, engages s c → pairWritten s c = true := by
  constructor
  · intro h
    refine ⟨h.frames, fun c hc => ?_⟩
    rcases hc with ⟨l, hl, handler⟩ | ⟨x, hx, busy, rfl⟩
    · exact h.handlers l hl c handler
    · exact h.transfers x hx busy
  · rintro ⟨frames, filled⟩
    exact ⟨frames, fun l hl c handler => filled c (.inl ⟨l, hl, handler⟩),
      fun x hx busy => filled _ (.inr ⟨x, hx, busy, rfl⟩)⟩

theorem mem_lines_of_handler {s : State} {q : Nat} (h : (s.line q).handler ≠ .none) : s.line q ∈ s.lines := by
  cases hq : s.alarmOf q with
  | none =>
    rw [line_of_alarmOf_none hq] at h
    exact absurd rfl h
  | some a =>
    rw [line_of_alarmOf hq, List.getD_eq_getElem?_getD] at h ⊢
    cases ha : s.lines[a]? with
    | none =>
      rw [ha] at h
      exact absurd rfl h
    | some l => exact List.mem_of_getElem? ha

theorem mem_dma_of_busy {s : State} {d : Nat} (h : (s.dmaChan d).busy = true) : s.dmaChan d ∈ s.dma := by
  rw [State.dmaChan, List.getD_eq_getElem?_getD] at h ⊢
  cases hd : s.dma[d]? with
  | none =>
    rw [hd] at h
    cases h
  | some x => exact List.mem_of_getElem? hd

theorem exists_dmaChan_of_mem {s : State} {x : DmaChan} (h : x ∈ s.dma) : ∃ d, s.dmaChan d = x := by
  obtain ⟨d, hd⟩ := List.mem_iff_getElem?.mp h
  exact ⟨d, by rw [State.dmaChan, List.getD_eq_getElem?_getD, hd]; rfl⟩

theorem engages_swapView (s : State) (c : Ch) : engages (swapView s) c ↔ engages s c := by
  simp [engages, swapView, transferOf]

/-- From `s` to `t` no byte loses its value, and only a channel with filled buffers comes to ask for them. -/
structure Retains (s t : State) : Prop where
  params : t.params = s.params
  bytes : ∀ a, (Memory.read s.buf a).isSome = true → (Memory.read t.buf a).isSome = true
  asks : ∀ c, engages t c → engages s c ∨ pairWritten s c = true

section
variable {s t : State}

theorem Retains.len (h : Retains s t) (c : Ch) : t.len c = s.len c := by cases c <;> simp [State.len, h.params]

theorem Retains.slotWritten (h : Retains s t) {c : Ch} {sl : Slot} (hw : slotWritten s c sl = true) :
    slotWritten t c sl = true := by
  simp only [Safety.slotWritten, List.all_eq_true, h.len] at hw ⊢
  exact fun i hi => h.bytes _ (hw i hi)

theorem pairWritten_iff (s : State) (c : Ch) : pairWritten s c = true ↔ ∀ sl, slotWritten s c sl = true := by
  rw [pairWritten, Bool.and_eq_true]
  constructor
  · rintro ⟨zero, one⟩ sl
    cases sl with
    | zero => exact zero
    | one => exact one
  · exact fun h => ⟨h .zero, h .one⟩

theorem Retains.pairWritten (h : Retains s t) {c : Ch} (hw : pairWritten s c = true) : pairWritten t c = true :=
  (pairWritten_iff t c).mpr fun sl => h.slotWritten ((pairWritten_iff s c).mp hw sl)

theorem Retains.frameWritten (h : Retains s t) {f : Frame} (hf : frameWritten s f = true) :
    frameWritten t f = true := by
  cases f with
  | selected i => cases hf
  | chSetup c l =>
    cases l with
    | s3b => exact h.slotWritten hf
    | s3c | s4a | s4b | s5a | s5b => exact h.pairWritten hf
    | s0 | s1a | s1b | s1c | s2a | s2b | s3a => rfl
  | boot | chTeardown | auxSwitch | auxRebaud | ppsSetup | ppsTeardown | wrCounter | wrFreq | wrAuxfn | wrAuxbaud
  | poll => rfl

theorem Retains.frames (h : Retains s t) {fs : List Frame} (hfs : fs.all (Safety.frameWritten s) = true) :
    fs.all (Safety.frameWritten t) = true :=
  List.all_eq_true.mpr fun f hf => h.frameWritten (List.all_eq_true.mp hfs f hf)

theorem Written.of_retains (hs : Written s) (h : Retains s t) (frames : t.mpc.all (frameWritten t) = true) :
    Written t := by
  obtain ⟨-, filled⟩ := (written_iff s).mp hs
  exact (written_iff t).mpr ⟨frames, fun c hc => h.pairWritten ((h.asks c hc).elim (filled c) id)⟩

/-- A step that leaves the main thread where it is. -/
theorem Written.of_retains_same (hs : Written s) (h : Retains s t) (mpc : t.mpc = s.mpc) : Written t :=
  hs.of_retains h (mpc ▸ h.frames hs.frames)

/-! ## Single updates -/

theorem Retains.refl (s : State) : Retains s s := ⟨rfl, fun _ => id, fun _ => .inl⟩

/-- Lines, transfers and buffers stay. -/
theorem Retains.of_view (view : swapView t = swapView s) (buf : t.buf = s.buf) : Retains s t where
  params := by
    have x := congrArg State.params view
    exact x
  bytes a := by rw [buf]; exact id
  asks c hc := .inl ((engages_swapView s c).mp (view ▸ (engages_swapView t c).mpr hc))

theorem Retains.at (h : Retains s t) (fs : List Frame) : Retains s (t.at fs) := ⟨h.params, h.bytes, h.asks⟩

theorem Retains.setCh (h : Retains s t) (c : Ch) (v : Channel) : Retains s (t.setCh c v) :=
  ⟨h.params, h.bytes, h.asks⟩

theorem Retains.setPps (h : Retains s t) (x : PpsContext) : Retains s { t with pps := x } :=
  ⟨h.params, h.bytes, h.asks⟩

theorem memWrite_retains (c : Ch) (sl : Slot) (i : Nat) (bs : List Byte) : Retains s (s.memWrite c sl i bs) :=
  ⟨rfl, fun a => Memory.isSome_writeList s.buf _ a bs, fun _ => .inl⟩

theorem modifyDma_retains (d : Nat) {f : DmaChan → DmaChan}
    (h : ∀ x, (f x).busy = true → (x.busy = true ∧ x.srcCh = (f x).srcCh) ∨ pairWritten s (f x).srcCh = true) :
    Retains s (s.modifyDma d f) := by
  refine ⟨rfl, fun _ => id, fun c hc => ?_⟩
  rcases hc with handler | ⟨x, hx, busy, rfl⟩
  · exact .inl (.inl handler)
  · rcases mem_modify hx with hx | ⟨y, hy, -, rfl⟩
    · exact .inl (.inr ⟨x, hx, busy, rfl⟩)
    · exact (h y busy).imp (fun old => .inr ⟨y, hy, old⟩) id

theorem modifyLine_retains (q : Nat) {f : IrqLine → IrqLine}
    (h : ∀ l c, (f l).handler = .chFire c → l.handler = .chFire c ∨ pairWritten s c = true) :
    Retains s (s.modifyLine q f) := by
  refine ⟨by simp, fun a => by rw [State.modifyLine_buf]; exact id, fun c hc => ?_⟩
  rcases hc with ⟨l, hl, handler⟩ | transfer
  · unfold State.modifyLine at hl
    split at hl
    next =>
      rcases mem_modify hl with hl | ⟨k, hk, -, rfl⟩
      · exact .inl (.inl ⟨l, hl, handler⟩)
      · exact (h k c handler).imp (fun old => .inl ⟨k, hk, old⟩) id
    next => exact .inl (.inl ⟨l, hl, handler⟩)
  · rw [State.modifyLine_dma] at transfer
    exact .inl (.inr transfer)

/-- A channel's handler is bound after the fills. -/
theorem bind_retains (q : Nat) {x : Handler} (h : ∀ c, x = .chFire c → pairWritten s c = true) :
    Retains s (s.bind q x) :=
  modifyLine_retains q fun _ c handler => .inr (h c handler)

theorem enableIrq_retains (q : Nat) (b : Bool) : Retains s (s.enableIrq q b) := modifyLine_retains q fun _ _ => .inl

theorem releaseDma_retains (d : Nat) : Retains s (s.releaseDma d) := modifyDma_retains d nofun

theorem claimDma_retains {d : Nat} (h : s.claimDma = some (d, t)) : Retains s t :=
  .of_view (swapView_claimDma h) (claimDma_buf h)

theorem claimAlarm_retains {a : Nat} (h : s.claimAlarm = some (a, t)) : Retains s t :=
  .of_view (swapView_claimAlarm h) (claimAlarm_buf h)

end

/-! ## The fills (`s3a`, `s3b`) -/

theorem slotWritten_template (s : State) (c : Ch) (sl : Slot) :
    slotWritten (s.memWrite c sl 0 (s.template c)) c sl = true := by
  refine List.all_eq_true.mpr fun i hi => ?_
  have hi : i < (s.template c).length := by simpa using (List.mem_range.mp hi : i < s.len c)
  have same := Memory.read_writeList_same (s.template c) s.buf (bufAddr c sl 0) i hi
  have there : bufAddr c sl i = bufAddr c sl 0 + i := by simp [bufAddr]
  rw [there, State.memWrite_buf, same, List.getElem?_eq_getElem hi]
  rfl

/-! ## The frames that an operation leaves -/

/-- Whatever the buffers hold: if the frames `fs` have what they ask for, so do the frames of `t`. -/
def Stacked (fs : List Frame) (t : State) : Prop :=
  ∀ u, fs.all (frameWritten u) = true → t.mpc.all (frameWritten u) = true

theorem Stacked.of_frame {f : Frame} {fs gs : List Frame} {t : State} (hmpc : gs = f :: fs) (h : Stacked fs t) :
    Stacked gs t := by
  intro u hu
  rw [hmpc] at hu
  exact h u (Bool.and_eq_true _ _ ▸ hu : _ ∧ _).2

/-- On top of `fs` come only frames that ask for nothing. -/
theorem Yields.stacked {fs : List Frame} {t : State}
    (h : ∀ u, fs.all (frameWritten u) = true → t.mpc.all (frameWritten u) = true := by exact fun _ => id) :
    Yields (Stacked fs) (.next t) :=
  .next h

section
variable (fs : List Frame) (s : State)

theorem setupStart_stacked (c : Ch) : Yields (Stacked fs) (setupAt c fs .s0 s) := .stacked

theorem ppsSetupStart_stacked : Yields (Stacked fs) (ppsSetupAt fs .p0 s) := .stacked

theorem teardownStart_stacked (c : Ch) : Yields (Stacked fs) (teardownAt c fs .t0 s) := by
  unfold teardownAt
  dsimp only
  split <;> exact .stacked

theorem ppsTeardownStart_stacked : Yields (Stacked fs) (ppsTeardownAt fs .r0 s) := by
  unfold ppsTeardownAt
  dsimp only
  split <;> exact .stacked

theorem switchAt_stacked (fn : BitVec 2) (target : AuxState) (l : SwitchAt) :
    Yields (Stacked fs) (switchAt fn target fs l s) := by
  cases l with
  | a1 =>
    unfold switchAt
    dsimp only
    split
    · exact teardownStart_stacked (.auxSwitch fn .a2 :: fs) s .aux
    · exact ppsTeardownStart_stacked (.auxSwitch fn .a2 :: fs) s
    · exact .stacked
  | a3 =>
    cases target with
    | auxClockBroadcast => exact setupStart_stacked (.auxSwitch fn .a4 :: fs) s .aux
    | pulsePerSecond => exact ppsSetupStart_stacked (.auxSwitch fn .a4 :: fs) s
    | disabled => exact .stacked
  | a0 | a2 | a4 => exact .stacked

theorem switchOrRefuse_stacked (fn : BitVec 2) (l : SwitchAt) : Yields (Stacked fs) (switchOrRefuse fn fs l s) := by
  unfold switchOrRefuse
  split
  · exact switchAt_stacked ..
  · exact .refused _

theorem rebaudAt_stacked (l : RebaudAt) : Yields (Stacked fs) (rebaudAt fs l s) := by
  cases l with
  | b0 =>
    unfold rebaudAt
    dsimp only
    split <;> exact .stacked
  | b1 => exact teardownStart_stacked (.auxRebaud .b2 :: fs) s .aux
  | b2 => exact setupStart_stacked fs s .aux

theorem freqAt_stacked (p : BitVec 32) (l : FreqAt) : Yields (Stacked fs) (freqAt p fs l s) := by
  cases l with
  | w3 =>
    unfold freqAt
    dsimp only
    split <;> exact .stacked
  | w2 | w4 | w5 => exact .stacked

theorem auxfnAt_stacked (p : BitVec 32) (l : AuxfnAt) : Yields (Stacked fs) (auxfnAt p fs l s) := by
  cases l with
  | w3 | w4 =>
    unfold auxfnAt
    dsimp only
    split <;> exact .stacked
  | w5 => exact switchOrRefuse_stacked (.wrAuxfn p .w6 :: fs) s _ .a0
  | w2 | w6 => exact .stacked

theorem auxbaudAt_stacked (p : BitVec 32) (l : AuxbaudAt) : Yields (Stacked fs) (auxbaudAt p fs l s) := by
  cases l with
  | w2 =>
    unfold auxbaudAt
    dsimp only
    split <;> exact .stacked
  | w3 => exact rebaudAt_stacked (.wrAuxbaud p .w4 :: fs) s .b0
  | w4 => exact .stacked

end

section
variable (s : State)

theorem readRegister_stacked (i : Instr) (r : BitVec 8) : Yields (Stacked s.mpc) (readRegister i r s) :=
  .running .stacked

theorem execWrCounter_stacked (p : BitVec 32) : Yields (Stacked s.mpc) (execWrCounter p s) := by
  unfold execWrCounter
  refine .running ?_
  split
  next hmpc =>
    split
    · exact (Yields.stacked (t := (s.ack 1).at _)).mono fun _ => .of_frame hmpc
    · exact .stacked
  next => exact .stacked

theorem freqStart_stacked (p : BitVec 32) : Yields (Stacked s.mpc) (freqStart p s) := by
  unfold freqStart
  dsimp only
  split <;> exact .stacked

theorem execWrFreq_stacked (p : BitVec 32) : Yields (Stacked s.mpc) (execWrFreq p s) := by
  unfold execWrFreq
  refine .running ?_
  split
  next hmpc =>
    split
    · exact (freqAt_stacked ..).mono fun _ => .of_frame hmpc
    · exact freqStart_stacked s p
  next => exact freqStart_stacked s p

theorem auxfnStart_stacked (p : BitVec 32) : Yields (Stacked s.mpc) (auxfnStart p s) := by
  unfold auxfnStart
  dsimp only
  split <;> exact .stacked

theorem execWrAuxfn_stacked (p : BitVec 32) : Yields (Stacked s.mpc) (execWrAuxfn p s) := by
  unfold execWrAuxfn
  refine .running ?_
  split
  next hmpc =>
    split
    · exact (auxfnAt_stacked ..).mono fun _ => .of_frame hmpc
    · exact auxfnStart_stacked s p
  next => exact auxfnStart_stacked s p

theorem execWrAuxbaud_stacked (p : BitVec 32) : Yields (Stacked s.mpc) (execWrAuxbaud p s) := by
  unfold execWrAuxbaud
  refine .running ?_
  split
  next hmpc =>
    split
    · exact (auxbaudAt_stacked ..).mono fun _ => .of_frame hmpc
    · exact .stacked
  next => exact .stacked

theorem execPoll_stacked (r : BitVec 8) (x : BitVec 32) : Yields (Stacked s.mpc) (execPoll r x s) := by
  unfold execPoll
  refine .running ?_
  split
  next l fs hmpc =>
    have there : Yields (Stacked fs) (.next (s.counterTick.at fs)) := .stacked
    split
    · split
      · exact (Yields.stacked (fs := fs)).mono fun _ => .of_frame hmpc
      · exact there.mono fun _ => .of_frame hmpc
    · exact .stacked
  next => exact .stacked

theorem execAuxSwitch_stacked (fn : BitVec 2) : Yields (Stacked s.mpc) (execAuxSwitch fn s) := by
  unfold execAuxSwitch
  refine .running ?_
  split
  next hmpc =>
    split
    · exact (switchOrRefuse_stacked ..).mono fun _ => .of_frame hmpc
    · exact switchOrRefuse_stacked ..
  next => exact switchOrRefuse_stacked ..

theorem execAuxRebaud_stacked : Yields (Stacked s.mpc) (execAuxRebaud s) := by
  unfold execAuxRebaud
  refine .running ?_
  split
  next hmpc => exact (rebaudAt_stacked ..).mono fun _ => .of_frame hmpc
  next => exact rebaudAt_stacked ..

theorem execBoot_stacked : Yields (Stacked s.mpc) (execBoot s) := by
  unfold execBoot
  refine .running ?_
  split
  next hmpc => exact (setupStart_stacked ..).mono fun _ => .of_frame hmpc
  next => exact .stacked

/-- The operations that are neither a listing nor another agent's push frames that ask for nothing. -/
theorem exec_stacked {i : Instr} (hlisting : isListing i = false) (hattendance : isAttendance i = false) :
    Yields (Stacked s.mpc) (exec i s) := by
  cases i with
  | rdConnected | rdCounter | rdFreq | rdAuxfn | rdAuxbaud => exact readRegister_stacked s _ _
  | wrConnected p => exact .running .stacked
  | wrCounter p => exact execWrCounter_stacked s p
  | wrFreq p => exact execWrFreq_stacked s p
  | wrAuxfn p => exact execWrAuxfn_stacked s p
  | wrAuxbaud p => exact execWrAuxbaud_stacked s p
  | poll r x => exact execPoll_stacked s r x
  | boot => exact execBoot_stacked s
  | auxSwitch fn => exact execAuxSwitch_stacked s fn
  | auxRebaud => exact execAuxRebaud_stacked s
  | txStart | dmaBeat | uartShift | chFire | ppsFire => cases hattendance
  | chSetup | chTeardown | ppsSetup | ppsTeardown => cases hlisting

end

theorem Handles.retains {i : Instr} {fs : List Frame} {s t : State} (h : Handles i fs s t) : Retains s t := by
  have params := congrArg State.params h.touches.hardware
  have buf := congrArg State.buf h.touches.hardware
  have lines := congrArg State.lines h.touches.hardware
  have dma := congrArg State.dma h.touches.hardware
  exact ⟨params, fun a => by rw [show t.buf = s.buf from buf]; exact id, fun c hc => .inl <| by
    rwa [engages, show t.lines = s.lines from lines, show t.dma = s.dma from dma] at hc⟩

section
variable {s : State} (hs : Written s)
include hs

/-- A caller's next micro-op, or a command's first. -/
theorem Written.calls {i : Instr} (hlisting : isListing i = false) (hattendance : isAttendance i = false) :
    Yields Written (exec i s) :=
  ((exec_stacked s hlisting hattendance).and (exec_handles hlisting hattendance s)).mono fun t ⟨stacked, handles⟩ =>
    hs.of_retains handles.retains (stacked t (handles.retains.frames hs.frames))

/-! ## The listings, label by label (R154, R156, R185, R187) -/

theorem Written.raise (e : FaultCode) : Yields Written (s.raise e) :=
  .next (hs.of_retains_same (t := s.withFault e) (.of_view rfl rfl) rfl)

section
variable {f : Frame} {fs : List Frame} (hmpc : s.mpc = f :: fs)
include hmpc

/-- The operation in progress and its callers have the filled buffers that they ask for. -/
theorem Written.inProgress : frameWritten s f = true ∧ fs.all (frameWritten s) = true := by
  have frames := hs.frames
  rwa [hmpc, List.all_cons, Bool.and_eq_true] at frames

/-- The operation in progress is done. -/
theorem Written.returns {t : State} (h : Retains s t) : Yields Written (.next (t.at fs)) := by
  obtain ⟨-, below⟩ := hs.inProgress hmpc
  exact .next (hs.of_retains (h.at fs) ((h.at fs).frames below))

/-- The operation in progress goes on at a label that has the filled buffers it asks for. -/
theorem Written.goesOn {t : State} {g : Frame} (h : Retains s t ∧ frameWritten t g = true) :
    Yields Written (.next (t.at (g :: fs))) := by
  obtain ⟨h, hg⟩ := h
  obtain ⟨-, below⟩ := hs.inProgress hmpc
  have moved : Retains t (t.at (g :: fs)) := (Retains.refl t).at _
  exact .next (hs.of_retains (h.at _) (Bool.and_eq_true _ _ ▸ ⟨moved.frameWritten hg, (h.at _).frames below⟩))

end

section
variable {fs : List Frame}

theorem setupAt_written {c : Ch} {l : SetupAt} (hmpc : s.mpc = .chSetup c l :: fs) :
    Yields Written (setupAt c fs l s) := by
  obtain ⟨here, -⟩ := hs.inProgress hmpc
  cases l with
  | s0 => exact hs.goesOn hmpc ⟨.of_view rfl rfl, rfl⟩
  | s1a =>
    unfold setupAt
    dsimp only
    split
    next => exact hs.goesOn hmpc ⟨.of_view rfl rfl, rfl⟩
    next =>
      split
      next => exact hs.raise _
      next hclaim => exact hs.goesOn hmpc ⟨(claimDma_retains hclaim).setCh c _, rfl⟩
  | s1b =>
    unfold setupAt
    dsimp only
    split
    next => exact hs.goesOn hmpc ⟨.of_view rfl rfl, rfl⟩
    next =>
      split
      next => exact hs.raise _
      next hclaim => exact hs.goesOn hmpc ⟨(claimAlarm_retains hclaim).setCh c _, rfl⟩
  | s1c => exact hs.goesOn hmpc ⟨.setCh (.refl s) c _, rfl⟩
  | s2a => exact hs.goesOn hmpc ⟨.of_view (swapView_setupUart s c) (setupUart_buf c), rfl⟩
  | s2b => exact hs.goesOn hmpc ⟨.of_view rfl rfl, rfl⟩
  | s3a => exact hs.goesOn hmpc ⟨memWrite_retains c .zero 0 _, slotWritten_template s c .zero⟩
  | s3b =>
    have filled := memWrite_retains (s := s) c .one 0 (s.template c)
    refine hs.goesOn hmpc ⟨filled, (pairWritten_iff _ c).mpr fun sl => ?_⟩
    cases sl with
    | zero => exact filled.slotWritten here
    | one => exact slotWritten_template s c .one
  | s3c =>
    have reset := (Retains.refl s).setCh c { s.ch.get c with dispatchIdx := .zero }
    exact hs.goesOn hmpc ⟨reset, reset.pairWritten here⟩
  | s4a =>
    have bound : Retains s (s.bind (s.ch.get c).irq (.chFire c)) := bind_retains _ fun e he => by
      cases he
      exact here
    exact hs.goesOn hmpc ⟨bound, bound.pairWritten here⟩
  | s4b => exact hs.goesOn hmpc ⟨enableIrq_retains _ _, (enableIrq_retains _ _).pairWritten here⟩
  | s5a =>
    have stamped : Retains s (s.memWrite4 c (s.ch.get c).dispatchIdx (s.tofs c) (timeField (s.setupDeadline c))) :=
      memWrite_retains ..
    exact hs.goesOn hmpc ⟨stamped, stamped.pairWritten here⟩
  | s5b d => exact hs.returns hmpc (.of_view rfl rfl)

theorem teardownAt_written {c : Ch} {l : TeardownAt} (hmpc : s.mpc = .chTeardown c l :: fs) :
    Yields Written (teardownAt c fs l s) := by
  cases l with
  | t0 =>
    unfold teardownAt
    dsimp only
    split
    · exact hs.goesOn hmpc ⟨.of_view rfl rfl, rfl⟩
    · exact hs.returns hmpc (.of_view rfl rfl)
  | t1 | t2 | t4 => exact hs.goesOn hmpc ⟨.of_view rfl rfl, rfl⟩
  | t3 => exact hs.goesOn hmpc ⟨enableIrq_retains _ _, rfl⟩
  | t5 => exact hs.goesOn hmpc ⟨bind_retains _ nofun, rfl⟩
  | t6 => exact hs.goesOn hmpc ⟨releaseDma_retains _, rfl⟩
  | t7 => exact hs.goesOn hmpc ⟨.of_view (swapView_releaseUart s c) (releaseUart_buf c), rfl⟩
  | t8 => exact hs.returns hmpc ((Retains.refl s).setCh c _)

theorem ppsSetupAt_written {l : PpsSetupAt} (hmpc : s.mpc = .ppsSetup l :: fs) :
    Yields Written (ppsSetupAt fs l s) := by
  cases l with
  | p0 | p2 => exact hs.goesOn hmpc ⟨.of_view rfl rfl, rfl⟩
  | p1a =>
    unfold ppsSetupAt
    dsimp only
    split
    next => exact hs.goesOn hmpc ⟨.of_view rfl rfl, rfl⟩
    next =>
      split
      next => exact hs.raise _
      next hclaim => exact hs.goesOn hmpc ⟨(claimAlarm_retains hclaim).setPps _, rfl⟩
  | p1b => exact hs.goesOn hmpc ⟨.setPps (.refl s) _, rfl⟩
  | p3a => exact hs.goesOn hmpc ⟨bind_retains _ nofun, rfl⟩
  | p3b => exact hs.goesOn hmpc ⟨enableIrq_retains _ _, rfl⟩
  | p4a => exact hs.goesOn hmpc ⟨.of_view (swapView_setLevel s _) (setLevel_buf _), rfl⟩
  | p4b d => exact hs.returns hmpc (.of_view rfl rfl)

theorem ppsTeardownAt_written {l : PpsTeardownAt} (hmpc : s.mpc = .ppsTeardown l :: fs) :
    Yields Written (ppsTeardownAt fs l s) := by
  cases l with
  | r0 =>
    unfold ppsTeardownAt
    dsimp only
    split
    · exact hs.goesOn hmpc ⟨.of_view rfl rfl, rfl⟩
    · exact hs.returns hmpc (.of_view rfl rfl)
  | r1 | r2 | r4 | r6 => exact hs.goesOn hmpc ⟨.of_view rfl rfl, rfl⟩
  | r3 => exact hs.goesOn hmpc ⟨enableIrq_retains _ _, rfl⟩
  | r5 => exact hs.goesOn hmpc ⟨bind_retains _ nofun, rfl⟩
  | r7 => exact hs.returns hmpc ((Retains.refl s).setPps _)

end

/-! ## The main thread -/

theorem mainStep_written : Yields Written (mainStep s) := by
  cases hmpc : s.mpc with
  | nil =>
    unfold mainStep
    simp only [hmpc]
    split
    · exact .next hs
    · exact hs.calls (i := .boot) rfl rfl
  | cons f fs =>
    obtain ⟨here, -⟩ := hs.inProgress hmpc
    cases f with
    | selected i => cases here
    | chSetup c l => exact .of_frame hmpc (execChSetup_at hmpc) (setupAt_written hs hmpc)
    | chTeardown c l => exact .of_frame hmpc (execChTeardown_at hmpc) (teardownAt_written hs hmpc)
    | ppsSetup l => exact .of_frame hmpc (execPpsSetup_at hmpc) (ppsSetupAt_written hs hmpc)
    | ppsTeardown l => exact .of_frame hmpc (execPpsTeardown_at hmpc) (ppsTeardownAt_written hs hmpc)
    | boot | auxSwitch | auxRebaud | wrCounter | wrFreq | wrAuxfn | wrAuxbaud | poll =>
      rw [mainStep_of_frame hmpc (by simp)]
      exact hs.calls rfl rfl

theorem takeCommand_written (w : CmdWord) : Yields Written (takeCommand w s) := by
  unfold takeCommand
  split
  next =>
    split
    next hdecode =>
      obtain ⟨hlisting, hattendance, -⟩ := isCommand_kinds (isCommand_of_decode hdecode)
      exact hs.calls hlisting hattendance
    next => exact .next (hs.of_retains_same (.of_view rfl rfl) rfl)
    next => exact .next (hs.of_retains_same (.of_view rfl rfl) rfl)
    next => exact .refused _
  next => exact .next hs

/-! ## The other agents -/

omit hs in
theorem Progresses.retains {t : State} (p : Progresses s t) (view : mainView t = mainView s) : Retains s t := by
  have params := congrArg State.params view
  have lines := congrArg State.lines view
  refine ⟨params, fun a => by rw [p.buf]; exact id, fun c hc => .inl ?_⟩
  rcases hc with handler | ⟨x, hx, busy, srcCh⟩
  · rw [show t.lines = s.lines from lines] at handler
    exact .inl handler
  · obtain ⟨d, rfl⟩ := exists_dmaChan_of_mem hx
    obtain ⟨busy, same, -⟩ := p.transfers d busy
    exact .inr ⟨_, mem_dma_of_busy busy, busy, same ▸ srcCh⟩

/-- A handler that a line runs starts a transfer of filled buffers (R155). -/
theorem Fires.retains {t : State} {q : Nat} {c : Ch} (p : Fires c s t) (view : mainView t = mainView s)
    (handler : (s.line q).handler = .chFire c) : Retains s t := by
  have params := congrArg State.params view
  have lines := congrArg State.lines view
  have filled : pairWritten s c = true := hs.handlers _ (mem_lines_of_handler (by simp [handler])) c handler
  obtain ⟨v, buf⟩ := p.buf
  refine ⟨params, fun a ha => buf ▸ Memory.isSome_writeList s.buf _ a _ ha, fun e he => ?_⟩
  rw [engages, show t.lines = s.lines from lines, p.dma] at he
  exact (modifyDma_retains (s := s) _ fun _ _ => .inr filled).asks e he

theorem other_written {a : Action} {t : State} (ha : isOther a = true) (view : mainView t = mainView s)
    (h : perform a s = .next t) : Written t := by
  have mpc := congrArg State.mpc view
  rcases (perform_progresses ha s).of_next h with progresses | ⟨q, c, -, handler, fires⟩
  · exact hs.of_retains_same (progresses.retains view) mpc
  · exact hs.of_retains_same (fires.retains hs view handler) mpc

omit hs in
/-- A byte within the message of a filled slot has a value (R71, R88). -/
theorem memRead1_of_slotWritten {c : Ch} {sl : Slot} (h : slotWritten s c sl = true) {i : Nat}
    (hi : i < s.len c) : ∃ b, s.memRead1 c sl i = .ok b := by
  obtain ⟨b, hb⟩ := Option.isSome_iff_exists.mp (List.all_eq_true.mp h i (List.mem_range.mpr hi))
  exact ⟨b, by rw [State.memRead1, if_pos hi, hb]⟩

/-- A transfer in progress has a byte left within its message, and its buffers are filled. -/
theorem execDmaBeat_stops (hc : Canonical s) (c : Ch) : Yields (fun _ => True) (execDmaBeat c s) := by
  unfold execDmaBeat
  refine .running ?_
  split
  next henabled =>
    obtain ⟨⟨⟨-, busy⟩, srcCh⟩, -⟩ : (((s.ch.get c).active = true ∧ (s.dmaOf c).busy = true) ∧ (s.dmaOf c).srcCh = c) ∧
      s.txReady c = true := by simpa [State.beatEnabled] using henabled
    have transfer := mem_dma_of_busy busy
    have filled : pairWritten s c = true := srcCh ▸ hs.transfers _ transfer busy
    have whole := List.all_eq_true.mp hc.transfers _ transfer
    have within : (s.dmaOf c).pos < s.len c := by
      change transferOk s (s.dmaOf c) = true at whole
      simp only [transferOk, busy, srcCh, Bool.not_true, Bool.false_or, Bool.and_eq_true, decide_eq_true_eq] at whole
      omega
    obtain ⟨b, hb⟩ := memRead1_of_slotWritten ((pairWritten_iff s c).mp filled (s.dmaOf c).srcSlot) within
    rw [hb]
    exact .next trivial
  next => exact .next trivial

omit hs in
theorem serveIrq_stops (q : Nat) : Yields (fun _ => True) (serveIrq q s) := by
  unfold serveIrq
  split
  · split
    · exact .next trivial
    · refine .running ?_
      dsimp only
      split
      · exact .next trivial
      · exact .next trivial
    · exact .running (.next trivial)
  · exact .next trivial

omit hs in
theorem execUartShift_stops (c : Ch) : Yields (fun _ => True) (execUartShift c s) := by
  unfold execUartShift
  refine .running ?_
  split
  · split
    · exact .next trivial
    · exact .next trivial
  · exact .next trivial

/-- No other agent stops for a byte. -/
theorem other_stops (hc : Canonical s) {a : Action} (ha : isOther a = true) :
    Yields (fun _ => True) (perform a s) := by
  cases a with
  | main | command | reset => cases ha
  | irq q => exact .running (serveIrq_stops q)
  | dma c => exact .running (execDmaBeat_stops hs hc c)
  | uart c => exact .running (execUartShift_stops c)
  | tick | sync | din | quiet => exact .running (.next trivial)

/-! ## Every step -/

theorem perform_written (hc : Canonical s) (a : Action) : Yields Written (perform a s) := by
  cases a with
  | main => exact .running (mainStep_written hs)
  | command w => exact .running (takeCommand_written hs w)
  | reset d => exact .next (written_afterReset _ d _ _ _)
  | irq | dma | uart | tick | sync | din | quiet =>
    exact ⟨⟨fun h => other_written hs rfl ((perform_attends rfl s).of_next h).view h⟩, (other_stops hs hc rfl).stops⟩

end

end Sys2Proof.Safety

open Sys2Proof Sys2Proof.Machine Sys2Proof.Safety

/-- Settles O14: a setup fills both slots before it binds its handler, only a bound handler starts a transfer, and a
transfer stays within its message; nothing unwrites a byte but a reset, which leaves no one to read. -/
theorem onlyWrittenBytesAreRead : Obligations.OnlyWrittenBytesAreRead := by
  have yields {s : State} (hcanonical : Canonical s) (hs : Written s) : Yields Written (step s) := by
    have taken : Written s.nextAction.2 := by
      rw [State.nextAction_snd]
      exact hs.of_retains_same (.of_view rfl rfl) rfl
    exact perform_written taken ((nextAction_evolves s).canonical hcanonical) _
  refine ⟨fun s t hcanonical hs hstep => (yields hcanonical hs).ensures.of_next hstep,
    fun s hcanonical hs c sl n => ⟨fun h => ?_, fun h => ?_⟩⟩
  · obtain ⟨code, hcode⟩ := (yields hcanonical hs).stops _ h
    cases hcode
  · obtain ⟨code, hcode⟩ := (yields hcanonical hs).stops _ h
    cases hcode

end

section
/-!
PROOF. O33: buffer bytes one by one. A store gives each of its own bytes the value stored (`memRead1_memWrite_same`) and
leaves every other byte alone (`memRead1_memWrite_other`); a 4-byte word is its four bytes, least significant first.
-/

namespace Sys2Proof.Safety

open Sys2Proof Sys2Proof.Machine

/-! ## Words and bytes (R6) -/

theorem ofLe32_toNat (b0 b1 b2 b3 : Byte) :
    (ofLe32 b0 b1 b2 b3).toNat = b0.toNat + 256 * b1.toNat + 65536 * b2.toNat + 16777216 * b3.toNat := by
  have join {n : Nat} (x : BitVec n) (y : Byte) : (x ++ y).toNat = 256 * x.toNat + y.toNat := by
    rw [BitVec.toNat_append, ← Nat.shiftLeft_add_eq_or_of_lt y.isLt, Nat.shiftLeft_eq]
    omega
  rw [ofLe32, join, join, join]
  omega

theorem ofLe32_bytes (v : BitVec 32) :
    ofLe32 (v.extractLsb' 0 8) (v.extractLsb' 8 8) (v.extractLsb' 16 8) (v.extractLsb' 24 8) = v := by
  apply BitVec.eq_of_toNat_eq
  have := v.isLt
  simp only [ofLe32_toNat, BitVec.extractLsb'_toNat, Nat.shiftRight_eq_div_pow]
  omega

/-- Byte `k` of a word holds its bits `8 k + 7` to `8 k`. -/
theorem le32_getElem? (v : BitVec 32) {k : Nat} (hk : k < 4) : (le32 v)[k]? = some (v.extractLsb' (8 * k) 8) := by
  match k, hk with
  | 0, _ | 1, _ | 2, _ | 3, _ => rfl

/-! ## Reads after stores (R88, R89) -/

section
variable {s : State} {c : Ch} {sl : Slot} {n : Nat} {bs : List Byte}

/-- A byte that exists has an index below 8. -/
theorem lt_eight_of_lt_len (h : n < s.len c) : n < 8 := by
  have := s.len_le c
  omega

theorem memRead1_of_some {b : Byte} (hn : n < s.len c) (h : Memory.read s.buf (bufAddr c sl n) = some b) :
    s.memRead1 c sl n = .ok b := by
  rw [State.memRead1, if_pos hn, h]

theorem memRead4_of_ok {b0 b1 b2 b3 : Byte} (h0 : s.memRead1 c sl n = .ok b0) (h1 : s.memRead1 c sl (n + 1) = .ok b1)
    (h2 : s.memRead1 c sl (n + 2) = .ok b2) (h3 : s.memRead1 c sl (n + 3) = .ok b3) :
    s.memRead4 c sl n = .ok (ofLe32 b0 b1 b2 b3) := by
  rw [State.memRead4, h0, h1, h2, h3]

theorem memRead1_memWrite_same {i : Nat} {b : Byte} (hn : n + i < s.len c) (hb : bs[i]? = some b) :
    (s.memWrite c sl n bs).memRead1 c sl (n + i) = .ok b := by
  obtain ⟨hi, -⟩ := List.getElem?_eq_some_iff.mp hb
  have there : bufAddr c sl (n + i) = bufAddr c sl n + i := by simp [bufAddr, Nat.add_assoc]
  refine memRead1_of_some (s := s.memWrite c sl n bs) hn ?_
  rw [there, State.memWrite_buf, Memory.read_writeList_same bs s.buf _ i hi, hb]

theorem memRead1_memWrite_other {e : Ch} {sm : Slot} {m : Nat} (hbs : n + bs.length ≤ s.len c)
    (hne : (e, sm) ≠ (c, sl) ∨ m < n ∨ n + bs.length ≤ m) :
    (s.memWrite c sl n bs).memRead1 e sm m = s.memRead1 e sm m := by
  have len : (s.memWrite c sl n bs).len e = s.len e := rfl
  by_cases hm : m < s.len e
  · have same : Memory.read (s.memWrite c sl n bs).buf (bufAddr e sm m) = Memory.read s.buf (bufAddr e sm m) := by
      by_cases hslot : e = c ∧ sm = sl
      · obtain ⟨rfl, rfl⟩ := hslot
        refine Memory.read_writeList_other bs s.buf _ _ ?_
        have apart : m < n ∨ n + bs.length ≤ m := hne.resolve_left fun h => h rfl
        unfold bufAddr
        omega
      · exact read_store_other s.buf (hbs.trans ((s.len_le c).trans (by decide))) (lt_eight_of_lt_len hm) hslot
    simp only [State.memRead1, len, same]
  · simp only [State.memRead1, len, hm, if_false]

end

end Sys2Proof.Safety

open Sys2Proof Sys2Proof.Machine Sys2Proof.Safety

/-- Settles O33: reads by their definition, stores by what a read after a store gives. -/
theorem bufferReadsAndStores : Obligations.BufferReadsAndStores := by
  intro s c sl n
  refine ⟨fun b hn h => memRead1_of_some hn h, fun hn h => ?_, fun hn => if_neg (Nat.not_lt.mpr hn),
    fun b0 b1 b2 b3 h0 h1 h2 h3 => ⟨_, memRead4_of_ok h0 h1 h2 h3, ofLe32_toNat b0 b1 b2 b3⟩,
    fun b hn => ⟨?_, fun e sm m hne => ?_⟩, fun v hn => ?_⟩
  · rw [State.memRead1, if_pos hn, h]
  · exact memRead1_memWrite_same (i := 0) hn rfl
  · exact memRead1_memWrite_other hn (hne.imp id fun hm => by simp only [List.length_singleton]; omega)
  · have stored {k : Nat} (hk : k < 4) : (s.memWrite4 c sl n v).memRead1 c sl (n + k) = .ok (v.extractLsb' (8 * k) 8) :=
      memRead1_memWrite_same (by omega) (le32_getElem? v hk)
    refine ⟨fun k hk => stored hk, ?_, fun e sm m hne => memRead1_memWrite_other hn hne⟩
    have whole := memRead4_of_ok (stored (k := 0) (by decide)) (stored (k := 1) (by decide))
      (stored (k := 2) (by decide)) (stored (k := 3) (by decide))
    exact whole.trans (congrArg Except.ok (ofLe32_bytes v))

end

section
/-!
PROOF. O1, O2, O3, O4, O7: the decoder and the encoder of formats C and U. Each way of decoding is the inverse of one way
of encoding: `CmdWord.make` of the fields of a command word, `channelTag` of a tag's upper seven bits and its channel.
-/

namespace Sys2Proof.Safety

open Sys2Proof Sys2Proof.Machine

/-! ## The fields of a command word (R101) -/

theorem eq_ofNat_of_toNat {n k : Nat} {x : BitVec n} (h : x.toNat = k) : x = BitVec.ofNat n k := by
  rw [← h, BitVec.ofNat_toNat, BitVec.setWidth_eq]

section
variable (k r : BitVec 8) (v : BitVec 32)

theorem reg_make : CmdWord.reg (CmdWord.make k r v) = r := by
  rw [CmdWord.reg, CmdWord.make, BitVec.extractLsb'_append_eq_of_le (Nat.le_refl 32)]
  exact BitVec.extractLsb'_append_eq_right

theorem payload_make : CmdWord.payload (CmdWord.make k r v) = v := BitVec.extractLsb'_append_eq_right

end

/-- A command word is made of its fields. -/
theorem make_fields (w : CmdWord) : CmdWord.make (CmdWord.op w) (CmdWord.reg w) (CmdWord.payload w) = w := by
  have upper : w.extractLsb' 40 8 ++ w.extractLsb' 32 8 = w.extractLsb' 32 16 :=
    BitVec.extractLsb'_append_extractLsb'_eq_extractLsb' rfl
  rw [CmdWord.make, CmdWord.op, CmdWord.reg, CmdWord.payload, upper]
  exact BitVec.extractLsb'_append_extractLsb'

/-! ## Format C, by `op` (R102, R110) -/

section
variable {w : CmdWord}

theorem decodeCommand_read (h : CmdWord.op w = 1) :
    decodeCommand w = decodeRead (CmdWord.reg w) (CmdWord.payload w) := by
  rw [decodeCommand, h]
  rfl

theorem decodeCommand_write (h : CmdWord.op w = 2) :
    decodeCommand w = decodeWrite (CmdWord.reg w) (CmdWord.payload w) := by
  rw [decodeCommand, h]
  rfl

theorem decodeCommand_poll (h : CmdWord.op w = 3) :
    decodeCommand w = .instr (.poll (CmdWord.reg w) (CmdWord.payload w)) := by
  rw [decodeCommand, h]
  rfl

theorem decodeCommand_reserved (h1 : CmdWord.op w ≠ 1) (h2 : CmdWord.op w ≠ 2) (h3 : CmdWord.op w ≠ 3) :
    decodeCommand w = .reserved (CmdWord.op w) := by
  unfold decodeCommand
  split
  next h => exact absurd (BitVec.eq_of_toNat_eq h) h1
  next h => exact absurd (BitVec.eq_of_toNat_eq h) h2
  next h => exact absurd (BitVec.eq_of_toNat_eq h) h3
  next => rfl

theorem decodeRead_bad {r : BitVec 8} (v : BitVec 32) (h : 4 < r.toNat) : decodeRead r v = .badRead r := by
  unfold decodeRead
  split
  case h_6 => rfl
  all_goals omega

theorem decodeWrite_bad {r : BitVec 8} (v : BitVec 32) (h : 4 < r.toNat) : decodeWrite r v = .badWrite r := by
  unfold decodeWrite
  split
  case h_6 => rfl
  all_goals omega

/-- The words that select an operation: a read, a write or a poll. -/
theorem decodeCommand_instr {i : Instr} (h : decodeCommand w = .instr i) :
    CmdWord.op w = 1 ∧ decodeRead (CmdWord.reg w) (CmdWord.payload w) = .instr i ∨
      CmdWord.op w = 2 ∧ decodeWrite (CmdWord.reg w) (CmdWord.payload w) = .instr i ∨
      CmdWord.op w = 3 ∧ i = .poll (CmdWord.reg w) (CmdWord.payload w) := by
  by_cases h1 : CmdWord.op w = 1
  · exact .inl ⟨h1, (decodeCommand_read h1).symm.trans h⟩
  by_cases h2 : CmdWord.op w = 2
  · exact .inr (.inl ⟨h2, (decodeCommand_write h2).symm.trans h⟩)
  by_cases h3 : CmdWord.op w = 3
  · exact .inr (.inr ⟨h3, (Decoded.instr.inj ((decodeCommand_poll h3).symm.trans h)).symm⟩)
  · rw [decodeCommand_reserved h1 h2 h3] at h
    cases h

theorem decodeOpWord_cmd {i : Instr} : decodeOpWord (.cmd w) = some i ↔ decodeCommand w = .instr i := by
  unfold decodeOpWord
  dsimp only
  split
  next j h => simp [h]
  next h => simpa using h i

end

/-! ## Format C, there and back -/

section
variable {r : BitVec 8} {v : BitVec 32} {i : Instr}

theorem decodeOpWord_make_read (h : decodeRead r v = .instr i) :
    decodeOpWord (.cmd (CmdWord.make 1 r v)) = some i := by
  rw [decodeOpWord_cmd, decodeCommand_read (op_make 1 r v), reg_make, payload_make, h]

theorem decodeOpWord_make_write (h : decodeWrite r v = .instr i) :
    decodeOpWord (.cmd (CmdWord.make 2 r v)) = some i := by
  rw [decodeOpWord_cmd, decodeCommand_write (op_make 2 r v), reg_make, payload_make, h]

theorem decodeOpWord_make_poll (r : BitVec 8) (v : BitVec 32) :
    decodeOpWord (.cmd (CmdWord.make 3 r v)) = some (.poll r v) := by
  rw [decodeOpWord_cmd, decodeCommand_poll (op_make 3 r v), reg_make, payload_make]

theorem encode_of_decodeRead (h : decodeRead r v = .instr i) :
    i.wf = true ∧ encode i = .cmd (CmdWord.make 1 r v) := by
  unfold decodeRead at h
  split at h
  case h_6 => cases h
  all_goals
    next hr =>
      cases h
      rw [eq_ofNat_of_toNat hr]
      exact ⟨rfl, rfl⟩

theorem encode_of_decodeWrite (h : decodeWrite r v = .instr i) :
    i.wf = true ∧ encode i = .cmd (CmdWord.make 2 r v) := by
  unfold decodeWrite at h
  split at h
  case h_6 => cases h
  all_goals
    next hr =>
      cases h
      rw [eq_ofNat_of_toNat hr]
      exact ⟨rfl, rfl⟩

/-- A command word that decodes is the encoding of what it decodes to. -/
theorem encode_of_decodeCommand {w : CmdWord} (h : decodeCommand w = .instr i) :
    i.wf = true ∧ encode i = .cmd w := by
  rw [← make_fields w]
  rcases decodeCommand_instr h with ⟨hop, hread⟩ | ⟨hop, hwrite⟩ | ⟨hop, rfl⟩
  · rw [hop]
    exact encode_of_decodeRead hread
  · rw [hop]
    exact encode_of_decodeWrite hwrite
  · rw [hop]
    exact ⟨rfl, rfl⟩

end

/-! ## Format U, there and back (R104) -/

theorem ofBit_bit (c : Ch) : Ch.ofBit c.bit = c := by cases c <;> rfl

theorem bit_ofBit (h : BitVec 1) : (Ch.ofBit h).bit = h := by
  revert h
  decide

theorem decodeOpWord_channelTag {high : BitVec 7} {c : Ch} {i : Instr} (h : decodeChannelTag high c = some i) :
    decodeOpWord (channelTag high c) = some i := by
  have upper : (high ++ c.bit).extractLsb' 1 7 = high := BitVec.extractLsb'_append_eq_left
  have lower : (high ++ c.bit).extractLsb' 0 1 = c.bit := BitVec.extractLsb'_append_eq_right
  rw [channelTag, decodeOpWord, decodeTag, upper, lower, ofBit_bit, h]

theorem encode_of_decodeChannelTag {high : BitVec 7} {c : Ch} {i : Instr} (h : decodeChannelTag high c = some i) :
    i.wf = true ∧ encode i = channelTag high c := by
  unfold decodeChannelTag at h
  split at h
  case h_7 => cases h
  all_goals
    next hhigh =>
      cases h
      rw [eq_ofNat_of_toNat hhigh]
      exact ⟨rfl, rfl⟩

theorem encode_of_decodePlainTag {t : Tag} {i : Instr} (h : decodePlainTag t = some i) :
    i.wf = true ∧ encode i = .tag t := by
  unfold decodePlainTag at h
  split at h
  case h_9 => cases h
  all_goals
    next ht =>
      cases h
      rw [eq_ofNat_of_toNat ht]
      exact ⟨rfl, rfl⟩

/-- A tag is its upper seven bits and the bit of its channel. -/
theorem channelTag_fields (t : Tag) : channelTag (t.extractLsb' 1 7) (Ch.ofBit (t.extractLsb' 0 1)) = .tag t := by
  rw [channelTag, bit_ofBit]
  exact congrArg OpWord.tag BitVec.extractLsb'_append_extractLsb'

/-- A tag that decodes is the encoding of what it decodes to. -/
theorem encode_of_decodeTag {t : Tag} {i : Instr} (h : decodeTag t = some i) : i.wf = true ∧ encode i = .tag t := by
  unfold decodeTag at h
  split at h
  next hchannel =>
    rw [← channelTag_fields t]
    exact encode_of_decodeChannelTag (hchannel.trans h)
  next => exact encode_of_decodePlainTag h

/-- The table of R104: every tag that stands for an operation. -/
def tagTable : List (Tag × Instr) :=
  [(0x10, .chSetup .pri), (0x11, .chSetup .aux), (0x12, .chFire .pri), (0x13, .chFire .aux),
    (0x14, .chTeardown .pri), (0x15, .chTeardown .aux), (0x16, .txStart .pri), (0x17, .txStart .aux),
    (0x18, .dmaBeat .pri), (0x19, .dmaBeat .aux), (0x1A, .uartShift .pri), (0x1B, .uartShift .aux),
    (0x20, .ppsSetup), (0x22, .ppsFire), (0x24, .ppsTeardown), (0x30, .auxSwitch 0), (0x31, .auxSwitch 1),
    (0x32, .auxSwitch 2), (0x34, .auxRebaud), (0x40, .boot)]

/-- Every line of the table decodes to its operation. -/
theorem decodeTag_of_mem_tagTable : ∀ e ∈ tagTable, decodeTag e.1 = some e.2 := by decide

/-- Every operation with a tag has its line in the table. -/
theorem lookup_of_encode {t : Tag} {i : Instr} (hi : i.wf = true) (h : encode i = .tag t) :
    tagTable.lookup t = some i := by
  cases i with
  | rdConnected | rdCounter | rdFreq | rdAuxfn | rdAuxbaud | wrConnected | wrCounter | wrFreq | wrAuxfn | wrAuxbaud
  | poll => cases h
  | txStart c | dmaBeat c | uartShift c | chSetup c | chFire c | chTeardown c => cases c <;> cases h <;> rfl
  | auxSwitch fn =>
    have functions : ∀ g : BitVec 2, (Instr.auxSwitch g).wf = true →
        tagTable.lookup ((0b001100 : BitVec 6) ++ g) = some (.auxSwitch g) := by decide
    cases h
    exact functions fn hi
  | boot | auxRebaud | ppsSetup | ppsFire | ppsTeardown => cases h; rfl

theorem decodeTag_eq_lookup (t : Tag) : decodeTag t = tagTable.lookup t := by
  ext i
  constructor
  · intro h
    obtain ⟨hwf, hencode⟩ := encode_of_decodeTag h
    exact lookup_of_encode hwf hencode
  · intro h
    obtain ⟨before, after, hsplit, -⟩ := List.lookup_eq_some_iff.mp h
    exact decodeTag_of_mem_tagTable (t, i) (by simp [hsplit])

/-! ## Reserved words at the command port (R110) -/

section
variable {s : State} {w : CmdWord} (h : s.fault = none)
include h

theorem perform_command_reserved {op : BitVec 8} (hmpc : s.mpc = []) (hbooted : s.booted = true)
    (hw : decodeCommand w = .reserved op) : perform (.command w) s = .refused (.reservedOpcode op) := by
  rw [perform, State.running_of_none h, takeCommand, if_pos ⟨hmpc, hbooted⟩, hw]

theorem perform_command_badRead {r : BitVec 8} (hmpc : s.mpc = []) (hbooted : s.booted = true)
    (hw : decodeCommand w = .badRead r) :
    perform (.command w) s = .next (State.reply { s with hist := s.hist ++ [.cmd w] } .readError r 0) := by
  rw [perform, State.running_of_none h, takeCommand, if_pos ⟨hmpc, hbooted⟩, hw]

theorem perform_command_badWrite {r : BitVec 8} (hmpc : s.mpc = []) (hbooted : s.booted = true)
    (hw : decodeCommand w = .badWrite r) :
    perform (.command w) s = .next (State.reply { s with hist := s.hist ++ [.cmd w] } .writeError r 0) := by
  rw [perform, State.running_of_none h, takeCommand, if_pos ⟨hmpc, hbooted⟩, hw]

/-- A busy or unbooted main thread takes no word. -/
theorem perform_command_dropped (hbusy : ¬(s.mpc = [] ∧ s.booted = true)) : perform (.command w) s = .next s := by
  rw [perform, State.running_of_none h, takeCommand, if_neg hbusy]

theorem exec_auxSwitch_reserved : exec (.auxSwitch 3) s = .refused .reservedFunction := by
  have refuses (fs : List Frame) (l : SwitchAt) : switchOrRefuse 3 fs l s = .refused .reservedFunction := rfl
  refine (State.running_of_none h _).trans ?_
  split
  · split <;> exact refuses _ _
  · exact refuses _ _

end

end Sys2Proof.Safety

open Sys2Proof Sys2Proof.Machine Sys2Proof.Safety

/-- Settles O1: each row of the encoder is undone by the branch of the decoder that its `op` and `reg`, or its upper
seven bits, select. -/
theorem decodeEncodeRoundTrip : Obligations.DecodeEncodeRoundTrip := by
  intro i hi
  cases i with
  | rdConnected | rdCounter | rdFreq | rdAuxfn | rdAuxbaud => exact decodeOpWord_make_read rfl
  | wrConnected | wrCounter | wrFreq | wrAuxfn | wrAuxbaud => exact decodeOpWord_make_write rfl
  | poll r v => exact decodeOpWord_make_poll r v
  | txStart | dmaBeat | uartShift | chSetup | chFire | chTeardown => exact decodeOpWord_channelTag rfl
  | auxSwitch fn =>
    have functions : ∀ g : BitVec 2, (Instr.auxSwitch g).wf = true →
        decodeOpWord (encode (.auxSwitch g)) = some (.auxSwitch g) := by decide
    exact functions fn hi
  | boot | auxRebaud | ppsSetup | ppsFire | ppsTeardown => rfl

/-- Settles O2: both formats, by the inverse of each branch of the decoder. -/
theorem encodeDecodeRoundTrip : Obligations.EncodeDecodeRoundTrip := by
  intro w i h
  cases w with
  | cmd w => exact encode_of_decodeCommand (decodeOpWord_cmd.mp h)
  | tag t => exact encode_of_decodeTag h

/-- Settles O3: the branches by `op`, then by `reg`. -/
theorem commandWordFields : Obligations.CommandWordFields := by
  intro w
  refine ⟨fun hop => ?_, fun hop => ?_, decodeCommand_poll, decodeCommand_reserved⟩
  · rw [decodeCommand_read hop]
    refine ⟨?_, ?_, ?_, ?_, ?_, decodeRead_bad _⟩
    all_goals
      intro hreg
      rw [CmdWord.reg, hreg]
      rfl
  · rw [decodeCommand_write hop]
    refine ⟨?_, ?_, ?_, ?_, ?_, decodeWrite_bad _⟩
    all_goals
      intro hreg
      rw [CmdWord.reg, hreg]
      rfl

/-- Settles O4: the samples by evaluation, the table by both round trips of format U. -/
theorem sampleWordsDecode : Obligations.SampleWordsDecode := ⟨by decide, decodeTag_eq_lookup⟩

/-- Settles O7: the branches of the command port, one reserved outcome each. -/
theorem reservedCommandWords : Obligations.ReservedCommandWords := by
  refine ⟨fun s rest w h hagenda => ?_, fun s h => exec_auxSwitch_reserved h⟩
  rw [step_of_agenda hagenda]
  have running : ({ s with agenda := rest } : State).fault = none := h
  refine ⟨fun hmpc hbooted hop hreg => ?_, fun hmpc hbooted hop hreg => ?_, fun hmpc hbooted h1 h2 h3 => ?_,
    fun hbusy => ?_⟩
  · exact perform_command_badRead running hmpc hbooted ((decodeCommand_read hop).trans (decodeRead_bad _ hreg))
  · exact perform_command_badWrite running hmpc hbooted ((decodeCommand_write hop).trans (decodeWrite_bad _ hreg))
  · exact perform_command_reserved running hmpc hbooted (decodeCommand_reserved h1 h2 h3)
  · exact perform_command_dropped running fun ⟨hidle, hbooted⟩ =>
      hbusy.elim (absurd hidle) fun hfresh => Bool.false_ne_true (hfresh.symm.trans hbooted)

end

section
/-!
PROOF. O48: what is on a channel's wire, waits in its FIFO and has still to be moved is one list of bytes. A fire appends
the dispatch slot's message to it; the data movers, the serialisers and time leave it as it is.
-/

namespace Sys2Proof.Safety

open Sys2Proof Sys2Proof.Machine

/-! ## The bytes still to be moved (R131) -/

section
variable {s t : State} {c : Ch}

theorem toMove_congr (dma : t.dmaOf c = s.dmaOf c) (buf : t.buf = s.buf) : toMove t c = toMove s c := by
  rw [toMove, toMove, dma, buf]

theorem toMove_of_idle (h : (s.dmaOf c).busy = false) : toMove s c = [] := by simp [toMove, h]

theorem toMove_of_foreign (h : (s.dmaOf c).srcCh ≠ c) : toMove s c = [] := by simp [toMove, h]

theorem toMove_of_busy (hbusy : (s.dmaOf c).busy = true) (hsrc : (s.dmaOf c).srcCh = c) :
    toMove s c = (List.range' (s.dmaOf c).pos ((s.dmaOf c).count - (s.dmaOf c).pos)).map fun i =>
      Memory.read s.buf (bufAddr c (s.dmaOf c).srcSlot i) := if_pos ⟨hbusy, hsrc⟩

/-- A data mover that is busy exists. -/
theorem dma_lt_of_busy {d : Nat} (h : (s.dmaChan d).busy = true) : d < s.dma.length := by
  by_contra hd
  simp [State.dmaChan, hd, DmaChan.absent] at h

/-- A transfer in progress has a byte left (R43). -/
theorem Canonical.pos_lt_count (hc : Canonical s) {d : Nat} (h : (s.dmaChan d).busy = true) :
    (s.dmaChan d).pos < (s.dmaChan d).count := by
  have hd : d < s.dma.length := dma_lt_of_busy h
  have here : s.dmaChan d = s.dma[d] := by simp [State.dmaChan, hd]
  have hok : transferOk s (s.dmaChan d) = true := by
    rw [here]
    exact List.all_eq_true.mp hc.transfers _ (List.getElem_mem hd)
  simp only [transferOk, h, Bool.not_true, Bool.false_or, Bool.and_eq_true, decide_eq_true_eq] at hok
  exact hok.1

theorem read_of_memRead1 {sl : Slot} {i : Nat} {b : Byte} (h : s.memRead1 c sl i = .ok b) :
    Memory.read s.buf (bufAddr c sl i) = some b := by
  unfold State.memRead1 at h
  split at h
  · split at h
    next hread => rw [hread, Except.ok.inj h]
    next => cases h
  · cases h

/-! ## One beat, one shift (R131, R132) -/

/-- What the condition of a beat says of its transfer. -/
theorem transfer_of_beatEnabled (h : s.beatEnabled c = true) : (s.dmaOf c).busy = true ∧ (s.dmaOf c).srcCh = c := by
  simp only [State.beatEnabled, Bool.and_eq_true, decide_eq_true_eq] at h
  obtain ⟨⟨⟨-, hbusy⟩, hsrc⟩, -⟩ := h
  exact ⟨hbusy, hsrc⟩

/-- A beat moves the first byte of those still to be moved. -/
theorem toMove_beat (hc : Canonical s) {b : Byte} (henabled : s.beatEnabled c = true)
    (hread : s.memRead1 c (s.dmaOf c).srcSlot (s.dmaOf c).pos = .ok b) :
    toMove s c = some b :: toMove (s.beat c b) c := by
  obtain ⟨hbusy, hsrc⟩ := transfer_of_beatEnabled henabled
  have hleft : (s.dmaOf c).pos < (s.dmaOf c).count := hc.pos_lt_count hbusy
  have moved : (s.beat c b).dmaOf c = (s.dmaOf c).advance :=
    (s.dmaChan_modifyDma _ _ DmaChan.advance (dma_lt_of_busy hbusy)).trans (if_pos rfl)
  have buf : (s.beat c b).buf = s.buf := rfl
  obtain ⟨n, hn⟩ : ∃ n, (s.dmaOf c).count - (s.dmaOf c).pos = n + 1 := ⟨_, (Nat.succ_pred (by omega)).symm⟩
  rw [toMove_of_busy hbusy hsrc, hn, List.range'_succ, List.map_cons, read_of_memRead1 hread]
  refine congrArg (some b :: ·) ?_
  by_cases hlast : (s.dmaOf c).pos + 1 = (s.dmaOf c).count
  · rw [toMove_of_idle (by rw [moved, DmaChan.advance, if_pos hlast]), show n = 0 by omega]
    rfl
  · have goesOn : ((s.beat c b).dmaOf c).busy = true := by
      rw [moved, DmaChan.advance, if_neg hlast]
      exact hbusy
    rw [toMove_of_busy goesOn (by rw [moved]; exact hsrc), moved, buf,
      show n = (s.dmaOf c).count - ((s.dmaOf c).pos + 1) by omega]
    rfl

/-- A beat of the other channel moves nothing of this one's, even on a data mover that both name. -/
theorem toMove_beat_other {e : Ch} (hne : c ≠ e) {b : Byte} (henabled : s.beatEnabled e = true) :
    toMove (s.beat e b) c = toMove s c := by
  obtain ⟨hbusy, hsrc⟩ := transfer_of_beatEnabled henabled
  by_cases hd : (s.ch.get c).dma = (s.ch.get e).dma
  · have shared : s.dmaOf c = s.dmaOf e := congrArg s.dmaChan hd
    have moved : (s.beat e b).dmaOf c = (s.dmaOf c).advance :=
      (s.dmaChan_modifyDma _ _ DmaChan.advance (dma_lt_of_busy hbusy)).trans (if_pos hd)
    have foreign : (s.dmaOf c).srcCh ≠ c := by rw [shared, hsrc]; exact hne.symm
    rw [toMove_of_foreign foreign, toMove_of_foreign (s := s.beat e b) (by rw [moved]; exact foreign)]
  · exact toMove_congr (s.dmaChan_modifyDma_other DmaChan.advance hd) rfl

theorem byteStream_beat (hc : Canonical s) {e : Ch} {b : Byte} (henabled : s.beatEnabled e = true)
    (hread : s.memRead1 e (s.dmaOf e).srcSlot (s.dmaOf e).pos = .ok b) :
    byteStream (s.beat e b) c = byteStream s c := by
  have wire : (s.beat e b).wire = s.wire := rfl
  have uart : (s.beat e b).uart = s.uart.set e { s.uart.get e with fifo := (s.uart.get e).fifo ++ [b] } := rfl
  by_cases hce : c = e
  · subst hce
    simp [byteStream, wire, uart, toMove_beat hc henabled hread]
  · simp only [byteStream, wire, uart, Pair.get_set_other _ _ hce, toMove_beat_other hce henabled]

/-- A shift takes the front byte of the FIFO to the end of the wire. -/
theorem byteStream_shift {e : Ch} {b : Byte} {rest : List Byte} (hpin : (s.pin.get c).fn = .uartTx)
    (hfifo : (s.uart.get e).fifo = b :: rest) : byteStream (s.shift e b rest) c = byteStream s c := by
  have uart : (s.shift e b rest).uart = s.uart.set e { s.uart.get e with fifo := rest } := by
    unfold State.shift
    dsimp only
    split <;> rfl
  have left : toMove (s.shift e b rest) c = toMove s c := by
    unfold State.shift
    dsimp only
    split <;> rfl
  by_cases hce : c = e
  · subst hce
    have wire : (s.shift c b rest).wire = s.wire.set c (s.wire.get c ++ [b]) := by
      rw [State.shift, if_pos hpin]
      rfl
    simp [byteStream, left, wire, uart, hfifo]
  · have wire : (s.shift e b rest).wire.get c = s.wire.get c := by
      unfold State.shift
      dsimp only
      split
      · exact Pair.get_set_other _ _ hce
      · rfl
    simp only [byteStream, left, wire, uart, Pair.get_set_other _ _ hce]

theorem execDmaBeat_byteStream (hc : Canonical s) (e : Ch) :
    Ensures (fun t => byteStream t c = byteStream s c) (execDmaBeat e s) := by
  unfold execDmaBeat
  refine .running ?_
  split
  next henabled =>
    split
    next hread => exact .next (byteStream_beat hc henabled hread)
    next => exact .fault _
  next => exact .next rfl

theorem execUartShift_byteStream (hpin : (s.pin.get c).fn = .uartTx) (e : Ch) :
    Ensures (fun t => byteStream t c = byteStream s c) (execUartShift e s) := by
  unfold execUartShift
  refine .running ?_
  split
  next hfifo =>
    split
    · exact .next (byteStream_shift hpin hfifo)
    · exact .next rfl
  next => exact .next rfl

/-! ## A run of the data movers, the serialisers and time -/

/-- The entries of the data movers, the serialisers and time. -/
def isDrain : Action → Prop
  | .dma _ | .uart _ | .tick => True
  | _ => False

theorem isDrain_iff (a : Action) : isDrain a ↔ (∃ c, a = .dma c ∨ a = .uart c) ∨ a = .tick := by
  cases a <;> simp [isDrain]

theorem isOther_of_isDrain {a : Action} (h : isDrain a) : isOther a = true := by
  cases a with
  | dma | uart | tick => rfl
  | main | command | irq | sync | din | quiet | reset => exact h.elim

theorem Attends.pinFn (h : Attends s t) (c : Ch) : (t.pin.get c).fn = (s.pin.get c).fn := by
  have pins : (mainView t).pin.get c = (mainView s).pin.get c := by rw [h.view]
  simp only [mainView, pairMap_get, Pin.mk.injEq, and_true] at pins
  exact pins

/-- What a run of these entries keeps: the canonical form, the pin's function and the channel's bytes. -/
structure Drains (c : Ch) (s t : State) : Prop where
  canonical : Canonical t
  pin : (t.pin.get c).fn = .uartTx
  bytes : byteStream t c = byteStream s c

theorem perform_drains (hc : Canonical s) (hpin : (s.pin.get c).fn = .uartTx) {a : Action} (ha : isDrain a) :
    Ensures (Drains c s) (perform a s) := by
  have bytes : Ensures (fun t => byteStream t c = byteStream s c) (perform a s) := by
    cases a with
    | dma e => exact .running (execDmaBeat_byteStream hc e)
    | uart e => exact .running (execUartShift_byteStream hpin e)
    | tick => exact .running (.next rfl)
    | main | command | irq | sync | din | quiet | reset => exact ha.elim
  refine ⟨fun {t} ht => ⟨?_, ?_, bytes.of_next ht⟩⟩
  · rcases perform_cases ht with hev | ⟨d, rfl, -⟩ | ⟨-, rfl⟩ | ⟨offs, rfl, -⟩
    · exact hev.canonical hc
    · exact ha.elim
    · exact hc.tick
    · exact ha.elim
  · exact (((perform_attends (isOther_of_isDrain ha) s).of_next ht).pinFn c).trans hpin

theorem runOf_drains (as : List Action) (hc : Canonical s) (hpin : (s.pin.get c).fn = .uartTx)
    (has : ∀ a ∈ as, isDrain a) (hrun : runOf as s = .next t) : Drains c s t := by
  induction as generalizing s with
  | nil =>
    cases hrun
    exact ⟨hc, hpin, rfl⟩
  | cons a as ih =>
    rw [runOf] at hrun
    split at hrun
    next u hu =>
      have first : Drains c s u := (perform_drains hc hpin (has a List.mem_cons_self)).of_next hu
      have later := ih first.canonical first.pin (fun x hx => has x (List.mem_cons_of_mem _ hx)) hrun
      exact ⟨later.canonical, later.pin, later.bytes.trans first.bytes⟩
    next => cases hrun
    next => cases hrun

/-! ## The fire (R155) -/

/-- A fire that raises no fault: its transfer is started, and what has been sent or waits stays. -/
structure Issues (c : Ch) (s t : State) : Prop where
  fires : Fires c s t
  mover : (s.ch.get c).dma < s.dma.length
  wire : t.wire = s.wire
  uart : t.uart = s.uart

theorem execChFire_issues (c : Ch) (s : State) :
    Ensures (fun t => t.fault = none → Issues c s t) (execChFire c s) := by
  unfold execChFire
  refine .running ?_
  dsimp only
  split
  next u h =>
    obtain ⟨-, claimed, idle, -, -, rfl⟩ := txStart_ok h
    refine .next fun _ => ⟨⟨idle, rfl, rfl, _, rfl⟩, ?_, rfl, rfl⟩
    by_contra hd
    have absent : s.dmaOf c = DmaChan.absent := by simp [State.dmaOf, State.dmaChan, hd]
    have unclaimed : (s.dmaOf c).claimed = false := by rw [absent]; rfl
    exact Bool.false_ne_true (unclaimed.symm.trans claimed)
  next => exact .next nofun

theorem otherSlot_ne (sl : Slot) : sl ≠ otherSlot sl := by cases sl <;> decide

/-- After a fire the whole message of the slot issued has to be moved. -/
theorem Issues.toMove_eq (h : Issues c s t) : toMove t c = messageIn s c (s.ch.get c).dispatchIdx := by
  obtain ⟨fires, hd, -, -⟩ := h
  have started : t.dmaOf c =
      { s.dmaOf c with
        busy := true, srcCh := c, srcSlot := (s.ch.get c).dispatchIdx, pos := 0, count := s.len c } := by
    have mover := s.dmaChan_modifyDma (s.ch.get c).dma (s.ch.get c).dma (fun x =>
      { x with busy := true, srcCh := c, srcSlot := (s.ch.get c).dispatchIdx, pos := 0, count := s.len c }) hd
    simpa [State.dmaOf, State.dmaChan, fires.ch, fires.dma] using mover
  obtain ⟨v, buf⟩ := fires.buf
  rw [toMove_of_busy (by rw [started]) (by rw [started]), started, messageIn, Nat.sub_zero, ← List.range_eq_range']
  refine List.map_congr_left fun i hi => ?_
  have inside : i < 8 := lt_eight_of_lt_len (List.mem_range.mp hi)
  have fits : s.tofs c + (le32 v).length ≤ 8 :=
    (s.tofs_add_four_le c).trans ((s.len_le c).trans (by decide))
  rw [buf]
  exact read_store_other s.buf fits inside fun ⟨_, same⟩ => otherSlot_ne _ same

end

end Sys2Proof.Safety

open Sys2Proof Sys2Proof.Machine Sys2Proof.Safety

/-- Settles O48: the fire appends the message of the slot issued to the channel's bytes, the run that follows keeps them,
and at its end all of them are on the wire. -/
theorem wholeMessageReachesTheWire : Obligations.WholeMessageReachesTheWire := by
  intro as s u t c hc hpin hfire hfault has hrun hidle hempty
  have issued : Issues c s u := (execChFire_issues c s).of_next hfire hfault
  have hpin' : (u.pin.get c).fn = .uartTx := (((execChFire_attends c s).of_next hfire).pinFn c).trans hpin
  have hc' : Canonical u := ((execChFire_evolves c s).of_next hfire).canonical hc
  have drained : Drains c u t := runOf_drains as hc' hpin' (fun a ha => (isDrain_iff a).mpr (has a ha)) hrun
  calc (t.wire.get c).map some
      = byteStream t c := by simp [byteStream, hempty, toMove_of_idle hidle]
    _ = byteStream u c := drained.bytes
    _ = (s.wire.get c ++ (s.uart.get c).fifo).map some ++ messageIn s c (s.ch.get c).dispatchIdx := by
      rw [byteStream, issued.wire, issued.uart, issued.toMove_eq]

end

section
/-!
PROOF. O44, O45, O46, O47: the transmitter's three operations. For each: the condition under which it acts, its effect
there, and what it does elsewhere. That bytes keep their order is what a run of `isDrain` entries keeps.
-/

namespace Sys2Proof.Safety

open Sys2Proof Sys2Proof.Machine

section
variable {s : State} {c : Ch}

/-! ## TX.START (R130) -/

/-- The effect of `TX.START(ch, slot, n)`: the transfer's record, the start's log entry, the tag. -/
def startTransfer (s : State) (c : Ch) (sl : Slot) (n : Nat) : State :=
  State.log
    { s.modifyDma (s.ch.get c).dma fun x => { x with busy := true, srcCh := c, srcSlot := sl, pos := 0, count := n } with
      txLog := s.txLog ++ [{ ch := c, slot := sl, at_ := s.ht }] }
    (.txStart c)

/-- Every message has a byte (R46). -/
theorem len_pos (s : State) (c : Ch) : 0 < s.len c := by
  cases c with
  | pri => exact Nat.succ_pos 5
  | aux =>
    show 0 < s.params.auxMsg.len
    cases s.params.auxMsg <;> decide

theorem txStart_of_idle {sl : Slot} {n : Nat} (hactive : (s.ch.get c).active = true)
    (hclaimed : (s.dmaOf c).claimed = true) (hidle : (s.dmaOf c).busy = false) (hpos : 0 < n) (hlen : n ≤ s.len c) :
    txStart c sl n s = .ok (startTransfer s c sl n) := by
  have counted : ¬(n = 0 ∨ s.len c < n) := by omega
  rw [txStart, if_neg (by simp [hactive, hclaimed]), if_neg counted, if_neg (by simp [hidle])]
  rfl

theorem txStart_of_unclaimed {sl : Slot} {n : Nat}
    (h : (s.ch.get c).active = false ∨ (s.dmaOf c).claimed = false) : txStart c sl n s = .error .txUnclaimed := by
  rw [txStart, if_pos h]

theorem txStart_of_busy {sl : Slot} {n : Nat} (hactive : (s.ch.get c).active = true)
    (hclaimed : (s.dmaOf c).claimed = true) (hbusy : (s.dmaOf c).busy = true) (hpos : 0 < n) (hlen : n ≤ s.len c) :
    txStart c sl n s = .error .dmaOverlap := by
  have counted : ¬(n = 0 ∨ s.len c < n) := by omega
  rw [txStart, if_neg (by simp [hactive, hclaimed]), if_neg counted, if_pos hbusy]

theorem exec_txStart_of_ok {t : State} (h : s.fault = none)
    (hstart : txStart c (s.ch.get c).dispatchIdx (s.len c) s = .ok t) : exec (.txStart c) s = .next t := by
  refine (State.running_of_none h _).trans ?_
  rw [hstart]

theorem exec_txStart_of_error {code : FaultCode} (h : s.fault = none)
    (hstart : txStart c (s.ch.get c).dispatchIdx (s.len c) s = .error code) :
    exec (.txStart c) s = .next { s with fault := some code } := by
  refine (State.running_of_none h _).trans ?_
  rw [hstart]
  rfl

/-! ## DMA.BEAT (R131) -/

theorem beatEnabled_iff : s.beatEnabled c = true ↔
    (s.ch.get c).active = true ∧ (s.dmaOf c).busy = true ∧ (s.dmaOf c).srcCh = c ∧ (s.uart.get c).init = true ∧
      (s.uart.get c).fifo.length < s.params.uartFifoDepth := by
  simp only [State.beatEnabled, State.txReady, Bool.and_eq_true, decide_eq_true_eq, and_assoc]

theorem exec_dmaBeat_of_enabled {b : Byte} (h : s.fault = none) (henabled : s.beatEnabled c = true)
    (hread : s.memRead1 c (s.dmaOf c).srcSlot (s.dmaOf c).pos = .ok b) :
    exec (.dmaBeat c) s = .next (s.beat c b) := by
  refine (State.running_of_none h _).trans ?_
  rw [if_pos henabled, hread]

theorem exec_dmaBeat_of_waiting (h : s.fault = none) (hwaits : ¬s.beatEnabled c = true) :
    exec (.dmaBeat c) s = .next s :=
  (State.running_of_none h _).trans (if_neg hwaits)

/-! ## UART.SHIFT (R132) -/

theorem exec_uartShift_of_enabled {b : Byte} {rest : List Byte} (h : s.fault = none)
    (hinit : (s.uart.get c).init = true) (hfifo : (s.uart.get c).fifo = b :: rest) :
    exec (.uartShift c) s = .next (s.shift c b rest) := by
  refine (State.running_of_none h _).trans ?_
  rw [hfifo]
  exact if_pos hinit

theorem exec_uartShift_of_waiting (h : s.fault = none)
    (hwaits : (s.uart.get c).init = false ∨ (s.uart.get c).fifo = []) : exec (.uartShift c) s = .next s := by
  refine (State.running_of_none h _).trans ?_
  cases hfifo : (s.uart.get c).fifo with
  | nil => rfl
  | cons b rest =>
    have uninitialised : (s.uart.get c).init = false := hwaits.resolve_right (by simp [hfifo])
    exact if_neg (by simp [uninitialised])

end

end Sys2Proof.Safety

open Sys2Proof Sys2Proof.Machine Sys2Proof.Safety

/-- Settles O47: each entry of such a run keeps the channel's bytes, by the beat's and the shift's lemma. -/
theorem byteOrderIsKept : Obligations.ByteOrderIsKept := by
  intro as s t c hc hpin has hrun
  have drained : Drains c s t := runOf_drains as hc hpin (fun a ha => (isDrain_iff a).mpr (has a ha)) hrun
  exact drained.bytes

/-- Settles O44: the three outcomes of `TX.START`; every message has a byte, so that the operation by itself has a count
to which they apply. -/
theorem transmitStart : Obligations.TransmitStart := by
  intro s c sl n h x started
  have effect (sl : Slot) (n : Nat) : started sl n = startTransfer s c sl n := by cases c <;> rfl
  refine ⟨fun hactive hclaimed hidle => ?_, fun hunclaimed => ?_, fun hactive hclaimed hbusy => ?_⟩
  · rw [effect, effect]
    exact ⟨txStart_of_idle hactive hclaimed hidle,
      exec_txStart_of_ok h (txStart_of_idle hactive hclaimed hidle (len_pos s c) (Nat.le_refl _))⟩
  · exact ⟨txStart_of_unclaimed hunclaimed, exec_txStart_of_error h (txStart_of_unclaimed hunclaimed)⟩
  · exact ⟨txStart_of_busy hactive hclaimed hbusy,
      exec_txStart_of_error h (txStart_of_busy hactive hclaimed hbusy (len_pos s c) (Nat.le_refl _))⟩

/-- Settles O45: the beat of an enabled data mover; each failing condition denies `beatEnabled_iff`. -/
theorem dataMoverBeat : Obligations.DataMoverBeat := by
  intro s c b h x
  refine ⟨fun hactive hbusy hsrc hinit hroom hread => ?_, fun hwaits => exec_dmaBeat_of_waiting h fun henabled => ?_⟩
  · rw [exec_dmaBeat_of_enabled h (beatEnabled_iff.mpr ⟨hactive, hbusy, hsrc, hinit, hroom⟩) hread]
    cases c <;> rfl
  · obtain ⟨hactive, hbusy, hsrc, hinit, hroom⟩ := beatEnabled_iff.mp henabled
    rcases hwaits with hoff | hidle | hforeign | hdead | hfull
    · exact Bool.false_ne_true (hoff.symm.trans hactive)
    · exact Bool.false_ne_true (hidle.symm.trans hbusy)
    · exact hforeign hsrc
    · exact Bool.false_ne_true (hdead.symm.trans hinit)
    · exact Nat.not_lt.mpr hfull hroom

/-- Settles O46: the shift of an enabled serialiser, with the pin bound and not. -/
theorem serialiserShift : Obligations.SerialiserShift := by
  intro s c h
  refine ⟨fun b rest hinit hfifo => ?_, exec_uartShift_of_waiting h⟩
  rw [exec_uartShift_of_enabled h hinit hfifo, State.shift]
  by_cases hbound : (s.pin.get c).fn = .uartTx
  · rw [if_pos hbound, if_pos hbound]
    cases c <;> rfl
  · rw [if_neg hbound, if_neg hbound]
    cases c <;> rfl

end

section
/-!
PROOF. O29, O30: the deadline rule and the time field. A deadline has the form `m * 1000000 + off`, so its second is
`m`, or `m - 1` where the offset is negative.
-/

namespace Sys2Proof.Safety

open Sys2Proof Sys2Proof.Machine

section
variable {now off : Int}

/-- The deadline in the second that follows, where that is still to come. -/
theorem nextDeadline_of_ahead (h : now < (now / 1000000 + 1) * 1000000 + off) :
    nextDeadline now off = (now / 1000000 + 1) * 1000000 + off :=
  if_neg (Int.not_le.mpr h)

/-- The deadline a second later, where the first candidate is not ahead. -/
theorem nextDeadline_of_passed (h : (now / 1000000 + 1) * 1000000 + off ≤ now) :
    nextDeadline now off = (now / 1000000 + 2) * 1000000 + off := by
  rw [nextDeadline, if_pos h]
  omega

theorem nextDeadline_form (now off : Int) : ∃ m : Int, nextDeadline now off = m * 1000000 + off := by
  by_cases h : (now / 1000000 + 1) * 1000000 + off ≤ now
  · exact ⟨_, nextDeadline_of_passed h⟩
  · exact ⟨_, nextDeadline_of_ahead (Int.not_le.mp h)⟩

theorem nextDeadline_bounds (hlow : -1000000 < off) (hhigh : off < 1000000) :
    now < nextDeadline now off ∧ nextDeadline now off - now < 2000000 := by
  by_cases h : (now / 1000000 + 1) * 1000000 + off ≤ now
  · rw [nextDeadline_of_passed h]
    omega
  · have ahead := Int.not_le.mp h
    rw [nextDeadline_of_ahead ahead]
    omega

/-- A fire served within the latency bound finds the deadline one second on (R157). -/
theorem nextDeadline_of_served {deadline m : Int} (hlow : -1000000 < off) (hform : deadline = m * 1000000 + off)
    (hdue : deadline ≤ now) (hlatency : now - deadline < if off < 0 then -off else 1000000 - off) :
    nextDeadline now off = deadline + 1000000 := by
  by_cases hneg : off < 0
  · rw [if_pos hneg] at hlatency
    have second : now / 1000000 = m - 1 := by omega
    rw [nextDeadline_of_passed (by omega), second]
    omega
  · rw [if_neg hneg] at hlatency
    have second : now / 1000000 = m := by omega
    rw [nextDeadline_of_ahead (by omega), second]
    omega

theorem timeField_of_neg {m : Int} (hlow : -1000000 < off) (hneg : off < 0) :
    timeField (m * 1000000 + off) = BitVec.ofInt 32 (m - 1) := by
  have second : (m * 1000000 + off) / 1000000 = m - 1 := by omega
  rw [timeField, second]

theorem timeField_of_nonneg {m : Int} (hhigh : off < 1000000) (hnonneg : 0 ≤ off) :
    timeField (m * 1000000 + off) = BitVec.ofInt 32 m := by
  have second : (m * 1000000 + off) / 1000000 = m := by omega
  rw [timeField, second]

end

theorem timeField_add_second (d : Int) : timeField (d + 1000000) = timeField d + 1 := by
  have second : (d + 1000000) / 1000000 = d / 1000000 + 1 := by omega
  rw [timeField, timeField, second, BitVec.ofInt_add]
  rfl

end Sys2Proof.Safety

open Sys2Proof Sys2Proof.Machine Sys2Proof.Safety

/-- Settles O29: the rule by its definition, the bounds and the form of its result by their lemmas. -/
theorem nextDeadlineRule : Obligations.NextDeadlineRule := by
  intro now off hlow hhigh c
  obtain ⟨after, near⟩ := nextDeadline_bounds (now := now) hlow hhigh
  exact ⟨rfl, after, near, nextDeadline_form now off⟩

/-- Settles O30: the deadline computed at a time lies one second on, or two where a negative offset puts the first
candidate in the past. -/
theorem timeFieldRule : Obligations.TimeFieldRule := by
  intro now off hlow hhigh
  refine ⟨fun d => rfl, fun m => timeField_of_neg hlow, fun m => timeField_of_nonneg hhigh, ?_⟩
  split
  next h =>
    obtain ⟨hneg, hahead⟩ := h
    rw [nextDeadline_of_ahead hahead, timeField_of_neg hlow hneg, Int.add_sub_cancel]
  next h =>
    by_cases hneg : off < 0
    · have passed : (now / 1000000 + 1) * 1000000 + off ≤ now := Int.not_lt.mp fun hahead => h ⟨hneg, hahead⟩
      rw [nextDeadline_of_passed passed, timeField_of_neg hlow hneg]
      congr 1
      omega
    · rw [nextDeadline_of_ahead (by omega), timeField_of_nonneg hhigh (Int.not_lt.mp hneg)]

end

section
/-!
PROOF. O51, O52: `CH.FIRE` (R155). `fire` is the effect of a fire whose transfer starts; every outcome of the operation
is this effect or a fault, and the statements are read off it.
-/

namespace Sys2Proof.Safety

open Sys2Proof Sys2Proof.Machine

/-! ## Stores into one slot (R89) -/

section
variable (m : List Host.Cell) (c : Ch) (sl : Slot) {i k n : Nat} {bs : List Byte}

theorem bufAddr_add (i n : Nat) : bufAddr c sl (i + n) = bufAddr c sl i + n := by simp only [bufAddr, Nat.add_assoc]

theorem read_store_same (h : n < bs.length) :
    Memory.read (Memory.writeList m (bufAddr c sl i) bs) (bufAddr c sl (i + n)) = bs[n]? := by
  rw [bufAddr_add, Memory.read_writeList_same bs m _ n h]

/-- An address that no byte is stored to. -/
theorem read_store_apart (h : ∀ n, n < bs.length → k ≠ bufAddr c sl (i + n)) :
    Memory.read (Memory.writeList m (bufAddr c sl i) bs) k = Memory.read m k := by
  refine Memory.read_writeList_other bs m _ k ?_
  by_contra inside
  refine h (k - bufAddr c sl i) (by omega) ?_
  rw [bufAddr_add]
  omega

end

/-! ## The effect of a fire -/

section
variable {s : State} {c : Ch}

/-- Lines `f2` to `f6` as one update: `f2` clears the latch and `f6` arms the same slot. -/
theorem reschedule_eq (s : State) (c : Ch) : s.reschedule c =
    { s with
      alarms :=
        s.alarms.modify (s.ch.get c).alarm fun y =>
          { y with
            latch := false, armed := true
            target := s.s2l (BitVec.ofInt 32 (nextDeadline s.now (s.ch.get c).offsetUs)) }
      ch := s.ch.set c { s.ch.get c with dispatchIdx := otherSlot (s.ch.get c).dispatchIdx }
      buf :=
        Memory.writeList s.buf (bufAddr c (otherSlot (s.ch.get c).dispatchIdx) (s.tofs c))
          (le32 (timeField (nextDeadline s.now (s.ch.get c).offsetUs))) } := by
  apply State.eq_of_fields (alarms := List.modify_modify_eq _ _ _ _) <;> rfl

/-- A fire that starts its transfer: the tags, the transfer of the whole dispatch slot, the rescheduling. -/
def fire (s : State) (c : Ch) : State :=
  let x := s.ch.get c
  let deadline := nextDeadline s.now x.offsetUs
  { s with
    hist := s.hist ++ [encode (.chFire c), encode (.txStart c)]
    txLog := s.txLog ++ [{ ch := c, slot := x.dispatchIdx, at_ := s.ht }]
    dma := s.dma.modify x.dma fun y =>
      { y with busy := true, srcCh := c, srcSlot := x.dispatchIdx, pos := 0, count := s.len c }
    alarms := s.alarms.modify x.alarm fun y =>
      { y with latch := false, armed := true, target := s.s2l (BitVec.ofInt 32 deadline) }
    ch := s.ch.set c { x with dispatchIdx := otherSlot x.dispatchIdx }
    buf := Memory.writeList s.buf (bufAddr c (otherSlot x.dispatchIdx) (s.tofs c)) (le32 (timeField deadline)) }

theorem len_log (s : State) (i : Instr) (c : Ch) : (s.log i).len c = s.len c := by cases c <;> rfl

theorem reschedule_startTransfer (s : State) (c : Ch) :
    (startTransfer (s.log (.chFire c)) c (s.ch.get c).dispatchIdx (s.len c)).reschedule c = fire s c := by
  have time : (startTransfer (s.log (.chFire c)) c (s.ch.get c).dispatchIdx (s.len c)).now = s.now := rfl
  have hist : s.hist ++ [encode (.chFire c)] ++ [encode (.txStart c)] =
      s.hist ++ [encode (.chFire c), encode (.txStart c)] := List.append_assoc _ _ _
  rw [reschedule_eq, time]
  apply State.eq_of_fields (hist := hist) <;> rfl

theorem exec_chFire_of_idle (h : s.fault = none) (hactive : (s.ch.get c).active = true)
    (hclaimed : (s.dmaOf c).claimed = true) (hidle : (s.dmaOf c).busy = false) :
    exec (.chFire c) s = .next (fire s c) := by
  have started : txStart c (s.ch.get c).dispatchIdx (s.len c) (s.log (.chFire c)) = .ok _ :=
    txStart_of_idle hactive hclaimed hidle (len_pos s c) (Nat.le_refl _)
  refine (State.running_of_none h _).trans ?_
  dsimp only [State.log_ch]
  rw [len_log, started, ← reschedule_startTransfer]

theorem exec_chFire_of_error {code : FaultCode} (h : s.fault = none)
    (hstart : txStart c (s.ch.get c).dispatchIdx (s.len c) (s.log (.chFire c)) = .error code) :
    exec (.chFire c) s = .next { s with hist := s.hist ++ [encode (.chFire c)], fault := some code } := by
  refine (State.running_of_none h _).trans ?_
  dsimp only [State.log_ch]
  rw [len_log, hstart]
  rfl

/-- The one way in which a fire completes without a fault. -/
theorem eq_fire {t : State} (h : exec (.chFire c) s = .next t) (hfault : t.fault = none) : t = fire s c := by
  obtain ⟨hs, hr⟩ := State.running_next h
  dsimp only at hr
  split at hr
  next u hstart =>
    obtain ⟨hactive, hclaimed, hidle, -, -, -⟩ := txStart_ok hstart
    exact Host.Outcome.next.inj (h.symm.trans (exec_chFire_of_idle hs hactive hclaimed hidle))
  next =>
    cases hr
    cases hfault

theorem fire_alarm (h : (s.ch.get c).alarm < s.alarms.length) : (fire s c).alarm (s.ch.get c).alarm =
    { s.alarm (s.ch.get c).alarm with
      latch := false, armed := true
      target := s.s2l (BitVec.ofInt 32 (nextDeadline s.now (s.ch.get c).offsetUs)) } :=
  (s.alarm_modifyAlarm _ _ _ h).trans (if_pos rfl)

/-- The load slot holds the time field just stored. -/
theorem memRead4_fire (s : State) (c : Ch) :
    (fire s c).memRead4 c (otherSlot (s.ch.get c).dispatchIdx) (s.tofs c) =
      .ok (timeField (nextDeadline s.now (s.ch.get c).offsetUs)) := by
  obtain ⟨-, -, -, -, -, stores⟩ := bufferReadsAndStores s c (otherSlot (s.ch.get c).dispatchIdx) (s.tofs c)
  obtain ⟨-, whole, -⟩ := stores (timeField (nextDeadline s.now (s.ch.get c).offsetUs)) (s.tofs_add_four_le c)
  exact whole

end

end Sys2Proof.Safety

open Sys2Proof Sys2Proof.Machine Sys2Proof.Safety

/-- Settles O51: the three outcomes of `TX.START`, and the stored time field byte by byte. -/
theorem channelFire : Obligations.ChannelFire := by
  intro s c h x deadline fired issued
  have tag : fired = encode (.chFire c) := by cases c <;> rfl
  have tags : fire s c = { fire s c with hist := s.hist ++ [fired, issued] } := by cases c <;> rfl
  refine ⟨fun hactive hclaimed hidle => ⟨fire s c, exec_chFire_of_idle h hactive hclaimed hidle, tags, ?_, ?_⟩,
    fun hunclaimed => ?_, fun hactive hclaimed hbusy => ?_⟩
  · intro n hn
    exact (read_store_same s.buf c _ hn).trans (le32_getElem? _ hn)
  · intro k hk
    exact read_store_apart s.buf c _ hk
  · rw [tag]
    exact exec_chFire_of_error h (txStart_of_unclaimed hunclaimed)
  · rw [tag]
    exact exec_chFire_of_error h (txStart_of_busy hactive hclaimed hbusy (len_pos s c) (Nat.le_refl _))

/-- Settles O52: the deadline that `fire` computes is the old one and a second. -/
theorem undisturbedCycle : Obligations.UndisturbedCycle := by
  intro s t c deadline hlow _ hform hdue hlatency hfire hfault halarm
  obtain ⟨m, hform⟩ := hform
  obtain rfl := eq_fire hfire hfault
  have next : nextDeadline s.now (s.ch.get c).offsetUs = deadline + 1000000 :=
    nextDeadline_of_served hlow hform hdue hlatency
  have swapped : ((fire s c).ch.get c).dispatchIdx = otherSlot (s.ch.get c).dispatchIdx :=
    congrArg Channel.dispatchIdx (Pair.get_set_same s.ch _ c)
  have sent : (fire s c).memRead4 c ((fire s c).ch.get c).dispatchIdx ((fire s c).tofs c) =
      .ok (timeField deadline + 1) := by
    rw [swapped, ← timeField_add_second, ← next]
    exact memRead4_fire s c
  rw [fire_alarm halarm, next]
  exact ⟨rfl, rfl, rfl, swapped, sent, rfl⟩

end

section
/-!
PROOF. O53, O54: `CH.TEARDOWN` (R156), label by label and as a whole. The whole is the nine labels in a row; what is
left is that updates of one slot and of one line join into one.
-/

namespace Sys2Proof.Safety

open Sys2Proof Sys2Proof.Machine

/-! ## Updates of lines (R41) -/

/-- The lines after an update of line `q`, where `irqOf` lists the lines of the slots. -/
def updateLine (irqOf : List Nat) (lines : List IrqLine) (q : Nat) (f : IrqLine → IrqLine) : List IrqLine :=
  match irqOf.idxOf? q with
  | some a => lines.modify a f
  | none => lines

theorem modifyLine_eq (s : State) (q : Nat) (f : IrqLine → IrqLine) :
    s.modifyLine q f = { s with lines := updateLine s.params.irqOf s.lines q f } := by
  unfold State.modifyLine State.alarmOf updateLine
  cases s.params.irqOf.idxOf? q <;> rfl

theorem updateLine_twice (irqOf : List Nat) (lines : List IrqLine) (q : Nat) (f g : IrqLine → IrqLine) :
    updateLine irqOf (updateLine irqOf lines q f) q g = updateLine irqOf lines q fun y => g (f y) := by
  unfold updateLine
  split
  · exact List.modify_modify_eq _ _ _ _
  · rfl

/-! ## The labels of the teardown -/

section
variable {s t : State} {c : Ch} {fs : List Frame}

theorem teardownAt_t0 : teardownAt c fs .t0 s =
    .next
      { s with
        mpc := if (s.ch.get c).active then .chTeardown c .t1 :: fs else fs
        hist := s.hist ++ [encode (.chTeardown c)] } := by
  unfold teardownAt
  dsimp only
  split <;> rfl

theorem teardownAt_t1 : teardownAt c fs .t1 s =
    .next
      { s with
        mpc := .chTeardown c .t2 :: fs
        alarms := s.alarms.modify (s.ch.get c).alarm fun y => { y with armed := false } } := rfl

theorem teardownAt_t2 : teardownAt c fs .t2 s =
    .next
      { s with
        mpc := .chTeardown c .t3 :: fs
        alarms := s.alarms.modify (s.ch.get c).alarm fun y => { y with latch := false } } := rfl

theorem teardownAt_t3 : teardownAt c fs .t3 s =
    .next
      { s with
        mpc := .chTeardown c .t4 :: fs
        lines := updateLine s.params.irqOf s.lines (s.ch.get c).irq fun y => { y with enabled := false } } :=
  congrArg (fun t => Host.Outcome.next (State.at t _)) (modifyLine_eq s _ _)

theorem teardownAt_t4 : teardownAt c fs .t4 s =
    .next
      { s with
        mpc := .chTeardown c .t5 :: fs
        alarms := s.alarms.modify (s.ch.get c).alarm fun y => { y with claimed := false } } := rfl

theorem teardownAt_t5 : teardownAt c fs .t5 s =
    .next
      { s with
        mpc := .chTeardown c .t6 :: fs
        lines := updateLine s.params.irqOf s.lines (s.ch.get c).irq fun y => { y with handler := .none } } :=
  congrArg (fun t => Host.Outcome.next (State.at t _)) (modifyLine_eq s _ _)

theorem teardownAt_t6 : teardownAt c fs .t6 s =
    .next
      { s with
        mpc := .chTeardown c .t7 :: fs
        dma := s.dma.modify (s.ch.get c).dma fun y => { y with busy := false, claimed := false } } := rfl

theorem teardownAt_t7 : teardownAt c fs .t7 s =
    .next
      { s with
        mpc := .chTeardown c .t8 :: fs
        uart := if s.owned c then s.uart.set c { s.uart.get c with init := false, fifo := [] } else s.uart
        pin := if s.owned c then s.pin.set c { s.pin.get c with fn := .none } else s.pin } := by
  unfold teardownAt State.releaseUart
  dsimp only
  split <;> rfl

theorem teardownAt_t8 : teardownAt c fs .t8 s =
    .next { s with mpc := fs, ch := s.ch.set c { s.ch.get c with active := false } } := rfl

theorem exec_chTeardown_at {l : TeardownAt} (h : s.fault = none) (hmpc : s.mpc = .chTeardown c l :: fs) :
    exec (.chTeardown c) s = teardownAt c fs l s :=
  (execChTeardown_at hmpc).trans (State.running_of_none h _)

/-! ## The whole teardown -/

theorem mainRun_chTeardown {l : TeardownAt} {n : Nat} (h : s.fault = none) (hmpc : s.mpc = .chTeardown c l :: fs)
    (hat : teardownAt c fs l s = .next t) : mainRun (n + 1) s = mainRun n t :=
  mainRun_succ n h hmpc (by simp) ((exec_chTeardown_at h hmpc).trans hat)

/-- The state after `CH.TEARDOWN` of an active channel. -/
def tornDown (s : State) (c : Ch) (fs : List Frame) : State :=
  let x := s.ch.get c
  { s with
    mpc := fs
    hist := s.hist ++ [encode (.chTeardown c)]
    alarms := s.alarms.modify x.alarm fun y => { y with armed := false, latch := false, claimed := false }
    lines := updateLine s.params.irqOf s.lines x.irq fun y => { y with enabled := false, handler := .none }
    dma := s.dma.modify x.dma fun y => { y with busy := false, claimed := false }
    uart := if s.owned c then s.uart.set c { s.uart.get c with init := false, fifo := [] } else s.uart
    pin := if s.owned c then s.pin.set c { s.pin.get c with fn := .none } else s.pin
    ch := s.ch.set c { x with active := false } }

theorem alarms_tornDown (alarms : List AlarmSlot) (a : Nat) :
    (((alarms.modify a fun y => { y with armed := false }).modify a fun y => { y with latch := false }).modify a
        fun y => { y with claimed := false }) =
      alarms.modify a fun y => { y with armed := false, latch := false, claimed := false } := by
  rw [List.modify_modify_eq, List.modify_modify_eq]
  rfl

/-- The nine labels in a row; between them the state is brought back to one update of `s`. -/
theorem mainRun_chTeardown_whole (h : s.fault = none) (hmpc : s.mpc = .chTeardown c .t0 :: fs)
    (hactive : (s.ch.get c).active = true) : mainRun 9 s = .next (tornDown s c fs) := by
  refine Eq.trans (mainRun_chTeardown h hmpc teardownAt_t0) ?_
  rw [if_pos hactive]
  refine Eq.trans (mainRun_chTeardown h rfl teardownAt_t1) ?_
  refine Eq.trans (mainRun_chTeardown h rfl teardownAt_t2) ?_
  refine Eq.trans (mainRun_chTeardown h rfl teardownAt_t3) ?_
  dsimp only
  refine Eq.trans (mainRun_chTeardown h rfl teardownAt_t4) ?_
  refine Eq.trans (mainRun_chTeardown h rfl teardownAt_t5) ?_
  refine Eq.trans (mainRun_chTeardown h rfl teardownAt_t6) ?_
  dsimp only
  refine Eq.trans (mainRun_chTeardown h rfl teardownAt_t7) ?_
  refine Eq.trans (mainRun_chTeardown h rfl teardownAt_t8) (congrArg Host.Outcome.next ?_)
  dsimp only
  apply State.eq_of_fields (alarms := alarms_tornDown _ _) (lines := updateLine_twice _ _ _ _ _) <;> rfl

theorem tornDown_inactive (s : State) (c : Ch) (fs : List Frame) : ((tornDown s c fs).ch.get c).active = false :=
  congrArg Channel.active (Pair.get_set_same s.ch _ c)

/-- On an inactive channel the teardown returns at `t0`. -/
theorem exec_chTeardown_of_inactive (h : s.fault = none) (hmpc : s.mpc = .chTeardown c .t0 :: fs)
    (hinactive : (s.ch.get c).active = false) :
    exec (.chTeardown c) s = .next { s with mpc := fs, hist := s.hist ++ [encode (.chTeardown c)] } := by
  rw [exec_chTeardown_at h hmpc, teardownAt_t0, if_neg (by simp [hinactive])]

end

end Sys2Proof.Safety

open Sys2Proof Sys2Proof.Machine Sys2Proof.Safety

/-- Settles O53: label by label, by the equations above. -/
theorem channelTeardownMicroOps : Obligations.ChannelTeardownMicroOps := by
  intro s c fs h x tag owned
  have tagged : tag = encode (.chTeardown c) := by cases c <;> rfl
  have ownership : owned = s.owned c := by cases c <;> rfl
  have performs {l : TeardownAt} {r : Result} (hat : teardownAt c fs l s = r) (hmpc : s.mpc = .chTeardown c l :: fs) :
      exec (.chTeardown c) s = r := (exec_chTeardown_at h hmpc).trans hat
  rw [tagged, ownership]
  exact ⟨performs teardownAt_t0, performs teardownAt_t1, performs teardownAt_t2, performs rfl, performs teardownAt_t4,
    performs rfl, performs teardownAt_t6, performs teardownAt_t7, performs teardownAt_t8⟩

/-- Settles O54: the nine labels in a row leave `tornDown`, on which a second teardown returns at once. -/
theorem channelTeardownWhole : Obligations.ChannelTeardownWhole := by
  intro s c fs h hmpc hactive x
  refine ⟨tornDown s c fs, mainRun_chTeardown_whole h hmpc hactive, ?_, ?_⟩
  · rw [modifyLine_eq]
    rfl
  · exact exec_chTeardown_of_inactive (s := { tornDown s c fs with mpc := .chTeardown c .t0 :: fs }) h rfl
      (tornDown_inactive s c fs)

end

section
/-!
PROOF. O49, O50: `CH.SETUP` (R154), label by label and as a whole. The whole is two runs of labels: `s0` to `s1c` claim
what the channel needs, `s2a` to `s5b` build on it.
-/

namespace Sys2Proof.Safety

open Sys2Proof Sys2Proof.Machine

theorem pair_set_set {α : Type} (x : Pair α) (c : Ch) (u v : α) : (x.set c u).set c v = x.set c v := by
  cases c <;> rfl

/-! ## Claims as whole next states (R42) -/

section
variable {s : State} {e : Nat} {rest : List Nat}

theorem claimDma_eq (hfree : s.freeDma ≠ []) : s.claimDma =
    some
      (chooseFree s.freeDma s.draw.1,
        s.draw.2.modifyDma (chooseFree s.freeDma s.draw.1) fun y => { y with claimed := true }) := by
  unfold State.claimDma
  cases hf : s.freeDma with
  | nil => exact absurd hf hfree
  | cons d ds => rfl

theorem claimAlarm_eq (hfree : s.freeAlarms ≠ []) : s.claimAlarm =
    some
      (chooseFree s.freeAlarms s.draw.1,
        s.draw.2.modifyAlarm (chooseFree s.freeAlarms s.draw.1) fun y => { y with claimed := true }) := by
  unfold State.claimAlarm
  cases hf : s.freeAlarms with
  | nil => exact absurd hf hfree
  | cons a as => rfl

theorem draw_of_listed (hdraws : s.draws = e :: rest) : s.draw = (e, { s with draws := rest }) := by
  rw [State.draw, hdraws]

/-- The listed id is taken where it is free. -/
theorem claimDma_of_listed (hfree : e ∈ s.freeDma) (hdraws : s.draws = e :: rest) : s.claimDma =
    some (e, { s with dma := s.dma.modify e fun y => { y with claimed := true }, draws := rest }) := by
  rw [claimDma_eq (List.ne_nil_of_mem hfree), draw_of_listed hdraws, chooseFree_want hfree]
  rfl

theorem claimAlarm_of_listed (hfree : e ∈ s.freeAlarms) (hdraws : s.draws = e :: rest) : s.claimAlarm =
    some (e, { s with alarms := s.alarms.modify e fun y => { y with claimed := true }, draws := rest }) := by
  rw [claimAlarm_eq (List.ne_nil_of_mem hfree), draw_of_listed hdraws, chooseFree_want hfree]
  rfl

theorem claimDma_of_free (hfree : s.freeDma ≠ []) : ∃ e ds n, e ∈ s.freeDma ∧
    s.claimDma =
      some (e, { s with dma := s.dma.modify e fun y => { y with claimed := true }, draws := ds, freeCtr := n }) := by
  refine ⟨_, s.draw.2.draws, s.draw.2.freeCtr, chooseFree_mem s.draw.1 hfree, ?_⟩
  rw [claimDma_eq hfree, State.draw_snd]
  rfl

theorem claimAlarm_of_free (hfree : s.freeAlarms ≠ []) : ∃ a ds n, a ∈ s.freeAlarms ∧
    s.claimAlarm =
      some
        (a, { s with alarms := s.alarms.modify a fun y => { y with claimed := true }, draws := ds, freeCtr := n }) := by
  refine ⟨_, s.draw.2.draws, s.draw.2.freeCtr, chooseFree_mem s.draw.1 hfree, ?_⟩
  rw [claimAlarm_eq hfree, State.draw_snd]
  rfl

end

/-! ## The labels of the setup -/

section
variable {s t : State} {c : Ch} {fs : List Frame}

theorem setupAt_s0 : setupAt c fs .s0 s =
    .next { s with mpc := .chSetup c .s1a :: fs, hist := s.hist ++ [encode (.chSetup c)] } := rfl

theorem setupAt_s1a_of_active (hactive : (s.ch.get c).active = true) :
    setupAt c fs .s1a s = .next { s with mpc := .chSetup c .s1b :: fs } := if_pos hactive

theorem setupAt_s1a_of_none (hinactive : (s.ch.get c).active = false) (hfree : s.freeDma = []) :
    setupAt c fs .s1a s = .next { s with fault := some .noDma } := by
  unfold setupAt
  dsimp only
  rw [if_neg (by simp [hinactive]), s.claimDma_none.mpr hfree]
  rfl

theorem setupAt_s1a_of_claim {e : Nat} (hinactive : (s.ch.get c).active = false) (hclaim : s.claimDma = some (e, t)) :
    setupAt c fs .s1a s =
      .next { t with mpc := .chSetup c .s1b :: fs, ch := t.ch.set c { t.ch.get c with dma := e } } := by
  unfold setupAt
  dsimp only
  rw [if_neg (by simp [hinactive]), hclaim]
  rfl

theorem setupAt_s1a_of_free (hinactive : (s.ch.get c).active = false) (hfree : s.freeDma ≠ []) :
    ∃ e ds n, e ∈ s.freeDma ∧
      setupAt c fs .s1a s =
        .next
          { s with
            mpc := .chSetup c .s1b :: fs
            dma := s.dma.modify e fun y => { y with claimed := true }
            ch := s.ch.set c { s.ch.get c with dma := e }
            draws := ds
            freeCtr := n } := by
  obtain ⟨e, ds, n, he, hclaim⟩ := claimDma_of_free hfree
  exact ⟨e, ds, n, he, setupAt_s1a_of_claim hinactive hclaim⟩

theorem setupAt_s1b_of_active (hactive : (s.ch.get c).active = true) :
    setupAt c fs .s1b s = .next { s with mpc := .chSetup c .s1c :: fs } := if_pos hactive

theorem setupAt_s1b_of_none (hinactive : (s.ch.get c).active = false) (hfree : s.freeAlarms = []) :
    setupAt c fs .s1b s = .next { s with fault := some .noAlarm } := by
  unfold setupAt
  dsimp only
  rw [if_neg (by simp [hinactive]), s.claimAlarm_none.mpr hfree]
  rfl

theorem setupAt_s1b_of_claim {a : Nat} (hinactive : (s.ch.get c).active = false) (hclaim : s.claimAlarm = some (a, t)) :
    setupAt c fs .s1b s =
      .next
        { t with
          mpc := .chSetup c .s1c :: fs
          ch := t.ch.set c { t.ch.get c with alarm := a, irq := s.irqOf a } } := by
  unfold setupAt
  dsimp only
  rw [if_neg (by simp [hinactive]), hclaim]
  rfl

theorem setupAt_s1b_of_free (hinactive : (s.ch.get c).active = false) (hfree : s.freeAlarms ≠ []) :
    ∃ a ds n, a ∈ s.freeAlarms ∧
      setupAt c fs .s1b s =
        .next
          { s with
            mpc := .chSetup c .s1c :: fs
            alarms := s.alarms.modify a fun y => { y with claimed := true }
            ch := s.ch.set c { s.ch.get c with alarm := a, irq := s.irqOf a }
            draws := ds
            freeCtr := n } := by
  obtain ⟨a, ds, n, ha, hclaim⟩ := claimAlarm_of_free hfree
  exact ⟨a, ds, n, ha, setupAt_s1b_of_claim hinactive hclaim⟩

theorem setupAt_s1c : setupAt c fs .s1c s =
    .next { s with mpc := .chSetup c .s2a :: fs, ch := s.ch.set c { s.ch.get c with active := true } } := rfl

theorem setupAt_s2a : setupAt c fs .s2a s =
    .next
      { s with
        mpc := .chSetup c .s2b :: fs
        ch := s.ch.set c { s.ch.get c with baud := s.baudFor c, offsetUs := s.offsetFor c (s.baudFor c) }
        uart :=
          if (s.uart.get c).init then s.uart
          else s.uart.set c { init := true, baud := s.baudFor c, fifo := [] } } := by
  unfold setupAt State.setupUart
  dsimp only
  split <;> rfl

theorem setupAt_s2b : setupAt c fs .s2b s =
    .next { s with mpc := .chSetup c .s3a :: fs, pin := s.pin.set c { s.pin.get c with fn := .uartTx } } := rfl

theorem setupAt_s3a : setupAt c fs .s3a s =
    .next
      { s with mpc := .chSetup c .s3b :: fs, buf := Memory.writeList s.buf (bufAddr c .zero 0) (s.template c) } := rfl

theorem setupAt_s3b : setupAt c fs .s3b s =
    .next
      { s with mpc := .chSetup c .s3c :: fs, buf := Memory.writeList s.buf (bufAddr c .one 0) (s.template c) } := rfl

theorem setupAt_s3c : setupAt c fs .s3c s =
    .next { s with mpc := .chSetup c .s4a :: fs, ch := s.ch.set c { s.ch.get c with dispatchIdx := .zero } } := rfl

theorem setupAt_s4a : setupAt c fs .s4a s =
    .next
      { s with
        mpc := .chSetup c .s4b :: fs
        lines := updateLine s.params.irqOf s.lines (s.ch.get c).irq fun y => { y with handler := .chFire c } } :=
  congrArg (fun t => Host.Outcome.next (State.at t _)) (modifyLine_eq s _ _)

theorem setupAt_s4b : setupAt c fs .s4b s =
    .next
      { s with
        mpc := .chSetup c .s5a :: fs
        lines := updateLine s.params.irqOf s.lines (s.ch.get c).irq fun y => { y with enabled := true } } :=
  congrArg (fun t => Host.Outcome.next (State.at t _)) (modifyLine_eq s _ _)

theorem setupAt_s5a : setupAt c fs .s5a s =
    .next
      { s with
        mpc := .chSetup c (.s5b (nextDeadline s.now (s.ch.get c).offsetUs)) :: fs
        buf :=
          Memory.writeList s.buf (bufAddr c (s.ch.get c).dispatchIdx (s.tofs c))
            (le32 (timeField (nextDeadline s.now (s.ch.get c).offsetUs))) } := rfl

theorem setupAt_s5b {deadline : Int} : setupAt c fs (.s5b deadline) s =
    .next
      { s with
        mpc := fs
        alarms := s.alarms.modify (s.ch.get c).alarm fun y =>
          { y with armed := true, target := s.s2l (BitVec.ofInt 32 deadline) } } := rfl

theorem exec_chSetup_at {l : SetupAt} (h : s.fault = none) (hmpc : s.mpc = .chSetup c l :: fs) :
    exec (.chSetup c) s = setupAt c fs l s :=
  (execChSetup_at hmpc).trans (State.running_of_none h _)

/-! ## The whole setup -/

theorem mainRun_add {m : Nat} (n : Nat) : ∀ {s t : State}, mainRun m s = .next t → mainRun (m + n) s = mainRun n t := by
  induction m with
  | zero =>
    intro s t h
    cases h
    rw [Nat.zero_add]
  | succ m ih =>
    intro s t h
    rw [mainRun] at h
    rw [Nat.succ_add, mainRun]
    split at h
    next u hu => exact ih h
    next => cases h
    next => cases h

theorem mainRun_chSetup {l : SetupAt} {n : Nat} (h : s.fault = none) (hmpc : s.mpc = .chSetup c l :: fs)
    (hat : setupAt c fs l s = .next t) : mainRun (n + 1) s = mainRun n t :=
  mainRun_succ n h hmpc (by simp) ((exec_chSetup_at h hmpc).trans hat)

/-- Labels `s0` and `s1a` of an undisturbed setup. -/
theorem mainRun_chSetup_claimsDma (h : s.fault = none) (hmpc : s.mpc = .chSetup c .s0 :: fs)
    (hinactive : (s.ch.get c).active = false) (hfree : s.freeDma ≠ []) :
    ∃ d u, d ∈ s.freeDma ∧ mainRun 2 s = .next u ∧
      u =
        { s with
          mpc := .chSetup c .s1b :: fs
          hist := s.hist ++ [encode (.chSetup c)]
          dma := s.dma.modify d fun y => { y with claimed := true }
          ch := s.ch.set c { s.ch.get c with dma := d }
          draws := u.draws
          freeCtr := u.freeCtr } := by
  have started : mainRun 2 s = mainRun 1 _ := mainRun_chSetup h hmpc setupAt_s0
  obtain ⟨d, ds, n, hd, hclaim⟩ := setupAt_s1a_of_free (fs := fs)
    (s := { s with mpc := .chSetup c .s1a :: fs, hist := s.hist ++ [encode (.chSetup c)] }) hinactive hfree
  exact ⟨d, _, hd, started.trans (mainRun_chSetup h rfl hclaim), rfl⟩

/-- Labels `s1b` and `s1c`: the context is active only once both ids are claimed. -/
theorem mainRun_chSetup_claimsAlarm (h : s.fault = none) (hmpc : s.mpc = .chSetup c .s1b :: fs)
    (hinactive : (s.ch.get c).active = false) (hfree : s.freeAlarms ≠ []) :
    ∃ a u, a ∈ s.freeAlarms ∧ mainRun 2 s = .next u ∧
      u =
        { s with
          mpc := .chSetup c .s2a :: fs
          alarms := s.alarms.modify a fun y => { y with claimed := true }
          ch := s.ch.set c { s.ch.get c with active := true, alarm := a, irq := s.irqOf a }
          draws := u.draws
          freeCtr := u.freeCtr } := by
  obtain ⟨a, ds, n, ha, hclaim⟩ := setupAt_s1b_of_free (fs := fs) hinactive hfree
  refine ⟨a, _, ha, Eq.trans (mainRun_chSetup h hmpc hclaim) (mainRun_chSetup h rfl setupAt_s1c), ?_⟩
  simp only [Pair.get_set_same, pair_set_set]

/-- The first four labels of an undisturbed setup. -/
theorem mainRun_chSetup_claims (h : s.fault = none) (hmpc : s.mpc = .chSetup c .s0 :: fs)
    (hinactive : (s.ch.get c).active = false) (hdma : s.freeDma ≠ []) (halarms : s.freeAlarms ≠ []) :
    ∃ d a ds n, d ∈ s.freeDma ∧ a ∈ s.freeAlarms ∧
      mainRun 4 s =
        .next
          { s with
            mpc := .chSetup c .s2a :: fs
            hist := s.hist ++ [encode (.chSetup c)]
            dma := s.dma.modify d fun y => { y with claimed := true }
            alarms := s.alarms.modify a fun y => { y with claimed := true }
            ch := s.ch.set c { s.ch.get c with active := true, dma := d, alarm := a, irq := s.irqOf a }
            draws := ds
            freeCtr := n } := by
  obtain ⟨d, u, hd, first, hu⟩ := mainRun_chSetup_claimsDma h hmpc hinactive hdma
  have freeAlarms : u.freeAlarms = s.freeAlarms := by rw [hu]; rfl
  have inactive : (u.ch.get c).active = false := by rw [hu]; simpa using hinactive
  obtain ⟨a, v, ha, second, hv⟩ :=
    mainRun_chSetup_claimsAlarm (s := u) (by rw [hu]; exact h) (by rw [hu]) inactive (freeAlarms ▸ halarms)
  rw [hu] at hv
  simp only [Pair.get_set_same, pair_set_set] at hv
  rw [hv] at second
  exact ⟨d, a, v.draws, v.freeCtr, hd, freeAlarms ▸ ha, (mainRun_add 2 first).trans second⟩

/-- What the three stores leave in the buffers: both slots filled with the template, then the time field of the first
deadline in slot 0. -/
def setupBuf (s : State) (c : Ch) (deadline : Int) : List Host.Cell :=
  let filled := Memory.writeList s.buf (bufAddr c .zero 0) (s.template c)
  Memory.writeList (Memory.writeList filled (bufAddr c .one 0) (s.template c)) (bufAddr c .zero (s.tofs c))
    (le32 (timeField deadline))

/-- Labels `s2a` to `s5b`: everything that is built on the claimed ids. Between the labels the state is brought back to
one update of `s`. -/
theorem mainRun_chSetup_builds (h : s.fault = none) (hmpc : s.mpc = .chSetup c .s2a :: fs) :
    let b := s.baudFor c
    let deadline := nextDeadline s.now (s.offsetFor c b)
    let x := s.ch.get c
    mainRun 9 s =
      .next
        { s with
          mpc := fs
          alarms := s.alarms.modify x.alarm fun y =>
            { y with armed := true, target := s.s2l (BitVec.ofInt 32 deadline) }
          lines := updateLine s.params.irqOf s.lines x.irq fun y => { y with handler := .chFire c, enabled := true }
          ch := s.ch.set c { x with baud := b, offsetUs := s.offsetFor c b, dispatchIdx := .zero }
          uart := if (s.uart.get c).init then s.uart else s.uart.set c { init := true, baud := b, fifo := [] }
          pin := s.pin.set c { s.pin.get c with fn := .uartTx }
          buf := setupBuf s c deadline } := by
  refine Eq.trans (mainRun_chSetup h hmpc setupAt_s2a) ?_
  refine Eq.trans (mainRun_chSetup h rfl setupAt_s2b) ?_
  dsimp only
  refine Eq.trans (mainRun_chSetup h rfl setupAt_s3a) ?_
  refine Eq.trans (mainRun_chSetup h rfl setupAt_s3b) ?_
  dsimp only
  refine Eq.trans (mainRun_chSetup h rfl setupAt_s3c) ?_
  simp only [Pair.get_set_same, pair_set_set]
  refine Eq.trans (mainRun_chSetup h rfl setupAt_s4a) ?_
  refine Eq.trans (mainRun_chSetup h rfl setupAt_s4b) ?_
  simp only [Pair.get_set_same, updateLine_twice]
  refine Eq.trans (mainRun_chSetup h rfl setupAt_s5a) ?_
  simp only [Pair.get_set_same]
  refine Eq.trans (mainRun_chSetup h rfl setupAt_s5b) (congrArg Host.Outcome.next ?_)
  simp only [Pair.get_set_same]
  rfl

/-! ## The buffers after a setup (R118, R154) -/

section
variable {deadline : Int} {n : Nat}

theorem len_eq (s : State) (c : Ch) : s.len c = s.tofs c + 4 := by
  cases c <;> cases h : s.params.auxMsg <;> simp [State.len, State.tofs, MsgForm.len, h]

theorem read_template (m : List Host.Cell) (sl : Slot) (hn : n < s.len c) :
    Memory.read (Memory.writeList m (bufAddr c sl 0) (s.template c)) (bufAddr c sl n) = (s.template c)[n]? := by
  have stored := read_store_same m c sl (i := 0) (n := n) (bs := s.template c) (by rwa [State.template_length])
  rwa [Nat.zero_add] at stored

theorem read_template_apart {m : List Host.Cell} {sl : Slot} {k : Nat}
    (h : ∀ n, n < s.len c → k ≠ bufAddr c sl n) :
    Memory.read (Memory.writeList m (bufAddr c sl 0) (s.template c)) k = Memory.read m k := by
  refine read_store_apart m c sl fun n hn => ?_
  rw [Nat.zero_add]
  exact h n (by rwa [State.template_length] at hn)

/-- Slot 0 holds the template up to the time field, then the time field. -/
theorem read_setupBuf_zero (hn : n < s.len c) : Memory.read (setupBuf s c deadline) (bufAddr c .zero n) =
    ((s.template c).take (s.tofs c) ++ le32 (timeField deadline))[n]? := by
  have fits := s.len_le c
  have len := len_eq s c
  have head_length : ((s.template c).take (s.tofs c)).length = s.tofs c := by
    rw [List.length_take, State.template_length]
    omega
  by_cases hhead : n < s.tofs c
  · have before : ∀ k, k < (le32 (timeField deadline)).length → bufAddr c .zero n ≠ bufAddr c .zero (s.tofs c + k) := by
      intro k _
      simp only [bufAddr]
      omega
    rw [setupBuf, read_store_apart _ c .zero before,
      read_store_other _ (template_fits s c) (lt_eight_of_lt_len hn) (fun ⟨_, h⟩ => nomatch h), read_template _ _ hn,
      List.getElem?_append_left (by rw [head_length]; exact hhead), List.getElem?_take_of_lt hhead]
  · obtain ⟨k, rfl⟩ := Nat.exists_eq_add_of_le (Nat.not_lt.mp hhead)
    rw [setupBuf, read_store_same _ c .zero (by rw [le32_length]; omega),
      List.getElem?_append_right (by omega), head_length, Nat.add_sub_cancel_left]

/-- Slot 1 holds the template. -/
theorem read_setupBuf_one (hn : n < s.len c) :
    Memory.read (setupBuf s c deadline) (bufAddr c .one n) = (s.template c)[n]? := by
  rw [setupBuf, read_store_other _ (timeField_fits s c _) (lt_eight_of_lt_len hn) (fun ⟨_, h⟩ => nomatch h),
    read_template _ _ hn]

theorem read_setupBuf_other {e : Ch} (sl : Slot) (he : e ≠ c) (hn : n < 8) :
    Memory.read (setupBuf s c deadline) (bufAddr e sl n) = Memory.read s.buf (bufAddr e sl n) := by
  have apart (sm : Slot) : ¬(e = c ∧ sl = sm) := fun ⟨h, _⟩ => he h
  rw [setupBuf, read_store_other _ (timeField_fits s c _) hn (apart _),
    read_store_other _ (template_fits s c) hn (apart _), read_store_other _ (template_fits s c) hn (apart _)]

end

end

end Sys2Proof.Safety

open Sys2Proof Sys2Proof.Machine Sys2Proof.Safety

/-- Settles O49: label by label, by the equations above; a store is said byte by byte. -/
theorem channelSetupMicroOps : Obligations.ChannelSetupMicroOps := by
  intro s c fs h x b d
  have rate : b = s.baudFor c := by cases c <;> rfl
  have performs {l : SetupAt} {r : Result} (hat : setupAt c fs l s = r) (hmpc : s.mpc = .chSetup c l :: fs) :
      exec (.chSetup c) s = r := (exec_chSetup_at h hmpc).trans hat
  rw [rate]
  refine ⟨fun hmpc => ?s0, fun hmpc => ⟨fun hactive => ?s1a_active, fun hinactive hnone => ?s1a_none,
      fun e rest hinactive he hdraws => ?s1a_listed, fun hinactive hfree => ?s1a_free⟩,
    fun hmpc => ⟨fun hactive => ?s1b_active, fun hinactive hnone => ?s1b_none,
      fun a rest hinactive ha hdraws => ?s1b_listed, fun hinactive hfree => ?s1b_free⟩,
    performs setupAt_s1c, performs setupAt_s2a, performs setupAt_s2b, fun hmpc => ?s3a, fun hmpc => ?s3b,
    performs setupAt_s3c, performs rfl, performs rfl, fun hmpc => ?s5a, fun e => performs setupAt_s5b⟩
  case s0 =>
    rw [performs setupAt_s0 hmpc]
    cases c <;> rfl
  case s1a_active => exact performs (setupAt_s1a_of_active hactive) hmpc
  case s1a_none => exact performs (setupAt_s1a_of_none hinactive hnone) hmpc
  case s1a_listed => exact performs (setupAt_s1a_of_claim hinactive (claimDma_of_listed he hdraws)) hmpc
  case s1a_free =>
    obtain ⟨e, ds, n, he, hclaim⟩ := setupAt_s1a_of_free hinactive hfree
    exact ⟨e, ds, n, he, performs hclaim hmpc⟩
  case s1b_active => exact performs (setupAt_s1b_of_active hactive) hmpc
  case s1b_none => exact performs (setupAt_s1b_of_none hinactive hnone) hmpc
  case s1b_listed => exact performs (setupAt_s1b_of_claim hinactive (claimAlarm_of_listed ha hdraws)) hmpc
  case s1b_free =>
    obtain ⟨a, ds, n, ha, hclaim⟩ := setupAt_s1b_of_free hinactive hfree
    exact ⟨a, ds, n, ha, performs hclaim hmpc⟩
  case s3a =>
    exact ⟨_, performs setupAt_s3a hmpc, rfl, fun n hn => read_template _ _ hn, fun k hk => read_template_apart hk⟩
  case s3b =>
    exact ⟨_, performs setupAt_s3b hmpc, rfl, fun n hn => read_template _ _ hn, fun k hk => read_template_apart hk⟩
  case s5a =>
    exact ⟨_, performs setupAt_s5a hmpc, rfl, fun n hn => (read_store_same _ c _ hn).trans (le32_getElem? _ hn),
      fun k hk => read_store_apart _ c _ hk⟩

/-- Settles O50: the four labels that claim, the nine that build, and the buffers byte by byte. -/
theorem channelSetupWhole : Obligations.ChannelSetupWhole := by
  intro s c fs h hmpc hinactive hdma halarms b deadline
  obtain ⟨d, a, ds, n, hd, ha, claims⟩ := mainRun_chSetup_claims h hmpc hinactive hdma halarms
  refine ⟨d, a, _, hd, ha, (mainRun_add 9 claims).trans (mainRun_chSetup_builds h rfl), ?_,
    fun n hn => read_setupBuf_zero hn, fun n hn => read_setupBuf_one hn,
    fun e sl n he hn => read_setupBuf_other sl he hn⟩
  simp only [Pair.get_set_same, pair_set_set, List.modify_modify_eq, modifyLine_eq]
  rfl

end

section
/-!
PROOF. O57 to O60: pulse-per-second (R184 to R187), label by label, the setup as a whole, and the handler. The whole is
two runs of labels: `p0` to `p1b` claim the slot, `p2` to `p4b` build on it.
-/

namespace Sys2Proof.Safety

open Sys2Proof Sys2Proof.Machine

/-! ## The level of the auxiliary pin (R185, log entry 30) -/

theorem setLevel_eq (s : State) (v : Bool) : s.setLevel v =
    { s with
      pin := { s.pin with aux := { s.pin.aux with level := v } }
      edgeLog := if s.pin.aux.level = v then s.edgeLog else s.edgeLog ++ [{ level := v, at_ := s.ht }] } := by
  unfold State.setLevel
  split
  · next unchanged =>
    subst unchanged
    rfl
  · rfl

/-- From a low pin the log grows exactly where the new level is high. -/
theorem edgeLog_of_low (log : List EdgeRecord) (v : Bool) (now : BitVec 64) :
    (if false = v then log else log ++ [{ level := v, at_ := now }]) =
      if v then log ++ [{ level := true, at_ := now }] else log := by
  cases v <;> rfl

/-! ## The labels of the pulse's setup -/

section
variable {s t : State} {fs : List Frame}

theorem ppsSetupAt_p0 : ppsSetupAt fs .p0 s =
    .next { s with mpc := .ppsSetup .p1a :: fs, hist := s.hist ++ [.tag 0x20] } := rfl

theorem ppsSetupAt_p1a_of_active (hactive : s.pps.active = true) :
    ppsSetupAt fs .p1a s = .next { s with mpc := .ppsSetup .p1b :: fs } := if_pos hactive

theorem ppsSetupAt_p1a_of_none (hinactive : s.pps.active = false) (hfree : s.freeAlarms = []) :
    ppsSetupAt fs .p1a s = .next { s with fault := some .noAlarm } := by
  unfold ppsSetupAt
  dsimp only
  rw [if_neg (by simp [hinactive]), s.claimAlarm_none.mpr hfree]
  rfl

theorem ppsSetupAt_p1a_of_claim {a : Nat} (hinactive : s.pps.active = false) (hclaim : s.claimAlarm = some (a, t)) :
    ppsSetupAt fs .p1a s =
      .next { t with mpc := .ppsSetup .p1b :: fs, pps := { t.pps with alarm := a, irq := s.irqOf a } } := by
  unfold ppsSetupAt
  dsimp only
  rw [if_neg (by simp [hinactive]), hclaim]
  rfl

theorem ppsSetupAt_p1a_of_free (hinactive : s.pps.active = false) (hfree : s.freeAlarms ≠ []) :
    ∃ a ds n, a ∈ s.freeAlarms ∧
      ppsSetupAt fs .p1a s =
        .next
          { s with
            mpc := .ppsSetup .p1b :: fs
            alarms := s.alarms.modify a fun y => { y with claimed := true }
            pps := { s.pps with alarm := a, irq := s.irqOf a }
            draws := ds
            freeCtr := n } := by
  obtain ⟨a, ds, n, ha, hclaim⟩ := claimAlarm_of_free hfree
  exact ⟨a, ds, n, ha, ppsSetupAt_p1a_of_claim hinactive hclaim⟩

theorem ppsSetupAt_p1b : ppsSetupAt fs .p1b s =
    .next { s with mpc := .ppsSetup .p2 :: fs, pps := { s.pps with active := true } } := rfl

theorem ppsSetupAt_p2 : ppsSetupAt fs .p2 s =
    .next
      { s with mpc := .ppsSetup .p3a :: fs, pin := { s.pin with aux := { fn := .gpioOut, level := false } } } := rfl

theorem ppsSetupAt_p3a : ppsSetupAt fs .p3a s =
    .next
      { s with
        mpc := .ppsSetup .p3b :: fs
        lines := updateLine s.params.irqOf s.lines s.pps.irq fun y => { y with handler := .ppsFire } } :=
  congrArg (fun t => Host.Outcome.next (State.at t _)) (modifyLine_eq s _ _)

theorem ppsSetupAt_p3b : ppsSetupAt fs .p3b s =
    .next
      { s with
        mpc := .ppsSetup .p4a :: fs
        lines := updateLine s.params.irqOf s.lines s.pps.irq fun y => { y with enabled := true } } :=
  congrArg (fun t => Host.Outcome.next (State.at t _)) (modifyLine_eq s _ _)

theorem ppsSetupAt_p4a : ppsSetupAt fs .p4a s =
    .next
      { s with
        mpc := .ppsSetup (.p4b (ppsNext s.now)) :: fs
        pin := { s.pin with aux := { s.pin.aux with level := ppsPhase s.now } }
        edgeLog :=
          if s.pin.aux.level = ppsPhase s.now then s.edgeLog
          else s.edgeLog ++ [{ level := ppsPhase s.now, at_ := s.ht }] } :=
  congrArg (fun t => Host.Outcome.next (State.at t _)) (setLevel_eq s _)

theorem ppsSetupAt_p4b {deadline : Int} : ppsSetupAt fs (.p4b deadline) s =
    .next
      { s with
        mpc := fs
        alarms := s.alarms.modify s.pps.alarm fun y =>
          { y with armed := true, target := s.s2l (BitVec.ofInt 32 deadline) } } := rfl

theorem exec_ppsSetup_at {l : PpsSetupAt} (h : s.fault = none) (hmpc : s.mpc = .ppsSetup l :: fs) :
    exec .ppsSetup s = ppsSetupAt fs l s :=
  (execPpsSetup_at hmpc).trans (State.running_of_none h _)

/-! ## The pulse's setup as a whole -/

theorem mainRun_ppsSetup {l : PpsSetupAt} {n : Nat} (h : s.fault = none) (hmpc : s.mpc = .ppsSetup l :: fs)
    (hat : ppsSetupAt fs l s = .next t) : mainRun (n + 1) s = mainRun n t :=
  mainRun_succ n h hmpc (by simp) ((exec_ppsSetup_at h hmpc).trans hat)

/-- Labels `p0` to `p1b` of an undisturbed setup: the context is active once its slot is claimed. -/
theorem mainRun_ppsSetup_claims (h : s.fault = none) (hmpc : s.mpc = .ppsSetup .p0 :: fs)
    (hinactive : s.pps.active = false) (hfree : s.freeAlarms ≠ []) :
    ∃ a ds n, a ∈ s.freeAlarms ∧
      mainRun 3 s =
        .next
          { s with
            mpc := .ppsSetup .p2 :: fs
            hist := s.hist ++ [.tag 0x20]
            alarms := s.alarms.modify a fun y => { y with claimed := true }
            pps := { active := true, alarm := a, irq := s.irqOf a }
            draws := ds
            freeCtr := n } := by
  have started : mainRun 3 s = mainRun 2 _ := mainRun_ppsSetup h hmpc ppsSetupAt_p0
  obtain ⟨a, ds, n, ha, claims⟩ := ppsSetupAt_p1a_of_free (fs := fs)
    (s := { s with mpc := .ppsSetup .p1a :: fs, hist := s.hist ++ [.tag 0x20] }) hinactive hfree
  exact ⟨a, ds, n, ha,
    (started.trans (mainRun_ppsSetup h rfl claims)).trans (mainRun_ppsSetup h rfl ppsSetupAt_p1b)⟩

/-- Labels `p2` to `p4b`: everything that is built on the claimed slot. Between the labels the state is brought back to
one update of `s`. -/
theorem mainRun_ppsSetup_builds (h : s.fault = none) (hmpc : s.mpc = .ppsSetup .p2 :: fs) : mainRun 5 s =
    .next
      { s with
        mpc := fs
        pin := { s.pin with aux := { fn := .gpioOut, level := ppsPhase s.now } }
        lines := updateLine s.params.irqOf s.lines s.pps.irq fun y => { y with handler := .ppsFire, enabled := true }
        edgeLog := if ppsPhase s.now then s.edgeLog ++ [{ level := true, at_ := s.ht }] else s.edgeLog
        alarms := s.alarms.modify s.pps.alarm fun y =>
          { y with armed := true, target := s.s2l (BitVec.ofInt 32 (ppsNext s.now)) } } := by
  refine Eq.trans (mainRun_ppsSetup h hmpc ppsSetupAt_p2) ?_
  refine Eq.trans (mainRun_ppsSetup h rfl ppsSetupAt_p3a) ?_
  refine Eq.trans (mainRun_ppsSetup h rfl ppsSetupAt_p3b) ?_
  simp only [updateLine_twice]
  refine Eq.trans (mainRun_ppsSetup h rfl ppsSetupAt_p4a) ?_
  refine Eq.trans (mainRun_ppsSetup h rfl ppsSetupAt_p4b) (congrArg Host.Outcome.next ?_)
  simp only [edgeLog_of_low]
  rfl

/-! ## The handler of the pulse (R186) -/

theorem pulse_eq (s : State) : s.pulse =
    { s with
      pin := { s.pin with aux := { s.pin.aux with level := !s.pin.aux.level } }
      edgeLog := s.edgeLog ++ [{ level := !s.pin.aux.level, at_ := s.ht }]
      alarms := s.alarms.modify s.pps.alarm fun y =>
        { y with latch := false, armed := true, target := s.s2l (BitVec.ofInt 32 (ppsNext s.now)) } } := by
  have toggled : s.pin.aux.level ≠ !s.pin.aux.level := (Bool.not_ne_self _).symm
  have rearmed (x : BitVec 32) :
      ((s.alarms.modify s.pps.alarm fun y => { y with latch := false }).modify s.pps.alarm fun y =>
          { y with armed := true, target := x }) =
        s.alarms.modify s.pps.alarm fun y => { y with latch := false, armed := true, target := x } :=
    List.modify_modify_eq ..
  rw [State.pulse, setLevel_eq, if_neg toggled, ← rearmed]
  rfl

/-! ## The labels of the pulse's teardown (R187) -/

theorem ppsTeardownAt_r0 : ppsTeardownAt fs .r0 s =
    .next
      { s with
        mpc := if s.pps.active then .ppsTeardown .r1 :: fs else fs
        hist := s.hist ++ [.tag 0x24] } := by
  unfold ppsTeardownAt
  dsimp only
  split <;> rfl

theorem exec_ppsTeardown_at {l : PpsTeardownAt} (h : s.fault = none) (hmpc : s.mpc = .ppsTeardown l :: fs) :
    exec .ppsTeardown s = ppsTeardownAt fs l s :=
  (execPpsTeardown_at hmpc).trans (State.running_of_none h _)

end

end Sys2Proof.Safety

open Sys2Proof Sys2Proof.Machine Sys2Proof.Safety

/-- Settles O57: label by label, by the equations above. -/
theorem ppsSetupMicroOps : Obligations.PpsSetupMicroOps := by
  intro s fs h
  have performs {l : PpsSetupAt} {r : Result} (hat : ppsSetupAt fs l s = r) (hmpc : s.mpc = .ppsSetup l :: fs) :
      exec .ppsSetup s = r := (exec_ppsSetup_at h hmpc).trans hat
  refine ⟨performs ppsSetupAt_p0, fun hmpc => ⟨fun hactive => ?active, fun hinactive hnone => ?none,
      fun a rest hinactive ha hdraws => ?listed, fun hinactive hfree => ?free⟩,
    performs ppsSetupAt_p1b, performs ppsSetupAt_p2, performs rfl, performs rfl, performs ppsSetupAt_p4a,
    fun e => performs ppsSetupAt_p4b⟩
  case active => exact performs (ppsSetupAt_p1a_of_active hactive) hmpc
  case none => exact performs (ppsSetupAt_p1a_of_none hinactive hnone) hmpc
  case listed => exact performs (ppsSetupAt_p1a_of_claim hinactive (claimAlarm_of_listed ha hdraws)) hmpc
  case free =>
    obtain ⟨a, ds, n, ha, claims⟩ := ppsSetupAt_p1a_of_free hinactive hfree
    exact ⟨a, ds, n, ha, performs claims hmpc⟩

/-- Settles O58: the three labels that claim, then the five that build. -/
theorem ppsSetupWhole : Obligations.PpsSetupWhole := by
  intro s fs h hmpc hinactive hfree
  obtain ⟨a, ds, n, ha, claims⟩ := mainRun_ppsSetup_claims h hmpc hinactive hfree
  refine ⟨a, _, ha, (mainRun_add 5 claims).trans (mainRun_ppsSetup_builds h rfl), ?_⟩
  simp only [List.modify_modify_eq, modifyLine_eq]
  rfl

/-- Settles O59: the handler is `pulse` after its tag. -/
theorem pulseFire : Obligations.PulseFire := by
  intro s h
  have performed : exec .ppsFire s = .next (s.log .ppsFire).pulse := State.running_of_none h _
  rw [performed, pulse_eq]
  rfl

/-- Settles O60: label by label; only `r0` has a branch. -/
theorem ppsTeardownMicroOps : Obligations.PpsTeardownMicroOps := by
  intro s fs h
  have performs {l : PpsTeardownAt} {r : Result} (hat : ppsTeardownAt fs l s = r)
      (hmpc : s.mpc = .ppsTeardown l :: fs) : exec .ppsTeardown s = r := (exec_ppsTeardown_at h hmpc).trans hat
  exact ⟨performs ppsTeardownAt_r0, performs rfl, performs rfl, performs rfl, performs rfl, performs rfl, performs rfl,
    performs rfl⟩

end

section
/-!
PROOF. O55: `AUX.SWITCH` (R181) and `AUX.REBAUD` (R182), label by label. A call is the called operation's first
micro-op (log entry 5), so its label is the callee's equation at the caller's frames.
-/

namespace Sys2Proof.Safety

open Sys2Proof Sys2Proof.Machine

theorem encode_auxSwitch (fn : BitVec 2) : encode (.auxSwitch fn) = .tag (0x30 + fn.setWidth 8) := by
  have tags : ∀ g : BitVec 2, (0b001100 : BitVec 6) ++ g = (0x30 : BitVec 8) + g.setWidth 8 := by decide
  exact congrArg OpWord.tag (tags fn)

/-- The controller's state for a function that is not the reserved one (R107). -/
theorem stateOf_of_legal {fn : BitVec 2} (hfn : fn ≠ 3) : stateOf fn =
    some (if fn = 0 then .disabled else if fn = 1 then .auxClockBroadcast else .pulsePerSecond) := by
  have functions : ∀ g : BitVec 2, g ≠ 3 →
      stateOf g = some (if g = 0 then .disabled else if g = 1 then .auxClockBroadcast else .pulsePerSecond) := by
    decide
  exact functions fn hfn

section
variable {s t : State} {fs : List Frame} {fn : BitVec 2} {target : AuxState}

/-! ## The labels of the switch -/

theorem switchAt_a0 : switchAt fn target fs .a0 s =
    .next { s with mpc := .auxSwitch fn .a1 :: fs, hist := s.hist ++ [encode (.auxSwitch fn)] } := rfl

theorem switchAt_a1_of_disabled (hstate : s.auxState = .disabled) :
    switchAt fn target fs .a1 s = .next (s.at (.auxSwitch fn .a2 :: fs)) := by
  simp only [switchAt, hstate]

theorem switchAt_a1_of_broadcast (hstate : s.auxState = .auxClockBroadcast) :
    switchAt fn target fs .a1 s = teardownAt .aux (.auxSwitch fn .a2 :: fs) .t0 s := by
  simp only [switchAt, hstate]

theorem switchAt_a1_of_pulse (hstate : s.auxState = .pulsePerSecond) :
    switchAt fn target fs .a1 s = ppsTeardownAt (.auxSwitch fn .a2 :: fs) .r0 s := by
  simp only [switchAt, hstate]

theorem switchAt_a3_of_broadcast :
    switchAt fn .auxClockBroadcast fs .a3 s = setupAt .aux (.auxSwitch fn .a4 :: fs) .s0 s := rfl

theorem switchAt_a3_of_pulse :
    switchAt fn .pulsePerSecond fs .a3 s = ppsSetupAt (.auxSwitch fn .a4 :: fs) .p0 s := rfl

theorem exec_auxSwitch_at {l : SwitchAt} (h : s.fault = none) (hmpc : s.mpc = .auxSwitch fn l :: fs)
    (htarget : stateOf fn = some target) : exec (.auxSwitch fn) s = switchAt fn target fs l s := by
  have running : exec (.auxSwitch fn) s = switchOrRefuse fn fs l s :=
    (execAuxSwitch_at hmpc).trans (State.running_of_none h _)
  rw [running, switchOrRefuse, htarget]

/-! ## The labels of the rebaud -/

theorem rebaudAt_b0 : rebaudAt fs .b0 s =
    .next
      { s with
        mpc := if s.auxState = .auxClockBroadcast then .auxRebaud .b1 :: fs else fs
        hist := s.hist ++ [.tag 0x34] } := by
  unfold rebaudAt
  dsimp only
  split <;> rfl

theorem rebaudAt_b1 : rebaudAt fs .b1 s = teardownAt .aux (.auxRebaud .b2 :: fs) .t0 s := rfl

theorem rebaudAt_b2 : rebaudAt fs .b2 s = setupAt .aux fs .s0 s := rfl

theorem exec_auxRebaud_at {l : RebaudAt} (h : s.fault = none) (hmpc : s.mpc = .auxRebaud l :: fs) :
    exec .auxRebaud s = rebaudAt fs l s :=
  (execAuxRebaud_at hmpc).trans (State.running_of_none h _)

end

end Sys2Proof.Safety

open Sys2Proof Sys2Proof.Machine Sys2Proof.Safety

/-- Settles O55: label by label; a call by the first label of what it calls. -/
theorem controllerMicroOps : Obligations.ControllerMicroOps := by
  refine ⟨fun s fn fs h hfn => ?switch, fun s fs h => ?rebaud⟩
  case switch =>
    have performs {l : SwitchAt} {target : AuxState} {r : Result} (htarget : stateOf fn = some target)
        (hat : switchAt fn target fs l s = r) (hmpc : s.mpc = .auxSwitch fn l :: fs) : exec (.auxSwitch fn) s = r :=
      (exec_auxSwitch_at h hmpc htarget).trans hat
    have legal := stateOf_of_legal hfn
    refine ⟨?a0, fun hmpc => ⟨fun hstate => ?disabled, fun hstate => ?broadcast, fun hstate => ?pulse⟩,
      performs legal rfl, fun hmpc => ⟨?a3_disabled, ?a3_broadcast, ?a3_pulse⟩, performs legal rfl⟩
    case a0 =>
      rw [← encode_auxSwitch]
      exact performs legal switchAt_a0
    case disabled => exact performs legal (switchAt_a1_of_disabled hstate) hmpc
    case broadcast => exact performs legal ((switchAt_a1_of_broadcast hstate).trans teardownAt_t0) hmpc
    case pulse => exact performs legal ((switchAt_a1_of_pulse hstate).trans ppsTeardownAt_r0) hmpc
    case a3_disabled =>
      rintro rfl
      exact performs (target := .disabled) rfl rfl hmpc
    case a3_broadcast =>
      rintro rfl
      exact performs rfl (switchAt_a3_of_broadcast.trans setupAt_s0) hmpc
    case a3_pulse =>
      rintro rfl
      exact performs rfl (switchAt_a3_of_pulse.trans ppsSetupAt_p0) hmpc
  case rebaud =>
    have performs {l : RebaudAt} {r : Result} (hat : rebaudAt fs l s = r) (hmpc : s.mpc = .auxRebaud l :: fs) :
        exec .auxRebaud s = r := (exec_auxRebaud_at h hmpc).trans hat
    exact ⟨performs rebaudAt_b0, performs (rebaudAt_b1.trans teardownAt_t0), performs (rebaudAt_b2.trans setupAt_s0)⟩

end

section
/-!
PROOF. O32: the arithmetic of the half seconds (R184) and of the counter interval (R223).
-/

namespace Sys2Proof.Safety

open Sys2Proof Sys2Proof.Machine

theorem ppsPhase_iff (now : Int) : ppsPhase now = true ↔ now / 500000 % 2 = 0 := decide_eq_true_iff

/-- One half second on, the quotient that the phase reads is one higher. -/
theorem ppsNext_div (now : Int) : ppsNext now / 500000 = now / 500000 + 1 := by
  unfold ppsNext
  omega

theorem ppsPhase_ppsNext (now : Int) : ppsPhase (ppsNext now) = !ppsPhase now := by
  rw [Bool.eq_not, ne_eq, Bool.eq_iff_iff, ppsPhase_iff, ppsPhase_iff, ppsNext_div]
  omega

theorem interval_ne_zero {f : BitVec 16} (hf : f ≠ 0) : interval f ≠ 0 := by
  have positive : 0 < f.toNat := Nat.pos_of_ne_zero fun h => hf (BitVec.eq_of_toNat_eq h)
  have due : 0 < (interval f).toNat := by
    rw [interval_toNat]
    exact Nat.div_pos (by omega) positive
  intro h
  rw [h] at due
  exact absurd due (by decide)

end Sys2Proof.Safety

open Sys2Proof Sys2Proof.Machine Sys2Proof.Safety

/-- Settles O32: by the lemmas above; the bounds and the first half of the second are facts of integer division. -/
theorem pulseAndIntervalArithmetic : Obligations.PulseAndIntervalArithmetic := by
  refine ⟨⟨fun now => ⟨rfl, ?later, ?atMost⟩, ppsPhase_iff, ppsPhase_ppsNext, fun now => ?firstHalf⟩,
    by decide, fun f hf => ⟨interval_toNat f, interval_ne_zero hf⟩⟩
  case later =>
    unfold ppsNext
    omega
  case atMost =>
    unfold ppsNext
    omega
  case firstHalf =>
    rw [ppsPhase_iff]
    omega

end

section
/-!
PROOF. O56: `AUX.REBAUD` as a whole (R182): its first label, the teardown and the setup. A call takes no micro-op of its
own (log entry 5), so a run from a calling label is the called operation's run from its first label.
-/

namespace Sys2Proof.Safety

open Sys2Proof Sys2Proof.Machine

section
variable {s : State} {c : Ch} {fs : List Frame}

/-! ## The calls (R182, log entry 5) -/

theorem mainRun_auxRebaud_teardown (n : Nat) (h : s.fault = none) (hmpc : s.mpc = .auxRebaud .b1 :: fs) :
    mainRun (n + 1) s = mainRun (n + 1) { s with mpc := .chTeardown .aux .t0 :: .auxRebaud .b2 :: fs } := by
  have called : exec .auxRebaud s = .next _ := (exec_auxRebaud_at h hmpc).trans (rebaudAt_b1.trans teardownAt_t0)
  refine (mainRun_succ n h hmpc (by simp) called).trans (Eq.symm ?_)
  exact mainRun_chTeardown (s := { s with mpc := .chTeardown .aux .t0 :: .auxRebaud .b2 :: fs }) h rfl teardownAt_t0

theorem mainRun_auxRebaud_setup (n : Nat) (h : s.fault = none) (hmpc : s.mpc = .auxRebaud .b2 :: fs) :
    mainRun (n + 1) s = mainRun (n + 1) { s with mpc := .chSetup .aux .s0 :: fs } := by
  have called : exec .auxRebaud s = .next _ := (exec_auxRebaud_at h hmpc).trans (rebaudAt_b2.trans setupAt_s0)
  refine (mainRun_succ n h hmpc (by simp) called).trans (Eq.symm ?_)
  exact mainRun_chSetup (s := { s with mpc := .chSetup .aux .s0 :: fs }) h rfl setupAt_s0

/-! ## What the teardown leaves free -/

theorem alarm_of_modified {t : State} {a : Nat} {f : AlarmSlot → AlarmSlot} (h : t.alarms = s.alarms.modify a f)
    (ha : a < s.alarms.length) : t.alarm a = f (s.alarm a) := by
  have same : t.alarm a = (s.modifyAlarm a f).alarm a := congrArg (fun l => l.getD a AlarmSlot.absent) h
  rw [same, State.alarm_modifyAlarm _ _ _ _ ha, if_pos rfl]

theorem dmaChan_of_modified {t : State} {d : Nat} {f : DmaChan → DmaChan} (h : t.dma = s.dma.modify d f)
    (hd : d < s.dma.length) : t.dmaChan d = f (s.dmaChan d) := by
  have same : t.dmaChan d = (s.modifyDma d f).dmaChan d := congrArg (fun l => l.getD d DmaChan.absent) h
  rw [same, State.dmaChan_modifyDma _ _ _ _ hd, if_pos rfl]

theorem freeAlarms_tornDown (ha : (s.ch.get c).alarm < s.alarms.length) : (tornDown s c fs).freeAlarms ≠ [] := by
  have inRange : (s.ch.get c).alarm < (tornDown s c fs).alarms.length := ha.trans_eq (List.length_modify ..).symm
  have released := congrArg AlarmSlot.claimed (alarm_of_modified (t := tornDown s c fs) rfl ha)
  exact List.ne_nil_of_mem ((State.mem_freeAlarms _ _).mpr ⟨inRange, released⟩)

theorem freeDma_tornDown (hd : (s.ch.get c).dma < s.dma.length) : (tornDown s c fs).freeDma ≠ [] := by
  have inRange : (s.ch.get c).dma < (tornDown s c fs).dma.length := hd.trans_eq (List.length_modify ..).symm
  have released := congrArg DmaChan.claimed (dmaChan_of_modified (t := tornDown s c fs) rfl hd)
  exact List.ne_nil_of_mem ((State.mem_freeDma _ _).mpr ⟨inRange, released⟩)

/-! ## The whole rebaud -/

/-- The state that `b0` and the teardown leave in the broadcast mode, and the setup in its place. -/
def rebaudTornDown (s : State) (fs : List Frame) : State :=
  { tornDown { s with hist := s.hist ++ [.tag 0x34] } .aux fs with mpc := .chSetup .aux .s0 :: fs }

theorem mainRun_auxRebaud_broadcast {n : Nat} (h : s.fault = none) (hmpc : s.mpc = .auxRebaud .b0 :: fs)
    (hstate : s.auxState = .auxClockBroadcast) (hactive : s.ch.aux.active = true) :
    mainRun (10 + (n + 1)) s = mainRun (n + 1) (rebaudTornDown s fs) := by
  have started : exec .auxRebaud s = .next _ := (exec_auxRebaud_at h hmpc).trans rebaudAt_b0
  rw [if_pos hstate] at started
  have first : mainRun 10 s = .next (tornDown { s with hist := s.hist ++ [.tag 0x34] } .aux (.auxRebaud .b2 :: fs)) := by
    refine Eq.trans (mainRun_succ 9 h hmpc (by simp) started) ?_
    refine Eq.trans (mainRun_auxRebaud_teardown 8 h rfl) ?_
    exact mainRun_chTeardown_whole h rfl hactive
  exact (mainRun_add (n + 1) first).trans (mainRun_auxRebaud_setup n h rfl)

end

end Sys2Proof.Safety

open Sys2Proof Sys2Proof.Machine Sys2Proof.Safety

/-- Settles O56: the setup of the auxiliary channel (O50) on the state that its teardown leaves. -/
theorem auxRebaudWhole : Obligations.AuxRebaudWhole := by
  intro s fs h hmpc hstate hactive halarm hdma
  obtain ⟨d, a, t, hd, ha, builds, ht, zero, one, -⟩ :=
    channelSetupWhole (rebaudTornDown s fs) .aux fs h rfl rfl (freeDma_tornDown (fs := fs) hdma)
      (freeAlarms_tornDown (fs := fs) halarm)
  have field {β : Type} (p : State → β) := congrArg p ht
  have slot := alarm_of_modified (field State.alarms) ((State.mem_freeAlarms _ _).mp ha).1
  have mover := dmaChan_of_modified (field State.dma) ((State.mem_freeDma _ _).mp hd).1
  have holdsSlot : t.ch.aux.alarm = a := field (·.ch.aux.alarm)
  have holdsMover : t.ch.aux.dma = d := field (·.ch.aux.dma)
  have logged : t.hist = s.hist ++ [.tag 0x34] ++ [.tag 0x15] ++ [.tag 0x11] := field State.hist
  refine ⟨t, (mainRun_auxRebaud_broadcast (n := 12) h hmpc hstate hactive).trans builds, ?_⟩
  rw [holdsSlot, holdsMover, slot, mover]
  exact ⟨field State.mpc, (field State.fault).trans h, (field State.auxState).trans hstate, field State.regs,
    by simp [logged], field (·.ch.pri), field (·.ch.aux.active), field (·.ch.aux.baud), field (·.ch.aux.offsetUs),
    field (·.ch.aux.dispatchIdx), field (·.uart.aux), field (·.pin.aux.fn), rfl, rfl, rfl, zero, one⟩

end

section
/-!
PROOF. O34 to O36: the reads, the refused write and `WR.COUNTER` (R213 to R218, R222). First the layer that O37 to O40
share: the words that a handler logs and sends, and replies as whole next states.
-/

namespace Sys2Proof.Safety

open Sys2Proof Sys2Proof.Machine

/-! ## Values between registers and words (R108, R109) -/

/-- A value that fits `n` bits is not changed by being stored in a register of that width. -/
theorem setWidth_extract_of_lt {w n : Nat} (m : Nat) {p : BitVec w} (hp : p.toNat < 2 ^ n) :
    (p.extractLsb' 0 n).setWidth m = p.setWidth m := by
  apply BitVec.eq_of_toNat_eq
  rw [BitVec.toNat_setWidth, BitVec.toNat_setWidth, BitVec.extractLsb'_toNat, Nat.shiftRight_zero,
    Nat.mod_eq_of_lt hp]

/-! ## Words with a fixed head (R101, R103) -/

/-- The word with the given upper two bytes and a value of 0. -/
def headOf (k r : BitVec 8) : BitVec 48 := (k.setWidth 48 <<< 40) ||| (r.setWidth 48 <<< 32)

section
variable {k r : BitVec 8} {head : BitVec 48}

theorem word_of_head (hhead : headOf k r = head) (v : BitVec 32) :
    k ++ r ++ v = head ||| v.setWidth 48 := by
  rw [← hhead]
  exact fields48 k r v

/-- A register narrower than the value field is zero-extended. -/
theorem word_of_narrow (hhead : headOf k r = head) {w : Nat} (hw : w ≤ 32)
    (v : BitVec w) : k ++ r ++ v.setWidth 32 = head ||| v.setWidth 48 := by
  rw [word_of_head hhead, BitVec.setWidth_setWidth (by omega)]

theorem cmd_of_head (hhead : headOf k r = head) (p : BitVec 32) :
    OpWord.cmd (CmdWord.make k r p) = .cmd (head ||| p.setWidth 48) := congrArg OpWord.cmd (word_of_head hhead p)

end

/-! ### The command words of the writes (R104) -/

section
variable (p : BitVec 32)

theorem encode_wrConnected : encode (.wrConnected p) = .cmd (0x020000000000 ||| p.setWidth 48) := cmd_of_head rfl p

theorem encode_wrCounter : encode (.wrCounter p) = .cmd (0x020100000000 ||| p.setWidth 48) := cmd_of_head rfl p

theorem encode_wrFreq : encode (.wrFreq p) = .cmd (0x020200000000 ||| p.setWidth 48) := cmd_of_head rfl p

theorem encode_wrAuxfn : encode (.wrAuxfn p) = .cmd (0x020300000000 ||| p.setWidth 48) := cmd_of_head rfl p

theorem encode_wrAuxbaud : encode (.wrAuxbaud p) = .cmd (0x020400000000 ||| p.setWidth 48) := cmd_of_head rfl p

end

/-! ### The reply words of each register (R109) -/

section
variable {k : ReplyKind} {head : BitVec 48} (x : Regs)

theorem replyWord_connected (hhead : headOf k.code 0 = head) :
    replyWord k 0 (x.value 0) = head ||| x.connectedDevices.setWidth 48 :=
  word_of_narrow hhead (by decide) x.connectedDevices

theorem replyWord_counter (hhead : headOf k.code 1 = head) :
    replyWord k 1 (x.value 1) = head ||| x.counter.setWidth 48 := word_of_head hhead x.counter

theorem replyWord_freq (hhead : headOf k.code 2 = head) :
    replyWord k 2 (x.value 2) = head ||| x.counterFreqHz.setWidth 48 :=
  word_of_narrow hhead (by decide) x.counterFreqHz

theorem replyWord_auxfn (hhead : headOf k.code 3 = head) :
    replyWord k 3 (x.value 3) = head ||| x.auxPortFn.setWidth 48 := word_of_narrow hhead (by decide) x.auxPortFn

theorem replyWord_auxbaud (hhead : headOf k.code 4 = head) :
    replyWord k 4 (x.value 4) = head ||| x.auxBaudRate.setWidth 48 := word_of_head hhead x.auxBaudRate

end

/-! ## Replies as whole next states (R103, R211) -/

section
variable {s : State} {fs : List Frame} {k : ReplyKind} {reg : BitVec 8} {word : ReplyWord}

theorem replyReg_of_word (hword : replyWord k reg (s.regs.value reg) = word) :
    s.replyReg k reg = { s with rlog := s.rlog ++ [word] } := by
  rw [← hword]
  rfl

/-- The acknowledgement that ends a write: sent unless the quiet flag is set. -/
theorem acknowledged_of_word (hword : replyWord .writeAck reg (s.regs.value reg) = word) :
    (.next ((s.ack reg).at fs) : Result) =
      .next { s with mpc := fs, rlog := if s.quiet then s.rlog else s.rlog ++ [word] } := by
  rw [State.ack, replyReg_of_word hword]
  split <;> rfl

/-- A handler of one micro-op logs its command word and sends one reply. -/
theorem answered_of_words {i : Instr} {logged : OpWord} (h : s.fault = none) (hlogged : encode i = logged)
    (hword : replyWord k reg (s.regs.value reg) = word) :
    s.running (.next ((s.log i).replyReg k reg)) =
      .next { s with rlog := s.rlog ++ [word], hist := s.hist ++ [logged] } := by
  rw [State.running_of_none h, replyReg_of_word (s := s.log i) hword, ← hlogged]
  rfl

end

/-! ## WR.COUNTER (R218) -/

section
variable {s t : State} {p : BitVec 32} {fs : List Frame}

theorem exec_wrCounter_started (h : s.fault = none) (hmpc : s.mpc = []) : exec (.wrCounter p) s =
    .next
      { s with
        mpc := .wrCounter p :: s.mpc
        regs := { s.regs with counter := p }
        hist := s.hist ++ [.cmd (0x020100000000 ||| p.setWidth 48)] } := by
  have running : exec (.wrCounter p) s = .next (((s.log (.wrCounter p)).setCounter p).at (.wrCounter p :: s.mpc)) := by
    refine (State.running_of_none h _).trans ?_
    rw [hmpc]
  rw [running, ← encode_wrCounter]
  rfl

theorem exec_wrCounter_at (h : s.fault = none) (hmpc : s.mpc = .wrCounter p :: fs) : exec (.wrCounter p) s =
    .next
      { s with
        mpc := fs
        rlog := if s.quiet then s.rlog else s.rlog ++ [0x020100000000 ||| s.regs.counter.setWidth 48] } :=
  (execWrCounter_at hmpc).trans
    ((State.running_of_none h _).trans (acknowledged_of_word (replyWord_counter s.regs rfl)))

end

end Sys2Proof.Safety

open Sys2Proof Sys2Proof.Machine Sys2Proof.Safety

/-- Settles O34: each read answers at once with the word of its register. -/
theorem readsReply : Obligations.ReadsReply := by
  intro s x h
  exact ⟨answered_of_words h (cmd_of_head rfl x) (replyWord_connected s.regs rfl),
    answered_of_words h (cmd_of_head rfl x) (replyWord_counter s.regs rfl),
    answered_of_words h (cmd_of_head rfl x) (replyWord_freq s.regs rfl),
    answered_of_words h (cmd_of_head rfl x) (replyWord_auxfn s.regs rfl),
    answered_of_words h (cmd_of_head rfl x) (replyWord_auxbaud s.regs rfl)⟩

/-- Settles O35: the refusal is the only micro-op. -/
theorem writeConnectedRefused : Obligations.WriteConnectedRefused :=
  fun s p h => answered_of_words h (encode_wrConnected p) (replyWord_connected s.regs rfl)

/-- Settles O36: the store, then the acknowledgement on the state it leaves. -/
theorem writeCounter : Obligations.WriteCounter := by
  intro s p h hmpc
  have started := exec_wrCounter_started (p := p) h hmpc
  refine ⟨by rw [started, hmpc], (operation_of_next 1 started).trans ?_⟩
  exact mainRun_succ 0 h rfl (by simp) (exec_wrCounter_at h rfl)

end

section
/-!
PROOF. O37: `WR.FREQ` (R212, R219, R223), label by label and as a whole.
-/

namespace Sys2Proof.Safety

open Sys2Proof Sys2Proof.Machine

section
variable {s t : State} {p : BitVec 32} {fs : List Frame}

/-! ## The labels -/

theorem freqStart_eq : freqStart p s =
    if 2 ^ 16 ≤ p.toNat then
      .next
        { s with
          hist := s.hist ++ [.cmd (0x020200000000 ||| p.setWidth 48)]
          rlog := s.rlog ++ [0x0A0200000000 ||| s.regs.counterFreqHz.setWidth 48] }
    else
      .next
        { s with hist := s.hist ++ [.cmd (0x020200000000 ||| p.setWidth 48)], mpc := .wrFreq p .w2 :: s.mpc } := by
  have wide : tooWide 2 p = true ↔ 2 ^ 16 ≤ p.toNat := decide_eq_true_iff
  rw [← encode_wrFreq, freqStart, replyReg_of_word (s := s.log (.wrFreq p)) (replyWord_freq s.regs rfl)]
  simp only [wide]
  rfl

theorem freqAt_w2 : freqAt p fs .w2 s =
    .next { s with mpc := .wrFreq p .w3 :: fs, regs := { s.regs with counterFreqHz := p.extractLsb' 0 16 } } := rfl

/-- The clamp: the reply carries the maximum, which is the register's value by then. -/
theorem freqAt_w3 : freqAt p fs .w3 s =
    if s.params.maxCounterFreqHz.toNat < p.toNat then
      .next
        { s with
          mpc := fs
          regs := { s.regs with counterFreqHz := s.params.maxCounterFreqHz }
          intervalUs := interval s.params.maxCounterFreqHz
          lastEmitUs := s.us32
          rlog := s.rlog ++ [0x0A0200000000 ||| s.params.maxCounterFreqHz.setWidth 48] }
    else .next { s with mpc := .wrFreq p .w4 :: fs } := by
  have high : freqTooHigh s.params p = true ↔ s.params.maxCounterFreqHz.toNat < p.toNat := decide_eq_true_iff
  rw [freqAt, replyReg_of_word (replyWord_freq _ rfl)]
  simp only [high]
  rfl

theorem freqAt_w4 : freqAt p fs .w4 s =
    .next
      { s with
        mpc := .wrFreq p .w5 :: fs
        intervalUs := interval (p.extractLsb' 0 16)
        lastEmitUs := s.us32 } := rfl

theorem freqAt_w5 : freqAt p fs .w5 s =
    .next
      { s with
        mpc := fs
        rlog := if s.quiet then s.rlog else s.rlog ++ [0x020200000000 ||| s.regs.counterFreqHz.setWidth 48] } :=
  acknowledged_of_word (replyWord_freq s.regs rfl)

theorem exec_wrFreq_idle (h : s.fault = none) (hmpc : s.mpc = []) : exec (.wrFreq p) s = freqStart p s := by
  refine (State.running_of_none h _).trans ?_
  rw [hmpc]

theorem exec_wrFreq_at {l : FreqAt} (h : s.fault = none) (hmpc : s.mpc = .wrFreq p l :: fs) :
    exec (.wrFreq p) s = freqAt p fs l s :=
  (execWrFreq_at hmpc).trans (State.running_of_none h _)

/-! ## Whole runs -/

theorem mainRun_wrFreq {l : FreqAt} {n : Nat} (h : s.fault = none) (hmpc : s.mpc = .wrFreq p l :: fs)
    (hat : freqAt p fs l s = .next t) : mainRun (n + 1) s = mainRun n t :=
  mainRun_succ n h hmpc (by simp) ((exec_wrFreq_at h hmpc).trans hat)

/-- A payload that the register can hold: `w1` and `w2` of an undisturbed write. -/
theorem operation_wrFreq_stores (n : Nat) (h : s.fault = none) (hmpc : s.mpc = []) (hfits : p.toNat < 2 ^ 16) :
    operation (.wrFreq p) (n + 1) s =
      mainRun n
        { s with
          mpc := .wrFreq p .w3 :: s.mpc
          hist := s.hist ++ [.cmd (0x020200000000 ||| p.setWidth 48)]
          regs := { s.regs with counterFreqHz := p.extractLsb' 0 16 } } := by
  have started := ((exec_wrFreq_idle h hmpc).trans freqStart_eq).trans (if_neg (Nat.not_le.mpr hfits))
  exact (operation_of_next (n + 1) started).trans (mainRun_wrFreq h rfl freqAt_w2)

end

end Sys2Proof.Safety

open Sys2Proof Sys2Proof.Machine Sys2Proof.Safety

/-- Settles O37: label by label, by the equations above; the whole by the branches of `w1` and `w3`. -/
theorem writeFreq : Obligations.WriteFreq := by
  refine ⟨fun s p fs h => ?labels, fun s p h hmpc => ?whole⟩
  case labels =>
    have performs {l : FreqAt} {r : Result} (hat : freqAt p fs l s = r) (hmpc : s.mpc = .wrFreq p l :: fs) :
        exec (.wrFreq p) s = r := (exec_wrFreq_at h hmpc).trans hat
    refine ⟨fun hmpc => ?_, performs freqAt_w2, performs freqAt_w3, performs freqAt_w4, performs freqAt_w5⟩
    rw [exec_wrFreq_idle h hmpc, freqStart_eq, hmpc]
  case whole =>
    refine ⟨fun hwide => ?wide, fun hfits hhigh => ?clamped, fun hle => ?stored⟩
    case wide => exact operation_of_next 0 (((exec_wrFreq_idle h hmpc).trans freqStart_eq).trans (if_pos hwide))
    case clamped =>
      exact (operation_wrFreq_stores 1 h hmpc hfits).trans (mainRun_wrFreq h rfl (freqAt_w3.trans (if_pos hhigh)))
    case stored =>
      have hfits : p.toNat < 2 ^ 16 := hle.trans_lt s.params.maxCounterFreqHz.isLt
      refine (operation_wrFreq_stores 3 h hmpc hfits).trans ?_
      refine Eq.trans (mainRun_wrFreq h rfl (freqAt_w3.trans (if_neg (Nat.not_lt.mpr hle)))) ?_
      refine Eq.trans (mainRun_wrFreq h rfl freqAt_w4) ?_
      refine Eq.trans (mainRun_wrFreq h rfl freqAt_w5) ?_
      dsimp only
      rw [setWidth_extract_of_lt 48 hfits]
      rfl

end

section
/-!
PROOF. O38: `WR.AUXFN` (R107, R212, R220), label by label, and as a whole where it makes no transition.
-/

namespace Sys2Proof.Safety

open Sys2Proof Sys2Proof.Machine

section
variable {s t : State} {p : BitVec 32} {prev : BitVec 8} {fs : List Frame}

/-! ## The labels -/

theorem auxfnStart_eq : auxfnStart p s =
    if 2 ^ 8 ≤ p.toNat then
      .next
        { s with
          hist := s.hist ++ [.cmd (0x020300000000 ||| p.setWidth 48)]
          rlog := s.rlog ++ [0x0A0300000000 ||| s.regs.auxPortFn.setWidth 48] }
    else
      .next
        { s with hist := s.hist ++ [.cmd (0x020300000000 ||| p.setWidth 48)], mpc := .wrAuxfn p .w2 :: s.mpc } := by
  have wide : tooWide 3 p = true ↔ 2 ^ 8 ≤ p.toNat := decide_eq_true_iff
  rw [← encode_wrAuxfn, auxfnStart, replyReg_of_word (s := s.log (.wrAuxfn p)) (replyWord_auxfn s.regs rfl)]
  simp only [wide]
  rfl

theorem auxfnAt_w2 : auxfnAt p fs .w2 s =
    .next
      { s with
        mpc := .wrAuxfn p (.w3 s.regs.auxPortFn) :: fs
        regs := { s.regs with auxPortFn := p.extractLsb' 0 8 } } := rfl

theorem auxfnAt_w3 : auxfnAt p fs (.w3 prev) s =
    if 2 < p.toNat then
      .next
        { s with
          mpc := fs
          regs := { s.regs with auxPortFn := prev }
          rlog := s.rlog ++ [0x0A0300000000 ||| prev.setWidth 48] }
    else .next { s with mpc := .wrAuxfn p (.w4 prev) :: fs } := by
  have illegal : auxfnIllegal p = true ↔ 2 < p.toNat := decide_eq_true_iff
  rw [auxfnAt, replyReg_of_word (replyWord_auxfn _ rfl)]
  simp only [illegal]
  rfl

theorem auxfnAt_w4 : auxfnAt p fs (.w4 prev) s =
    if p.toNat = prev.toNat then
      .next
        { s with
          mpc := fs
          rlog := if s.quiet then s.rlog else s.rlog ++ [0x020300000000 ||| s.regs.auxPortFn.setWidth 48] }
    else .next { s with mpc := .wrAuxfn p .w5 :: fs } := by
  have held : p = prev.setWidth 32 ↔ p.toNat = prev.toNat := by
    rw [BitVec.toNat_eq, BitVec.toNat_setWidth_of_le (by decide)]
  rw [auxfnAt, acknowledged_of_word (replyWord_auxfn s.regs rfl)]
  simp only [held]
  rfl

/-- The call performs `a0` in place; for a legal function it is not the reserved one. -/
theorem auxfnAt_w5 (hlegal : p.toNat ≤ 2) : auxfnAt p fs .w5 s =
    .next
      { s with
        mpc := .auxSwitch (p.extractLsb' 0 2) .a1 :: .wrAuxfn p .w6 :: fs
        hist := s.hist ++ [.tag (0x30 + p.extractLsb' 0 8)] } := by
  rcases auxfn_cases (p := p) (decide_eq_false (Nat.not_lt.mpr hlegal)) with rfl | rfl | rfl <;> rfl

theorem auxfnAt_w6 : auxfnAt p fs .w6 s =
    .next
      { s with
        mpc := fs
        rlog := if s.quiet then s.rlog else s.rlog ++ [0x020300000000 ||| s.regs.auxPortFn.setWidth 48] } :=
  acknowledged_of_word (replyWord_auxfn s.regs rfl)

theorem exec_wrAuxfn_idle (h : s.fault = none) (hmpc : s.mpc = []) : exec (.wrAuxfn p) s = auxfnStart p s := by
  refine (State.running_of_none h _).trans ?_
  rw [hmpc]

theorem exec_wrAuxfn_at {l : AuxfnAt} (h : s.fault = none) (hmpc : s.mpc = .wrAuxfn p l :: fs) :
    exec (.wrAuxfn p) s = auxfnAt p fs l s :=
  (execWrAuxfn_at hmpc).trans (State.running_of_none h _)

/-! ## Whole runs -/

theorem mainRun_wrAuxfn {l : AuxfnAt} {n : Nat} (h : s.fault = none) (hmpc : s.mpc = .wrAuxfn p l :: fs)
    (hat : auxfnAt p fs l s = .next t) : mainRun (n + 1) s = mainRun n t :=
  mainRun_succ n h hmpc (by simp) ((exec_wrAuxfn_at h hmpc).trans hat)

/-- A payload that the register can hold: `w1` and `w2` of an undisturbed write. -/
theorem operation_wrAuxfn_stores (n : Nat) (h : s.fault = none) (hmpc : s.mpc = []) (hfits : p.toNat < 2 ^ 8) :
    operation (.wrAuxfn p) (n + 1) s =
      mainRun n
        { s with
          mpc := .wrAuxfn p (.w3 s.regs.auxPortFn) :: s.mpc
          hist := s.hist ++ [.cmd (0x020300000000 ||| p.setWidth 48)]
          regs := { s.regs with auxPortFn := p.extractLsb' 0 8 } } := by
  have started := ((exec_wrAuxfn_idle h hmpc).trans auxfnStart_eq).trans (if_neg (Nat.not_le.mpr hfits))
  exact (operation_of_next (n + 1) started).trans (mainRun_wrAuxfn h rfl auxfnAt_w2)

/-- A legal function: `w1` to `w3`. -/
theorem operation_wrAuxfn_accepts (n : Nat) (h : s.fault = none) (hmpc : s.mpc = []) (hlegal : p.toNat ≤ 2) :
    operation (.wrAuxfn p) (n + 2) s =
      mainRun n
        { s with
          mpc := .wrAuxfn p (.w4 s.regs.auxPortFn) :: s.mpc
          hist := s.hist ++ [.cmd (0x020300000000 ||| p.setWidth 48)]
          regs := { s.regs with auxPortFn := p.extractLsb' 0 8 } } :=
  (operation_wrAuxfn_stores (n + 1) h hmpc (by omega)).trans
    (mainRun_wrAuxfn h rfl (auxfnAt_w3.trans (if_neg (Nat.not_lt.mpr hlegal))))

end

end Sys2Proof.Safety

open Sys2Proof Sys2Proof.Machine Sys2Proof.Safety

/-- Settles O38: label by label, by the equations above; the whole by the branches of `w1`, `w3` and `w4`. -/
theorem writeAuxfn : Obligations.WriteAuxfn := by
  refine ⟨fun s p prev fs h => ?labels, fun s p h hmpc => ?whole⟩
  case labels =>
    have performs {l : AuxfnAt} {r : Result} (hat : auxfnAt p fs l s = r) (hmpc : s.mpc = .wrAuxfn p l :: fs) :
        exec (.wrAuxfn p) s = r := (exec_wrAuxfn_at h hmpc).trans hat
    refine ⟨fun hmpc => ?start, performs auxfnAt_w2, performs auxfnAt_w3, performs auxfnAt_w4,
      fun hmpc hlegal => performs (auxfnAt_w5 hlegal) hmpc, performs auxfnAt_w6⟩
    case start => rw [exec_wrAuxfn_idle h hmpc, auxfnStart_eq, hmpc]
  case whole =>
    refine ⟨fun hwide => ?wide, fun hfits hillegal => ?rejected, fun hlegal hheld => ?held⟩
    case wide => exact operation_of_next 0 (((exec_wrAuxfn_idle h hmpc).trans auxfnStart_eq).trans (if_pos hwide))
    case rejected =>
      exact (operation_wrAuxfn_stores 1 h hmpc hfits).trans (mainRun_wrAuxfn h rfl (auxfnAt_w3.trans (if_pos hillegal)))
    case held =>
      have kept : p.extractLsb' 0 8 = s.regs.auxPortFn := by
        apply BitVec.eq_of_toNat_eq
        rw [BitVec.extractLsb'_toNat, Nat.shiftRight_zero, hheld, Nat.mod_eq_of_lt s.regs.auxPortFn.isLt]
      have word : p.setWidth 48 = s.regs.auxPortFn.setWidth 48 := by
        rw [← kept, setWidth_extract_of_lt 48 (by omega)]
      refine (operation_wrAuxfn_accepts 1 h hmpc hlegal).trans ?_
      refine Eq.trans (mainRun_wrAuxfn h rfl (auxfnAt_w4.trans (if_pos hheld))) ?_
      rw [kept, word]
      rfl

end

section
/-!
PROOF. O39: scenario 2 (R181, R220), the register write that switches from the disabled controller to the broadcast
mode: the labels of `WR.AUXFN` up to its call, those of `AUX.SWITCH` up to its call, the whole setup (O50), and the way back.
-/

namespace Sys2Proof.Safety

open Sys2Proof Sys2Proof.Machine

section
variable {s t : State} {p : BitVec 32} {fs : List Frame}

/-! ## The calls (R181, R220, log entry 5) -/

/-- A legal function that is not the one held: `w1` to `w5`, of which the last performs `a0`. -/
theorem operation_wrAuxfn_switches (n : Nat) (h : s.fault = none) (hmpc : s.mpc = []) (hlegal : p.toNat ≤ 2)
    (hnew : p.toNat ≠ s.regs.auxPortFn.toNat) :
    operation (.wrAuxfn p) (n + 4) s =
      mainRun n
        { s with
          mpc := .auxSwitch (p.extractLsb' 0 2) .a1 :: .wrAuxfn p .w6 :: s.mpc
          hist := s.hist ++ [.cmd (0x020300000000 ||| p.setWidth 48)] ++ [.tag (0x30 + p.extractLsb' 0 8)]
          regs := { s.regs with auxPortFn := p.extractLsb' 0 8 } } := by
  refine (operation_wrAuxfn_accepts (n + 2) h hmpc hlegal).trans ?_
  refine Eq.trans (mainRun_wrAuxfn h rfl (auxfnAt_w4.trans (if_neg hnew))) ?_
  exact mainRun_wrAuxfn h rfl (auxfnAt_w5 hlegal)

theorem mainRun_auxSwitch {fn : BitVec 2} {target : AuxState} {l : SwitchAt} {n : Nat} (h : s.fault = none)
    (hmpc : s.mpc = .auxSwitch fn l :: fs) (htarget : stateOf fn = some target)
    (hat : switchAt fn target fs l s = .next t) : mainRun (n + 1) s = mainRun n t :=
  mainRun_succ n h hmpc (by simp) ((exec_auxSwitch_at h hmpc htarget).trans hat)

/-- A run from `a3` is the called setup's run from its first label. -/
theorem mainRun_auxSwitch_setup (n : Nat) (h : s.fault = none) (hmpc : s.mpc = .auxSwitch 1 .a3 :: fs) :
    mainRun (n + 1) s = mainRun (n + 1) { s with mpc := .chSetup .aux .s0 :: .auxSwitch 1 .a4 :: fs } := by
  refine (mainRun_auxSwitch h hmpc rfl (switchAt_a3_of_broadcast.trans setupAt_s0)).trans (Eq.symm ?_)
  exact mainRun_chSetup (s := { s with mpc := .chSetup .aux .s0 :: .auxSwitch 1 .a4 :: fs }) h rfl setupAt_s0

/-- From the disabled controller nothing is torn down: `a1` and `a2` only go on to the call. -/
theorem mainRun_auxSwitch_disabled (n : Nat) (h : s.fault = none) (hmpc : s.mpc = .auxSwitch 1 .a1 :: fs)
    (hstate : s.auxState = .disabled) :
    mainRun (n + 3) s =
      mainRun (n + 1)
        { s with mpc := .chSetup .aux .s0 :: .auxSwitch 1 .a4 :: fs, auxState := .disabled } := by
  refine Eq.trans (mainRun_auxSwitch h hmpc rfl (switchAt_a1_of_disabled hstate)) ?_
  refine Eq.trans (mainRun_auxSwitch (target := .auxClockBroadcast) h rfl rfl rfl) ?_
  exact mainRun_auxSwitch_setup n h rfl

/-- The way back: `a4` enters the broadcast mode, `w6` acknowledges. -/
theorem mainRun_auxSwitch_returns (h : s.fault = none) (hmpc : s.mpc = .auxSwitch 1 .a4 :: .wrAuxfn p .w6 :: fs) :
    mainRun 2 s =
      .next
        { s with
          mpc := fs
          auxState := .auxClockBroadcast
          rlog := if s.quiet then s.rlog else s.rlog ++ [0x020300000000 ||| s.regs.auxPortFn.setWidth 48] } :=
  (mainRun_auxSwitch (target := .auxClockBroadcast) h hmpc rfl rfl).trans (mainRun_wrAuxfn h rfl auxfnAt_w6)

/-! ## Slots and channels that a claim leaves alone -/

theorem alarm_of_modified_other {a b : Nat} {f : AlarmSlot → AlarmSlot} (h : t.alarms = s.alarms.modify a f)
    (hb : b ≠ a) : t.alarm b = s.alarm b := by
  have same : t.alarm b = (s.modifyAlarm a f).alarm b := congrArg (fun l => l.getD b AlarmSlot.absent) h
  rw [same, State.alarm_modifyAlarm_other s f hb]

theorem dmaChan_of_modified_other {d e : Nat} {f : DmaChan → DmaChan} (h : t.dma = s.dma.modify d f) (he : e ≠ d) :
    t.dmaChan e = s.dmaChan e := by
  have same : t.dmaChan e = (s.modifyDma d f).dmaChan e := congrArg (fun l => l.getD e DmaChan.absent) h
  rw [same, State.dmaChan_modifyDma_other s f he]

end

/-- The state in which `WR.AUXFN 1` calls the setup. -/
def broadcastCalled (s : State) : State :=
  { s with
    mpc := [.chSetup .aux .s0, .auxSwitch 1 .a4, .wrAuxfn 1 .w6]
    hist := s.hist ++ [.cmd 0x020300000001] ++ [.tag 0x31]
    regs := { s.regs with auxPortFn := 1 }
    auxState := .disabled }

theorem operation_wrAuxfn_broadcast {s : State} (n : Nat) (h : s.fault = none) (hmpc : s.mpc = [])
    (hfn : s.regs.auxPortFn = 0) (hstate : s.auxState = .disabled) :
    operation (.wrAuxfn 1) (n + 7) s = mainRun (n + 1) (broadcastCalled s) := by
  have new : (1 : BitVec 32).toNat ≠ s.regs.auxPortFn.toNat := by
    rw [hfn]
    decide
  refine (operation_wrAuxfn_switches (n + 3) h hmpc (by decide) new).trans ?_
  refine Eq.trans (mainRun_auxSwitch_disabled n h rfl hstate) ?_
  rw [hmpc]
  rfl

end Sys2Proof.Safety

open Sys2Proof Sys2Proof.Machine Sys2Proof.Safety

/-- Settles O39: the setup of the auxiliary channel (O50) on the state in which it is called, and the way back. -/
theorem writeAuxfnBuildsBroadcast : Obligations.WriteAuxfnBuildsBroadcast := by
  intro s h hmpc hfn hstate hinactive huart hdma halarms
  obtain ⟨d, a, t, hd, ha, builds, ht, -⟩ :=
    channelSetupWhole (broadcastCalled s) .aux [.auxSwitch 1 .a4, .wrAuxfn 1 .w6] h rfl hinactive hdma halarms
  have field {β : Type} (p : State → β) := congrArg p ht
  have running : t.fault = none := (field State.fault).trans h
  have performed : operation (.wrAuxfn 1) 21 s = .next _ :=
    (operation_wrAuxfn_broadcast 14 h hmpc hfn hstate).trans
      ((mainRun_add 2 builds).trans (mainRun_auxSwitch_returns running (field State.mpc)))
  have logged : t.hist = s.hist ++ [.cmd 0x020300000001] ++ [.tag 0x31] ++ [.tag 0x11] := field State.hist
  have uart : t.uart = s.uart.set .aux { init := true, baud := s.regs.auxBaudRate, fifo := [] } :=
    (field State.uart).trans (if_neg (Bool.eq_false_iff.mp huart))
  have quiet : t.quiet = s.quiet := field State.quiet
  have rlog : t.rlog = s.rlog := field State.rlog
  have auxPortFn : t.regs.auxPortFn = 1 := field (·.regs.auxPortFn)
  have slots := field State.alarms
  have movers := field State.dma
  refine ⟨d, a, _, hd, ha, performed, rfl, running, field State.regs, rfl, by simp [logged], ?acknowledged,
    field (·.ch.pri), field (·.ch.aux), (congrArg Pair.aux uart :), (congrArg Pair.pri uart :), field (·.pin.aux.fn),
    field (·.pin.pri), field State.pps, alarm_of_modified slots ((State.mem_freeAlarms _ _).mp ha).1,
    fun b hb => alarm_of_modified_other slots hb, dmaChan_of_modified movers ((State.mem_freeDma _ _).mp hd).1,
    fun e he => dmaChan_of_modified_other movers he⟩
  case acknowledged =>
    dsimp only
    rw [quiet, rlog, auxPortFn]
    rfl

end

section
/-!
PROOF. O40: `WR.AUXBAUD` (R182, R221), label by label, and as a whole where nothing is rebuilt.
-/

namespace Sys2Proof.Safety

open Sys2Proof Sys2Proof.Machine

section
variable {s t : State} {p prev : BitVec 32} {fs : List Frame}

/-! ## The labels -/

theorem auxbaudStart_eq : auxbaudStart p s =
    .next
      { s with
        hist := s.hist ++ [.cmd (0x020400000000 ||| p.setWidth 48)]
        mpc := .wrAuxbaud p (.w2 s.regs.auxBaudRate) :: s.mpc
        regs := { s.regs with auxBaudRate := p } } := by
  rw [← encode_wrAuxbaud]
  rfl

theorem auxbaudAt_w2 : auxbaudAt p fs (.w2 prev) s =
    if p.toNat < s.params.minAuxBaud.toNat ∨ s.params.maxAuxBaud.toNat < p.toNat then
      .next
        { s with
          mpc := fs
          regs := { s.regs with auxBaudRate := prev }
          rlog := s.rlog ++ [0x0A0400000000 ||| prev.setWidth 48] }
    else .next { s with mpc := .wrAuxbaud p .w3 :: fs } := by
  rw [auxbaudAt, replyReg_of_word (replyWord_auxbaud _ rfl)]
  simp only [baudOutOfRange, Bool.or_eq_true, decide_eq_true_eq]
  rfl

/-- The call performs `b0` in place. -/
theorem auxbaudAt_w3 : auxbaudAt p fs .w3 s =
    .next
      { s with
        mpc :=
          if s.auxState = .auxClockBroadcast then .auxRebaud .b1 :: .wrAuxbaud p .w4 :: fs else .wrAuxbaud p .w4 :: fs
        hist := s.hist ++ [.tag 0x34] } := rebaudAt_b0

theorem auxbaudAt_w4 : auxbaudAt p fs .w4 s =
    .next
      { s with
        mpc := fs
        rlog := if s.quiet then s.rlog else s.rlog ++ [0x020400000000 ||| s.regs.auxBaudRate.setWidth 48] } :=
  acknowledged_of_word (replyWord_auxbaud s.regs rfl)

theorem exec_wrAuxbaud_idle (h : s.fault = none) (hmpc : s.mpc = []) : exec (.wrAuxbaud p) s = auxbaudStart p s := by
  refine (State.running_of_none h _).trans ?_
  rw [hmpc]

theorem exec_wrAuxbaud_at {l : AuxbaudAt} (h : s.fault = none) (hmpc : s.mpc = .wrAuxbaud p l :: fs) :
    exec (.wrAuxbaud p) s = auxbaudAt p fs l s :=
  (execWrAuxbaud_at hmpc).trans (State.running_of_none h _)

/-! ## Whole runs -/

theorem mainRun_wrAuxbaud {l : AuxbaudAt} {n : Nat} (h : s.fault = none) (hmpc : s.mpc = .wrAuxbaud p l :: fs)
    (hat : auxbaudAt p fs l s = .next t) : mainRun (n + 1) s = mainRun n t :=
  mainRun_succ n h hmpc (by simp) ((exec_wrAuxbaud_at h hmpc).trans hat)

end

end Sys2Proof.Safety

open Sys2Proof Sys2Proof.Machine Sys2Proof.Safety

/-- Settles O40: label by label, by the equations above; the whole by the branches of `w2` and of `b0`. -/
theorem writeAuxbaud : Obligations.WriteAuxbaud := by
  refine ⟨fun s p prev fs h => ?labels, fun s p h hmpc => ?whole⟩
  case labels =>
    have performs {l : AuxbaudAt} {r : Result} (hat : auxbaudAt p fs l s = r) (hmpc : s.mpc = .wrAuxbaud p l :: fs) :
        exec (.wrAuxbaud p) s = r := (exec_wrAuxbaud_at h hmpc).trans hat
    refine ⟨fun hmpc => ?start, performs auxbaudAt_w2, fun hmpc => ?call, performs auxbaudAt_w4⟩
    case start => rw [exec_wrAuxbaud_idle h hmpc, auxbaudStart_eq, hmpc]
    case call =>
      rw [performs auxbaudAt_w3 hmpc]
      split <;> rfl
  case whole =>
    have started : exec (.wrAuxbaud p) s = .next _ := (exec_wrAuxbaud_idle h hmpc).trans auxbaudStart_eq
    refine ⟨fun hout => ?rejected, fun hmin hmax hstate => ?stored⟩
    case rejected =>
      exact (operation_of_next 1 started).trans (mainRun_wrAuxbaud h rfl (auxbaudAt_w2.trans (if_pos hout)))
    case stored =>
      have inRange : ¬(p.toNat < s.params.minAuxBaud.toNat ∨ s.params.maxAuxBaud.toNat < p.toNat) := by omega
      refine (operation_of_next 3 started).trans ?_
      refine Eq.trans (mainRun_wrAuxbaud h rfl (auxbaudAt_w2.trans (if_neg inRange))) ?_
      refine Eq.trans (mainRun_wrAuxbaud h rfl auxbaudAt_w3) ?_
      rw [if_neg hstate]
      refine Eq.trans (mainRun_wrAuxbaud h rfl auxbaudAt_w4) ?_
      dsimp only
      rw [List.append_assoc]
      rfl

end

section
/-!
PROOF. O41 and O42: `POLL` (R240 to R243), label by label and as a whole pass without a synchronisation edge; the
counter checks of any sequence of polls (R244).
-/

namespace Sys2Proof.Safety

open Sys2Proof Sys2Proof.Machine

section
variable {s : State} {reg : BitVec 8} {x : BitVec 32} {fs : List Frame}

/-! ## The synchronisation edge, the inputs, the counter check (R241 to R243) -/

theorem syncEdge_eq (s : State) : s.syncEdge =
    { s with
      lastEmitUs := if s.hasSynced = true ∧ s.prevSynced = false then s.us32 else s.lastEmitUs
      prevSynced := s.hasSynced } := by
  simp [State.syncEdge, State.synced]

theorem syncEdge_of_no_edge (h : s.prevSynced = s.hasSynced) : s.syncEdge = s := by
  have noEdge : ¬(s.hasSynced = true ∧ s.prevSynced = false) := by simp +contextual [h]
  rw [syncEdge_eq, if_neg noEdge]
  exact congrArg (fun b => ({ s with prevSynced := b } : State)) h.symm

theorem inputs_of_unchanged (h : s.remapped = s.prevInputs) :
    s.inputs = { s with regs := { s.regs with connectedDevices := s.remapped } } := if_pos h

/-- Without a change the stored previous value is the one already held. -/
theorem inputs_eq (s : State) : s.inputs =
    { s with
      regs := { s.regs with connectedDevices := s.remapped }
      prevInputs := s.remapped
      rlog := if s.remapped = s.prevInputs then s.rlog else s.rlog ++ [0x030000000000 ||| s.remapped.setWidth 48] } := by
  by_cases same : s.remapped = s.prevInputs
  · rw [inputs_of_unchanged same, if_pos same, same]
  · simp only [State.inputs, State.event, if_neg same]
    exact replyReg_of_word (replyWord_connected _ rfl)

theorem remapped_of_no_inputs (h : s.params.nInputs = 0) : s.remapped = 0 := if_pos h

theorem counterDue_iff : s.counterDue = true ↔
    s.regs.counterFreqHz ≠ 0 ∧ s.intervalUs.toNat ≤ (s.us32 - s.lastEmitUs).toNat := by
  simp [State.counterDue, BitVec.le_def]

theorem counterDue_eq (s : State) : s.counterDue =
    decide (s.regs.counterFreqHz ≠ 0 ∧ s.intervalUs.toNat ≤ (s.us32 - s.lastEmitUs).toNat) := by
  rw [Bool.eq_iff_iff, decide_eq_true_iff, counterDue_iff]

theorem counterTick_of_due (h : s.counterDue = true) : s.counterTick =
    { s with
      regs := { s.regs with counter := s.regs.counter + 1 }
      lastEmitUs := s.lastEmitUs + s.intervalUs
      rlog := s.rlog ++ [0x030100000000 ||| (s.regs.counter + 1).setWidth 48] } := by
  rw [State.counterTick, if_pos h]
  exact replyReg_of_word (replyWord_counter _ rfl)

theorem counterTick_of_early (h : ¬s.counterDue = true) : s.counterTick = s := if_neg h

theorem counterTick_eq (s : State) : s.counterTick =
    { s with
      regs := { s.regs with counter := if s.counterDue then s.regs.counter + 1 else s.regs.counter }
      lastEmitUs := if s.counterDue then s.lastEmitUs + s.intervalUs else s.lastEmitUs
      rlog := s.rlog ++ if s.counterDue then [0x030100000000 ||| (s.regs.counter + 1).setWidth 48] else [] } := by
  by_cases due : s.counterDue = true
  · simp only [counterTick_of_due due, if_pos due]
  · simp only [counterTick_of_early due, if_neg due, List.append_nil]

/-! ## The labels -/

theorem exec_poll_idle (h : s.fault = none) (hmpc : s.mpc = []) :
    exec (.poll reg x) s = .next ((s.log (.poll reg x)).syncEdge.at [.poll reg x .p2]) := by
  refine (State.running_of_none h _).trans ?_
  rw [hmpc]

theorem exec_poll_p2 (h : s.fault = none) (hmpc : s.mpc = .poll reg x .p2 :: fs) :
    exec (.poll reg x) s = .next (s.inputs.at (.poll reg x .p3 :: fs)) := by
  refine (State.running_of_none h _).trans ?_
  simp [hmpc]

theorem exec_poll_p3 (h : s.fault = none) (hmpc : s.mpc = .poll reg x .p3 :: fs) :
    exec (.poll reg x) s = .next (s.counterTick.at fs) := by
  refine (State.running_of_none h _).trans ?_
  simp [hmpc]

/-! ## A whole pass -/

theorem append_ite_nil (l words : List ReplyWord) (p : Prop) [Decidable p] :
    (l ++ if p then [] else words) = if p then l else l ++ words := by
  split
  · exact List.append_nil l
  · rfl

/-- `p2` and `p3` with no other agent between them. -/
theorem mainRun_poll (h : s.fault = none) (hmpc : s.mpc = .poll reg x .p2 :: fs) : mainRun 2 s =
    .next
      { s with
        mpc := fs
        prevInputs := s.remapped
        regs :=
          { s.regs with
            connectedDevices := s.remapped
            counter := if s.counterDue then s.regs.counter + 1 else s.regs.counter }
        lastEmitUs := if s.counterDue then s.lastEmitUs + s.intervalUs else s.lastEmitUs
        rlog :=
          s.rlog ++
            ((if s.remapped = s.prevInputs then [] else [0x030000000000 ||| s.remapped.setWidth 48]) ++
              if s.counterDue then [0x030100000000 ||| (s.regs.counter + 1).setWidth 48] else []) } := by
  have p2 := exec_poll_p2 h hmpc
  rw [inputs_eq, ← append_ite_nil] at p2
  refine (mainRun_succ 1 h hmpc (by simp) p2).trans ?_
  refine Eq.trans (mainRun_succ 0 h rfl (by simp) (exec_poll_p3 h rfl)) ?_
  rw [counterTick_eq, ← List.append_assoc]
  rfl

end

/-! ## Counter checks in a row (R244) -/

/-- The event words of `k` counts from `c` on. -/
def countWords (c : BitVec 32) (k : Nat) : List ReplyWord :=
  (List.range k).map fun n => 0x030100000000 ||| (c + BitVec.ofNat 32 (n + 1)).setWidth 48

theorem countWords_add (c : BitVec 32) (j k : Nat) :
    countWords c (j + k) = countWords c j ++ countWords (c + BitVec.ofNat 32 j) k := by
  simp [countWords, List.range_add, BitVec.ofNat_add, BitVec.add_assoc]

/-- From `s` to `t` there were `k` counter events, each of which advanced the timestamp by one interval. -/
structure Counted (k : Nat) (s t : State) : Prop where
  lastEmitUs : t.lastEmitUs = s.lastEmitUs + BitVec.ofNat 32 k * s.intervalUs
  regs : t.regs = { s.regs with counter := s.regs.counter + BitVec.ofNat 32 k }
  intervalUs : t.intervalUs = s.intervalUs
  rlog : t.rlog = s.rlog ++ countWords s.regs.counter k

section
variable {s t u : State} {j k : Nat}

theorem Counted.refl (s : State) : Counted 0 s s := ⟨by simp, by simp, rfl, by simp [countWords]⟩

theorem Counted.trans (hst : Counted j s t) (htu : Counted k t u) : Counted (j + k) s u where
  lastEmitUs := by
    rw [htu.lastEmitUs, hst.lastEmitUs, hst.intervalUs, BitVec.ofNat_add, BitVec.add_mul, BitVec.add_assoc]
  regs := by rw [htu.regs, hst.regs, BitVec.ofNat_add, ← BitVec.add_assoc]
  intervalUs := htu.intervalUs.trans hst.intervalUs
  rlog := by rw [htu.rlog, hst.rlog, hst.regs, countWords_add, List.append_assoc]

/-- One check makes one event or none, whatever the local time. -/
theorem counterTick_counted (s : State) (now : BitVec 64) :
    ∃ k, k ≤ 1 ∧ Counted k s (State.counterTick { s with lt := now }) := by
  by_cases due : State.counterDue { s with lt := now } = true
  · rw [counterTick_of_due due]
    exact ⟨1, le_rfl, by simp, rfl, rfl, rfl⟩
  · rw [counterTick_of_early due]
    obtain ⟨lastEmitUs, regs, intervalUs, rlog⟩ := Counted.refl s
    exact ⟨0, by omega, lastEmitUs, regs, intervalUs, rlog⟩

theorem counterPasses_counted (ts : List (BitVec 64)) :
    ∀ s : State, ∃ k, k ≤ ts.length ∧ Counted k s (counterPasses ts s) := by
  induction ts with
  | nil => exact fun s => ⟨0, le_rfl, .refl s⟩
  | cons now ts ih =>
    intro s
    obtain ⟨j, hj, first⟩ := counterTick_counted s now
    obtain ⟨k, hk, others⟩ := ih (State.counterTick { s with lt := now })
    exact ⟨j + k, by simp only [List.length_cons]; omega, first.trans others⟩

end

end Sys2Proof.Safety

open Sys2Proof Sys2Proof.Machine Sys2Proof.Safety

/-- Settles O41: label by label, by the equations above; without an edge `p1` only logs, and `mainRun_poll` does the
rest. -/
theorem pollPass : Obligations.PollPass := by
  refine ⟨fun s reg x fs h => ⟨fun hmpc => ?p1, fun hmpc => ?p2, fun hmpc => ?p3⟩, fun s reg x h hmpc hedge => ?whole,
    fun s reg x fs h hnone hprev hmpc => ?noInputs⟩
  case p1 =>
    rw [exec_poll_idle h hmpc, syncEdge_eq]
    rfl
  case p2 =>
    rw [exec_poll_p2 h hmpc, inputs_eq]
    rfl
  case p3 =>
    rw [exec_poll_p3 h hmpc]
    simp only [← counterDue_iff]
    split
    next due => rw [counterTick_of_due due]; rfl
    next early => rw [counterTick_of_early early]; rfl
  case whole =>
    have noEdge : (s.log (.poll reg x)).syncEdge = s.log (.poll reg x) := syncEdge_of_no_edge hedge
    have started := exec_poll_idle (reg := reg) (x := x) h hmpc
    rw [noEdge] at started
    refine ((operation_of_next 2 started).trans (mainRun_poll h rfl)).trans ?_
    simp only [← counterDue_eq, ← hmpc]
    rfl
  case noInputs =>
    have zero : s.remapped = 0 := remapped_of_no_inputs hnone
    rw [exec_poll_p2 h hmpc, inputs_of_unchanged (zero.trans hprev.symm), zero]
    rfl

/-- Settles O42: every check keeps the account of the events so far. -/
theorem counterDoesNotDrift : Obligations.CounterDoesNotDrift := by
  intro ts s
  obtain ⟨k, hk, lastEmitUs, regs, intervalUs, rlog⟩ := counterPasses_counted ts s
  exact ⟨k, hk, lastEmitUs, regs, intervalUs, rlog⟩

end

section
/-!
PROOF. O9: the environment's steps (R270 to R272).
-/

namespace Sys2Proof.Safety

open Sys2Proof Sys2Proof.Machine

section
variable {s : State} (h : s.fault = none)
include h

theorem perform_tick : perform .tick s = .next s.tick := State.running_of_none h _

theorem perform_sync (offs : BitVec 64) : perform (.sync offs) s = .next (s.sync offs) := State.running_of_none h _

theorem perform_din (v : BitVec 16) : perform (.din v) s = .next (s.setDin v) := State.running_of_none h _

theorem perform_quiet (b : Bool) : perform (.quiet b) s = .next (s.setQuiet b) := State.running_of_none h _

end

/-- The mask of the input bits takes nothing from a legal input value (R4, R272). -/
theorem inputBits_of_legal {s : State} {v : BitVec 16} (hv : v.toNat < 2 ^ s.params.nInputs) : s.inputBits v = v :=
  calc v &&& BitVec.ofNat 16 (2 ^ s.params.nInputs - 1)
      = BitVec.ofNat 16 (v.toNat &&& (2 ^ s.params.nInputs - 1)) := by
        rw [BitVec.ofNat_and, BitVec.ofNat_toNat, BitVec.setWidth_eq]
    _ = BitVec.ofNat 16 v.toNat := by rw [Nat.and_two_pow_sub_one_eq_mod, Nat.mod_eq_of_lt hv]
    _ = v := by rw [BitVec.ofNat_toNat, BitVec.setWidth_eq]

end Sys2Proof.Safety

open Sys2Proof Sys2Proof.Machine Sys2Proof.Safety

/-- Settles O9: on a running block each entry gives its definition's state; a tick compares with the low half of the new
local time, and the mask on the inputs keeps a legal value. -/
theorem environmentSteps : Obligations.EnvironmentSteps := by
  intro s h
  refine ⟨?tick, fun o => perform_sync h o, fun v hv => ?din, fun b => perform_quiet h b⟩
  case tick =>
    have low32 : (s.lt + 1).extractLsb' 0 32 = (s.lt + 1).setWidth 32 :=
      (BitVec.setWidth_eq_extractLsb' (by decide)).symm
    rw [perform_tick h, low32]
    rfl
  case din =>
    rw [perform_din h, State.setDin, inputBits_of_legal hv]

end

section
/-!
PROOF. What O15 and O20 share: no step raises a fault without its cause (R42, R252, R256). Only a claim, the transmitter's
start and interrupt entry raise one; `Justified` says so of every step at once, and the two statements are left to show that
their invariants shut the causes out.
-/

namespace Sys2Proof.Safety

open Sys2Proof Sys2Proof.Machine

/-! ## Causes -/

/-- What has to hold for a step to raise a fault: a claim's label in progress on an inactive context with nothing free to
claim, or a pending line without a handler. The transmitter's two faults are not looked into here. -/
def faultCause (s : State) : FaultCode → Prop
  | .noDma => s.freeDma = [] ∧ ∃ c, .chSetup c .s1a ∈ s.mpc ∧ (s.ch.get c).active = false
  | .noAlarm =>
    s.freeAlarms = [] ∧
      ((∃ c, .chSetup c .s1b ∈ s.mpc ∧ (s.ch.get c).active = false) ∨ .ppsSetup .p1a ∈ s.mpc ∧ s.pps.active = false)
  | .unhandledIrq => ∃ q, s.pending q = true ∧ (s.line q).handler = .none
  | .dmaOverlap | .txUnclaimed => True

/-- From `s` to `t` no fault is raised without its cause. -/
def Justified (s t : State) : Prop := ∀ e, t.fault = some e → s.fault = some e ∨ faultCause s e

/-- An outcome that raises no fault. -/
theorem Ensures.unfaulted {s t : State} (h : t.fault = s.fault) : Ensures (Justified s) (.next t) :=
  .next fun _ he => .inl (h ▸ he)

theorem raise_justified {s : State} {e : FaultCode} (h : faultCause s e) : Ensures (Justified s) (s.raise e) :=
  .next fun _ he => .inr (Option.some.inj he ▸ h)

/-- An operation performed with a frame taken away. -/
theorem Justified.of_at {s t : State} {f : Frame} {fs : List Frame} (h : Justified (s.at fs) t) (hmpc : s.mpc = f :: fs) :
    Justified s t := by
  have stacked {g : Frame} (hg : g ∈ fs) : g ∈ s.mpc := hmpc ▸ List.mem_cons_of_mem f hg
  intro e he
  refine (h e he).imp id fun cause => ?_
  cases e with
  | noDma =>
    obtain ⟨free, c, hc, inactive⟩ := cause
    exact ⟨free, c, stacked hc, inactive⟩
  | noAlarm =>
    obtain ⟨free, ⟨c, hc, inactive⟩ | ⟨hp, inactive⟩⟩ := cause
    · exact ⟨free, .inl ⟨c, stacked hc, inactive⟩⟩
    · exact ⟨free, .inr ⟨stacked hp, inactive⟩⟩
  | unhandledIrq => exact cause
  | dmaOverlap | txUnclaimed => trivial

/-! ## The shared operations raise none -/

section
variable (s : State)

@[simp] theorem ack_fault (r : BitVec 8) : (s.ack r).fault = s.fault := by
  unfold State.ack
  split <;> rfl

@[simp] theorem setLevel_fault (v : Bool) : (s.setLevel v).fault = s.fault := by
  unfold State.setLevel
  split <;> rfl

@[simp] theorem inputs_fault : s.inputs.fault = s.fault := by
  unfold State.inputs
  dsimp only
  split <;> rfl

@[simp] theorem counterTick_fault : s.counterTick.fault = s.fault := by
  unfold State.counterTick
  split <;> rfl

@[simp] theorem setupUart_fault (c : Ch) : (s.setupUart c).fault = s.fault := by
  unfold State.setupUart
  dsimp only
  split <;> rfl

@[simp] theorem releaseUart_fault (c : Ch) : (s.releaseUart c).fault = s.fault := by
  unfold State.releaseUart
  split <;> rfl

@[simp] theorem draw_fault : s.draw.2.fault = s.fault := by rw [State.draw_snd]

end

theorem claimDma_fault {s t : State} {d : Nat} (h : s.claimDma = some (d, t)) : t.fault = s.fault := by
  obtain ⟨-, -, rfl⟩ := State.claimDma_some h
  simp

theorem claimAlarm_fault {s t : State} {a : Nat} (h : s.claimAlarm = some (a, t)) : t.fault = s.fault := by
  obtain ⟨-, -, rfl⟩ := State.claimAlarm_some h
  simp

/-! ## Family T and the handlers (R130 to R132, R155, R186) -/

theorem transmitter_cause {c : Ch} {sl : Slot} {n : Nat} {s : State} {e : FaultCode} (h : txStart c sl n s = .error e)
    (u : State) : faultCause u e := by
  rcases txStart_error h with rfl | ⟨rfl, -⟩
  · trivial
  · trivial

theorem execTxStart_justified (c : Ch) (s : State) : Ensures (Justified s) (execTxStart c s) := by
  unfold execTxStart
  refine .running ?_
  split
  next h =>
    obtain ⟨-, -, -, -, -, rfl⟩ := txStart_ok h
    exact .unfaulted rfl
  next h => exact raise_justified (transmitter_cause h s)

theorem execDmaBeat_justified (c : Ch) (s : State) : Ensures (Justified s) (execDmaBeat c s) := by
  unfold execDmaBeat
  refine .running ?_
  split
  · split
    · exact .unfaulted rfl
    · exact .fault _
  · exact .unfaulted rfl

theorem execUartShift_justified (c : Ch) (s : State) : Ensures (Justified s) (execUartShift c s) := by
  have shifted (b : Byte) (rest : List Byte) : (s.shift c b rest).fault = s.fault := by
    unfold State.shift
    dsimp only
    split <;> rfl
  unfold execUartShift
  refine .running ?_
  split
  · split
    · exact .unfaulted (shifted _ _)
    · exact .unfaulted rfl
  · exact .unfaulted rfl

theorem execChFire_justified (c : Ch) (s : State) : Ensures (Justified s) (execChFire c s) := by
  unfold execChFire
  refine .running ?_
  dsimp only
  split
  next h =>
    obtain ⟨-, -, -, -, -, rfl⟩ := txStart_ok h
    exact .unfaulted rfl
  next e h => exact .next fun _ he => .inr (Option.some.inj he ▸ transmitter_cause h s)

theorem execPpsFire_justified (s : State) : Ensures (Justified s) (execPpsFire s) :=
  .running (.unfaulted (setLevel_fault (s.log .ppsFire) _))

/-! ## The listings: only a claim's label raises a fault (R42, R154, R185) -/

section
variable {s : State} {fs : List Frame}

theorem setupAt_justified {c : Ch} {l : SetupAt} (hmpc : s.mpc = .chSetup c l :: fs) :
    Ensures (Justified s) (setupAt c fs l s) := by
  have here : .chSetup c l ∈ s.mpc := hmpc ▸ List.mem_cons_self
  cases l with
  | s1a =>
    unfold setupAt
    dsimp only
    split
    next => exact .unfaulted rfl
    next hinactive =>
      split
      next hnone => exact raise_justified ⟨s.claimDma_none.mp hnone, c, here, Bool.eq_false_iff.mpr hinactive⟩
      next hclaim =>
        have kept := claimDma_fault hclaim
        exact .unfaulted kept
  | s1b =>
    unfold setupAt
    dsimp only
    split
    next => exact .unfaulted rfl
    next hinactive =>
      split
      next hnone =>
        exact raise_justified ⟨s.claimAlarm_none.mp hnone, .inl ⟨c, here, Bool.eq_false_iff.mpr hinactive⟩⟩
      next hclaim =>
        have kept := claimAlarm_fault hclaim
        exact .unfaulted kept
  | s2a => exact .unfaulted (setupUart_fault s c)
  | s4a => exact .unfaulted (State.bind_fault s _ _)
  | s4b => exact .unfaulted (State.enableIrq_fault s _ _)
  | s0 | s1c | s2b | s3a | s3b | s3c | s5a | s5b => exact .unfaulted rfl

theorem ppsSetupAt_justified {l : PpsSetupAt} (hmpc : s.mpc = .ppsSetup l :: fs) :
    Ensures (Justified s) (ppsSetupAt fs l s) := by
  have here : .ppsSetup l ∈ s.mpc := hmpc ▸ List.mem_cons_self
  cases l with
  | p1a =>
    unfold ppsSetupAt
    dsimp only
    split
    next => exact .unfaulted rfl
    next hinactive =>
      split
      next hnone =>
        exact raise_justified ⟨s.claimAlarm_none.mp hnone, .inr ⟨here, Bool.eq_false_iff.mpr hinactive⟩⟩
      next hclaim =>
        have kept := claimAlarm_fault hclaim
        exact .unfaulted kept
  | p3a => exact .unfaulted (State.bind_fault s _ _)
  | p3b => exact .unfaulted (State.enableIrq_fault s _ _)
  | p4a => exact .unfaulted (setLevel_fault s _)
  | p0 | p1b | p2 | p4b => exact .unfaulted rfl

end

section
variable (fs : List Frame) (s : State)

/-- The first micro-op of a setup, where a call performs it. -/
theorem setupStart_justified (c : Ch) : Ensures (Justified s) (setupAt c fs .s0 s) := .unfaulted rfl

theorem ppsSetupStart_justified : Ensures (Justified s) (ppsSetupAt fs .p0 s) := .unfaulted rfl

theorem teardownAt_justified (c : Ch) (l : TeardownAt) : Ensures (Justified s) (teardownAt c fs l s) := by
  cases l with
  | t0 =>
    unfold teardownAt
    dsimp only
    split <;> exact .unfaulted rfl
  | t3 => exact .unfaulted (State.enableIrq_fault s _ _)
  | t5 => exact .unfaulted (State.bind_fault s _ _)
  | t7 => exact .unfaulted (releaseUart_fault s c)
  | t1 | t2 | t4 | t6 | t8 => exact .unfaulted rfl

theorem ppsTeardownAt_justified (l : PpsTeardownAt) : Ensures (Justified s) (ppsTeardownAt fs l s) := by
  cases l with
  | r0 =>
    unfold ppsTeardownAt
    dsimp only
    split <;> exact .unfaulted rfl
  | r3 => exact .unfaulted (State.enableIrq_fault s _ _)
  | r5 => exact .unfaulted (State.bind_fault s _ _)
  | r1 | r2 | r4 | r6 | r7 => exact .unfaulted rfl

/-! ## Families A, R and P (R181, R182, R213 to R222, R240) -/

theorem switchAt_justified (fn : BitVec 2) (target : AuxState) (l : SwitchAt) :
    Ensures (Justified s) (switchAt fn target fs l s) := by
  cases l with
  | a1 =>
    unfold switchAt
    dsimp only
    split
    · exact teardownAt_justified ..
    · exact ppsTeardownAt_justified ..
    · exact .unfaulted rfl
  | a3 =>
    cases target with
    | auxClockBroadcast => exact setupStart_justified _ s .aux
    | pulsePerSecond => exact ppsSetupStart_justified _ s
    | disabled => exact .unfaulted rfl
  | a0 | a2 | a4 => exact .unfaulted rfl

theorem switchOrRefuse_justified (fn : BitVec 2) (l : SwitchAt) :
    Ensures (Justified s) (switchOrRefuse fn fs l s) := by
  unfold switchOrRefuse
  split
  · exact switchAt_justified ..
  · exact .refused _

theorem rebaudAt_justified (l : RebaudAt) : Ensures (Justified s) (rebaudAt fs l s) := by
  cases l with
  | b0 =>
    unfold rebaudAt
    dsimp only
    split <;> exact .unfaulted rfl
  | b1 => exact teardownAt_justified _ s .aux .t0
  | b2 => exact setupStart_justified fs s .aux

theorem freqAt_justified (p : BitVec 32) (l : FreqAt) : Ensures (Justified s) (freqAt p fs l s) := by
  cases l with
  | w3 =>
    unfold freqAt
    dsimp only
    split <;> exact .unfaulted rfl
  | w5 => exact .unfaulted (ack_fault s 2)
  | w2 | w4 => exact .unfaulted rfl

theorem auxfnAt_justified (p : BitVec 32) (l : AuxfnAt) : Ensures (Justified s) (auxfnAt p fs l s) := by
  cases l with
  | w3 =>
    unfold auxfnAt
    dsimp only
    split <;> exact .unfaulted rfl
  | w4 =>
    unfold auxfnAt
    dsimp only
    split
    · exact .unfaulted (ack_fault s 3)
    · exact .unfaulted rfl
  | w5 => exact switchOrRefuse_justified ..
  | w6 => exact .unfaulted (ack_fault s 3)
  | w2 => exact .unfaulted rfl

theorem auxbaudAt_justified (p : BitVec 32) (l : AuxbaudAt) : Ensures (Justified s) (auxbaudAt p fs l s) := by
  cases l with
  | w2 =>
    unfold auxbaudAt
    dsimp only
    split <;> exact .unfaulted rfl
  | w3 => exact rebaudAt_justified _ s .b0
  | w4 => exact .unfaulted (ack_fault s 4)

end

section
variable (s : State)

theorem readRegister_justified (i : Instr) (r : BitVec 8) : Ensures (Justified s) (readRegister i r s) :=
  .running (.unfaulted rfl)

theorem execWrCounter_justified (p : BitVec 32) : Ensures (Justified s) (execWrCounter p s) := by
  unfold execWrCounter
  refine .running ?_
  split
  · split
    · exact .unfaulted (ack_fault s 1)
    · exact .unfaulted rfl
  · exact .unfaulted rfl

theorem freqStart_justified (p : BitVec 32) : Ensures (Justified s) (freqStart p s) := by
  unfold freqStart
  dsimp only
  split <;> exact .unfaulted rfl

theorem execWrFreq_justified (p : BitVec 32) : Ensures (Justified s) (execWrFreq p s) := by
  unfold execWrFreq
  refine .running ?_
  split
  · split
    · exact freqAt_justified ..
    · exact freqStart_justified s p
  · exact freqStart_justified s p

theorem auxfnStart_justified (p : BitVec 32) : Ensures (Justified s) (auxfnStart p s) := by
  unfold auxfnStart
  dsimp only
  split <;> exact .unfaulted rfl

theorem execWrAuxfn_justified (p : BitVec 32) : Ensures (Justified s) (execWrAuxfn p s) := by
  unfold execWrAuxfn
  refine .running ?_
  split
  · split
    · exact auxfnAt_justified ..
    · exact auxfnStart_justified s p
  · exact auxfnStart_justified s p

theorem execWrAuxbaud_justified (p : BitVec 32) : Ensures (Justified s) (execWrAuxbaud p s) := by
  unfold execWrAuxbaud
  refine .running ?_
  split
  · split
    · exact auxbaudAt_justified ..
    · exact .unfaulted rfl
  · exact .unfaulted rfl

theorem execPoll_justified (r : BitVec 8) (x : BitVec 32) : Ensures (Justified s) (execPoll r x s) := by
  unfold execPoll
  refine .running ?_
  split
  · split
    · split
      · exact .unfaulted (inputs_fault s)
      · exact .unfaulted (counterTick_fault s)
    · exact .unfaulted rfl
  · exact .unfaulted rfl

theorem execBoot_justified : Ensures (Justified s) (execBoot s) := by
  unfold execBoot
  refine .running ?_
  split
  · exact setupStart_justified ..
  · exact .unfaulted rfl

theorem execAuxSwitch_justified (fn : BitVec 2) : Ensures (Justified s) (execAuxSwitch fn s) := by
  unfold execAuxSwitch
  refine .running ?_
  split
  · split
    · exact switchOrRefuse_justified ..
    · exact switchOrRefuse_justified ..
  · exact switchOrRefuse_justified ..

theorem execAuxRebaud_justified : Ensures (Justified s) (execAuxRebaud s) := by
  unfold execAuxRebaud
  refine .running ?_
  split
  · exact rebaudAt_justified ..
  · exact rebaudAt_justified ..

theorem execChSetup_justified (c : Ch) : Ensures (Justified s) (execChSetup c s) := by
  unfold execChSetup
  refine .running ?_
  split
  next hmpc =>
    split
    next hc => exact setupAt_justified (hc ▸ hmpc)
    next => exact setupStart_justified ..
  next => exact setupStart_justified ..

theorem execPpsSetup_justified : Ensures (Justified s) (execPpsSetup s) := by
  unfold execPpsSetup
  refine .running ?_
  split
  next hmpc => exact ppsSetupAt_justified hmpc
  next => exact ppsSetupStart_justified ..

/-! ## Every step -/

theorem exec_justified (i : Instr) : Ensures (Justified s) (exec i s) := by
  cases i with
  | rdConnected | rdCounter | rdFreq | rdAuxfn | rdAuxbaud => exact readRegister_justified s _ _
  | wrConnected p => exact .running (.unfaulted rfl)
  | wrCounter p => exact execWrCounter_justified s p
  | wrFreq p => exact execWrFreq_justified s p
  | wrAuxfn p => exact execWrAuxfn_justified s p
  | wrAuxbaud p => exact execWrAuxbaud_justified s p
  | poll r x => exact execPoll_justified s r x
  | boot => exact execBoot_justified s
  | txStart c => exact execTxStart_justified c s
  | dmaBeat c => exact execDmaBeat_justified c s
  | uartShift c => exact execUartShift_justified c s
  | chSetup c => exact execChSetup_justified s c
  | chFire c => exact execChFire_justified c s
  | chTeardown c =>
    obtain ⟨fs, l, hexec⟩ := execChTeardown_label c s
    exact .of_eq hexec (teardownAt_justified fs s c l)
  | auxSwitch fn => exact execAuxSwitch_justified s fn
  | auxRebaud => exact execAuxRebaud_justified s
  | ppsSetup => exact execPpsSetup_justified s
  | ppsFire => exact execPpsFire_justified s
  | ppsTeardown =>
    obtain ⟨fs, l, hexec⟩ := execPpsTeardown_label s
    exact .of_eq hexec (ppsTeardownAt_justified fs s l)

theorem mainStep_justified : Ensures (Justified s) (mainStep s) := by
  unfold mainStep
  split
  next =>
    split
    · exact .unfaulted rfl
    · exact exec_justified s .boot
  next i fs hmpc => exact (exec_justified (s.at fs) i).mono fun _ ht => ht.of_at hmpc
  next => exact exec_justified s _

theorem takeCommand_justified (w : CmdWord) : Ensures (Justified s) (takeCommand w s) := by
  unfold takeCommand
  split
  · split
    · exact exec_justified s _
    · exact .unfaulted rfl
    · exact .unfaulted rfl
    · exact .refused _
  · exact .unfaulted rfl

/-- Interrupt entry finds a line without a handler only where one is pending (R256). -/
theorem serveIrq_justified (q : Nat) : Ensures (Justified s) (serveIrq q s) := by
  unfold serveIrq
  split
  next hpending =>
    split
    next hhandler => exact raise_justified ⟨q, hpending, hhandler⟩
    next => exact execChFire_justified _ s
    next => exact execPpsFire_justified s
  next => exact .unfaulted rfl

end

/-- A step that ends with a fault raised it, for its cause: a faulted block takes no step but a reset, which clears it. -/
theorem faultCause_of_perform {a : Action} {s t : State} (h : perform a s = .next t) {e : FaultCode}
    (he : t.fault = some e) : faultCause s e := by
  have raised {r : Result} (hr : Ensures (Justified s) r) (hrun : s.running r = .next t) : faultCause s e := by
    obtain ⟨running, hnext⟩ := State.running_next hrun
    refine ((hr.of_next hnext) e he).resolve_left fun old => ?_
    rw [running] at old
    cases old
  cases a with
  | reset d =>
    cases h
    cases he
  | main => exact raised (mainStep_justified s) h
  | command w => exact raised (takeCommand_justified s w) h
  | irq q => exact raised (serveIrq_justified s q) h
  | dma c => exact raised (execDmaBeat_justified c s) h
  | uart c => exact raised (execUartShift_justified c s) h
  | tick => exact raised (r := .next s.tick) (.unfaulted rfl) h
  | sync offs => exact raised (r := .next (s.sync offs)) (.unfaulted rfl) h
  | din v => exact raised (r := .next (s.setDin v)) (.unfaulted rfl) h
  | quiet b => exact raised (r := .next (s.setQuiet b)) (.unfaulted rfl) h

end Sys2Proof.Safety

end

section
/-!
PROOF. O15: every step keeps an enabled line bound (R303). Only six micro-ops rewrite a line: the two that bind a handler,
the two that enable a line, which stand right after them, and the same the other way round in a teardown. Everything else
leaves the lines alone.
-/

namespace Sys2Proof.Safety

open Sys2Proof Sys2Proof.Machine

/-! ## Lines of the list and lines by number (R41) -/

section
variable (s : State)

theorem line_mem_or_absent (q : Nat) : s.line q ∈ s.lines ∨ s.line q = IrqLine.absent := by
  cases hq : s.alarmOf q with
  | none => exact .inr (line_of_alarmOf_none hq)
  | some a =>
    rw [line_of_alarmOf hq, List.getD_eq_getElem?_getD]
    cases ha : s.lines[a]? with
    | none => exact .inr rfl
    | some l => exact .inl (List.mem_of_getElem? ha)

theorem mem_lines_of_enabled {q : Nat} (h : (s.line q).enabled = true) : s.line q ∈ s.lines := by
  refine (line_mem_or_absent s q).resolve_right fun habsent => ?_
  rw [habsent] at h
  cases h

/-- A member of the rewritten lines is an old one, or the line that was rewritten. -/
theorem mem_lines_modifyLine {q : Nat} {f : IrqLine → IrqLine} {l : IrqLine} (h : l ∈ (s.modifyLine q f).lines) :
    l ∈ s.lines ∨ (s.alarmOf q ≠ none ∧ s.line q ∈ s.lines ∧ l = f (s.line q)) := by
  cases hq : s.alarmOf q with
  | none =>
    rw [modifyLine_of_none hq] at h
    exact .inl h
  | some a =>
    rw [lines_modifyLine hq] at h
    rcases mem_modify h with hold | ⟨y, hy, hat, rfl⟩
    · exact .inl hold
    · have same : s.line q = y := by rw [line_of_alarmOf hq, List.getD_eq_getElem?_getD, hat]; rfl
      exact .inr ⟨nofun, same ▸ hy, by rw [same]⟩

/-- A line is disabled after its enable bit is cleared, whether it exists or not. -/
theorem enabled_enableIrq_false (q : Nat) : ((s.enableIrq q false).line q).enabled = false := by
  rcases line_modifyLine_cases s q q fun x => { x with enabled := false } with ⟨-, h⟩ | h | ⟨hne, -⟩
  · exact congrArg IrqLine.enabled h
  · exact congrArg IrqLine.enabled h
  · exact absurd rfl hne

end

/-! ## Operations that rewrite no line -/

section
variable {s t : State}

theorem claimDma_lines {d : Nat} (hclaim : s.claimDma = some (d, t)) : t.lines = s.lines := by
  have view := congrArg State.lines (swapView_claimDma hclaim)
  exact view

theorem claimAlarm_lines {a : Nat} (hclaim : s.claimAlarm = some (a, t)) : t.lines = s.lines := by
  have view := congrArg State.lines (swapView_claimAlarm hclaim)
  exact view

theorem setupUart_lines (s : State) (c : Ch) : (s.setupUart c).lines = s.lines := by
  have view := congrArg State.lines (swapView_setupUart s c)
  exact view

theorem releaseUart_lines (s : State) (c : Ch) : (s.releaseUart c).lines = s.lines := by
  have view := congrArg State.lines (swapView_releaseUart s c)
  exact view

theorem setLevel_lines (s : State) (v : Bool) : (s.setLevel v).lines = s.lines := by
  have view := congrArg State.lines (swapView_setLevel s v)
  exact view

end

/-! ## What the position says of a line -/

@[simp] theorem line_at (s : State) (fs : List Frame) (q : Nat) : (s.at fs).line q = s.line q := rfl

@[simp] theorem alarmOf_at (s : State) (fs : List Frame) (q : Nat) : (s.at fs).alarmOf q = s.alarmOf q := rfl

theorem frameLine_congr {s t : State} (line : t.line = s.line) (alarmOf : t.alarmOf = s.alarmOf)
    (irq : ∀ c, (t.ch.get c).irq = (s.ch.get c).irq) (pps : t.pps.irq = s.pps.irq) (fs : List Frame) :
    frameLine t fs ↔ frameLine s fs := by
  unfold frameLine
  simp only [line, alarmOf, irq, pps]

/-- A setup or teardown that has just started says nothing of its line yet, and a caller says nothing at all. -/
theorem frameLine_of_started {s : State} {fs : List Frame} (h : started s fs = true) (t : State) : frameLine t fs := by
  cases fs with
  | nil => trivial
  | cons f fs =>
    obtain ⟨hf, -⟩ : justStarted s f = true ∧ callersOnly fs = true := (Bool.and_eq_true _ _ ▸ h : _ ∧ _)
    cases f with
    | chSetup c l =>
      obtain rfl : l = .s1a := by simpa [justStarted] using hf
      trivial
    | chTeardown c l =>
      obtain ⟨rfl, -⟩ : l = .t1 ∧ (s.ch.get c).active = true := by simpa [justStarted] using hf
      trivial
    | ppsSetup l =>
      obtain rfl : l = .p1a := by simpa [justStarted] using hf
      trivial
    | ppsTeardown l =>
      obtain ⟨rfl, -⟩ : l = .r1 ∧ s.pps.active = true := by simpa [justStarted] using hf
      trivial
    | boot | auxSwitch | auxRebaud | wrCounter | wrFreq | wrAuxfn | wrAuxbaud | poll | selected => trivial

/-! ## Steps under the invariant -/

section
variable {s : State} {fs : List Frame} (h : Bound s)
include h

theorem Bound.callersOnly_of_leaf {f : Frame} (hmpc : s.mpc = f :: fs) : callersOnly fs = true := by
  have callers := h.callers
  rw [hmpc] at callers
  exact callers

/-- No line is rewritten, and the main thread reaches a position that says nothing of one. -/
theorem Bound.of_started {t u : State} (lines : t.lines = s.lines) (hstarted : started u t.mpc = true) : Bound t :=
  ⟨lines ▸ h.lines, frameLine_of_started hstarted t, callersBelow_of_started hstarted⟩

/-- The other agents rewrite no line (R262). -/
theorem Attends.bound {t : State} (attends : Attends s t) : Bound t := by
  have view := attends.view
  have lines := congrArg State.lines view
  have mpc : t.mpc = s.mpc := by
    have x := congrArg State.mpc view
    exact x
  have alarmOf : t.alarmOf = s.alarmOf := by
    have x := congrArg State.alarmOf view
    exact x
  have pps : t.pps.irq = s.pps.irq := by
    have x := congrArg (fun u => u.pps.irq) view
    exact x
  refine ⟨(show t.lines = s.lines from lines) ▸ h.lines, mpc ▸ ?_, mpc ▸ h.callers⟩
  exact (frameLine_congr (line_of_mainView view) alarmOf (fun c => (ch_of_mainView view c).2.2) pps s.mpc).mpr h.position

/-- An operation that builds and tears down nothing rewrites no line. -/
theorem Handles.bound {i : Instr} {t : State} (handles : Handles i s.mpc s t) (hcallers : callersOnly s.mpc = true) :
    Bound t := by
  have lines := congrArg State.lines handles.touches.hardware
  exact h.of_started lines (handles.position hcallers)

theorem Bound.raise (e : FaultCode) : Ensures Bound (s.raise e) := .next ⟨h.lines, h.position, h.callers⟩

/-- The operation in progress returns to its callers. -/
theorem Bound.returns {t : State} (below : callersOnly fs = true) (lines : t.lines = s.lines) :
    Ensures Bound (.next (t.at fs)) :=
  .next (h.of_started (t := t.at fs) (u := s) lines (started_of_callersOnly below))

/-- The operation in progress goes on without touching a line. -/
theorem Bound.goesOn {t : State} {g : Frame} (below : callersOnly fs = true) (lines : t.lines = s.lines)
    (position : frameLine (t.at (g :: fs)) (g :: fs)) : Ensures Bound (.next (t.at (g :: fs))) :=
  .next ⟨by exact lines ▸ h.lines, position, below⟩

/-- The operation in progress rewrites a line: if that exists and is enabled afterwards, it has a handler. -/
theorem Bound.rewrites {q : Nat} {f : IrqLine → IrqLine} {g : Frame} (below : callersOnly fs = true)
    (own : s.alarmOf q ≠ none → s.line q ∈ s.lines → (f (s.line q)).enabled = true → (f (s.line q)).handler ≠ .none)
    (position : frameLine ((s.modifyLine q f).at (g :: fs)) (g :: fs)) :
    Ensures Bound (.next ((s.modifyLine q f).at (g :: fs))) := by
  refine .next ⟨fun l hl => ?_, position, below⟩
  rcases mem_lines_modifyLine s hl with hold | ⟨hexists, hmem, rfl⟩
  · exact h.lines l hold
  · exact own hexists hmem

end

/-! ## The listings, label by label (R154, R156, R185, R187) -/

section
variable {s : State} {fs : List Frame} (h : Bound s)
include h

/-- `s4a`, `p3a`: a handler is bound, and the next label may enable the line. -/
theorem Bound.binds {q : Nat} {x : Handler} (hx : x ≠ .none) {g : Frame} (below : callersOnly fs = true)
    (position : frameLine ((s.bind q x).at (g :: fs)) (g :: fs)) : Ensures Bound (.next ((s.bind q x).at (g :: fs))) :=
  h.rewrites below (fun _ _ _ => hx) position

/-- `s4b`, `p3b`: a line that has a handler, or does not exist, is enabled. -/
theorem Bound.enables {q : Nat} {g : Frame} (below : callersOnly fs = true)
    (bound : (s.line q).handler ≠ .none ∨ s.alarmOf q = none)
    (position : frameLine ((s.enableIrq q true).at (g :: fs)) (g :: fs)) :
    Ensures Bound (.next ((s.enableIrq q true).at (g :: fs))) :=
  h.rewrites below (fun hexists _ _ => bound.resolve_right hexists) position

/-- `t3`, `r3`: a line is disabled. -/
theorem Bound.disables {q : Nat} {g : Frame} (below : callersOnly fs = true)
    (position : frameLine ((s.enableIrq q false).at (g :: fs)) (g :: fs)) :
    Ensures Bound (.next ((s.enableIrq q false).at (g :: fs))) :=
  h.rewrites below (fun _ _ => nofun) position

/-- `t5`, `r5`: a disabled line loses its handler. -/
theorem Bound.unbinds {q : Nat} {g : Frame} (below : callersOnly fs = true) (disabled : (s.line q).enabled = false)
    (position : frameLine ((s.bind q .none).at (g :: fs)) (g :: fs)) :
    Ensures Bound (.next ((s.bind q .none).at (g :: fs))) :=
  h.rewrites below (fun _ _ henabled => absurd henabled (by simp [disabled])) position

theorem setupAt_bound (hc : Canonical s) {c : Ch} {l : SetupAt} (hmpc : s.mpc = .chSetup c l :: fs) :
    Ensures Bound (setupAt c fs l s) := by
  have below : callersOnly fs = true := h.callersOnly_of_leaf hmpc
  cases l with
  | s1a =>
    unfold setupAt
    dsimp only
    split
    next => exact h.goesOn below rfl trivial
    next =>
      split
      next => exact h.raise _
      next hclaim =>
        have lines := claimDma_lines hclaim
        exact h.goesOn below lines trivial
  | s1b =>
    unfold setupAt
    dsimp only
    split
    next => exact h.goesOn below rfl trivial
    next =>
      split
      next => exact h.raise _
      next hclaim =>
        have lines := claimAlarm_lines hclaim
        exact h.goesOn below lines trivial
  | s2a => exact h.goesOn below (setupUart_lines s c) trivial
  | s4a =>
    refine h.binds (x := .chFire c) nofun below ?_
    have bound := hc.bind_handler (s.ch.get c).irq (.chFire c)
    simpa [frameLine] using bound.imp (fun handler => by simp [handler]) id
  | s4b =>
    have bound := h.position
    rw [hmpc] at bound
    exact h.enables below bound trivial
  | s5b d => exact h.returns below rfl
  | s0 | s1c | s2b | s3a | s3b | s3c | s5a => exact h.goesOn below rfl trivial

theorem teardownAt_bound {c : Ch} {l : TeardownAt} (hmpc : s.mpc = .chTeardown c l :: fs) :
    Ensures Bound (teardownAt c fs l s) := by
  have below : callersOnly fs = true := h.callersOnly_of_leaf hmpc
  have disabled := h.position
  rw [hmpc] at disabled
  cases l with
  | t0 =>
    unfold teardownAt
    dsimp only
    split
    next => exact h.goesOn below rfl trivial
    next => exact h.returns below rfl
  | t3 => exact h.disables below (by simpa [frameLine] using enabled_enableIrq_false s (s.ch.get c).irq)
  | t4 => exact h.goesOn below rfl disabled
  | t5 => exact h.unbinds below disabled trivial
  | t7 => exact h.goesOn below (releaseUart_lines s c) trivial
  | t8 => exact h.returns below rfl
  | t1 | t2 | t6 => exact h.goesOn below rfl trivial

theorem ppsSetupAt_bound (hc : Canonical s) {l : PpsSetupAt} (hmpc : s.mpc = .ppsSetup l :: fs) :
    Ensures Bound (ppsSetupAt fs l s) := by
  have below : callersOnly fs = true := h.callersOnly_of_leaf hmpc
  cases l with
  | p1a =>
    unfold ppsSetupAt
    dsimp only
    split
    next => exact h.goesOn below rfl trivial
    next =>
      split
      next => exact h.raise _
      next hclaim =>
        have lines := claimAlarm_lines hclaim
        exact h.goesOn below lines trivial
  | p3a =>
    refine h.binds (x := .ppsFire) nofun below ?_
    have bound := hc.bind_handler s.pps.irq .ppsFire
    simpa [frameLine] using bound.imp (fun handler => by simp [handler]) id
  | p3b =>
    have bound := h.position
    rw [hmpc] at bound
    exact h.enables below bound trivial
  | p4a => exact h.goesOn below (setLevel_lines s _) trivial
  | p4b d => exact h.returns below rfl
  | p0 | p1b | p2 => exact h.goesOn below rfl trivial

theorem ppsTeardownAt_bound {l : PpsTeardownAt} (hmpc : s.mpc = .ppsTeardown l :: fs) :
    Ensures Bound (ppsTeardownAt fs l s) := by
  have below : callersOnly fs = true := h.callersOnly_of_leaf hmpc
  have disabled := h.position
  rw [hmpc] at disabled
  cases l with
  | r0 =>
    unfold ppsTeardownAt
    dsimp only
    split
    next => exact h.goesOn below rfl trivial
    next => exact h.returns below rfl
  | r3 => exact h.disables below (by simpa [frameLine] using enabled_enableIrq_false s _)
  | r4 => exact h.goesOn below rfl disabled
  | r5 => exact h.unbinds below disabled trivial
  | r7 => exact h.returns below rfl
  | r1 | r2 | r6 => exact h.goesOn below rfl trivial

/-! ## Every step -/

theorem exec_bound (hcallers : callersOnly s.mpc = true) (i : Instr) : Ensures Bound (exec i s) := by
  cases hi : isAttendance i with
  | true => exact (exec_attends hi s).mono fun _ => Attends.bound h
  | false => exact (exec_handles_of_callers hi hcallers).mono fun _ handles => Handles.bound h handles hcallers

theorem mainStep_bound (hc : Canonical s) : Ensures Bound (mainStep s) := by
  cases hmpc : s.mpc with
  | nil =>
    unfold mainStep
    simp only [hmpc]
    split
    · exact .next h
    · exact exec_bound h (by simp [hmpc, callersOnly]) .boot
  | cons f fs =>
    have below : callersOnly fs = true := h.callersOnly_of_leaf hmpc
    cases f with
    | selected i =>
      unfold mainStep
      simp only [hmpc]
      have returned : Bound (s.at fs) := (h.returns (t := s) below rfl).of_next rfl
      exact exec_bound returned below i
    | chSetup c l => exact .of_frame hmpc (execChSetup_at hmpc) (setupAt_bound h hc hmpc)
    | chTeardown c l => exact .of_frame hmpc (execChTeardown_at hmpc) (teardownAt_bound h hmpc)
    | ppsSetup l => exact .of_frame hmpc (execPpsSetup_at hmpc) (ppsSetupAt_bound h hc hmpc)
    | ppsTeardown l => exact .of_frame hmpc (execPpsTeardown_at hmpc) (ppsTeardownAt_bound h hmpc)
    | boot | auxSwitch | auxRebaud | wrCounter | wrFreq | wrAuxfn | wrAuxbaud | poll =>
      rw [mainStep_of_frame hmpc (by simp)]
      exact exec_bound h (by simpa [hmpc, callersOnly, Frame.isLeaf] using below) _

theorem takeCommand_bound (w : CmdWord) : Ensures Bound (takeCommand w s) := by
  unfold takeCommand
  split
  next hidle =>
    split
    next => exact exec_bound h (by simp [hidle, callersOnly]) _
    next => exact .next ⟨h.lines, h.position, h.callers⟩
    next => exact .next ⟨h.lines, h.position, h.callers⟩
    next => exact .refused _
  next => exact .next h

/-- A pending line is enabled, so it has a handler. -/
theorem Bound.handled {q : Nat} (hpending : s.pending q = true) : (s.line q).handler ≠ .none := by
  obtain ⟨-, -, enabled, -⟩ := (pending_iff s q).mp hpending
  exact h.lines _ (mem_lines_of_enabled s enabled) enabled

theorem Bound.taken : Bound s.nextAction.2 := by
  rw [State.nextAction_snd]
  exact ⟨h.lines, h.position, h.callers⟩

end

end Sys2Proof.Safety

open Sys2Proof Sys2Proof.Machine Sys2Proof.Safety

/-- Settles O15: a line is enabled right after its handler is bound and loses it only while disabled; so the cause of
`H_UNHANDLED_IRQ`, a pending line without a handler, never holds. -/
theorem enabledLinesAreBound : Obligations.EnabledLinesAreBound := by
  intro s t hcanonical hs hstep
  have canonical : Canonical s.nextAction.2 := (nextAction_evolves s).canonical hcanonical
  have taken : Bound s.nextAction.2 := hs.taken
  refine ⟨?kept, fun hfault => ?unhandled⟩
  case kept =>
    exact (perform_of_agents (mainStep_bound taken canonical) (takeCommand_bound taken)
      (fun _ _ attends _ => Attends.bound taken attends) fun d _ => bound_afterReset _ d _ _ _).of_next hstep
  case unhandled =>
    obtain ⟨q, hpending, hhandler⟩ := faultCause_of_perform hstep hfault
    exact taken.handled hpending hhandler

end

section
/-!
PROOF. O20: with two slots and two data movers no claim comes up empty (R292 (5)). A claim moves a free id to the context that
then holds it and a release moves it back, so free and held ids together stay as many as they are (`Conserves`); and whoever
claims finds at most one of them held by another.
-/

namespace Sys2Proof.Safety

open Sys2Proof Sys2Proof.Machine

/-! ## Counting free and held ids -/

/-- One member less passes the second test. -/
theorem length_filter_succ {α : Type} {x : α} {p q : α → Bool} (hp : p x = true) (hq : q x = false)
    (hother : ∀ y, y ≠ x → q y = p y) {l : List α} (hnodup : l.Nodup) (hx : x ∈ l) :
    (l.filter q).length + 1 = (l.filter p).length := by
  induction l with
  | nil => cases hx
  | cons y l ih =>
    obtain ⟨hy, hl⟩ := List.nodup_cons.mp hnodup
    rcases List.mem_cons.mp hx with rfl | hx
    · have same : l.filter q = l.filter p := List.filter_congr fun z hz => hother z (by rintro rfl; exact hy hz)
      simp [hp, hq, same]
    · have hne : y ≠ x := by
        rintro rfl
        exact hy hx
      rw [List.filter_cons, List.filter_cons, hother y hne]
      split
      · simp [ih hl hx]
      · exact ih hl hx

section
variable {s t : State}

theorem heldAlarms_length_congr (h : ∀ u, holdsAlarm t u = holdsAlarm s u) :
    (heldAlarms t).length = (heldAlarms s).length := by
  rw [heldAlarms_eq, heldAlarms_eq, List.length_map, List.length_map, funext h]

theorem heldDma_length_congr (h : ∀ c, dmaHeld t c = dmaHeld s c) : (heldDma t).length = (heldDma s).length := by
  rw [heldDma_eq, heldDma_eq, List.length_map, List.length_map, funext h]

/-- One user more holds a slot. -/
theorem heldAlarms_length_succ {u : User} (hs : holdsAlarm s u = false) (ht : holdsAlarm t u = true)
    (hother : ∀ v, v ≠ u → holdsAlarm t v = holdsAlarm s v) :
    (heldAlarms s).length + 1 = (heldAlarms t).length := by
  rw [heldAlarms_eq, heldAlarms_eq, List.length_map, List.length_map]
  refine length_filter_succ ht hs (fun v hv => (hother v hv).symm) (by simp) ?_
  rcases u with (_ | _) | _ <;> simp

/-- One channel more holds a data mover. -/
theorem heldDma_length_succ {c : Ch} (hs : dmaHeld s c = false) (ht : dmaHeld t c = true)
    (hother : ∀ e, e ≠ c → dmaHeld t e = dmaHeld s e) : (heldDma s).length + 1 = (heldDma t).length := by
  rw [heldDma_eq, heldDma_eq, List.length_map, List.length_map]
  refine length_filter_succ ht hs (fun e he => (hother e he).symm) (by simp) ?_
  cases c <;> simp

/-- One slot more is free. -/
theorem freeAlarms_length_succ {a : Nat} (ha : a < t.alarms.length) (hlength : s.alarms.length = t.alarms.length)
    (hs : (s.alarm a).claimed = true) (ht : (t.alarm a).claimed = false) (hother : ∀ b, b ≠ a → t.alarm b = s.alarm b) :
    s.freeAlarms.length + 1 = t.freeAlarms.length := by
  rw [State.freeAlarms, State.freeAlarms, hlength]
  exact length_filter_succ (by simp [ht]) (by simp [hs]) (fun b hb => by rw [hother b hb]) List.nodup_range
    (List.mem_range.mpr ha)

/-- One data mover more is free. -/
theorem freeDma_length_succ {d : Nat} (hd : d < t.dma.length) (hlength : s.dma.length = t.dma.length)
    (hs : (s.dmaChan d).claimed = true) (ht : (t.dmaChan d).claimed = false)
    (hother : ∀ e, e ≠ d → t.dmaChan e = s.dmaChan e) : s.freeDma.length + 1 = t.freeDma.length := by
  rw [State.freeDma, State.freeDma, hlength]
  exact length_filter_succ (by simp [ht]) (by simp [hs]) (fun e he => by rw [hother e he]) List.nodup_range
    (List.mem_range.mpr hd)

/-! ### Claims and releases -/

theorem freeAlarms_length_of_claim {a : Nat} (h : s.claimAlarm = some (a, t)) :
    t.freeAlarms.length + 1 = s.freeAlarms.length := by
  obtain ⟨hfree, -, rfl⟩ := State.claimAlarm_some h
  obtain ⟨hlt, hunclaimed⟩ := (State.mem_freeAlarms s a).mp hfree
  have hlt' : a < s.draw.2.alarms.length := by simpa using hlt
  refine freeAlarms_length_succ hlt (by simp) ?_ hunclaimed fun b hb => ?_
  · rw [State.alarm_modifyAlarm _ _ _ _ hlt', if_pos rfl]
  · rw [State.alarm_modifyAlarm_other _ _ hb, draw_alarm]

theorem freeDma_length_of_claim {d : Nat} (h : s.claimDma = some (d, t)) : t.freeDma.length + 1 = s.freeDma.length := by
  obtain ⟨hfree, -, rfl⟩ := State.claimDma_some h
  obtain ⟨hlt, hunclaimed⟩ := (State.mem_freeDma s d).mp hfree
  have hlt' : d < s.draw.2.dma.length := by simpa using hlt
  refine freeDma_length_succ hlt (by simp) ?_ hunclaimed fun e he => ?_
  · rw [State.dmaChan_modifyDma _ _ _ _ hlt', if_pos rfl]
  · rw [State.dmaChan_modifyDma_other _ _ he, draw_dmaChan]

theorem freeAlarms_length_of_unclaim {a : Nat} (h : alarmTaken s a) :
    s.freeAlarms.length + 1 = (s.unclaimAlarm a).freeAlarms.length := by
  obtain ⟨hlt, hclaimed⟩ := h
  refine freeAlarms_length_succ (by simpa using hlt) (by simp) hclaimed ?_ fun b hb =>
    State.alarm_modifyAlarm_other s _ hb
  rw [State.unclaimAlarm, State.alarm_modifyAlarm _ _ _ _ hlt, if_pos rfl]

theorem freeDma_length_of_release {d : Nat} (h : dmaTaken s d) :
    s.freeDma.length + 1 = (s.releaseDma d).freeDma.length := by
  obtain ⟨hlt, hclaimed⟩ := h
  refine freeDma_length_succ (by simpa using hlt) (by simp) hclaimed ?_ fun e he =>
    State.dmaChan_modifyDma_other s _ he
  rw [State.releaseDma, State.dmaChan_modifyDma _ _ _ _ hlt, if_pos rfl]

end

/-! ## What every step but a reset keeps -/

/-- From `s` to `t` free and held slots together stay as many, and free and held data movers too. -/
structure Conserves (s t : State) : Prop where
  alarms : t.freeAlarms.length + (heldAlarms t).length = s.freeAlarms.length + (heldAlarms s).length
  dma : t.freeDma.length + (heldDma t).length = s.freeDma.length + (heldDma s).length

theorem Conserves.supply {s t : State} (h : Conserves s t) (hs : Supply s) : Supply t :=
  ⟨h.alarms ▸ hs.alarms, h.dma ▸ hs.dma⟩

theorem freeAlarms_of_claimView {s t : State} (h : claimView t = claimView s) : t.freeAlarms = s.freeAlarms := by
  have seen (u : State) : (claimView u).freeAlarms = u.freeAlarms := by
    have length : (claimView u).alarms.length = u.alarms.length := by simp [claimView]
    simp only [State.freeAlarms, length, alarm_claimView, claimOfAlarm]
  rw [← seen t, h, seen s]

theorem freeDma_of_claimView {s t : State} (h : claimView t = claimView s) : t.freeDma = s.freeDma := by
  have seen (u : State) : (claimView u).freeDma = u.freeDma := by
    have length : (claimView u).dma.length = u.dma.length := by simp [claimView]
    simp only [State.freeDma, length, dmaChan_claimView, claimOfDma]
  rw [← seen t, h, seen s]

section
variable {s t : State}

/-- The claim bits stay, and everyone holds what it held. -/
theorem Conserves.of_held (freeAlarms : t.freeAlarms = s.freeAlarms) (freeDma : t.freeDma = s.freeDma)
    (alarms : ∀ u, holdsAlarm t u = holdsAlarm s u) (dma : ∀ c, dmaHeld t c = dmaHeld s c) : Conserves s t :=
  ⟨by rw [freeAlarms, heldAlarms_length_congr alarms], by rw [freeDma, heldDma_length_congr dma]⟩

/-- Nothing is done that a claim is read from, but perhaps a move of the main thread that no one's holding depends on. -/
theorem Conserves.of_view {fs : List Frame} (hview : claimView t = claimView (s.at fs))
    (alarms : ∀ u, holdsAlarm (s.at fs) u = holdsAlarm s u) (dma : ∀ c, dmaHeld (s.at fs) c = dmaHeld s c) :
    Conserves s t := by
  have heldAlarms : heldAlarms t = heldAlarms (s.at fs) := by
    have x := congrArg Safety.heldAlarms hview
    exact x
  have heldDma : heldDma t = heldDma (s.at fs) := by
    have x := congrArg Safety.heldDma hview
    exact x
  refine ⟨?_, ?_⟩
  · rw [freeAlarms_of_claimView hview, heldAlarms, heldAlarms_length_congr alarms]
    rfl
  · rw [freeDma_of_claimView hview, heldDma, heldDma_length_congr dma]
    rfl

/-- A move between positions at which the active contexts hold. -/
theorem Conserves.move {fs : List Frame} (hview : claimView t = claimView (s.at fs)) (here : heldByActive s.mpc = true)
    (there : heldByActive fs = true) : Conserves s t :=
  .of_view hview (fun u => (holdsAlarm_of_heldByActive (s := s.at fs) there u).trans (holdsAlarm_of_heldByActive here u).symm)
    fun c => (dmaHeld_of_heldByActive (s := s.at fs) there c).trans (dmaHeld_of_heldByActive here c).symm

theorem Conserves.same_view (hview : claimView t = claimView s) : Conserves s t :=
  .of_view (fs := s.mpc) hview (fun _ => rfl) fun _ => rfl

theorem Conserves.symm (h : Conserves s t) : Conserves t s := ⟨h.alarms.symm, h.dma.symm⟩

/-- One user holds a slot that was free. Read backwards, it releases the slot. -/
theorem Conserves.claimsAlarm (u : User) (free : t.freeAlarms.length + 1 = s.freeAlarms.length)
    (unheld : holdsAlarm s u = false) (held : holdsAlarm t u = true)
    (others : ∀ v, v ≠ u → holdsAlarm t v = holdsAlarm s v) (freeDma : t.freeDma = s.freeDma)
    (dma : ∀ c, dmaHeld t c = dmaHeld s c) : Conserves s t := by
  have more := heldAlarms_length_succ unheld held others
  exact ⟨by omega, by rw [freeDma, heldDma_length_congr dma]⟩

/-- One channel holds a data mover that was free. -/
theorem Conserves.claimsDma (c : Ch) (free : t.freeDma.length + 1 = s.freeDma.length) (unheld : dmaHeld s c = false)
    (held : dmaHeld t c = true) (others : ∀ e, e ≠ c → dmaHeld t e = dmaHeld s e)
    (freeAlarms : t.freeAlarms = s.freeAlarms) (alarms : ∀ u, holdsAlarm t u = holdsAlarm s u) : Conserves s t := by
  have more := heldDma_length_succ unheld held others
  exact ⟨by rw [freeAlarms, heldAlarms_length_congr alarms], by omega⟩

theorem Conserves.trans {u : State} (h : Conserves s t) (k : Conserves t u) : Conserves s u :=
  ⟨k.alarms.trans h.alarms, k.dma.trans h.dma⟩

theorem raise_conserves (s : State) (e : FaultCode) : Ensures (Conserves s) (s.raise e) :=
  .next (.same_view (t := s.withFault e) rfl)

theorem Attends.conserves (h : Attends s t) : Conserves s t :=
  .same_view (by rw [← claimView_mainView t, h.view, claimView_mainView])

theorem Handles.conserves {i : Instr} (h : Handles i s.mpc s t) (hcallers : callersOnly s.mpc = true) :
    Conserves s t :=
  have here : started s s.mpc = true := started_of_callersOnly hcallers
  .move (claimView_of_hardwareView h.touches.hardware) (heldByActive_of_started here)
    (heldByActive_of_started (h.position hcallers))

end

/-! ## The listings, label by label -/

/-- What is held is claimed (R56). -/
theorem SingleClaim.alarm_taken {s : State} (h : SingleClaim s) {u : User} (held : holdsAlarm s u = true) :
    alarmTaken s (alarmId s u) := by
  obtain ⟨alarms, -⟩ := (singleClaim_iff s).mp h
  exact alarms.taken u held

theorem SingleClaim.dma_taken {s : State} (h : SingleClaim s) {c : Ch} (held : dmaHeld s c = true) :
    dmaTaken s (dmaId s c) := by
  obtain ⟨-, dma, -⟩ := (singleClaim_iff s).mp h
  exact dma.taken c held

section
variable {c : Ch} {fs : List Frame} {s t : State}

/-- The listing goes on between labels at which the active contexts hold. -/
theorem Conserves.goesOn {g : Frame} (here : heldByActive s.mpc = true)
    (hview : claimView t = claimView s := by rfl) (there : heldByActive (g :: fs) = true := by rfl) :
    Ensures (Conserves s) (.next (t.at (g :: fs))) :=
  .next (.move (claimView_at hview _) here there)

/-! ### `CH.SETUP` (R154) -/

/-- `s1a`, `s1b` of an active context. -/
theorem setupAgain_conserves {l l' : SetupAt} (hmpc : s.mpc = .chSetup c l :: fs) (hactive : (s.ch.get c).active = true) :
    Conserves s (s.at (.chSetup c l' :: fs)) := by
  refine .of_view rfl ?_ fun e => ?_
  · rintro (e | _)
    · by_cases hce : c = e <;> simp_all [holdsAlarm, alarmHeld]
    · simp [holdsAlarm, ppsHeld, hmpc]
  · by_cases hce : c = e <;> simp_all [dmaHeld]

/-- A context that is given its ids is as active as before. -/
theorem active_set {x : Pair Channel} {v : Channel} (hv : v.active = (x.get c).active) (e : Ch) :
    ((x.set c v).get e).active = (x.get e).active := by
  by_cases hec : e = c
  · rw [hec, Pair.get_set_same, hv]
  · rw [Pair.get_set_other _ _ hec]

/-- `s1a` claims a data mover for the context. -/
theorem setupDma_conserves (hmpc : s.mpc = .chSetup c .s1a :: fs) (hinactive : (s.ch.get c).active = false) {d : Nat}
    (hclaim : s.claimDma = some (d, t)) :
    Conserves s ((t.setCh c { t.ch.get c with dma := d }).at (.chSetup c .s1b :: fs)) := by
  obtain ⟨alarms, ch, pps⟩ := claimDma_keeps hclaim
  have active := active_set (c := c) (x := s.ch) (v := { s.ch.get c with dma := d }) rfl
  have free := freeDma_length_of_claim hclaim
  refine .claimsDma c free ?unheld ?held (fun e hec => ?others) ?freeAlarms ?alarms
  case unheld => simp [dmaHeld, hmpc, hinactive]
  case held => simp [dmaHeld]
  case others => simp [dmaHeld, hmpc, ch, active, hec.symm]
  case freeAlarms => simp [State.freeAlarms, State.alarm, alarms]
  case alarms =>
    rintro (e | _)
    · simp only [holdsAlarm, alarmHeld, State.at_mpc, State.at_ch, State.setCh_ch, hmpc, ch, active]
      rfl
    · simp [holdsAlarm, ppsHeld, hmpc, pps]

/-- `s1b` claims an alarm slot for the context. -/
theorem setupAlarm_conserves (hmpc : s.mpc = .chSetup c .s1b :: fs) (hinactive : (s.ch.get c).active = false) {a : Nat}
    (hclaim : s.claimAlarm = some (a, t)) :
    Conserves s ((t.setCh c { t.ch.get c with alarm := a, irq := s.irqOf a }).at (.chSetup c .s1c :: fs)) := by
  obtain ⟨dma, ch, pps⟩ := claimAlarm_keeps hclaim
  have active := active_set (c := c) (x := s.ch) (v := { s.ch.get c with alarm := a, irq := s.irqOf a }) rfl
  have free := freeAlarms_length_of_claim hclaim
  refine .claimsAlarm (.channel c) free ?unheld ?held ?others ?freeDma fun e => ?dma
  case unheld => simp [holdsAlarm, alarmHeld, hmpc, hinactive]
  case held => simp [holdsAlarm, alarmHeld]
  case others =>
    rintro (e | _) hne
    · have hce : ¬c = e := fun he => hne (by rw [he])
      simp [holdsAlarm, alarmHeld, hmpc, ch, active, hce]
    · simp [holdsAlarm, ppsHeld, hmpc, pps]
  case freeDma => simp [State.freeDma, State.dmaChan, dma]
  case dma => simp [dmaHeld, hmpc, ch, active]

/-- `s1c` activates the context, which holds both ids by now. -/
theorem setupActive_conserves (hmpc : s.mpc = .chSetup c .s1c :: fs) :
    Conserves s ((s.setCh c { s.ch.get c with active := true }).at (.chSetup c .s2a :: fs)) := by
  refine .of_held rfl rfl ?_ fun e => ?_
  · rintro (e | _)
    · by_cases hce : e = c
      · simp [holdsAlarm, alarmHeld, hmpc, hce]
      · simp [holdsAlarm, alarmHeld, hmpc, Pair.get_set, hce, Ne.symm hce]
    · simp [holdsAlarm, ppsHeld, hmpc]
  · by_cases hce : e = c
    · simp [dmaHeld, hmpc, hce]
    · simp [dmaHeld, hmpc, Pair.get_set, hce, Ne.symm hce]

theorem setupAt_conserves {l : SetupAt} (hmpc : s.mpc = .chSetup c l :: fs) (returned : heldByActive fs = true) :
    Ensures (Conserves s) (setupAt c fs l s) := by
  cases l with
  | s1a =>
    unfold setupAt
    dsimp only
    split
    next hactive => exact .next (setupAgain_conserves hmpc hactive)
    next hinactive =>
      split
      next => exact raise_conserves s _
      next hclaim => exact .next (setupDma_conserves hmpc (Bool.eq_false_iff.mpr hinactive) hclaim)
  | s1b =>
    unfold setupAt
    dsimp only
    split
    next hactive => exact .next (setupAgain_conserves hmpc hactive)
    next hinactive =>
      split
      next => exact raise_conserves s _
      next hclaim => exact .next (setupAlarm_conserves hmpc (Bool.eq_false_iff.mpr hinactive) hclaim)
  | s1c => exact .next (setupActive_conserves hmpc)
  | s2a => exact Conserves.goesOn (by rw [hmpc]; rfl) (claimView_setupUart s c)
  | s3c => exact Conserves.goesOn (by rw [hmpc]; rfl) (by cases c <;> rfl)
  | s4a | s4b => exact Conserves.goesOn (by rw [hmpc]; rfl) (claimView_modifyLine ..)
  | s5b d => exact .next (.move (claimView_at (claimView_arm ..) fs) (by rw [hmpc]; rfl) returned)
  | s0 | s2b | s3a | s3b | s5a => exact Conserves.goesOn (by rw [hmpc]; rfl)

/-! ### `CH.TEARDOWN` (R156) -/

/-- `t4` releases the alarm slot. -/
theorem teardownAlarm_conserves (h : SingleClaim s) (hmpc : s.mpc = .chTeardown c .t4 :: fs)
    (hactive : (s.ch.get c).active = true) :
    Conserves s ((s.unclaimAlarm (s.ch.get c).alarm).at (.chTeardown c .t5 :: fs)) := by
  have held : holdsAlarm s (.channel c) = true := by simpa [holdsAlarm, alarmHeld, hmpc] using hactive
  have free := freeAlarms_length_of_unclaim (h.alarm_taken held)
  refine .symm (.claimsAlarm (.channel c) free ?unheld held ?others rfl fun e => ?dma)
  case unheld => simp [holdsAlarm, alarmHeld]
  case others =>
    rintro (e | _) hne
    · have hce : ¬c = e := fun he => hne (by rw [he])
      simp [holdsAlarm, alarmHeld, hmpc, hce]
    · simp [holdsAlarm, ppsHeld, hmpc]
  case dma =>
    simp only [dmaHeld, hmpc]
    rfl

/-- `t6` releases the data mover. -/
theorem teardownDma_conserves (h : SingleClaim s) (hmpc : s.mpc = .chTeardown c .t6 :: fs)
    (hactive : (s.ch.get c).active = true) :
    Conserves s ((s.releaseDma (s.ch.get c).dma).at (.chTeardown c .t7 :: fs)) := by
  have held : dmaHeld s c = true := by simpa [dmaHeld, hmpc] using hactive
  have free := freeDma_length_of_release (h.dma_taken held)
  refine .symm (.claimsDma c free ?unheld held (fun e hec => ?others) rfl ?alarms)
  case unheld => simp [dmaHeld]
  case others => simp [dmaHeld, hmpc, hec.symm]
  case alarms => rintro (e | _) <;> simp [holdsAlarm, alarmHeld, ppsHeld, hmpc]

/-- `t8` deactivates the context, which holds nothing any more. -/
theorem teardownDone_conserves (hmpc : s.mpc = .chTeardown c .t8 :: fs) (returned : heldByActive fs = true) :
    Conserves s ((s.setCh c { s.ch.get c with active := false }).at fs) := by
  generalize hu : (s.setCh c { s.ch.get c with active := false }).at fs = u
  have there : heldByActive u.mpc = true := by rw [← hu]; exact returned
  have hpps : u.pps = s.pps := by rw [← hu]; rfl
  have hch : u.ch = s.ch.set c { s.ch.get c with active := false } := by rw [← hu]; rfl
  refine .of_held (by rw [← hu]; rfl) (by rw [← hu]; rfl) ?_ fun e => ?_
  · intro v
    rw [holdsAlarm_of_heldByActive there]
    rcases v with e | _
    · by_cases hce : e = c
      · simp [isActive, holdsAlarm, alarmHeld, hmpc, hch, hce]
      · simp [isActive, holdsAlarm, alarmHeld, hmpc, hch, Pair.get_set, hce, Ne.symm hce]
    · simp [isActive, holdsAlarm, ppsHeld, hmpc, hpps]
  · rw [dmaHeld_of_heldByActive there]
    by_cases hce : e = c
    · simp [dmaHeld, hmpc, hch, hce]
    · simp [dmaHeld, hmpc, hch, Pair.get_set, hce, Ne.symm hce]

/-- `t5`, `t7`: labels between which a channel holds the same. -/
theorem teardownOn_conserves {l l' : TeardownAt} (hmpc : s.mpc = .chTeardown c l :: fs)
    (alarms : ∀ e, alarmHeld (s.at (.chTeardown c l' :: fs)) e = alarmHeld s e)
    (dma : ∀ e, dmaHeld (s.at (.chTeardown c l' :: fs)) e = dmaHeld s e) (hview : claimView t = claimView s) :
    Conserves s (t.at (.chTeardown c l' :: fs)) := by
  refine .of_view (claimView_at hview _) ?_ dma
  rintro (e | _)
  · exact alarms e
  · simp [holdsAlarm, ppsHeld, hmpc]

theorem teardownAt_conserves (h : SingleClaim s) {l : TeardownAt} (hmpc : s.mpc = .chTeardown c l :: fs)
    (returned : heldByActive fs = true) : Ensures (Conserves s) (teardownAt c fs l s) := by
  have hactive : l = .t0 ∨ (s.ch.get c).active = true := by simpa [teardownActive, hmpc] using h.position
  cases l with
  | t0 =>
    unfold teardownAt
    dsimp only
    split
    next => exact Conserves.goesOn (by rw [hmpc]; rfl)
    next => exact .next (.move (fs := fs) rfl (by rw [hmpc]; rfl) returned)
  | t1 | t2 => exact Conserves.goesOn (by rw [hmpc]; rfl) (claimView_modifyAlarm (by exact fun _ => rfl) s _)
  | t3 => exact Conserves.goesOn (by rw [hmpc]; rfl) (claimView_modifyLine ..)
  | t4 => exact .next (teardownAlarm_conserves h hmpc (by simpa using hactive))
  | t5 =>
    have dma (e : Ch) : dmaHeld (s.at (.chTeardown c .t6 :: fs)) e = dmaHeld s e := by
      simp only [dmaHeld, State.at_mpc, hmpc]
      rfl
    exact .next (teardownOn_conserves hmpc (by simp [alarmHeld, hmpc]) dma (claimView_modifyLine ..))
  | t6 => exact .next (teardownDma_conserves h hmpc (by simpa using hactive))
  | t7 =>
    exact .next (teardownOn_conserves hmpc (by simp [alarmHeld, hmpc]) (by simp [dmaHeld, hmpc])
      (claimView_releaseUart s c))
  | t8 => exact .next (teardownDone_conserves hmpc returned)

/-! ### `PPS.SETUP` and `PPS.TEARDOWN` (R185, R187) -/

/-- `p1a` claims an alarm slot for the pulse. -/
theorem pulseAlarm_conserves (hmpc : s.mpc = .ppsSetup .p1a :: fs) (hinactive : s.pps.active = false) {a : Nat}
    (hclaim : s.claimAlarm = some (a, t)) :
    Conserves s (State.at { t with pps := { t.pps with alarm := a, irq := s.irqOf a } } (.ppsSetup .p1b :: fs)) := by
  obtain ⟨dma, ch, -⟩ := claimAlarm_keeps hclaim
  have free := freeAlarms_length_of_claim hclaim
  refine .claimsAlarm .pulse free ?unheld ?held ?others ?freeDma fun e => ?dma
  case unheld => simp [holdsAlarm, ppsHeld, hmpc, hinactive]
  case held => simp [holdsAlarm, ppsHeld]
  case others =>
    rintro (e | _) hne
    · simp [holdsAlarm, alarmHeld, hmpc, ch]
    · exact absurd rfl hne
  case freeDma => simp [State.freeDma, State.dmaChan, dma]
  case dma => simp [dmaHeld, hmpc, ch]

/-- `p1a` of an active pulse, which holds its slot. -/
theorem pulseAgain_conserves (hmpc : s.mpc = .ppsSetup .p1a :: fs) (hactive : s.pps.active = true) :
    Conserves s (s.at (.ppsSetup .p1b :: fs)) := by
  refine .of_view rfl ?_ fun e => ?_
  · rintro (e | _) <;> simp [holdsAlarm, alarmHeld, ppsHeld, hmpc, hactive]
  · simp [dmaHeld, hmpc]

/-- `p1b` activates the pulse, which holds its slot by now. -/
theorem pulseActive_conserves (hmpc : s.mpc = .ppsSetup .p1b :: fs) :
    Conserves s (State.at { s with pps := { s.pps with active := true } } (.ppsSetup .p2 :: fs)) := by
  refine .of_held rfl rfl ?_ fun e => ?_
  · rintro (e | _) <;> simp [holdsAlarm, alarmHeld, ppsHeld, hmpc]
  · simp [dmaHeld, hmpc]

theorem ppsSetupAt_conserves {l : PpsSetupAt} (hmpc : s.mpc = .ppsSetup l :: fs) (returned : heldByActive fs = true) :
    Ensures (Conserves s) (ppsSetupAt fs l s) := by
  cases l with
  | p1a =>
    unfold ppsSetupAt
    dsimp only
    split
    next hactive => exact .next (pulseAgain_conserves hmpc hactive)
    next hinactive =>
      split
      next => exact raise_conserves s _
      next hclaim => exact .next (pulseAlarm_conserves hmpc (Bool.eq_false_iff.mpr hinactive) hclaim)
  | p1b => exact .next (pulseActive_conserves hmpc)
  | p3a | p3b => exact Conserves.goesOn (by rw [hmpc]; rfl) (claimView_modifyLine ..)
  | p4a => exact Conserves.goesOn (by rw [hmpc]; rfl) (claimView_setLevel s _)
  | p4b d => exact .next (.move (claimView_at (claimView_arm ..) fs) (by rw [hmpc]; rfl) returned)
  | p0 | p2 => exact Conserves.goesOn (by rw [hmpc]; rfl)

/-- `r4` releases the pulse's alarm slot. -/
theorem pulseRelease_conserves (h : SingleClaim s) (hmpc : s.mpc = .ppsTeardown .r4 :: fs)
    (hactive : s.pps.active = true) :
    Conserves s ((s.unclaimAlarm s.pps.alarm).at (.ppsTeardown .r5 :: fs)) := by
  have held : holdsAlarm s .pulse = true := by simpa [holdsAlarm, ppsHeld, hmpc] using hactive
  have free := freeAlarms_length_of_unclaim (h.alarm_taken held)
  refine .symm (.claimsAlarm .pulse free ?unheld held ?others rfl fun e => ?dma)
  case unheld => simp [holdsAlarm, ppsHeld]
  case others =>
    rintro (e | _) hne
    · simp [holdsAlarm, alarmHeld, hmpc]
    · exact absurd rfl hne
  case dma => simp [dmaHeld, hmpc]

/-- `r5`, `r6`: labels at which the pulse holds nothing. -/
theorem pulseOn_conserves {l l' : PpsTeardownAt} (hmpc : s.mpc = .ppsTeardown l :: fs)
    (pulse : ppsHeld (s.at (.ppsTeardown l' :: fs)) = ppsHeld s) (hview : claimView t = claimView s) :
    Conserves s (t.at (.ppsTeardown l' :: fs)) := by
  refine .of_view (claimView_at hview _) ?_ (by simp [dmaHeld, hmpc])
  rintro (e | _)
  · simp [holdsAlarm, alarmHeld, hmpc]
  · exact pulse

/-- `r7` deactivates the pulse, which holds nothing any more. -/
theorem pulseInactive_conserves (hmpc : s.mpc = .ppsTeardown .r7 :: fs) (returned : heldByActive fs = true) :
    Conserves s (State.at { s with pps := { s.pps with active := false } } fs) := by
  generalize hu : State.at { s with pps := { s.pps with active := false } } fs = u
  have there : heldByActive u.mpc = true := by rw [← hu]; exact returned
  have hch : u.ch = s.ch := by rw [← hu]; rfl
  have hpps : u.pps = { s.pps with active := false } := by rw [← hu]; rfl
  refine .of_held (by rw [← hu]; rfl) (by rw [← hu]; rfl) ?_ fun e => ?_
  · intro v
    rw [holdsAlarm_of_heldByActive there]
    rcases v with e | _
    · simp [isActive, holdsAlarm, alarmHeld, hmpc, hch]
    · simp [isActive, holdsAlarm, ppsHeld, hmpc, hpps]
  · rw [dmaHeld_of_heldByActive there]
    simp [dmaHeld, hmpc, hch]

theorem ppsTeardownAt_conserves (h : SingleClaim s) {l : PpsTeardownAt} (hmpc : s.mpc = .ppsTeardown l :: fs)
    (returned : heldByActive fs = true) : Ensures (Conserves s) (ppsTeardownAt fs l s) := by
  have hactive : l = .r0 ∨ s.pps.active = true := by simpa [teardownActive, hmpc] using h.position
  cases l with
  | r0 =>
    unfold ppsTeardownAt
    dsimp only
    split
    next => exact Conserves.goesOn (by rw [hmpc]; rfl)
    next => exact .next (.move (fs := fs) rfl (by rw [hmpc]; rfl) returned)
  | r1 | r2 => exact Conserves.goesOn (by rw [hmpc]; rfl) (claimView_modifyAlarm (by exact fun _ => rfl) s _)
  | r3 => exact Conserves.goesOn (by rw [hmpc]; rfl) (claimView_modifyLine ..)
  | r4 => exact .next (pulseRelease_conserves h hmpc (by simpa using hactive))
  | r5 => exact .next (pulseOn_conserves hmpc (by simp [ppsHeld, hmpc]) (claimView_modifyLine ..))
  | r6 => exact .next (pulseOn_conserves hmpc (by simp [ppsHeld, hmpc]) rfl)
  | r7 => exact .next (pulseInactive_conserves hmpc returned)

end

/-! ## Every step -/

section
variable {s : State}

theorem exec_conserves (hcallers : callersOnly s.mpc = true) (i : Instr) : Ensures (Conserves s) (exec i s) := by
  cases hi : isAttendance i with
  | true => exact (exec_attends hi s).mono fun _ => Attends.conserves
  | false => exact (exec_handles_of_callers hi hcallers).mono fun _ handles => handles.conserves hcallers

theorem mainStep_conserves (h : SingleClaim s) : Ensures (Conserves s) (mainStep s) := by
  cases hmpc : s.mpc with
  | nil =>
    unfold mainStep
    simp only [hmpc]
    split
    · exact .next (.same_view rfl)
    · exact exec_conserves (by simp [hmpc, callersOnly]) .boot
  | cons f fs =>
    have below : callersOnly fs = true := h.callersOnly_of_leaf hmpc
    obtain ⟨returned, -, -⟩ := returned_of_callersOnly (s := s) below
    cases f with
    | selected i =>
      unfold mainStep
      simp only [hmpc]
      have moved : Conserves s (s.at fs) := .move rfl (by rw [hmpc]; rfl) returned
      exact (exec_conserves (s := s.at fs) below i).mono fun _ => moved.trans
    | chSetup c l => exact .of_frame hmpc (execChSetup_at hmpc) (setupAt_conserves hmpc returned)
    | chTeardown c l => exact .of_frame hmpc (execChTeardown_at hmpc) (teardownAt_conserves h hmpc returned)
    | ppsSetup l => exact .of_frame hmpc (execPpsSetup_at hmpc) (ppsSetupAt_conserves hmpc returned)
    | ppsTeardown l => exact .of_frame hmpc (execPpsTeardown_at hmpc) (ppsTeardownAt_conserves h hmpc returned)
    | boot | auxSwitch | auxRebaud | wrCounter | wrFreq | wrAuxfn | wrAuxbaud | poll =>
      rw [mainStep_of_frame hmpc (by simp)]
      exact exec_conserves (by simpa [hmpc, callersOnly, Frame.isLeaf] using below) _

theorem takeCommand_conserves (w : CmdWord) : Ensures (Conserves s) (takeCommand w s) := by
  unfold takeCommand
  split
  next hidle =>
    split
    next => exact exec_conserves (by simp [hidle, callersOnly]) _
    next => exact .next (.same_view rfl)
    next => exact .next (.same_view rfl)
    next => exact .refused _
  next => exact .next (.same_view rfl)

/-! ## What a claim finds -/

/-- A listing in progress is the frame on top. -/
theorem SingleClaim.top_of_leaf (h : SingleClaim s) {f : Frame} (hleaf : Frame.isLeaf f = true) (hf : f ∈ s.mpc) :
    ∃ fs, s.mpc = f :: fs := by
  cases hmpc : s.mpc with
  | nil =>
    rw [hmpc] at hf
    cases hf
  | cons g fs =>
    rw [hmpc] at hf
    rcases List.mem_cons.mp hf with rfl | hbelow
    · exact ⟨fs, rfl⟩
    · have caller := List.all_eq_true.mp (h.callersOnly_of_leaf hmpc) f hbelow
      rw [hleaf] at caller
      cases caller

/-- A setup of the pulse in progress has built what its label says. -/
theorem Mode.setup_pulse {l : PpsSetupAt} {fs : List Frame} (h : Mode s) (hmpc : s.mpc = .ppsSetup l :: fs) :
    builtOf s = Built.ppsSetup l := by
  unfold Mode modeAt at h
  rw [hmpc] at h
  split at h <;> simp_all

/-- A channel that holds no data mover leaves one to be held at most. -/
theorem heldDma_length_le_one {c : Ch} (h : dmaHeld s c = false) : (heldDma s).length ≤ 1 := by
  unfold heldDma
  cases c with
  | pri => cases ha : dmaHeld s .aux <;> simp [h]
  | aux => cases hp : dmaHeld s .pri <;> simp [h]

/-- Of the three users of slots at most one holds any, if the primary channel holds none and the auxiliary port has one user
at most, or if the auxiliary port has none. -/
theorem heldAlarms_length_le_one
    (h : (alarmHeld s .pri = false ∧ (alarmHeld s .aux = false ∨ ppsHeld s = false)) ∨
      (alarmHeld s .aux = false ∧ ppsHeld s = false)) : (heldAlarms s).length ≤ 1 := by
  unfold heldAlarms
  rcases h with ⟨pri, aux | pulse⟩ | ⟨aux, pulse⟩
  · cases hp : ppsHeld s <;> simp [pri, aux]
  · cases ha : alarmHeld s .aux <;> simp [pri, pulse]
  · cases hp : alarmHeld s .pri <;> simp [aux, pulse]

/-- `F_NO_DMA` has no cause: the channel at `s1a` holds no data mover, so of two one is free. -/
theorem Supply.dma_free (hs : Supply s) (hclaim : SingleClaim s) : ¬faultCause s .noDma := by
  rintro ⟨hfree, c, hframe, hinactive⟩
  obtain ⟨fs, hmpc⟩ := hclaim.top_of_leaf rfl hframe
  have held := heldDma_length_le_one (s := s) (c := c) (by simp [dmaHeld, hmpc, hinactive])
  have supply := hs.dma
  rw [hfree, List.length_nil] at supply
  omega

/-- At a label that claims a slot at most one slot is held: the claimer holds none, and the auxiliary port has one user. -/
theorem Mode.heldAlarms_of_claim (hmode : Mode s) (hclaim : SingleClaim s)
    (h : (∃ c, .chSetup c .s1b ∈ s.mpc ∧ (s.ch.get c).active = false) ∨ .ppsSetup .p1a ∈ s.mpc ∧ s.pps.active = false) :
    (heldAlarms s).length ≤ 1 := by
  rcases h with ⟨c, hframe, hinactive⟩ | ⟨hframe, hinactive⟩
  · obtain ⟨fs, hmpc⟩ := hclaim.top_of_leaf rfl hframe
    have unheld : alarmHeld s c = false := by simp [alarmHeld, hmpc, hinactive]
    cases c with
    | pri =>
      have single : s.ch.aux.active = false ∨ s.pps.active = false := by
        simpa only [builtOf, not_and_or, Bool.not_eq_true] using hmode.single.users
      refine heldAlarms_length_le_one (.inl ⟨unheld, single.imp (fun aux => ?_) fun pulse => ?_⟩)
      · simp [alarmHeld, hmpc, aux]
      · simp [ppsHeld, hmpc, pulse]
    | aux =>
      obtain ⟨-, pulse, -⟩ : _ ∧ s.pps.active = false ∧ _ := (builtOf_eq_iff _).mp (hmode.setup_aux hmpc)
      exact heldAlarms_length_le_one (.inr ⟨unheld, by simp [ppsHeld, hmpc, pulse]⟩)
  · obtain ⟨fs, hmpc⟩ := hclaim.top_of_leaf rfl hframe
    obtain ⟨aux, -⟩ : s.ch.aux.active = false ∧ _ := (builtOf_eq_iff _).mp (hmode.setup_pulse hmpc)
    exact heldAlarms_length_le_one (.inr ⟨by simp [alarmHeld, hmpc, aux], by simp [ppsHeld, hmpc, hinactive]⟩)

/-- `F_NO_ALARM` has no cause. -/
theorem Supply.alarm_free (hs : Supply s) (hclaim : SingleClaim s) (hmode : Mode s) : ¬faultCause s .noAlarm := by
  rintro ⟨hfree, hlabel⟩
  have held := hmode.heldAlarms_of_claim hclaim hlabel
  have supply := hs.alarms
  rw [hfree, List.length_nil] at supply
  omega

end

end Sys2Proof.Safety

open Sys2Proof Sys2Proof.Machine Sys2Proof.Safety

/-- Settles O20: every step but a reset conserves what is free or held, and with two of each the causes of the two faults
never hold. -/
theorem twoOfEachNeverExhausted : Obligations.TwoOfEachNeverExhausted := by
  intro s t hclaim hmultiplexed hs hstep
  have view : claimView s.nextAction.2 = claimView s := by rw [State.nextAction_snd]; rfl
  have taken : SingleClaim s.nextAction.2 := hclaim.of_view view
  have mode : Mode s.nextAction.2 := hmultiplexed.taken
  have supply : Supply s.nextAction.2 := (Conserves.same_view view).supply hs
  refine ⟨fun hfault => ?noAlarm, fun hfault => ?noDma, fun hreset => ?kept⟩
  case noAlarm => exact supply.alarm_free taken mode (faultCause_of_perform hstep hfault)
  case noDma => exact supply.dma_free taken (faultCause_of_perform hstep hfault)
  case kept =>
    exact (perform_of_agents ((mainStep_conserves taken).mono fun _ ht => ht.supply supply)
      (fun w => (takeCommand_conserves w).mono fun _ ht => ht.supply supply)
      (fun _ _ ht _ => ht.conserves.supply supply) fun d hd => absurd hd (hreset d)).of_next hstep

end

section
/-!
PROOF. O43: `BOOT` (R291). Its second label performs the first micro-op of `CH.SETUP(PRI)` (log entry 5), so the whole is
the setup as a whole (O50) after one micro-op.
-/

namespace Sys2Proof.Safety

open Sys2Proof Sys2Proof.Machine

section
variable {s : State} {fs : List Frame}

theorem exec_boot_idle (h : s.fault = none) (hmpc : s.mpc = []) :
    exec .boot s = .next { s with mpc := [.boot], booted := true, hist := s.hist ++ [.tag 0x40] } := by
  change execBoot s = _
  rw [execBoot, State.running_of_none h, hmpc]
  rfl

theorem exec_boot_at (h : s.fault = none) (hmpc : s.mpc = .boot :: fs) :
    exec .boot s = .next { s with mpc := .chSetup .pri .s1a :: fs, hist := s.hist ++ [.tag 0x10] } :=
  (execBoot_at hmpc).trans ((State.running_of_none h _).trans setupAt_s0)

/-- A run from `b1` is the called setup's run from its first label. -/
theorem mainRun_boot_setup (n : Nat) (h : s.fault = none) (hmpc : s.mpc = .boot :: fs) :
    mainRun (n + 1) s = mainRun (n + 1) { s with mpc := .chSetup .pri .s0 :: fs } := by
  refine (mainRun_succ n h hmpc (by simp) (exec_boot_at h hmpc)).trans (Eq.symm ?_)
  exact mainRun_chSetup (s := { s with mpc := .chSetup .pri .s0 :: fs }) h rfl setupAt_s0

end

/-- The state in which `BOOT` calls the setup. -/
def bootCalled (s : State) : State :=
  { s with mpc := [.chSetup .pri .s0], booted := true, hist := s.hist ++ [.tag 0x40] }

theorem operation_boot {s : State} (n : Nat) (h : s.fault = none) (hmpc : s.mpc = []) :
    operation .boot (n + 1) s = mainRun (n + 1) (bootCalled s) := by
  refine (operation_of_next _ (exec_boot_idle h hmpc)).trans ?_
  exact mainRun_boot_setup n h rfl

end Sys2Proof.Safety

open Sys2Proof Sys2Proof.Machine Sys2Proof.Safety

/-- Settles O43: the setup of the primary channel (O50) on the state in which it is called. -/
theorem bootBuildsThePrimaryChannel : Obligations.BootBuildsThePrimaryChannel := by
  refine ⟨fun s fs h => ⟨exec_boot_idle h, exec_boot_at h⟩, fun s h hmpc hinactive hdma halarms => ?_⟩
  obtain ⟨d, a, t, hd, ha, builds, ht, zero, one, others⟩ :=
    channelSetupWhole (bootCalled s) .pri [] h rfl hinactive hdma halarms
  have field {β : Type} (p : State → β) := congrArg p ht
  have logged : t.hist = s.hist ++ [.tag 0x40] ++ [.tag 0x10] := field State.hist
  have uart : t.uart.pri =
      if s.uart.pri.init then s.uart.pri else { init := true, baud := s.params.primaryBaud, fifo := [] } := by
    refine (field (·.uart.pri)).trans ?_
    exact apply_ite Pair.pri ..
  exact ⟨d, a, t, hd, ha, (operation_boot 12 h hmpc).trans builds, field State.mpc, field State.booted,
    (field State.fault).trans h, by simp [logged], field (·.ch.pri), field (·.ch.aux), field State.regs,
    field State.auxState, uart, field (·.pin.pri.fn),
    alarm_of_modified (field State.alarms) ((State.mem_freeAlarms _ _).mp ha).1,
    dmaChan_of_modified (field State.dma) ((State.mem_freeDma _ _).mp hd).1, zero, one,
    fun sl n hn => others .aux sl n nofun hn⟩

end
